-- ==== Sys2Proof/Word.lean ====
section
/-! DEFINITION. The machine's plain bit widths: the 16-bit word, the 4-bit register number, the 8-bit
micro-address and the 44-bit control word. -/

namespace Sys2Proof

/-- A general register, latch, memory cell or machine word: a 16-bit vector (R8). -/
abbrev Word := BitVec 16

/-- A register number, the 4-bit field of the opcode word that names one of `x[0]` to `x[15]` (R21). -/
abbrev Reg := BitVec 4

/-- A micro-address, an index into the control store (R32). -/
abbrev MicroAddr := BitVec 8

/-- A control word, 44 bits wide in this spec (R151, 90_conflicts.md C1). -/
abbrev ControlWord := BitVec 44

end Sys2Proof
end

