-- ==== Sys2Proof/Syntax.lean ====
section
/-! DEFINITION. The instruction set as syntax: groups, addressing modes, operands, the opcode sets of the
four groups and `Instr`, one constructor for each of the 50 rows of spec/opcode_table.json. -/

namespace Sys2Proof

/-- The four opcode groups (R91). -/
inductive Group where
  | twoOp | oneOp | branch | other
deriving DecidableEq, Repr

/-- The four addressing modes, in the order of their codes (R92). -/
inductive AddrMode where
  | immediate | direct | indirect | indexed
deriving DecidableEq, Repr

/-- An operand: its mode with what that mode carries (R93, R98). `immediate` keeps the register field's
bits, which no rule reads but the encoding carries: the encoder writes them as given for a TWO_OP source
(R110) and as 0 for a ONE_OP operand (R109). -/
inductive Operand where
  /-- the value is the extra word; `field` is the unread register field -/
  | immediate (field : Reg) (value : Word)
  /-- the register itself -/
  | direct (r : Reg)
  /-- the memory cell whose address the register holds -/
  | indirect (r : Reg)
  /-- the memory cell at register plus displacement, modulo 65536 -/
  | indexed (r : Reg) (disp : Word)
deriving DecidableEq, Repr

/-- The TWO_OP opcodes (R102). -/
inductive TwoOp where
  | mov | add | sub | cmp | and | or | xor
deriving DecidableEq, Repr

/-- The ONE_OP opcodes (R103). -/
inductive OneOp where
  | clr | neg | inc | dec | asl | asr | lsr | rol | ror | rlc | rrc | jmp | call | push | pop
deriving DecidableEq, Repr

/-- The BRANCH opcodes (R104). -/
inductive BranchOp where
  | br | bne | beq | bpl | bmi | bcs | bcc | bvs | bvc
deriving DecidableEq, Repr

/-- The OTHER opcodes (R105). -/
inductive OtherOp where
  | clc | clv | clz | cls | ccc | sec | sev | sez | ses | scc | nop | ret | reti | halt | wait
  | pushpc | poppc | pushflag | popflag
deriving DecidableEq, Repr

/-- An instruction: one constructor per row of the opcode table. A two-operand instruction names its
source first, as the assembly of R131 does. -/
inductive Instr where
  | mov (src dst : Operand)
  | add (src dst : Operand)
  | sub (src dst : Operand)
  | cmp (src dst : Operand)
  | and (src dst : Operand)
  | or (src dst : Operand)
  | xor (src dst : Operand)
  | clr (dst : Operand)
  | neg (dst : Operand)
  | inc (dst : Operand)
  | dec (dst : Operand)
  | asl (dst : Operand)
  | asr (dst : Operand)
  | lsr (dst : Operand)
  | rol (dst : Operand)
  | ror (dst : Operand)
  | rlc (dst : Operand)
  | rrc (dst : Operand)
  | jmp (target : Operand)
  | call (target : Operand)
  | push (src : Operand)
  | pop (dst : Operand)
  | br (offset : BitVec 8)
  | bne (offset : BitVec 8)
  | beq (offset : BitVec 8)
  | bpl (offset : BitVec 8)
  | bmi (offset : BitVec 8)
  | bcs (offset : BitVec 8)
  | bcc (offset : BitVec 8)
  | bvs (offset : BitVec 8)
  | bvc (offset : BitVec 8)
  | clc
  | clv
  | clz
  | cls
  | ccc
  | sec
  | sev
  | sez
  | ses
  | scc
  | nop
  | ret
  | reti
  | halt
  | wait
  | pushpc
  | poppc
  | pushflag
  | popflag
deriving DecidableEq, Repr

/-- An instruction seen through its group: the opcode of the group and the group's operands. -/
inductive Shape where
  | two (op : TwoOp) (src dst : Operand)
  | one (op : OneOp) (dst : Operand)
  | branch (op : BranchOp) (offset : BitVec 8)
  | other (op : OtherOp)
deriving DecidableEq, Repr

end Sys2Proof
end

