-- ==== Sys2Proof/Config.lean ====
section
/-! DEFINITION. The implementation parameters of R6, the values `State.reset` gives the open ones, and the form
of the instruction codes as configuration: opcode table and mode numbering (R3, 93_implementation_defined.md
section 2). Their reference instance is `Codes.reference` of Decode.lean. -/

namespace Sys2Proof

/-- The parameters a run is started with (R6, R471): constant from reset on. -/
structure Params where
  /-- MEM_SIZE, the number of memory cells -/
  memSize : Nat
  /-- STACK_SIZE, the number of cells at the top of memory reserved for the stack -/
  stackSize : Nat
  /-- BR_OFFSET_SIGNED, whether a branch offset is sign-extended -/
  brOffsetSigned : Bool
deriving DecidableEq, Repr

/-- STACK_BASE = MEM_SIZE - STACK_SIZE, the lowest address of the stack region (R61). -/
def Params.stackBase (p : Params) : Nat := p.memSize - p.stackSize

/-- The constraints of R6 on MEM_SIZE and STACK_SIZE for a program of no words:
1 <= STACK_SIZE <= MEM_SIZE <= 65536. -/
abbrev Params.valid (p : Params) : Prop :=
  1 ≤ p.stackSize ∧ p.stackSize ≤ p.memSize ∧ p.memSize ≤ 65536

/-- The treatments of U8: execute a refused addressing mode by the micro-rules, or refuse the program. -/
inductive IllegalModePolicy where
  | follow | refuse
deriving DecidableEq, Repr

/-- One group of an opcode table: its opcodes in the order of their values, which are consecutive integers
from the reference opcode's value on (R101). -/
structure OpcodeRun (α : Type) where
  /-- the value of the group's lowest opcode -/
  base : Nat
  /-- the opcodes, the lowest first -/
  ops : List α
deriving DecidableEq, Repr

/-- The instruction codes as configuration (R3): the opcode table, one run for each group, and the numbering of
the addressing modes, the mode of code `k` at place `k`. -/
structure Codes where
  modes : Vector AddrMode 4
  twoOp : OpcodeRun TwoOp
  oneOp : OpcodeRun OneOp
  branch : OpcodeRun BranchOp
  other : OpcodeRun OtherOp
deriving DecidableEq, Repr

namespace Config

/-- The parameters of `State.reset`. DESIGN CHOICE (log 3), unsafe: MEM_SIZE = 65536, the whole address
space (R60); STACK_SIZE = 8, the value the spec's vectors use (95_test_vectors.md, Conventions).
BR_OFFSET_SIGNED = false is the spec's default (R6, D14). -/
def resetParams : Params := { memSize := 65536, stackSize := 8, brOffsetSigned := false }

/-- TWO_OP_EXTRA_ILLEGAL at its default, the empty set (R6, R112, D6): pairs (modeSrc, modeDst). -/
def twoOpExtraIllegal : List (AddrMode × AddrMode) := []

end Config
end Sys2Proof
end

