-- ==== Sys2Proof/WellFormed.lean ====
section
/-! DEFINITION. Which instructions the encoder accepts: mode legality (R112, R113) and the canonical
register field of a ONE_OP immediate (R109, R124). Ranges of registers, values and offsets are the
operand types' own. -/

namespace Sys2Proof

/-- The addressing mode of an operand. -/
def Operand.mode : Operand → AddrMode
  | .immediate _ _ => .immediate
  | .direct _ => .direct
  | .indirect _ => .indirect
  | .indexed _ _ => .indexed

/-- R112: a mode pair of a two-operand instruction is legal when the destination is not IMMEDIATE and
the pair is not in TWO_OP_EXTRA_ILLEGAL; the pair (IMMEDIATE, DIRECT) is legal whatever that set holds. -/
def legalPair (extra : List (AddrMode × AddrMode)) (modeSrc modeDst : AddrMode) : Bool :=
  modeDst != .immediate
    && ((modeSrc, modeDst) == (.immediate, .direct) || !extra.contains (modeSrc, modeDst))

/-- R113: the ONE_OP opcodes that accept an IMMEDIATE operand. -/
def OneOp.acceptsImmediate : OneOp → Bool
  | .jmp | .call | .push => true
  | .clr | .neg | .inc | .dec | .asl | .asr | .lsr | .rol | .ror | .rlc | .rrc | .pop => false

/-- R109 step 2: a mode of a one-operand instruction is legal unless it is IMMEDIATE outside the
whitelist of R113. -/
def legalMode (op : OneOp) (mode : AddrMode) : Bool :=
  mode != .immediate || op.acceptsImmediate

/-- The instruction's group, opcode and operands. -/
def Instr.shape : Instr → Shape
  | .mov s d => .two .mov s d
  | .add s d => .two .add s d
  | .sub s d => .two .sub s d
  | .cmp s d => .two .cmp s d
  | .and s d => .two .and s d
  | .or s d => .two .or s d
  | .xor s d => .two .xor s d
  | .clr d => .one .clr d
  | .neg d => .one .neg d
  | .inc d => .one .inc d
  | .dec d => .one .dec d
  | .asl d => .one .asl d
  | .asr d => .one .asr d
  | .lsr d => .one .lsr d
  | .rol d => .one .rol d
  | .ror d => .one .ror d
  | .rlc d => .one .rlc d
  | .rrc d => .one .rrc d
  | .jmp d => .one .jmp d
  | .call d => .one .call d
  | .push d => .one .push d
  | .pop d => .one .pop d
  | .br o => .branch .br o
  | .bne o => .branch .bne o
  | .beq o => .branch .beq o
  | .bpl o => .branch .bpl o
  | .bmi o => .branch .bmi o
  | .bcs o => .branch .bcs o
  | .bcc o => .branch .bcc o
  | .bvs o => .branch .bvs o
  | .bvc o => .branch .bvc o
  | .clc => .other .clc
  | .clv => .other .clv
  | .clz => .other .clz
  | .cls => .other .cls
  | .ccc => .other .ccc
  | .sec => .other .sec
  | .sev => .other .sev
  | .sez => .other .sez
  | .ses => .other .ses
  | .scc => .other .scc
  | .nop => .other .nop
  | .ret => .other .ret
  | .reti => .other .reti
  | .halt => .other .halt
  | .wait => .other .wait
  | .pushpc => .other .pushpc
  | .poppc => .other .poppc
  | .pushflag => .other .pushflag
  | .popflag => .other .popflag

/-- Addressing legality of an instruction, the verdict of R124. -/
def Instr.legal (extra : List (AddrMode × AddrMode)) (i : Instr) : Bool :=
  match i.shape with
  | .two _ src dst => legalPair extra src.mode dst.mode
  | .one op dst => legalMode op dst.mode
  | .branch _ _ => true
  | .other _ => true

/-- Whether the instruction is as the encoder writes it: a ONE_OP IMMEDIATE operand has register field 0
(R109, R124). -/
def Instr.canonical (i : Instr) : Bool :=
  match i.shape with
  | .one _ (.immediate field _) => field == 0
  | .one _ (.direct _) => true
  | .one _ (.indirect _) => true
  | .one _ (.indexed _ _) => true
  | .two _ _ _ => true
  | .branch _ _ => true
  | .other _ => true

/-- A well-formed instruction, one the encoder produces, for a given TWO_OP_EXTRA_ILLEGAL. -/
def Instr.wellFormedFor (extra : List (AddrMode × AddrMode)) (i : Instr) : Bool :=
  i.legal extra && i.canonical

/-- A well-formed instruction under the default TWO_OP_EXTRA_ILLEGAL. -/
def Instr.wellFormed (i : Instr) : Bool := i.wellFormedFor Config.twoOpExtraIllegal

end Sys2Proof
end

