-- ==== Sys2Proof/Decode.lean ====
section
/-! DEFINITION. The ISA codec (30_encoding.md): classification, the opcode map, the decoder, and after it
the encoder of an instruction and the four encode functions with their errors. Each takes the opcode table and
the mode numbering as configuration, as R3 asks; the names without `Codes.` are the reference instance's. -/

namespace Sys2Proof

/-! ## Classification (R100) -/

/-- R100: the group of a word, from its leading bits; total. -/
def group (w : Word) : Group :=
  if w.extractLsb' 15 1 = 0 then .twoOp
  else if w.extractLsb' 14 1 = 0 then .oneOp
  else if w.extractLsb' 13 1 = 0 then .branch
  else .other

/-- R100: `opcode(w)`, the value of the opcode field of the word's group. -/
def opcode (w : Word) : Nat :=
  match group w with
  | .twoOp => (w.extractLsb' 12 4).toNat
  | .oneOp => (w.extractLsb' 6 10).toNat
  | .branch => (w.extractLsb' 8 8).toNat
  | .other => w.toNat

/-- R100: the range of opcode values each group declares, lowest and highest. -/
def Group.range : Group → Nat × Nat
  | .twoOp => (0x0, 0x7)
  | .oneOp => (0x200, 0x2FF)
  | .branch => (0xC0, 0xDF)
  | .other => (0xE000, 0xFFFF)

/-- The fields of the opcode word that the Sequencer reads whatever the word's group (R24, R94 to R96). -/
def modeSrcField (w : Word) : BitVec 2 := w.extractLsb' 10 2
/-- Bits 9:6, regSrc (R94). -/
def regSrcField (w : Word) : Reg := w.extractLsb' 6 4
/-- Bits 5:4, modeDst of TWO_OP and mode of ONE_OP (R94, R95). -/
def modeDstField (w : Word) : BitVec 2 := w.extractLsb' 4 2
/-- Bits 3:0, regDst of TWO_OP and reg of ONE_OP (R94, R95). -/
def regDstField (w : Word) : Reg := w.extractLsb' 0 4
/-- Bits 7:0, the branch offset (R96). -/
def offsetField (w : Word) : BitVec 8 := w.extractLsb' 0 8

/-! ## The opcode table and the mode numbering as configuration (R3, R92, R101) -/

/-- The value of an opcode in a run. -/
def OpcodeRun.value {α : Type} [DecidableEq α] (run : OpcodeRun α) (op : α) : Nat :=
  run.base + run.ops.idxOf op

/-- The opcode of a value; `none` where the run has none (R128). -/
def OpcodeRun.named {α : Type} (run : OpcodeRun α) (value : Nat) : Option α :=
  if value < run.base then none else run.ops[value - run.base]?

/-- The code of an addressing mode. -/
def Codes.modeCode (c : Codes) (m : AddrMode) : BitVec 2 := BitVec.ofNat 2 (c.modes.toList.idxOf m)

/-- The addressing mode of a code. -/
def Codes.modeOf (c : Codes) (code : BitVec 2) : AddrMode := c.modes[code.toNat]'code.isLt

/-- Whether `opcode(w)` is in the opcode table of `group(w)` (R121); false on the reserved words of
R128. -/
def Codes.opcodeDefined (c : Codes) (w : Word) : Bool :=
  match group w with
  | .twoOp => (c.twoOp.named (opcode w)).isSome
  | .oneOp => (c.oneOp.named (opcode w)).isSome
  | .branch => (c.branch.named (opcode w)).isSome
  | .other => (c.other.named (opcode w)).isSome

/-! ## The reference instance (R92, R102 to R105) -/

/-- R102: the TWO_OP opcodes in the order of their values, from 0x0. -/
def TwoOp.table : List TwoOp := [.mov, .add, .sub, .cmp, .and, .or, .xor]

/-- R103: the ONE_OP opcodes in the order of their values, from 0x200. -/
def OneOp.table : List OneOp :=
  [.clr, .neg, .inc, .dec, .asl, .asr, .lsr, .rol, .ror, .rlc, .rrc, .jmp, .call, .push, .pop]

/-- R104: the BRANCH opcodes in the order of their values, from 0xC0. -/
def BranchOp.table : List BranchOp := [.br, .bne, .beq, .bpl, .bmi, .bcs, .bcc, .bvs, .bvc]

/-- R105: the OTHER opcodes in the order of their values, from 0xE000. -/
def OtherOp.table : List OtherOp :=
  [.clc, .clv, .clz, .cls, .ccc, .sec, .sev, .sez, .ses, .scc, .nop, .ret, .reti, .halt, .wait,
   .pushpc, .poppc, .pushflag, .popflag]

/-- The reference opcode table (R102 to R105) and mode numbering (R92). -/
def Codes.reference : Codes where
  modes := #v[.immediate, .direct, .indirect, .indexed]
  twoOp := { base := 0x0, ops := TwoOp.table }
  oneOp := { base := 0x200, ops := OneOp.table }
  branch := { base := 0xC0, ops := BranchOp.table }
  other := { base := 0xE000, ops := OtherOp.table }

/-- R92: the code of an addressing mode in the reference numbering. -/
def AddrMode.code (m : AddrMode) : BitVec 2 := Codes.reference.modeCode m

/-- R92: the addressing mode of a code in the reference numbering. -/
def AddrMode.ofCode (code : BitVec 2) : AddrMode := Codes.reference.modeOf code

/-- R102: the value of a TWO_OP opcode in the reference table. -/
def TwoOp.value (op : TwoOp) : Nat := Codes.reference.twoOp.value op

/-- R103: the value of a ONE_OP opcode in the reference table. -/
def OneOp.value (op : OneOp) : Nat := Codes.reference.oneOp.value op

/-- R104: the value of a BRANCH opcode in the reference table. -/
def BranchOp.value (op : BranchOp) : Nat := Codes.reference.branch.value op

/-- R105: the value of an OTHER opcode in the reference table, which is its whole word. -/
def OtherOp.value (op : OtherOp) : Nat := Codes.reference.other.value op

/-- Whether `opcode(w)` is in the reference opcode table. -/
def opcodeDefined (w : Word) : Bool := Codes.reference.opcodeDefined w

/-! ## Which instances are admitted -/

/-- A run holds every opcode of its group once, with values in the group's range (R100, R101). -/
abbrev OpcodeRun.complete {α : Type} (run : OpcodeRun α) (all : List α) (range : Nat × Nat) : Prop :=
  run.ops.Nodup ∧ (∀ op ∈ all, op ∈ run.ops) ∧ range.1 ≤ run.base
    ∧ run.base + run.ops.length ≤ range.2 + 1

/-- The relations an opcode table keeps (R101: MOV, CLR and BR lowest in their groups, consecutive values, an
opcode after CALL) and the injectivity of the mode numbering (92_eei_decisions.md, Open parameters). -/
abbrev Codes.valid (c : Codes) : Prop :=
  c.modes.toList.Nodup
    ∧ c.twoOp.complete TwoOp.table (Group.range .twoOp)
    ∧ c.oneOp.complete OneOp.table (Group.range .oneOp)
    ∧ c.branch.complete BranchOp.table (Group.range .branch)
    ∧ c.other.complete OtherOp.table (Group.range .other)
    ∧ c.twoOp.ops.head? = some .mov ∧ c.oneOp.ops.head? = some .clr ∧ c.branch.ops.head? = some .br
    ∧ c.oneOp.ops.getLast? ≠ some .call

/-! ## From a shape to the instruction -/

/-- The two-operand instruction of an opcode. -/
def TwoOp.instr (op : TwoOp) (src dst : Operand) : Instr :=
  match op with
  | .mov => .mov src dst
  | .add => .add src dst
  | .sub => .sub src dst
  | .cmp => .cmp src dst
  | .and => .and src dst
  | .or => .or src dst
  | .xor => .xor src dst

/-- The one-operand instruction of an opcode. -/
def OneOp.instr (op : OneOp) (dst : Operand) : Instr :=
  match op with
  | .clr => .clr dst
  | .neg => .neg dst
  | .inc => .inc dst
  | .dec => .dec dst
  | .asl => .asl dst
  | .asr => .asr dst
  | .lsr => .lsr dst
  | .rol => .rol dst
  | .ror => .ror dst
  | .rlc => .rlc dst
  | .rrc => .rrc dst
  | .jmp => .jmp dst
  | .call => .call dst
  | .push => .push dst
  | .pop => .pop dst

/-- The branch instruction of an opcode. -/
def BranchOp.instr (op : BranchOp) (offset : BitVec 8) : Instr :=
  match op with
  | .br => .br offset
  | .bne => .bne offset
  | .beq => .beq offset
  | .bpl => .bpl offset
  | .bmi => .bmi offset
  | .bcs => .bcs offset
  | .bcc => .bcc offset
  | .bvs => .bvs offset
  | .bvc => .bvc offset

/-- The no-operand instruction of an opcode. -/
def OtherOp.instr (op : OtherOp) : Instr :=
  match op with
  | .clc => .clc
  | .clv => .clv
  | .clz => .clz
  | .cls => .cls
  | .ccc => .ccc
  | .sec => .sec
  | .sev => .sev
  | .sez => .sez
  | .ses => .ses
  | .scc => .scc
  | .nop => .nop
  | .ret => .ret
  | .reti => .reti
  | .halt => .halt
  | .wait => .wait
  | .pushpc => .pushpc
  | .poppc => .poppc
  | .pushflag => .pushflag
  | .popflag => .popflag

/-! ## The decoder -/

/-- The decoder's verdicts (R125). They are the codec's only: the Sequencer never consults them. -/
inductive DecodeError where
  /-- the opcode is in no table (R121, R128) -/
  | reservedOpcode
  /-- a needed word lies beyond the end of the list (R123) -/
  | truncated
  /-- the encoder refuses the addressing modes (R124) -/
  | illegalAddressingMode
deriving DecidableEq, Repr

/-- An operand from its mode, its register field and the words that follow, with the words left over (R122, R123):
IMMEDIATE and INDEXED take one extra word. `none` when that word is missing. -/
def Operand.read (mode : AddrMode) (r : Reg) (ws : List Word) : Option (Operand × List Word) :=
  match mode with
  | .direct => some (.direct r, ws)
  | .indirect => some (.indirect r, ws)
  | .immediate =>
    match ws with
    | [] => none
    | v :: rest => some (.immediate r v, rest)
  | .indexed =>
    match ws with
    | [] => none
    | e :: rest => some (.indexed r e, rest)

/-- R121 to R123: the instruction at the head of a word list, and the words after it, under an opcode table and
mode numbering. This is the decoder that follows the hardware (R99): it reads a destination extra word for mode
IMMEDIATE too, and passes no verdict on legality (R130). Total; it rejects by name. -/
def Codes.decodeWords (c : Codes) : List Word → Except DecodeError (Instr × List Word)
  | [] => .error .truncated
  | w :: ws =>
    match group w with
    | .twoOp =>
      match c.twoOp.named (w.extractLsb' 12 4).toNat with
      | none => .error .reservedOpcode
      | some op =>
        match Operand.read (c.modeOf (modeSrcField w)) (regSrcField w) ws with
        | none => .error .truncated
        | some (src, ws1) =>
          match Operand.read (c.modeOf (modeDstField w)) (regDstField w) ws1 with
          | none => .error .truncated
          | some (dst, ws2) => .ok (op.instr src dst, ws2)
    | .oneOp =>
      match c.oneOp.named (w.extractLsb' 6 10).toNat with
      | none => .error .reservedOpcode
      | some op =>
        match Operand.read (c.modeOf (modeDstField w)) (regDstField w) ws with
        | none => .error .truncated
        | some (dst, ws1) => .ok (op.instr dst, ws1)
    | .branch =>
      match c.branch.named (w.extractLsb' 8 8).toNat with
      | none => .error .reservedOpcode
      | some op => .ok (op.instr (offsetField w), ws)
    | .other =>
      match c.other.named w.toNat with
      | none => .error .reservedOpcode
      | some op => .ok (op.instr, ws)

/-- The decoder under the reference instance. -/
def decodeWords (ws : List Word) : Except DecodeError (Instr × List Word) :=
  Codes.reference.decodeWords ws

/-- What `decode` returns (R121, R124): the record, its length in words, and the flag for a ONE_OP
IMMEDIATE word whose register field is not 0. -/
structure Decoded where
  instr : Instr
  length : Nat
  noncanonical : Bool
deriving DecidableEq, Repr

/-- Whether a word list starts with a TWO_OP instruction whose destination mode is IMMEDIATE and whose
source extra word, if any, is there. The codec's decoder reads no destination word for that mode (R123) and
rejects it at step 4 (R124). -/
def Codes.immediateDestination (c : Codes) : List Word → Bool
  | [] => false
  | w :: ws =>
    group w == .twoOp && c.opcodeDefined w && c.modeOf (modeDstField w) == .immediate
      && (Operand.read (c.modeOf (modeSrcField w)) (regSrcField w) ws).isSome

/-- R121 to R124: `decode(ws, i)` under an opcode table and mode numbering. The legality verdict comes last
(step 4), after a missing word has been reported. -/
def Codes.decode (c : Codes) (extra : List (AddrMode × AddrMode)) (ws : List Word) (i : Nat) :
    Except DecodeError Decoded :=
  let rest := ws.drop i
  if c.immediateDestination rest then .error .illegalAddressingMode
  else
    match c.decodeWords rest with
    | .error e => .error e
    | .ok (instr, after) =>
      if instr.legal extra then
        .ok { instr, length := rest.length - after.length, noncanonical := !instr.canonical }
      else .error .illegalAddressingMode

/-- `decode(ws, i)` under the reference instance. -/
def decode (extra : List (AddrMode × AddrMode)) (ws : List Word) (i : Nat) :
    Except DecodeError Decoded := Codes.reference.decode extra ws i

/-- R98: whether a ONE_OP operand or a TWO_OP source of this mode takes an extra word. -/
def AddrMode.takesExtra : AddrMode → Bool
  | .immediate | .indexed => true
  | .direct | .indirect => false

/-- R99: the length in words of the instruction whose opcode word is `w`, as the Sequencer consumes it
(a destination of mode IMMEDIATE counts its extra word). -/
def Codes.instrLength (c : Codes) (w : Word) : Nat :=
  let extraOf (code : BitVec 2) : Nat := if (c.modeOf code).takesExtra then 1 else 0
  match group w with
  | .twoOp => 1 + extraOf (modeSrcField w) + extraOf (modeDstField w)
  | .oneOp => 1 + extraOf (modeDstField w)
  | .branch => 1
  | .other => 1

/-- R99 under the reference instance. -/
def instrLength (w : Word) : Nat := Codes.reference.instrLength w

/-- R130, U8: a word whose opcode is defined and whose addressing mode the encoder refuses. The opcode word
alone shows it. -/
def Codes.modeRefused (c : Codes) (extra : List (AddrMode × AddrMode)) (w : Word) : Bool :=
  match group w with
  | .twoOp => c.opcodeDefined w && !legalPair extra (c.modeOf (modeSrcField w)) (c.modeOf (modeDstField w))
  | .oneOp =>
    match c.oneOp.named (opcode w) with
    | none => false
    | some op => !legalMode op (c.modeOf (modeDstField w))
  | .branch => false
  | .other => false

/-- The three words of an instruction given as one number, bit 0 the least significant bit of the first
word; bits at and above `nbits` are 0. -/
def tableWords (nbits w : Nat) : List Word :=
  let v := w % 2 ^ nbits
  [BitVec.ofNat 16 v, BitVec.ofNat 16 (v >>> 16), BitVec.ofNat 16 (v >>> 32)]

/-- The instruction the decoder reads from a row of the opcode table given as a number. -/
def decodeTableWord (nbits w : Nat) : Option Instr :=
  match decodeWords (tableWords nbits w) with
  | .ok (i, _) => some i
  | .error _ => none

/-! ## The encoder of an instruction -/

/-- The register field of an operand. -/
def Operand.field : Operand → Reg
  | .immediate f _ => f
  | .direct r => r
  | .indirect r => r
  | .indexed r _ => r

/-- R98: the operand's extra word, if its mode has one. -/
def Operand.extraWords : Operand → List Word
  | .immediate _ v => [v]
  | .direct _ => []
  | .indirect _ => []
  | .indexed _ e => [e]

/-- R94 to R98: the words of an instruction under an opcode table and mode numbering: the opcode word, then
the source's extra word, then the destination's. -/
def Codes.encode (c : Codes) (i : Instr) : List Word :=
  match i.shape with
  | .two op src dst =>
    (BitVec.ofNat 4 (c.twoOp.value op) ++ c.modeCode src.mode ++ src.field ++ c.modeCode dst.mode
        ++ dst.field : Word)
      :: (src.extraWords ++ dst.extraWords)
  | .one op dst =>
    (BitVec.ofNat 10 (c.oneOp.value op) ++ c.modeCode dst.mode ++ dst.field : Word) :: dst.extraWords
  | .branch op offset => [(BitVec.ofNat 8 (c.branch.value op) ++ offset : Word)]
  | .other op => [BitVec.ofNat 16 (c.other.value op)]

/-- The encoder under the reference instance. -/
def encode (i : Instr) : List Word := Codes.reference.encode i

/-! ## The four encode functions (R106 to R112) -/

/-- The encoding errors (R446). -/
inductive EncodeError where
  | invalidAddressingMode
  | registerRangeError
  | operandRangeError
deriving DecidableEq, Repr

/-- R107: one word, the opcode's raw value; it cannot fail. -/
def Codes.encodeNoOperand (c : Codes) (op : OtherOp) : List Word := [BitVec.ofNat 16 (c.other.value op)]

/-- R108: `(op<<8)|offset`, for an offset from 0 to 255. -/
def Codes.encodeBranch (c : Codes) (op : BranchOp) (offset : Int) : Except EncodeError (List Word) :=
  if 0 ≤ offset ∧ offset < 256 then
    .ok [BitVec.ofNat 16 ((c.branch.value op <<< 8) ||| offset.toNat)]
  else .error .operandRangeError

/-- The AddrMode a raw mode argument names, if any (R106: an argument outside the enumeration is a refused
mode). -/
def Codes.modeNamed (c : Codes) (m : Nat) : Option AddrMode :=
  if m < 4 then some (c.modeOf (BitVec.ofNat 2 m)) else none

/-- Whether a register argument is 0 to 15 (R109, R111; a negative one is out of range, log 16). -/
def registerInRange (reg : Int) : Bool := 0 ≤ reg && reg < 16

/-- Whether an offset or immediate argument is 0 to 65535 (R109, R110). -/
def wordInRange (v : Int) : Bool := 0 ≤ v && v < 65536

/-- R109, the checks in its order: mode, whitelist, register, offset. -/
def Codes.encodeOneOperand (c : Codes) (op : OneOp) (mode : Nat) (reg : Int) (offset : Int := 0) :
    Except EncodeError (List Word) :=
  match c.modeNamed mode with
  | none => .error .invalidAddressingMode
  | some m =>
    if !legalMode op m then .error .invalidAddressingMode
    else if m != .immediate && !registerInRange reg then .error .registerRangeError
    else if m.takesExtra && !wordInRange offset then .error .operandRangeError
    else
      let r := if m = .immediate then 0 else reg.toNat
      .ok (BitVec.ofNat 16 ((c.oneOp.value op <<< 6) ||| (mode <<< 4) ||| r)
        :: if m.takesExtra then [BitVec.ofNat 16 offset.toNat] else [])

/-- R110 to R112, the checks in R110's order: mode pair, registers (both always), offsets. The
destination's arguments come first. -/
def Codes.encodeTwoOperand (c : Codes) (extra : List (AddrMode × AddrMode)) (op : TwoOp) (modeDst : Nat)
    (regDst : Int) (modeSrc : Nat) (regSrc : Int) (offsetDst : Int := 0) (offsetSrc : Int := 0) :
    Except EncodeError (List Word) :=
  match c.modeNamed modeSrc, c.modeNamed modeDst with
  | some ms, some md =>
    if !legalPair extra ms md then .error .invalidAddressingMode
    else if !registerInRange regSrc || !registerInRange regDst then .error .registerRangeError
    else if ms.takesExtra && !wordInRange offsetSrc then .error .operandRangeError
    else if md = .indexed ∧ wordInRange offsetDst = false then .error .operandRangeError
    else
      .ok (BitVec.ofNat 16 ((c.twoOp.value op <<< 12) ||| (modeSrc <<< 10) ||| (regSrc.toNat <<< 6)
            ||| (modeDst <<< 4) ||| regDst.toNat)
        :: ((if ms.takesExtra then [BitVec.ofNat 16 offsetSrc.toNat] else [])
          ++ (if md = .indexed then [BitVec.ofNat 16 offsetDst.toNat] else [])))
  | _, _ => .error .invalidAddressingMode

/-- The displacement or immediate of an operand, 0 where its mode takes none (R123). -/
def Operand.offset : Operand → Word
  | .immediate _ v => v
  | .direct _ => 0
  | .indirect _ => 0
  | .indexed _ e => e

/-- The call of the encode functions that stands for an instruction: its own group's function on its own
fields (R120: ignored arguments at their defaults). -/
def Codes.encodeCall (c : Codes) (extra : List (AddrMode × AddrMode)) (i : Instr) :
    Except EncodeError (List Word) :=
  match i.shape with
  | .two op src dst =>
    c.encodeTwoOperand extra op (c.modeCode dst.mode).toNat dst.field.toNat (c.modeCode src.mode).toNat
      src.field.toNat dst.offset.toNat src.offset.toNat
  | .one op dst => c.encodeOneOperand op (c.modeCode dst.mode).toNat dst.field.toNat dst.offset.toNat
  | .branch op offset => c.encodeBranch op offset.toNat
  | .other op => .ok (c.encodeNoOperand op)

/-! The encode functions under the reference instance. -/

def encodeNoOperand (op : OtherOp) : List Word := Codes.reference.encodeNoOperand op

def encodeBranch (op : BranchOp) (offset : Int) : Except EncodeError (List Word) :=
  Codes.reference.encodeBranch op offset

def encodeOneOperand (op : OneOp) (mode : Nat) (reg : Int) (offset : Int := 0) :
    Except EncodeError (List Word) := Codes.reference.encodeOneOperand op mode reg offset

def encodeTwoOperand (extra : List (AddrMode × AddrMode)) (op : TwoOp) (modeDst : Nat) (regDst : Int)
    (modeSrc : Nat) (regSrc : Int) (offsetDst : Int := 0) (offsetSrc : Int := 0) :
    Except EncodeError (List Word) :=
  Codes.reference.encodeTwoOperand extra op modeDst regDst modeSrc regSrc offsetDst offsetSrc

def Instr.encodeCall (extra : List (AddrMode × AddrMode)) (i : Instr) :
    Except EncodeError (List Word) := Codes.reference.encodeCall extra i

end Sys2Proof
end

