-- ==== Sys2Proof/Machine/ControlWord.lean ====
section
/-! DEFINITION. The control word (40_control_word_codec.md): the selector enumerations, the 11-field record with
its pack and unpack functions, and the numbering of the selectors as configuration, with its reference
instance. -/

namespace Sys2Proof.Machine

/-! ## The enumerations (R156 to R163)

Each is listed in the order of its reference numbering: the code of a value is its place in the list (D2). -/

/-- R156: the source-side bus selector. -/
inductive SBus where
  | none | zero | reg | t | mdr | irOffset | minusOne | one
deriving DecidableEq, Repr

/-- R157: the destination-side bus selector. -/
inductive DBus where
  | none | zero | pc | reg | mdr | notMdr | t | sp | flags
deriving DecidableEq, Repr

/-- R158: the ALU operation. -/
inductive Alu where
  | none | sum | sub | and | or | xor | asl | asr | lsr | rol | ror | rlc | rrc
deriving DecidableEq, Repr

/-- R159: the result bus selector. -/
inductive RBus where
  | none | adr | t | mdr | reg | pc | flags
deriving DecidableEq, Repr

/-- R160: the side effect. -/
inductive Misc where
  | none | incPc | setZ | clrZ | setC | clrC | setV | clrV | setS | clrS | cond | incSp | decSp
deriving DecidableEq, Repr

/-- R161: the memory operation. -/
inductive MemOp where
  | none | ifch | read | write
deriving DecidableEq, Repr

/-- R162: the condition that selects the (address, index) pair; `always` is the spec's TRUE. -/
inductive Cond where
  | always | noOp | oneOp | regDest | int | z | nz | s | ns | v | nv | c | nc | branch
deriving DecidableEq, Repr

/-- R163: the index selector, shared by IndexTrue and IndexFalse. -/
inductive Index where
  | none | mas | mad | opcode | oneOp | twoOp
deriving DecidableEq, Repr

def SBus.table : List SBus := [.none, .zero, .reg, .t, .mdr, .irOffset, .minusOne, .one]
def DBus.table : List DBus := [.none, .zero, .pc, .reg, .mdr, .notMdr, .t, .sp, .flags]
def Alu.table : List Alu :=
  [.none, .sum, .sub, .and, .or, .xor, .asl, .asr, .lsr, .rol, .ror, .rlc, .rrc]
def RBus.table : List RBus := [.none, .adr, .t, .mdr, .reg, .pc, .flags]
def Misc.table : List Misc :=
  [.none, .incPc, .setZ, .clrZ, .setC, .clrC, .setV, .clrV, .setS, .clrS, .cond, .incSp, .decSp]
def MemOp.table : List MemOp := [.none, .ifch, .read, .write]
def Cond.table : List Cond :=
  [.always, .noOp, .oneOp, .regDest, .int, .z, .nz, .s, .ns, .v, .nv, .c, .nc, .branch]
def Index.table : List Index := [.none, .mas, .mad, .opcode, .oneOp, .twoOp]

/-! ## The record and its packing (R150 to R154) -/

/-- The 11 fields of a control word as numbers, with the defaults R153 documents. -/
structure Fields where
  sbus : Nat := 0
  dbus : Nat := 0
  alu : Nat := 0
  rbus : Nat := 0
  misc : Nat := 0
  mem : Nat := 0
  cond : Nat := 0
  addressTrue : Nat := 1
  addressFalse : Nat := 0
  indexTrue : Nat := 0
  indexFalse : Nat := 0
deriving DecidableEq, Repr

/-- R152, R153: the integer of a record, by shift and or, with no range validation (R155): an argument
wider than its field runs into the fields above it. -/
def build (f : Fields) : Nat :=
  (f.sbus <<< 41) ||| (f.dbus <<< 37) ||| (f.alu <<< 33) ||| (f.rbus <<< 30) ||| (f.misc <<< 26)
    ||| (f.mem <<< 24) ||| (f.cond <<< 20) ||| (f.addressTrue <<< 13) ||| (f.addressFalse <<< 6)
    ||| (f.indexTrue <<< 3) ||| f.indexFalse

/-- R154: the field of a word with a given shift and width. -/
def getField (shift width word : Nat) : Nat := (word >>> shift) &&& (2 ^ width - 1)

/-! R151, R154: the eleven getters, with the spec's shifts and widths. -/

def getSBus (word : Nat) : Nat := getField 41 3 word
def getDBus (word : Nat) : Nat := getField 37 4 word
def getAlu (word : Nat) : Nat := getField 33 4 word
def getRBus (word : Nat) : Nat := getField 30 3 word
def getMisc (word : Nat) : Nat := getField 26 4 word
def getMem (word : Nat) : Nat := getField 24 2 word
def getCond (word : Nat) : Nat := getField 20 4 word
def getAddressTrue (word : Nat) : Nat := getField 13 7 word
def getAddressFalse (word : Nat) : Nat := getField 6 7 word
def getIndexTrue (word : Nat) : Nat := getField 3 3 word
def getIndexFalse (word : Nat) : Nat := getField 0 3 word

/-- R154: the record of the eleven getters' results. -/
def unpack (word : Nat) : Fields where
  sbus := getSBus word
  dbus := getDBus word
  alu := getAlu word
  rbus := getRBus word
  misc := getMisc word
  mem := getMem word
  cond := getCond word
  addressTrue := getAddressTrue word
  addressFalse := getAddressFalse word
  indexTrue := getIndexTrue word
  indexFalse := getIndexFalse word

/-- Every field is within its width (R151). -/
abbrev Fields.inWidth (f : Fields) : Prop :=
  f.sbus < 2 ^ 3 ∧ f.dbus < 2 ^ 4 ∧ f.alu < 2 ^ 4 ∧ f.rbus < 2 ^ 3 ∧ f.misc < 2 ^ 4 ∧ f.mem < 2 ^ 2
    ∧ f.cond < 2 ^ 4 ∧ f.addressTrue < 2 ^ 7 ∧ f.addressFalse < 2 ^ 7 ∧ f.indexTrue < 2 ^ 3
    ∧ f.indexFalse < 2 ^ 3

/-! ## The micro-instruction a control word stands for -/

/-- A control word with its selectors named. -/
structure MicroInstr where
  sbus : SBus := .none
  dbus : DBus := .none
  alu : Alu := .none
  rbus : RBus := .none
  misc : Misc := .none
  mem : MemOp := .none
  cond : Cond := .always
  addressTrue : Nat := 1
  addressFalse : Nat := 0
  indexTrue : Index := .none
  indexFalse : Index := .none
deriving DecidableEq, Repr

/-! ## The numbering of the selectors as configuration (R3, D2) -/

/-- A numbering of one field: each selector with its code. A code that no pair holds is reserved. -/
abbrev Numbering (α : Type) := List (α × Nat)

/-- The code of a selector. -/
def Numbering.code {α : Type} [DecidableEq α] (n : Numbering α) (sel : α) : Nat := (n.lookup sel).getD 0

/-- The selector of a code; `none` for a reserved code. -/
def Numbering.named {α : Type} (n : Numbering α) (code : Nat) : Option α :=
  (n.find? fun p => p.2 == code).map Prod.fst

/-- A numbering of a field is injective, numbers every selector and fits the field's width (the constraint of
92_eei_decisions.md, Open parameters). -/
abbrev Numbering.valid {α : Type} (n : Numbering α) (all : List α) (width : Nat) : Prop :=
  (n.map Prod.fst).Nodup ∧ (n.map Prod.snd).Nodup ∧ (∀ sel ∈ all, sel ∈ n.map Prod.fst)
    ∧ ∀ p ∈ n, p.2 < 2 ^ width

/-- The numberings of the nine selector fields; IndexTrue and IndexFalse share one (R163). -/
structure Selectors where
  sbus : Numbering SBus
  dbus : Numbering DBus
  alu : Numbering Alu
  rbus : Numbering RBus
  misc : Numbering Misc
  mem : Numbering MemOp
  cond : Numbering Cond
  index : Numbering Index
deriving DecidableEq, Repr

/-- The numbering of R156 to R163. -/
def Selectors.reference : Selectors where
  sbus := SBus.table.zipIdx
  dbus := DBus.table.zipIdx
  alu := Alu.table.zipIdx
  rbus := RBus.table.zipIdx
  misc := Misc.table.zipIdx
  mem := MemOp.table.zipIdx
  cond := Cond.table.zipIdx
  index := Index.table.zipIdx

/-- Every field's numbering is admitted, at the widths of R151. -/
abbrev Selectors.valid (n : Selectors) : Prop :=
  n.sbus.valid SBus.table 3 ∧ n.dbus.valid DBus.table 4 ∧ n.alu.valid Alu.table 4
    ∧ n.rbus.valid RBus.table 3 ∧ n.misc.valid Misc.table 4 ∧ n.mem.valid MemOp.table 2
    ∧ n.cond.valid Cond.table 4 ∧ n.index.valid Index.table 3

/-- The micro-instruction of a record; `none` when a selector field holds a reserved code (R209, R228,
R238, R248, R268, R281). -/
def Selectors.ofFields (n : Selectors) (f : Fields) : Option MicroInstr :=
  match n.sbus.named f.sbus, n.dbus.named f.dbus, n.alu.named f.alu, n.rbus.named f.rbus,
      n.misc.named f.misc, n.mem.named f.mem, n.cond.named f.cond, n.index.named f.indexTrue,
      n.index.named f.indexFalse with
  | some sbus, some dbus, some alu, some rbus, some misc, some mem, some cond, some indexTrue,
      some indexFalse =>
    some { sbus, dbus, alu, rbus, misc, mem, cond, addressTrue := f.addressTrue,
           addressFalse := f.addressFalse, indexTrue, indexFalse }
  | _, _, _, _, _, _, _, _, _ => none

/-- The record of a micro-instruction: each selector's code. -/
def Selectors.fields (n : Selectors) (m : MicroInstr) : Fields where
  sbus := n.sbus.code m.sbus
  dbus := n.dbus.code m.dbus
  alu := n.alu.code m.alu
  rbus := n.rbus.code m.rbus
  misc := n.misc.code m.misc
  mem := n.mem.code m.mem
  cond := n.cond.code m.cond
  addressTrue := m.addressTrue
  addressFalse := m.addressFalse
  indexTrue := n.index.code m.indexTrue
  indexFalse := n.index.code m.indexFalse

/-- The micro-instruction of a control word. -/
def Selectors.ofWord (n : Selectors) (w : ControlWord) : Option MicroInstr := n.ofFields (unpack w.toNat)

/-- The control word of a micro-instruction. -/
def Selectors.toWord (n : Selectors) (m : MicroInstr) : ControlWord := BitVec.ofNat 44 (build (n.fields m))

/-- R300: field legality of one word: no reserved code, and no RBus destination without an ALU
operation (R251). -/
def Selectors.wordLegal (n : Selectors) (w : ControlWord) : Bool :=
  match n.ofWord w with
  | none => false
  | some m => m.alu != .none || m.rbus == .none

/-! The same under the reference numbering. -/

def MicroInstr.fields (m : MicroInstr) : Fields := Selectors.reference.fields m

def MicroInstr.ofWord (w : ControlWord) : Option MicroInstr := Selectors.reference.ofWord w

def wordLegal (w : ControlWord) : Bool := Selectors.reference.wordLegal w

end Sys2Proof.Machine
end

