-- ==== Sys2Proof/Machine/ControlStore.lean ====
section
/-! DEFINITION. The reference control store (43_microcode_rom.md rule R321, spec/control_store.json): its 135
words, the names of its micro-addresses, and the per-opcode entry table (R320). -/

namespace Sys2Proof.Machine

/-- R321: control words 0 to 26. -/
def storeWords0 : List ControlWord :=
  [0x00000002000, 0x0000517E098, 0x000002140D0, 0x00000DEA119, 0x04246012000,
   0x40280014010, 0x40242012000, 0x04246010000, 0x48242012000, 0x80280014010,
   0x0424623E465, 0x062C023E465, 0x0624223E465, 0x0424601C000, 0x8624223E465,
   0x08300002000, 0x00003002000, 0x602C031E400, 0x00000002000, 0x682E831E400,
   0x00000002000, 0x684E831E400, 0x00000002000, 0x68428002000, 0x00000002000,
   0x686E831E400, 0x00000002000]

/-- R321: control words 27 to 53. -/
def storeWords1 : List ControlWord :=
  [0x688E831E400, 0x00000002000, 0x68AE831E400, 0x00000002000, 0x222E831E400,
   0x00000002000, 0x80280044000, 0x624E831E400, 0xE82E831E400, 0x00000002000,
   0xE84E831E400, 0x00000002000, 0x08CE831E400, 0x00000002000, 0x08EE831E400,
   0x00000002000, 0x090E831E400, 0x00000002000, 0x092E831E400, 0x00000002000,
   0x094E831E400, 0x00000002000, 0x096E831E400, 0x00000002000, 0x098E831E400,
   0x00000002000, 0x08340002000]

/-- R321: control words 54 to 80. -/
def storeWords2 : List ControlWord :=
  [0x00000002000, 0x80280070000, 0x042C0072000, 0x0E273074000, 0x60340002000,
   0x0E273002000, 0x00000002000, 0x0002C07C000, 0x0E2420CA000, 0x00014002000,
   0x00000002000, 0x0001C002000, 0x00000002000, 0x0000C002000, 0x00000002000,
   0x00024002000, 0x00000002000, 0x00014090000, 0x0001C0D8000, 0x00010002000,
   0x00000002000, 0x00018002000, 0x00000002000, 0x00008002000, 0x00000002000,
   0x00020002000, 0x00000002000]

/-- R321: control words 81 to 107. -/
def storeWords3 : List ControlWord :=
  [0x000100A4000, 0x000180DC000, 0x00000002000, 0x00000002000, 0x0002C0AC000,
   0x0E2420E0000, 0x0002C0B0000, 0x0E26E0E2000, 0x00000002000, 0x00000002000,
   0x000004036C0, 0x00000002000, 0x042C00BC000, 0x0E273002000, 0x0002C0C0000,
   0x0E2420E0000, 0x102C00C4000, 0x0E273002000, 0x0002C0C8000, 0x0E2420E8000,
   0x802800CC010, 0x00000002000, 0x60300002000, 0x062400D6000, 0xC42420D4000,
   0x862400D6000, 0x602C3002000]

/-- R321: control words 108 to 134. -/
def storeWords4 : List ControlWord :=
  [0x0000C0DA000, 0x00024002000, 0x000080DE000, 0x00020002000, 0x08340002000,
   0x083400E4000, 0x0E2420E6000, 0x08380002000, 0x08380002000, 0xA4340002000,
   0x00000002000, 0x000006EA040, 0x00000002000, 0x000005EA040, 0x00000002000,
   0x000008EA040, 0x00000002000, 0x000007EA040, 0x00000002000, 0x00000BEA040,
   0x00000002000, 0x00000CEA040, 0x00000002000, 0x000009EA040, 0x00000002000,
   0x00000AEA040, 0x00000002000]

/-- R321: the reference control store, ROM_LEN = 135 (R311). -/
def referenceStore : List ControlWord :=
  storeWords0 ++ storeWords1 ++ storeWords2 ++ storeWords3 ++ storeWords4

/-! ## The configuration of a Sequencer (R3, R10) -/

/-- A register field of the opcode word (R94). -/
inductive RegField where
  | source | destination
deriving DecidableEq, Repr

/-- What a Sequencer is configured with: the opcode table and mode numbering, the selector numbering, and the
control store (R3, 93_implementation_defined.md section 2). -/
structure Setup where
  codes : Codes
  selectors : Selectors
  rom : List ControlWord
  /-- The author's note for R305: the addresses of the words whose `RBus.REG` is meant for the register that
  `ir[9:6]` names; every other one is meant for that of `ir[3:0]`. No stage reads it. -/
  sourceWrites : List Nat := []
deriving DecidableEq, Repr

/-- A control store under the reference codes and numbering. -/
def Setup.ofStore (rom : List ControlWord) : Setup where
  codes := Codes.reference
  selectors := Selectors.reference
  rom := rom

/-- The reference instance: its control store writes destination registers only. -/
def Setup.reference : Setup := Setup.ofStore referenceStore

/-- `ROM[u]` of the reference control store; `none` beyond its end. -/
def controlWordAt (u : MicroAddr) : Option ControlWord := referenceStore[u.toNat]?

/-! ## Micro-addresses by the label R321 gives them -/

abbrev uReset : MicroAddr := 0
abbrev uFetch : MicroAddr := 1
abbrev uDecode1 : MicroAddr := 2
abbrev uDecode2 : MicroAddr := 3
abbrev uSrcImm : MicroAddr := 4
abbrev uSrcDir : MicroAddr := 5
abbrev uSrcInd : MicroAddr := 6
abbrev uSrcIdx : MicroAddr := 7
abbrev uSrcIdx2 : MicroAddr := 8
abbrev uSrcTmdr : MicroAddr := 9
abbrev uDstImm : MicroAddr := 10
abbrev uDstDir : MicroAddr := 11
abbrev uDstInd : MicroAddr := 12
abbrev uDstIdx : MicroAddr := 13
abbrev uDstIdx2 : MicroAddr := 14
abbrev uWbReg : MicroAddr := 15
abbrev uWbMem : MicroAddr := 16
abbrev uMov0 : MicroAddr := 17
abbrev uAdd0 : MicroAddr := 19
abbrev uSub0 : MicroAddr := 21
abbrev uCmp0 : MicroAddr := 23
abbrev uAnd0 : MicroAddr := 25
abbrev uOr0 : MicroAddr := 27
abbrev uXor0 : MicroAddr := 29
abbrev uClr0 : MicroAddr := 31
abbrev uNeg0 : MicroAddr := 33
abbrev uNeg1 : MicroAddr := 34
abbrev uInc0 : MicroAddr := 35
abbrev uDec0 : MicroAddr := 37
abbrev uAsl0 : MicroAddr := 39
abbrev uAsr0 : MicroAddr := 41
abbrev uLsr0 : MicroAddr := 43
abbrev uRol0 : MicroAddr := 45
abbrev uRor0 : MicroAddr := 47
abbrev uRlc0 : MicroAddr := 49
abbrev uRrc0 : MicroAddr := 51
abbrev uJmp0 : MicroAddr := 53
abbrev uCall0 : MicroAddr := 55
abbrev uCall1 : MicroAddr := 56
abbrev uCall2 : MicroAddr := 57
abbrev uCall3 : MicroAddr := 58
abbrev uPush0 : MicroAddr := 59
abbrev uPop0 : MicroAddr := 61
abbrev uPop1 : MicroAddr := 62
abbrev uClc0 : MicroAddr := 63
abbrev uClv0 : MicroAddr := 65
abbrev uClz0 : MicroAddr := 67
abbrev uCls0 : MicroAddr := 69
abbrev uCcc0 : MicroAddr := 71
abbrev uCcc1 : MicroAddr := 72
abbrev uSec0 : MicroAddr := 73
abbrev uSev0 : MicroAddr := 75
abbrev uSez0 : MicroAddr := 77
abbrev uSes0 : MicroAddr := 79
abbrev uScc0 : MicroAddr := 81
abbrev uScc1 : MicroAddr := 82
abbrev uNop0 : MicroAddr := 83
abbrev uRet0 : MicroAddr := 85
abbrev uRet1 : MicroAddr := 86
abbrev uReti0 : MicroAddr := 87
abbrev uReti1 : MicroAddr := 88
abbrev uHalt0 : MicroAddr := 89
abbrev uWait0 : MicroAddr := 91
abbrev uPushpc0 : MicroAddr := 93
abbrev uPushpc1 : MicroAddr := 94
abbrev uPoppc0 : MicroAddr := 95
abbrev uPoppc1 : MicroAddr := 96
abbrev uPushflag0 : MicroAddr := 97
abbrev uPushflag1 : MicroAddr := 98
abbrev uPopflag0 : MicroAddr := 99
abbrev uPopflag1 : MicroAddr := 100
abbrev uPopC0 : MicroAddr := 101
abbrev uPopDstImm : MicroAddr := 102
abbrev uPopDstDir : MicroAddr := 103
abbrev uPopDstInd : MicroAddr := 104
abbrev uPopDstIdx : MicroAddr := 105
abbrev uPopX2 : MicroAddr := 106
abbrev uPopW : MicroAddr := 107
abbrev uCcc2 : MicroAddr := 108
abbrev uCcc3 : MicroAddr := 109
abbrev uScc2 : MicroAddr := 110
abbrev uScc3 : MicroAddr := 111
abbrev uRet2 : MicroAddr := 112
abbrev uReti2 : MicroAddr := 113
abbrev uReti3 : MicroAddr := 114
abbrev uReti4 : MicroAddr := 115
abbrev uPopflag2 : MicroAddr := 116
abbrev uBr0 : MicroAddr := 117
abbrev uBne0 : MicroAddr := 119
abbrev uBeq0 : MicroAddr := 121
abbrev uBpl0 : MicroAddr := 123
abbrev uBmi0 : MicroAddr := 125
abbrev uBcs0 : MicroAddr := 127
abbrev uBcc0 : MicroAddr := 129
abbrev uBvs0 : MicroAddr := 131
abbrev uBvc0 : MicroAddr := 133

/-! ## The per-opcode entry table (R320) -/

/-- R283, R304: the base address of a group's dispatch in the reference store. -/
def groupBase : Group → Nat
  | .twoOp => 17
  | .oneOp => 31
  | .other => 63
  | .branch => 117

/-- R320: the entry address of a TWO_OP opcode's routine. -/
def twoOpEntry (op : TwoOp) : Nat := groupBase .twoOp + 2 * (op.value - 0x0)

/-- R320: the entry address of a ONE_OP opcode's routine; one slot further after CALL (R279). -/
def oneOpEntry (op : OneOp) : Nat :=
  groupBase .oneOp + 2 * (op.value - 0x200) + (if op.value > 0x20C then 2 else 0)

/-- R320: the entry address of an OTHER opcode's routine. -/
def otherOpEntry (op : OtherOp) : Nat := groupBase .other + 2 * (op.value - 0xE000)

/-- R320: the entry address of a BRANCH opcode's routine. -/
def branchOpEntry (op : BranchOp) : Nat := groupBase .branch + 2 * (op.value - 0xC0)

/-- R320: the slot width of a ONE_OP opcode, 4 for CALL and 2 for every other opcode of any group. -/
def oneOpSlotWidth : OneOp → Nat
  | .call => 4
  | .clr | .neg | .inc | .dec | .asl | .asr | .lsr | .rol | .ror | .rlc | .rrc | .jmp | .push
  | .pop => 2

end Sys2Proof.Machine
end

