-- ==== Sys2Proof/Machine/State.lean ====
section
/-! DEFINITION. The state of the block as plain data (10_state.md), the reasons a step can stop, and the
state after reset. -/

namespace Sys2Proof.Machine

/-- The four flags: zero, carry, overflow, sign (R28, R29). -/
structure Flags where
  z : Bool := false
  c : Bool := false
  v : Bool := false
  s : Bool := false
deriving DecidableEq, Repr

/-- Memory (R35, R60): the cells that differ from what an unlisted cell reads as, each with its word
address, addresses strictly rising. The smallest addressable unit is the 16-bit word (R63, log 5). -/
abbrev Memory := List (Nat × Word)

/-- The complete mutable state of R20, and the parameters of R6 that a run is started with. -/
structure State where
  /-- `x[0]` to `x[15]` (R21) -/
  regs : Vector Word 16
  /-- the program counter (R22) -/
  pc : Word
  /-- the stack pointer (R23) -/
  sp : Word
  /-- the instruction register (R24) -/
  ir : Word
  /-- the memory address latch (R25) -/
  adr : Word
  /-- the memory data latch (R26) -/
  mdr : Word
  /-- the temporary latch (R27) -/
  t : Word
  /-- `F`, the committed flags (R28) -/
  flags : Flags
  /-- `PF`, the pending flag snapshot (R29) -/
  pending : Flags
  /-- the pending-interrupt flag (R30) -/
  intp : Bool
  /-- the most recently latched register index; `none` is the spec's reset value (R31, R38) -/
  regsel : Option Reg
  /-- the current micro-address (R32) -/
  upc : MicroAddr
  /-- the latched control word; `none` is the spec's reset value (R33, R38) -/
  cw : Option ControlWord
  /-- `M` (R35) -/
  mem : Memory
  /-- MEM_SIZE, STACK_SIZE and BR_OFFSET_SIGNED (R6), which no step changes -/
  params : Params
deriving DecidableEq, Repr

/-- Why a micro-cycle stops. The first two are the block's own faults (R442); the others are the
model-level faults that 93_implementation_defined.md asks for, each named after its case. Every fault
carries the state it leaves behind (R249, R447), which the host may inspect and step again (R448). -/
inductive Fault where
  /-- ProgramEnd (R440): raised by `Mem.IFCH` when `pc >= STACK_BASE`. Safe: the spec's own halt signal. -/
  | programEnd (residue : State)
  /-- StackOverflow (R441): raised by `Misc.DEC_SP` when `sp - 1 < STACK_BASE`. Safe: the spec's own
  fault. -/
  | stackOverflow (residue : State)
  /-- U1: raised by the dispatch cycle that would compute an entry address for a reserved opcode (R128).
  Safe: the model stops where the spec gives no effect. -/
  | reservedOpcode (residue : State)
  /-- U2: raised at stage 1 when `upc >= ROM_LEN` (R199). Safe. -/
  | microAddress (residue : State)
  /-- U3, and U9 as an instance: raised by `Mem.READ` or `Mem.WRITE` when `adr >= MEM_SIZE` (R66). Safe. -/
  | dataOutOfRange (residue : State)
  /-- U4: raised when a control word with a reserved selector code is latched (R209, R228, R238, R248,
  R268, R281). Safe. -/
  | reservedSelector (residue : State)
  /-- U5: raised at stage 5 by an RBus destination without an ALU result (R251). Safe. -/
  | noAluResult (residue : State)
  /-- U6: raised by `RBus.REG` while `regsel` is none, its value at reset by the spec (R31, R235; 93 U6 gives this
  treatment). Safe. -/
  | registerNotLatched (residue : State)
  /-- U7: raised by an opcode-distance index selector on a word of the wrong group (R282). Safe. -/
  | wrongGroupIndex (residue : State)
deriving DecidableEq, Repr

/-- What the model turns away by name. -/
inductive Refusal where
  /-- raised by a dispatch arm of an instruction without a meaning (no arm of this model). Safe. -/
  | notModelled (mnemonic : String)
  /-- raised by the load of a control store that breaks R300 at the word of this address (R300, U4, U5).
  Safe: the configuration is rejected before execution. -/
  | illFormedControlStore (address : Nat)
  /-- raised by the load of a control store of which a run from reset forms a sum beyond the store at this address
  (R301, U2). Safe: rejected before execution. -/
  | sumBeyondControlStore (address : Nat)
  /-- raised by the load of a control store of which a run from reset applies an opcode-distance selector to a
  word of another group at this address (R303, U7). Safe: rejected before execution. -/
  | unguardedIndex (address : Nat)
  /-- raised by `reset(P)` when the program and the parameters break the `require` of R471. Safe. -/
  | imageDoesNotFit
  /-- raised by `reset(P)` under ILLEGAL_MODE_POLICY = refuse, for a program whose word at this address
  holds an addressing mode the encoder refuses (U8). Safe: the program is rejected before execution. -/
  | illegalModeInProgram (address : Nat)
deriving DecidableEq, Repr

/-- What a stage, a micro-cycle or an instruction answers. -/
abbrev Result := Host.Outcome State Fault Refusal

/-- The state after reset with no program placed (R38, R471): `pc` 0, `sp` at MEM_SIZE - 1, registers,
latches and flags 0, `regsel` and `cw` none, `upc` 0, every memory cell 0. -/
def State.reset : State where
  regs := Vector.replicate 16 0
  pc := 0
  sp := BitVec.ofNat 16 (Config.resetParams.memSize - 1)
  ir := 0
  adr := 0
  mdr := 0
  t := 0
  flags := {}
  pending := {}
  intp := false
  regsel := none
  upc := 0
  cw := none
  mem := []
  params := Config.resetParams

end Sys2Proof.Machine
end

