-- ==== Sys2Proof/Machine/Flags.lean ====
section
/-! DEFINITION. The ALU of stage 4 and the pending flags it computes (R210 to R227), and the flag word
(R37). -/

namespace Sys2Proof.Machine

/-- R212: Z and S of a result, with the C and V given. -/
def flagsOf (res : Word) (c v : Bool) : Flags := { z := res == 0, c, v, s := res.msb }

/-- R215: the 17-bit sum's low 16 bits; C the carry out of bit 15; V when both operands have one sign and
the result the other. -/
def aluSum (S D : Word) : Word × Flags :=
  let res := S + D
  (res, flagsOf res (decide (65536 ≤ S.toNat + D.toNat)) (S.msb == D.msb && res.msb != S.msb))

/-- R216: destination minus source; C the borrow (D < S, unsigned); V when the operands' signs differ and
the result's sign differs from D's. -/
def aluSub (S D : Word) : Word × Flags :=
  let res := D - S
  (res, flagsOf res (decide (D.toNat < S.toNat)) (D.msb != S.msb && res.msb != D.msb))

/-- R217 to R219: a logical result; C and V cleared. -/
def aluLogic (res : Word) : Word × Flags := (res, flagsOf res false false)

/-- R220: shift left by one; C the bit shifted out; V when the sign changed. -/
def aluAsl (D : Word) : Word × Flags :=
  let res : Word := D.extractLsb' 0 15 ++ (0 : BitVec 1)
  (res, flagsOf res D.msb (D.msb != D.getLsbD 14))

/-- R221: shift right by one with bit 15 kept; C is D[0]. -/
def aluAsr (D : Word) : Word × Flags :=
  let res : Word := D.extractLsb' 15 1 ++ D.extractLsb' 1 15
  (res, flagsOf res (D.getLsbD 0) false)

/-- R222: shift right by one, zero in; C is D[0]. -/
def aluLsr (D : Word) : Word × Flags :=
  let res : Word := (0 : BitVec 1) ++ D.extractLsb' 1 15
  (res, flagsOf res (D.getLsbD 0) false)

/-- R223: rotate left by one; C is D[15]. -/
def aluRol (D : Word) : Word × Flags :=
  let res : Word := D.extractLsb' 0 15 ++ D.extractLsb' 15 1
  (res, flagsOf res D.msb false)

/-- R224: rotate right by one; C is D[0]. -/
def aluRor (D : Word) : Word × Flags :=
  let res : Word := D.extractLsb' 0 1 ++ D.extractLsb' 1 15
  (res, flagsOf res (D.getLsbD 0) false)

/-- R226: rotate left by one through the carry; C is D[15]. -/
def aluRlc (D : Word) (carry : Bool) : Word × Flags :=
  let res : Word := D.extractLsb' 0 15 ++ BitVec.ofBool carry
  (res, flagsOf res D.msb false)

/-- R227: rotate right by one through the carry; C is D[0]. -/
def aluRrc (D : Word) (carry : Bool) : Word × Flags :=
  let res : Word := BitVec.ofBool carry ++ D.extractLsb' 1 15
  (res, flagsOf res (D.getLsbD 0) false)

/-- Stage 4 (R210 to R227): result and pending flags of an operation on the SBus value, the DBus value and
the committed carry (R225). `none` for `Alu.NONE`, which produces no result (R211). -/
def alu (op : Alu) (S D : Word) (carry : Bool) : Option (Word × Flags) :=
  match op with
  | .none => none
  | .sum => some (aluSum S D)
  | .sub => some (aluSub S D)
  | .and => some (aluLogic (S &&& D))
  | .or => some (aluLogic (S ||| D))
  | .xor => some (aluLogic (S ^^^ D))
  | .asl => some (aluAsl D)
  | .asr => some (aluAsr D)
  | .lsr => some (aluLsr D)
  | .rol => some (aluRol D)
  | .ror => some (aluRor D)
  | .rlc => some (aluRlc D carry)
  | .rrc => some (aluRrc D carry)

/-- R37: the flags as a word: bit 0 = C, bit 1 = V, bit 2 = Z, bit 3 = S, the rest 0. -/
def Flags.word (f : Flags) : Word :=
  (0 : BitVec 12) ++ BitVec.ofBool f.s ++ BitVec.ofBool f.z ++ BitVec.ofBool f.v ++ BitVec.ofBool f.c

/-- R37: the flags of a word, its bits 15:4 ignored. -/
def Flags.ofWord (w : Word) : Flags where
  z := w.getLsbD 2
  c := w.getLsbD 0
  v := w.getLsbD 1
  s := w.getLsbD 3

end Sys2Proof.Machine
end

