-- ==== Sys2Proof/Machine/Ops.lean ====
section
/-! DEFINITION. The named operations over memory, registers, latches and flags that the micro-cycle
(Sequencer.lean) and the instructions' meanings share. The block has no trap entry and no return from one
(R445): a fault is an outcome, and the operations that raise one are `fetchIr`, `memRead`, `memWrite` and
`decSp` here. -/

namespace Sys2Proof.Machine

/-! ## Memory -/

/-- What a cell that is not listed reads as: memory is zero-filled outside the program (R35). -/
def unwritten : Word := 0

/-- The value of the cell at a word address. -/
def Memory.read : Memory → Nat → Word
  | [], _ => unwritten
  | (b, w) :: m, a => if a = b then w else Memory.read m a

/-- Write the cell at a word address; writing what an unlisted cell reads as removes its entry. -/
def Memory.write : Memory → Nat → Word → Memory
  | [], a, v => if v = unwritten then [] else [(a, v)]
  | (b, w) :: m, a, v =>
    if a < b then
      if v = unwritten then (b, w) :: m else (a, v) :: (b, w) :: m
    else if a = b then
      if v = unwritten then m else (a, v) :: m
    else (b, w) :: Memory.write m a v

/-- Every listed address is at least `low`, addresses strictly rise, and no entry holds what an unlisted
cell reads as. -/
def Memory.wfFrom : Nat → Memory → Bool
  | _, [] => true
  | low, (b, w) :: m => decide (low ≤ b) && w != unwritten && Memory.wfFrom (b + 1) m

/-- The canonical form. -/
def Memory.wf (m : Memory) : Bool := Memory.wfFrom 0 m

/-- Every listed address is below a bound. -/
def Memory.below (m : Memory) (bound : Nat) : Bool := m.all fun c => decide (c.1 < bound)

/-- Write consecutive words from an address on. -/
def Memory.writeWords : Memory → Nat → List Word → Memory
  | m, _, [] => m
  | m, a, w :: ws => Memory.writeWords (Memory.write m a w) (a + 1) ws

/-! ## Sequencing of operations -/

/-- Go on from a next state; a fault or a refusal ends the sequence. -/
def andThen (r : Result) (f : State → Result) : Result :=
  match r with
  | .next s => f s
  | .fault e => .fault e
  | .refused e => .refused e

/-! ## Registers -/

/-- `x[r]` (R21). -/
def State.reg (s : State) (r : Reg) : Word := s.regs[r.toNat]'r.isLt

/-- `x[r] <- v` (R21). -/
def State.setReg (s : State) (r : Reg) (v : Word) : State :=
  { s with regs := s.regs.set r.toNat v r.isLt }

/-- R193, R203: latch which register was read. -/
def State.latchReg (s : State) (r : Reg) : State := { s with regsel := some r }

/-! ## Stage 1 -/

/-- Enter the micro-cycle at a micro-address of the reference store: `upc` names it and its control word is
latched (R199). -/
def State.enter (s : State) (u : MicroAddr) : State := { s with upc := u, cw := controlWordAt u }

/-- The last word of a routine returns to the fetch word (R310). -/
def State.toFetch (s : State) : State := { s with upc := uFetch }

/-! ## Stage 6: the memory accesses -/

/-- Whether a data address names a cell (R66). -/
def State.inMemory (s : State) (a : Word) : Bool := decide (a.toNat < s.params.memSize)

/-- R232: `Mem.IFCH`. -/
def fetchIr (s : State) : Result :=
  if s.params.stackBase ≤ s.pc.toNat then .fault (.programEnd s)
  else .next { s with ir := s.mem.read s.pc.toNat }

/-- R239: `Mem.READ`, `mdr <- M[adr]`. -/
def memRead (s : State) : Result :=
  if s.inMemory s.adr then .next { s with mdr := s.mem.read s.adr.toNat }
  else .fault (.dataOutOfRange s)

/-- R244: `Mem.WRITE`, `M[adr] <- mdr`. -/
def memWrite (s : State) : Result :=
  if s.inMemory s.adr then .next { s with mem := s.mem.write s.adr.toNat s.mdr }
  else .fault (.dataOutOfRange s)

/-! ## Stage 7: the side effects -/

/-- R241: `Misc.INC_PC`. -/
def State.incPc (s : State) : State := { s with pc := s.pc + 1 }

/-- R246: `Misc.INC_SP`; no check. -/
def State.incSp (s : State) : State := { s with sp := s.sp + 1 }

/-- R247: `Misc.DEC_SP`; the test compares integers, so `sp = 0` faults too. -/
def decSp (s : State) : Result :=
  if (s.sp.toNat : Int) - 1 < s.params.stackBase then .fault (.stackOverflow s)
  else .next { s with sp := s.sp - 1 }

/-- R243: `Misc.COND`, commit the pending flags. -/
def State.commit (s : State) : State := { s with flags := s.pending }

/-! R242: the eight flag operations, on the committed flag only. -/

def State.setZ (s : State) (b : Bool) : State := { s with flags := { s.flags with z := b } }
def State.setC (s : State) (b : Bool) : State := { s with flags := { s.flags with c := b } }
def State.setV (s : State) (b : Bool) : State := { s with flags := { s.flags with v := b } }
def State.setS (s : State) (b : Bool) : State := { s with flags := { s.flags with s := b } }

/-! ## Stages 4 and 5: an ALU result into a latch

Each operation is stage 4 with a given operation and bus values, which overwrites `PF` (R214), followed by
one RBus destination. `Alu.NONE` gives no result, so nothing is written (R211). -/

/-- Stage 4 alone, the result discarded (R230). -/
def State.aluOnly (s : State) (op : Alu) (S D : Word) : State :=
  match alu op S D s.flags.c with
  | none => s
  | some (_, pf) => { s with pending := pf }

/-- R231: into `adr`. -/
def State.toAdr (s : State) (op : Alu) (S D : Word) : State :=
  match alu op S D s.flags.c with
  | none => s
  | some (res, pf) => { s with pending := pf, adr := res }

/-- R233: into `t`. -/
def State.toT (s : State) (op : Alu) (S D : Word) : State :=
  match alu op S D s.flags.c with
  | none => s
  | some (res, pf) => { s with pending := pf, t := res }

/-- R234: into `mdr`. -/
def State.toMdr (s : State) (op : Alu) (S D : Word) : State :=
  match alu op S D s.flags.c with
  | none => s
  | some (res, pf) => { s with pending := pf, mdr := res }

/-- R235: into the register `r`, the one `regsel` names. -/
def State.toReg (s : State) (r : Reg) (op : Alu) (S D : Word) : State :=
  match alu op S D s.flags.c with
  | none => s
  | some (res, pf) => ({ s with pending := pf }).setReg r res

/-- R236: into `pc`. -/
def State.toPc (s : State) (op : Alu) (S D : Word) : State :=
  match alu op S D s.flags.c with
  | none => s
  | some (res, pf) => { s with pending := pf, pc := res }

/-- R237: into the committed flags. -/
def State.toFlags (s : State) (op : Alu) (S D : Word) : State :=
  match alu op S D s.flags.c with
  | none => s
  | some (res, pf) => { s with pending := pf, flags := Flags.ofWord res }

/-! ## The branch offset -/

/-- R196, R390: the 8-bit branch offset extended to 16 bits, by sign when BR_OFFSET_SIGNED is true. -/
def extendOffset (signed : Bool) (o : BitVec 8) : Word :=
  if signed then o.signExtend 16 else o.zeroExtend 16

/-! ## Stack primitives (R316, R317, R377) -/

/-- R316: the push word, which stores `mdr` at `sp` and then decrements `sp`. When the decrement faults the
store has happened. -/
def pushMdr (s : State) : Result :=
  andThen (memWrite (s.toAdr .sum 0 s.sp)) decSp

/-- R317: the second word of a pop, `mdr <- M[sp]`; the first is `incSp`. -/
def readTop (s : State) : Result :=
  memRead (s.toAdr .sum 0 s.sp)

end Sys2Proof.Machine
end

