-- ==== Sys2Proof/Machine/Branch.lean ====
section
/-! DEFINITION. The BRANCH instructions (46_isa_branch.md), on the state after the FETCH cycle. -/

namespace Sys2Proof.Machine

/-- R390: BR.0, `pc <- pc + OFF(o)`, `pc` being the address after the branch. -/
def takeBranch (o : BitVec 8) (s : State) : Result :=
  .next ((s.enter uBr0).toPc .sum (extendOffset s.params.brOffsetSigned o) s.pc).toFetch

/-- R400: a conditional branch's own word, then BR.0 when its condition on the committed flags holds. -/
def branchIf (u : MicroAddr) (taken : Bool) (o : BitVec 8) (s : State) : Result :=
  let s := s.enter u
  if taken then takeBranch o s else .next s.toFetch

/-- R391: always. -/
def execBr (o : BitVec 8) (s : State) : Result := takeBranch o s

/-- R392: when Z = 0. -/
def execBne (o : BitVec 8) (s : State) : Result := branchIf uBne0 (!s.flags.z) o s

/-- R393: when Z = 1. -/
def execBeq (o : BitVec 8) (s : State) : Result := branchIf uBeq0 s.flags.z o s

/-- R394: when S = 0. -/
def execBpl (o : BitVec 8) (s : State) : Result := branchIf uBpl0 (!s.flags.s) o s

/-- R395: when S = 1. -/
def execBmi (o : BitVec 8) (s : State) : Result := branchIf uBmi0 s.flags.s o s

/-- R396: when C = 1. -/
def execBcs (o : BitVec 8) (s : State) : Result := branchIf uBcs0 s.flags.c o s

/-- R397: when C = 0. -/
def execBcc (o : BitVec 8) (s : State) : Result := branchIf uBcc0 (!s.flags.c) o s

/-- R398: when V = 1. -/
def execBvs (o : BitVec 8) (s : State) : Result := branchIf uBvs0 s.flags.v o s

/-- R399: when V = 0. -/
def execBvc (o : BitVec 8) (s : State) : Result := branchIf uBvc0 (!s.flags.v) o s

end Sys2Proof.Machine
end

