-- ==== Sys2Proof/Machine/Operands.lean ====
section
/-! DEFINITION. Operand access as the reference control store realises it (R312 to R315): the source into
`t`, the destination's old value into `mdr` with its place remembered, and the write-back.

The meanings run on the state after the FETCH cycle (`ir` loaded, `pc` past the opcode word). An extra
word's value is the one the instruction carries; reading it still moves it through `adr` and `mdr` and
advances `pc` as the table's words do (log 7). -/

namespace Sys2Proof.Machine

/-- The cycle that reads an extra word: `adr <- pc; mdr <- M[adr]; pc <- pc + 1` (R313, R314), `e` being
the word read. -/
def State.takeExtra (s : State) (e : Word) : State :=
  State.incPc { s.toAdr .sum 0 s.pc with mdr := e }

/-- R313: the source operand's value into `t`. -/
def fetchSource (o : Operand) (s : State) : Result :=
  let toT := fun (s : State) => Host.Outcome.next ((s.enter uSrcTmdr).toT .sum s.mdr 0)
  match o with
  | .immediate _ v => toT ((s.enter uSrcImm).takeExtra v)
  | .direct r =>
    let s := (s.enter uSrcDir).latchReg r
    .next (s.toT .sum (s.reg r) 0)
  | .indirect r =>
    let s := (s.enter uSrcInd).latchReg r
    andThen (memRead (s.toAdr .sum (s.reg r) 0)) toT
  | .indexed r e =>
    let s := (s.enter uSrcIdx).takeExtra e
    let s := (s.enter uSrcIdx2).latchReg r
    andThen (memRead (s.toAdr .sum (s.reg r) s.mdr)) toT

/-- R314: the operand's current value into `mdr`, its place remembered in `regsel` or `adr`. -/
def fetchDest (o : Operand) (s : State) : Result :=
  match o with
  | .immediate _ v => .next ((s.enter uDstImm).takeExtra v)
  | .direct r =>
    let s := (s.enter uDstDir).latchReg r
    .next (s.toMdr .sum 0 (s.reg r))
  | .indirect r =>
    let s := (s.enter uDstInd).latchReg r
    memRead (s.toAdr .sum 0 (s.reg r))
  | .indexed r e =>
    let s := (s.enter uDstIdx).takeExtra e
    let s := (s.enter uDstIdx2).latchReg r
    memRead (s.toAdr .sum s.mdr (s.reg r))

/-- R315: the write-back of `mdr` to the operand's place: WB.REG for a register, WB.MEM at `adr` otherwise;
then FETCH. -/
def writeBack (o : Operand) (s : State) : Result :=
  match o with
  | .direct r =>
    let s := s.enter uWbReg
    .next (s.toReg r .sum 0 s.mdr).toFetch
  | .immediate _ _ => andThen (memWrite (s.enter uWbMem)) fun s => .next s.toFetch
  | .indirect _ => andThen (memWrite (s.enter uWbMem)) fun s => .next s.toFetch
  | .indexed _ _ => andThen (memWrite (s.enter uWbMem)) fun s => .next s.toFetch

/-- R340 steps 1 to 3: the source, then the destination, then the opcode's own words. -/
def withOperands (src dst : Operand) (body : State → Result) (s : State) : Result :=
  andThen (fetchSource src s) fun s => andThen (fetchDest dst s) body

/-- An execute word that leaves its result in `mdr` and commits its flags (R321). -/
def State.compute (s : State) (u : MicroAddr) (op : Alu) (S D : Word) : State :=
  ((s.enter u).toMdr op S D).commit

/-- R340 for an opcode that writes and commits: `t` is the source, `mdr` the destination's old value. -/
def twoOperandResult (u : MicroAddr) (op : Alu) (src dst : Operand) (s : State) : Result :=
  withOperands src dst (fun s => writeBack dst (s.compute u op s.t s.mdr)) s

/-- R360 for a read-modify-write opcode with one execute word; `S` is the SBus value of that word. -/
def oneOperandResult (u : MicroAddr) (op : Alu) (S : Word) (dst : Operand) (s : State) : Result :=
  andThen (fetchDest dst s) fun s => writeBack dst (s.compute u op S s.mdr)

end Sys2Proof.Machine
end

