-- ==== Sys2Proof/Machine/OneOperand.lean ====
section
/-! DEFINITION. The ONE_OP instructions (45_isa_one_operand.md), on the state after the FETCH cycle. -/

namespace Sys2Proof.Machine

/-! ## Read-modify-write (R361 to R371) -/

/-- R361: zero is stored; the old value is read all the same. CLR.0 adds 0 and 0. -/
def execClr (dst : Operand) (s : State) : Result :=
  andThen (fetchDest dst s) fun s => writeBack dst (s.compute uClr0 .sum 0 0)

/-- R362: 0 minus the operand, in two words: `t <- mdr`, then `mdr <- 0 - t`. -/
def execNeg (dst : Operand) (s : State) : Result :=
  andThen (fetchDest dst s) fun s =>
  let s := (s.enter uNeg0).toT .sum s.mdr 0
  writeBack dst (s.compute uNeg1 .sub s.t 0)

/-- R363: the operand plus 1. -/
def execInc (dst : Operand) (s : State) : Result := oneOperandResult uInc0 .sum 1 dst s

/-- R364: the operand minus 1. -/
def execDec (dst : Operand) (s : State) : Result := oneOperandResult uDec0 .sub 1 dst s

/-- R365: arithmetic shift left. -/
def execAsl (dst : Operand) (s : State) : Result := oneOperandResult uAsl0 .asl 0 dst s

/-- R366: arithmetic shift right. -/
def execAsr (dst : Operand) (s : State) : Result := oneOperandResult uAsr0 .asr 0 dst s

/-- R367: logical shift right. -/
def execLsr (dst : Operand) (s : State) : Result := oneOperandResult uLsr0 .lsr 0 dst s

/-- R368: rotate left. -/
def execRol (dst : Operand) (s : State) : Result := oneOperandResult uRol0 .rol 0 dst s

/-- R369: rotate right. -/
def execRor (dst : Operand) (s : State) : Result := oneOperandResult uRor0 .ror 0 dst s

/-- R370: rotate left through the committed carry. -/
def execRlc (dst : Operand) (s : State) : Result := oneOperandResult uRlc0 .rlc 0 dst s

/-- R371: rotate right through the committed carry. -/
def execRrc (dst : Operand) (s : State) : Result := oneOperandResult uRrc0 .rrc 0 dst s

/-! ## Control transfer and stack (R372 to R375) -/

/-- R372: `pc` takes the operand's value. -/
def execJmp (target : Operand) (s : State) : Result :=
  andThen (fetchDest target s) fun s => .next ((s.enter uJmp0).toPc .sum 0 s.mdr).toFetch

/-- R373: push the address of the next instruction, then `pc` takes the operand's value, which was read
before the push. -/
def execCall (target : Operand) (s : State) : Result :=
  andThen (fetchDest target s) fun s =>
  let s := (s.enter uCall0).toT .sum s.mdr 0
  let s := (s.enter uCall1).toMdr .sum 0 s.pc
  andThen (pushMdr (s.enter uCall2)) fun s =>
  .next ((s.enter uCall3).toPc .sum s.t 0).toFetch

/-- R374: push the operand's value. -/
def execPush (src : Operand) (s : State) : Result :=
  andThen (fetchDest src s) fun s =>
  andThen (pushMdr (s.enter uPush0)) fun s => .next s.toFetch

/-- R318: the popped value, in `t`, to the destination, whose place is computed a second time. An IMMEDIATE
destination drops it. -/
def popTo (dst : Operand) (s : State) : Result :=
  let store := fun (s : State) =>
    andThen (memWrite ((s.enter uPopW).toMdr .sum s.t 0)) fun s => .next s.toFetch
  match dst with
  | .immediate _ _ => .next (s.enter uPopDstImm).toFetch
  | .direct r => .next ((s.enter uPopDstDir).toReg r .sum s.t 0).toFetch
  | .indirect r =>
    let s := (s.enter uPopDstInd).latchReg r
    store (s.toAdr .sum 0 (s.reg r))
  | .indexed r e =>
    let s := s.enter uPopDstIdx
    let s := { s.toAdr .sum 0xFFFF s.pc with mdr := e }
    let s := (s.enter uPopX2).latchReg r
    store (s.toAdr .sum s.mdr (s.reg r))

/-- R375: resolve the destination, pop into `t`, then store. -/
def execPop (dst : Operand) (s : State) : Result :=
  andThen (fetchDest dst s) fun s =>
  let s := (s.enter uPop0).incSp
  andThen (readTop (s.enter uPop1)) fun s =>
  popTo dst ((s.enter uPopC0).toT .sum s.mdr 0)

end Sys2Proof.Machine
end

