-- ==== Sys2Proof/Machine/Other.lean ====
section
/-! DEFINITION. The OTHER instructions (47_isa_other.md), on the state after the FETCH cycle. -/

namespace Sys2Proof.Machine

/-! ## Flag instructions (R411 to R420) -/

/-- R411. -/
def execClc (s : State) : Result := .next ((s.enter uClc0).setC false).toFetch

/-- R412. -/
def execClv (s : State) : Result := .next ((s.enter uClv0).setV false).toFetch

/-- R413. -/
def execClz (s : State) : Result := .next ((s.enter uClz0).setZ false).toFetch

/-- R414. -/
def execCls (s : State) : Result := .next ((s.enter uCls0).setS false).toFetch

/-- R415: C, V, Z, S cleared, a word each. -/
def execCcc (s : State) : Result :=
  let s := (s.enter uCcc0).setC false
  let s := (s.enter uCcc1).setV false
  let s := (s.enter uCcc2).setZ false
  .next ((s.enter uCcc3).setS false).toFetch

/-- R416. -/
def execSec (s : State) : Result := .next ((s.enter uSec0).setC true).toFetch

/-- R417. -/
def execSev (s : State) : Result := .next ((s.enter uSev0).setV true).toFetch

/-- R418. -/
def execSez (s : State) : Result := .next ((s.enter uSez0).setZ true).toFetch

/-- R419. -/
def execSes (s : State) : Result := .next ((s.enter uSes0).setS true).toFetch

/-- R420: C, V, Z, S set, a word each. -/
def execScc (s : State) : Result :=
  let s := (s.enter uScc0).setC true
  let s := (s.enter uScc1).setV true
  let s := (s.enter uScc2).setZ true
  .next ((s.enter uScc3).setS true).toFetch

/-! ## NOP, HALT, WAIT (R421, R424, R425) -/

/-- R421: nothing. -/
def execNop (s : State) : Result := .next (s.enter uNop0).toFetch

/-- R424: nothing; HALT stops nothing. -/
def execHalt (s : State) : Result := .next (s.enter uHalt0).toFetch

/-- R425: one WAIT.0 cycle: on to FETCH when the interrupt flag is pending, at WAIT.0 again when it is not,
where each further step is one more idle micro-cycle. -/
def execWait (s : State) : Result :=
  let s := s.enter uWait0
  .next (if s.intp then s.toFetch else s)

/-! ## Returns, and the stack operations on `pc` and flags (R422, R423, R426 to R429) -/

/-- The pop of RET and POPPC into `pc`, ending in RET.2 (R422, R427). -/
def popPc (first second : MicroAddr) (s : State) : Result :=
  let s := (s.enter first).incSp
  andThen (readTop (s.enter second)) fun s =>
  .next ((s.enter uRet2).toPc .sum 0 s.mdr).toFetch

/-- R422: `pc <- pop()`. -/
def execRet (s : State) : Result := popPc uRet0 uRet1 s

/-- R423: `pc <- pop()`, then the flags from the next popped word. -/
def execReti (s : State) : Result :=
  let s := (s.enter uReti0).incSp
  andThen (readTop (s.enter uReti1)) fun s =>
  let s := s.incSp
  let s := (s.enter uReti2).toPc .sum 0 s.mdr
  andThen (readTop (s.enter uReti3)) fun s =>
  .next ((s.enter uReti4).toFlags .sum 0 s.mdr).toFetch

/-- R426: push `pc`, the address of the next instruction. -/
def execPushpc (s : State) : Result :=
  let s := (s.enter uPushpc0).toMdr .sum 0 s.pc
  andThen (pushMdr (s.enter uPushpc1)) fun s => .next s.toFetch

/-- R427: `pc <- pop()`. -/
def execPoppc (s : State) : Result := popPc uPoppc0 uPoppc1 s

/-- R428: push the flag word. -/
def execPushflag (s : State) : Result :=
  let s := (s.enter uPushflag0).toMdr .sum 0 s.flags.word
  andThen (pushMdr (s.enter uPushflag1)) fun s => .next s.toFetch

/-- R429: the flags from the popped word. -/
def execPopflag (s : State) : Result :=
  let s := (s.enter uPopflag0).incSp
  andThen (readTop (s.enter uPopflag1)) fun s =>
  .next ((s.enter uPopflag2).toFlags .sum 0 s.mdr).toFetch

end Sys2Proof.Machine
end

