-- ==== Sys2Proof/Machine/TwoOperand.lean ====
section
/-! DEFINITION. The TWO_OP instructions (44_isa_two_operand.md), on the state after the FETCH cycle. -/

namespace Sys2Proof.Machine

/-- R341: the source is stored, no flag is committed. MOV.0 moves `t` to `mdr`. -/
def execMov (src dst : Operand) (s : State) : Result :=
  withOperands src dst (fun s => writeBack dst ((s.enter uMov0).toMdr .sum s.t 0)) s

/-- R342: destination plus source. -/
def execAdd (src dst : Operand) (s : State) : Result := twoOperandResult uAdd0 .sum src dst s

/-- R343: destination minus source. -/
def execSub (src dst : Operand) (s : State) : Result := twoOperandResult uSub0 .sub src dst s

/-- R344: the flags of destination minus source; nothing is stored. -/
def execCmp (src dst : Operand) (s : State) : Result :=
  withOperands src dst
    (fun s => .next ((s.enter uCmp0).aluOnly .sub s.t s.mdr).commit.toFetch) s

/-- R345: source and destination. -/
def execAnd (src dst : Operand) (s : State) : Result := twoOperandResult uAnd0 .and src dst s

/-- R346: source or destination. -/
def execOr (src dst : Operand) (s : State) : Result := twoOperandResult uOr0 .or src dst s

/-- R347: source exclusive-or destination. -/
def execXor (src dst : Operand) (s : State) : Result := twoOperandResult uXor0 .xor src dst s

end Sys2Proof.Machine
end

