-- ==== Sys2Proof/Machine/Dispatch.lean ====
section
/-! DEFINITION. The meaning of every instruction, one arm per constructor of `Instr`. `exec` runs on the state
after the FETCH cycle (R340): `ir` holds the opcode word and `pc` is past it. -/

namespace Sys2Proof.Machine

def exec (i : Instr) (s : State) : Host.Outcome State Fault Refusal :=
  match i with
  | .mov src dst => Sys2Proof.Machine.execMov src dst s
  | .add src dst => Sys2Proof.Machine.execAdd src dst s
  | .sub src dst => Sys2Proof.Machine.execSub src dst s
  | .cmp src dst => Sys2Proof.Machine.execCmp src dst s
  | .and src dst => Sys2Proof.Machine.execAnd src dst s
  | .or src dst => Sys2Proof.Machine.execOr src dst s
  | .xor src dst => Sys2Proof.Machine.execXor src dst s
  | .clr dst => Sys2Proof.Machine.execClr dst s
  | .neg dst => Sys2Proof.Machine.execNeg dst s
  | .inc dst => Sys2Proof.Machine.execInc dst s
  | .dec dst => Sys2Proof.Machine.execDec dst s
  | .asl dst => Sys2Proof.Machine.execAsl dst s
  | .asr dst => Sys2Proof.Machine.execAsr dst s
  | .lsr dst => Sys2Proof.Machine.execLsr dst s
  | .rol dst => Sys2Proof.Machine.execRol dst s
  | .ror dst => Sys2Proof.Machine.execRor dst s
  | .rlc dst => Sys2Proof.Machine.execRlc dst s
  | .rrc dst => Sys2Proof.Machine.execRrc dst s
  | .jmp target => Sys2Proof.Machine.execJmp target s
  | .call target => Sys2Proof.Machine.execCall target s
  | .push src => Sys2Proof.Machine.execPush src s
  | .pop dst => Sys2Proof.Machine.execPop dst s
  | .br offset => Sys2Proof.Machine.execBr offset s
  | .bne offset => Sys2Proof.Machine.execBne offset s
  | .beq offset => Sys2Proof.Machine.execBeq offset s
  | .bpl offset => Sys2Proof.Machine.execBpl offset s
  | .bmi offset => Sys2Proof.Machine.execBmi offset s
  | .bcs offset => Sys2Proof.Machine.execBcs offset s
  | .bcc offset => Sys2Proof.Machine.execBcc offset s
  | .bvs offset => Sys2Proof.Machine.execBvs offset s
  | .bvc offset => Sys2Proof.Machine.execBvc offset s
  | .clc => Sys2Proof.Machine.execClc s
  | .clv => Sys2Proof.Machine.execClv s
  | .clz => Sys2Proof.Machine.execClz s
  | .cls => Sys2Proof.Machine.execCls s
  | .ccc => Sys2Proof.Machine.execCcc s
  | .sec => Sys2Proof.Machine.execSec s
  | .sev => Sys2Proof.Machine.execSev s
  | .sez => Sys2Proof.Machine.execSez s
  | .ses => Sys2Proof.Machine.execSes s
  | .scc => Sys2Proof.Machine.execScc s
  | .nop => Sys2Proof.Machine.execNop s
  | .ret => Sys2Proof.Machine.execRet s
  | .reti => Sys2Proof.Machine.execReti s
  | .halt => Sys2Proof.Machine.execHalt s
  | .wait => Sys2Proof.Machine.execWait s
  | .pushpc => Sys2Proof.Machine.execPushpc s
  | .poppc => Sys2Proof.Machine.execPoppc s
  | .pushflag => Sys2Proof.Machine.execPushflag s
  | .popflag => Sys2Proof.Machine.execPopflag s

end Sys2Proof.Machine
end

