-- ==== Sys2Proof/Machine/Sequencer.lean ====
section
/-! DEFINITION. The Sequencer: one micro-cycle of ten stages (41, 42) for any configuration of opcode table,
numberings and control store (R3), the micro-cycle of the reference instance, and bounded runs (R470). -/

namespace Sys2Proof.Machine

/-! ## Stage 2: SBus (R191 to R198) -/

/-- The SBus value, and the state with `regsel` latched where the selector reads a register. -/
def sbusStage (sel : SBus) (s : State) : Word × State :=
  match sel with
  | .none => (0, s)
  | .zero => (0, s)
  | .reg => (s.reg (regSrcField s.ir), s.latchReg (regSrcField s.ir))
  | .t => (s.t, s)
  | .mdr => (s.mdr, s)
  | .irOffset => (extendOffset s.params.brOffsetSigned (offsetField s.ir), s)
  | .minusOne => (0xFFFF, s)
  | .one => (1, s)

/-! ## Stage 3: DBus (R200 to R208) -/

/-- The DBus value, and the state with `regsel` latched where the selector reads a register. -/
def dbusStage (sel : DBus) (s : State) : Word × State :=
  match sel with
  | .none => (0, s)
  | .zero => (0, s)
  | .pc => (s.pc, s)
  | .reg => (s.reg (regDstField s.ir), s.latchReg (regDstField s.ir))
  | .mdr => (s.mdr, s)
  | .notMdr => (s.mdr ^^^ 0xFFFF, s)
  | .t => (s.t, s)
  | .sp => (s.sp, s)
  | .flags => (s.flags.word, s)

/-! ## Stage 4: ALU (R210 to R214) -/

/-- The result, if the operation gives one, and the state with `PF` overwritten by it. -/
def aluStage (op : Alu) (S D : Word) (s : State) : Option Word × State :=
  match alu op S D s.flags.c with
  | none => (none, s)
  | some (res, pf) => (some res, { s with pending := pf })

/-! ## Stage 5: RBus (R230 to R237, R251) -/

/-- Write the ALU result to the selected latch. A `RBus.REG` that has neither an ALU result (U5) nor a latched
register (U6) answers U5: DESIGN CHOICE (log 24), the spec gives the two no order. -/
def rbusStage (sel : RBus) (res : Option Word) (s : State) : Result :=
  match sel, res with
  | .none, _ => .next s
  | _, none => .fault (.noAluResult s)
  | .adr, some v => .next { s with adr := v }
  | .t, some v => .next { s with t := v }
  | .mdr, some v => .next { s with mdr := v }
  | .reg, some v =>
    match s.regsel with
    | none => .fault (.registerNotLatched s)
    | some r => .next (s.setReg r v)
  | .pc, some v => .next { s with pc := v }
  | .flags, some v => .next { s with flags := Flags.ofWord v }

/-! ## Stage 6: Mem (R229, R232, R239, R244) -/

/-- The memory operation. -/
def memStage (sel : MemOp) (s : State) : Result :=
  match sel with
  | .none => .next s
  | .ifch => fetchIr s
  | .read => memRead s
  | .write => memWrite s

/-! ## Stage 7: Misc (R240 to R247) -/

/-- The side effect. -/
def miscStage (sel : Misc) (s : State) : Result :=
  match sel with
  | .none => .next s
  | .incPc => .next s.incPc
  | .setZ => .next (s.setZ true)
  | .clrZ => .next (s.setZ false)
  | .setC => .next (s.setC true)
  | .clrC => .next (s.setC false)
  | .setV => .next (s.setV true)
  | .clrV => .next (s.setV false)
  | .setS => .next (s.setS true)
  | .clrS => .next (s.setS false)
  | .cond => .next s.commit
  | .incSp => .next s.incSp
  | .decSp => decSp s

/-! ## Stage 8: Cond (R260 to R267) -/

/-- Whether the condition holds. It changes no state. -/
def condHolds (c : Codes) (sel : Cond) (s : State) : Bool :=
  match sel with
  | .always => true
  | .noOp => group s.ir == .other
  | .oneOp => group s.ir == .oneOp
  | .regDest => modeDstField s.ir == c.modeCode .direct
  | .int => s.intp
  | .z => s.flags.z
  | .nz => !s.flags.z
  | .s => s.flags.s
  | .ns => !s.flags.s
  | .v => s.flags.v
  | .nv => !s.flags.v
  | .c => s.flags.c
  | .nc => !s.flags.c
  | .branch => group s.ir == .branch

/-! ## Stage 9: Index (R270 to R282) -/

/-- R278 to R280: the distance of the word's opcode to its group's reference opcode, scaled by the slot
width; for a ONE_OP opcode above CALL one slot more. -/
def opcodeDistance (c : Codes) (w : Word) : Nat :=
  match group w with
  | .branch => 2 * (opcode w - c.branch.base)
  | .other => 2 * (opcode w - c.other.base)
  | .oneOp => 2 * (opcode w - c.oneOp.base) + (if opcode w > c.oneOp.value .call then 2 else 0)
  | .twoOp => 2 * (opcode w - c.twoOp.base)

/-- An opcode-distance selector that serves the groups of `serves`: U7 on a word of another group (R282),
U1 on a reserved opcode (R128). A reserved word of another group, under both, answers U7: DESIGN CHOICE
(log 24), the spec gives the two no order. -/
def distanceIndex (c : Codes) (serves : Group → Bool) (s : State) : Except Fault Nat :=
  if !serves (group s.ir) then .error (.wrongGroupIndex s)
  else if !c.opcodeDefined s.ir then .error (.reservedOpcode s)
  else .ok (opcodeDistance c s.ir)

/-- The displacement of an index selector. It changes no state. -/
def indexValue (c : Codes) (sel : Index) (s : State) : Except Fault Nat :=
  match sel with
  | .none => .ok 0
  | .mas => .ok (modeSrcField s.ir).toNat
  | .mad => .ok (modeDstField s.ir).toNat
  | .opcode => distanceIndex c (fun g => g == .branch || g == .other) s
  | .oneOp => distanceIndex c (fun g => g == .oneOp) s
  | .twoOp => distanceIndex c (fun g => g == .twoOp) s

/-! ## Stages 8 to 10: the next micro-address (R285) -/

/-- `upc <- addr + ix` for the pair the condition chooses. -/
def nextAddress (c : Codes) (m : MicroInstr) (s : State) : Result :=
  let pair := if condHolds c m.cond s then (m.addressTrue, m.indexTrue)
    else (m.addressFalse, m.indexFalse)
  match indexValue c pair.2 s with
  | .error f => .fault f
  | .ok ix => .next { s with upc := BitVec.ofNat 8 (pair.1 + ix) }

/-! ## The micro-cycle (R190) -/

/-- Stages 2 to 10 of a latched micro-instruction, in order; each stage sees the state the stages before it
left (R190, R478). -/
def runMicro (c : Codes) (m : MicroInstr) (s : State) : Result :=
  let (S, s) := sbusStage m.sbus s
  let (D, s) := dbusStage m.dbus s
  let (res, s) := aluStage m.alu S D s
  andThen (rbusStage m.rbus res s) fun s =>
  andThen (memStage m.mem s) fun s =>
  andThen (miscStage m.misc s) fun s =>
  nextAddress c m s

/-- R190: one micro-cycle under a configuration. Stage 1 faults with U2 beyond the store (R199) and with U4
on a reserved selector code. -/
def microCycle (k : Setup) (s : State) : Result :=
  match k.rom[s.upc.toNat]? with
  | none => .fault (.microAddress s)
  | some w =>
    let s := { s with cw := some w }
    match k.selectors.ofWord w with
    | none => .fault (.reservedSelector s)
    | some m => runMicro k.codes m s

/-- One micro-cycle of the reference instance: the spec's `step()` (R470). -/
def microStep (s : State) : Result := microCycle Setup.reference s

/-- R470: `run(n)` under a configuration: micro-cycles until one ends in a fault, or until n have completed.
`next` stands for the outcome CycleBound, with the state reached (log 21). -/
def runCycles (k : Setup) : Nat → State → Result
  | 0, s => .next s
  | n + 1, s => andThen (microCycle k s) (runCycles k n)

/-- R470: `run(n)` of the reference instance. -/
def run (n : Nat) (s : State) : Result := runCycles Setup.reference n s

end Sys2Proof.Machine
end

