-- ==== Sys2Proof/Machine/Fetch.lean ====
section
/-! DEFINITION. The fetch of a whole instruction at an instruction boundary, and the placing of one there. -/

namespace Sys2Proof.Machine

/-- The up to three words an instruction at `pc` can consist of: the cells at `pc`, `pc + 1` and `pc + 2`
(modulo 65536, as INC_PC wraps, R241), as far as they exist (R66). -/
def State.fetchWords (s : State) : List Word :=
  (List.takeWhile s.inMemory [s.pc, s.pc + 1, s.pc + 2]).map fun a => s.mem.read a.toNat

/-- The instruction a step at this state runs whole: `upc` is at the fetch word, the fetch does not raise
ProgramEnd (R232), and the words at `pc` decode. -/
def State.nextInstr (s : State) : Option Instr :=
  if s.upc = uFetch ∧ s.pc.toNat < s.params.stackBase then
    match decodeWords s.fetchWords with
    | .ok (i, _) => some i
    | .error _ => none
  else none

/-- The state after the FETCH cycle: `ir <- M[pc]; pc <- pc + 1` (R312, R340). -/
def State.fetched (s : State) : State :=
  State.incPc { s.enter uFetch with ir := s.mem.read s.pc.toNat }

/-- Words placed in consecutive cells from an address on, the address wrapping as `pc` does. -/
def Memory.placeAt : Memory → Word → List Word → Memory
  | m, _, [] => m
  | m, a, w :: ws => Memory.placeAt (Memory.write m a.toNat w) (a + 1) ws

/-- The state with words placed at `pc` and `upc` at the fetch word. -/
def State.placeInstr (s : State) (ws : List Word) : State :=
  { s with mem := Memory.placeAt s.mem s.pc ws, upc := uFetch }

end Sys2Proof.Machine
end

