-- ==== Sys2Proof/Machine/Step.lean ====
section
/-! DEFINITION. The step. At an instruction boundary (`upc` at the fetch word) where a whole instruction can be
fetched and decoded, a step is that instruction: the FETCH cycle and then its meaning. Everywhere else a step
is one micro-cycle of the reference control store: the idle word after reset, the cycles of a WAIT that waits,
a fetch that raises ProgramEnd, and a word that decodes to no instruction (log 1). -/

namespace Sys2Proof.Machine

/-- One step of the machine. -/
def step (s : State) : Host.Outcome State Fault Refusal :=
  match s.nextInstr with
  | some i => exec i s.fetched
  | none => microStep s

/-- The state with an instruction, given as a number, placed where the next fetch reads it: its words in the
cells from `pc` on, and `upc` at the fetch word (log 2). -/
def State.withFetchWord (s : State) (nbits w : Nat) : State :=
  s.placeInstr (tableWords nbits w)

end Sys2Proof.Machine
end

