-- ==== Sys2Proof/Machine/Boot.lean ====
section
/-! DEFINITION. The host's operations between micro-cycles (R470): `reset(P)`, with its policy for refused
addressing modes, and `set_int(b)`. -/

namespace Sys2Proof.Machine

/-- R452, R470: `set_int(b)`, the only writer of the pending-interrupt flag. -/
def setInt (b : Bool) (s : State) : State := { s with intp := b }

/-- The state R471 gives for a program and parameters that fit. -/
def bootState (params : Params) (program : List Word) : State where
  regs := Vector.replicate 16 0
  pc := 0
  sp := BitVec.ofNat 16 (params.memSize - 1)
  ir := 0
  adr := 0
  mdr := 0
  t := 0
  flags := {}
  pending := {}
  intp := false
  regsel := none
  upc := 0
  cw := none
  mem := Memory.writeWords [] 0 program
  params := params

/-- R471, R6: the `require` of `reset(P)`: STACK_SIZE >= 1 and L + STACK_SIZE <= MEM_SIZE <= 65536. -/
abbrev programFits (params : Params) (program : List Word) : Prop :=
  1 ≤ params.stackSize ∧ program.length + params.stackSize ≤ params.memSize ∧ params.memSize ≤ 65536

/-- R471: `reset(P)`; a program that does not fit is refused (log 18). -/
def boot (params : Params) (program : List Word) : Result :=
  if programFits params program then .next (bootState params program)
  else .refused .imageDoesNotFit

/-- R61, R473: the default MEM_SIZE for a program, L + STACK_SIZE. -/
def defaultParams (stackSize : Nat) (program : List Word) : Params where
  memSize := program.length + stackSize
  stackSize := stackSize
  brOffsetSigned := false

/-- U8: the address of the first opcode word of a program whose addressing mode the encoder refuses, found from
address 0 on, instruction after instruction, by the length each opcode word announces (R99). A word of reserved
opcode ends the search, since no boundary is known after it (log 12). `fuel` bounds the number of instructions;
the program's length is enough. -/
def firstIllegal (c : Codes) (extra : List (AddrMode × AddrMode)) : Nat → Nat → List Word → Option Nat
  | 0, _, _ => none
  | _ + 1, _, [] => none
  | fuel + 1, at_, w :: ws =>
    if !c.opcodeDefined w then none
    else if c.modeRefused extra w then some at_
    else firstIllegal c extra fuel (at_ + c.instrLength w) ((w :: ws).drop (c.instrLength w))

/-- U8, R470: `reset(P)` under an ILLEGAL_MODE_POLICY: `follow` loads every program that fits; `refuse`
rejects one with a recognisable illegal word. A program that holds such a word and does not fit either is
reported for the word: DESIGN CHOICE (log 12), the spec gives the two refusals no order. -/
def bootUnder (policy : IllegalModePolicy) (c : Codes) (extra : List (AddrMode × AddrMode))
    (params : Params) (program : List Word) : Result :=
  match policy with
  | .follow => boot params program
  | .refuse =>
    match firstIllegal c extra program.length 0 program with
    | some a => .refused (.illegalModeInProgram a)
    | none => boot params program

end Sys2Proof.Machine
end

