-- ==== Sys2Proof/Machine/Cycles.lean ====
section
/-! DEFINITION. Micro-cycles per instruction under the reference control store (R325), FETCH included. -/

namespace Sys2Proof.Machine

/-- `s` of R325: the cycles of the source fetch. -/
def sourceCycles : Operand → Nat
  | .immediate _ _ => 2
  | .direct _ => 1
  | .indirect _ => 2
  | .indexed _ _ => 3

/-- `d` of R325: the cycles of the destination fetch. -/
def destCycles : Operand → Nat
  | .immediate _ _ => 1
  | .direct _ => 1
  | .indirect _ => 1
  | .indexed _ _ => 2

/-- The last part of POP's count (R325): the cycles that store the popped value. -/
def popStoreCycles : Operand → Nat
  | .immediate _ _ => 1
  | .direct _ => 1
  | .indirect _ => 2
  | .indexed _ _ => 3

/-- A branch: 4 cycles when not taken, 5 when a conditional branch is taken. -/
def branchCycles (taken : Bool) : Nat := if taken then 5 else 4

/-- R325: the micro-cycles of an instruction, from its FETCH cycle to the last cycle before the next FETCH,
given the state it starts in. WAIT counts one WAIT.0 cycle, the one after which it goes on when `intp` = 1. -/
def cycles (i : Instr) (s : State) : Nat :=
  match i with
  | .mov src dst => 3 + sourceCycles src + destCycles dst + 1 + 1
  | .add src dst => 3 + sourceCycles src + destCycles dst + 1 + 1
  | .sub src dst => 3 + sourceCycles src + destCycles dst + 1 + 1
  | .cmp src dst => 3 + sourceCycles src + destCycles dst + 1
  | .and src dst => 3 + sourceCycles src + destCycles dst + 1 + 1
  | .or src dst => 3 + sourceCycles src + destCycles dst + 1 + 1
  | .xor src dst => 3 + sourceCycles src + destCycles dst + 1 + 1
  | .clr dst => 2 + destCycles dst + 1 + 1
  | .neg dst => 2 + destCycles dst + 2 + 1
  | .inc dst => 2 + destCycles dst + 1 + 1
  | .dec dst => 2 + destCycles dst + 1 + 1
  | .asl dst => 2 + destCycles dst + 1 + 1
  | .asr dst => 2 + destCycles dst + 1 + 1
  | .lsr dst => 2 + destCycles dst + 1 + 1
  | .rol dst => 2 + destCycles dst + 1 + 1
  | .ror dst => 2 + destCycles dst + 1 + 1
  | .rlc dst => 2 + destCycles dst + 1 + 1
  | .rrc dst => 2 + destCycles dst + 1 + 1
  | .jmp dst => 2 + destCycles dst + 1
  | .call dst => 2 + destCycles dst + 4
  | .push dst => 2 + destCycles dst + 1
  | .pop dst => 2 + destCycles dst + 3 + popStoreCycles dst
  | .br _ => 4
  | .bne _ => branchCycles (!s.flags.z)
  | .beq _ => branchCycles s.flags.z
  | .bpl _ => branchCycles (!s.flags.s)
  | .bmi _ => branchCycles s.flags.s
  | .bcs _ => branchCycles s.flags.c
  | .bcc _ => branchCycles (!s.flags.c)
  | .bvs _ => branchCycles s.flags.v
  | .bvc _ => branchCycles (!s.flags.v)
  | .clc => 2
  | .clv => 2
  | .clz => 2
  | .cls => 2
  | .ccc => 5
  | .sec => 2
  | .sev => 2
  | .sez => 2
  | .ses => 2
  | .scc => 5
  | .nop => 2
  | .ret => 4
  | .reti => 6
  | .halt => 2
  | .wait => 2
  | .pushpc => 3
  | .poppc => 4
  | .pushflag => 3
  | .popflag => 4

end Sys2Proof.Machine
end

