-- ==== Sys2Proof/Machine/StorePaths.lean ====
section
/-! DEFINITION. The paths of a control store: a walk over every abstract situation that the store can reach from its
word 0 with words of the opcode table in `ir` (R301, R303, R305). What a situation keeps of the machine is the
model's choice (log 23). -/

namespace Sys2Proof.Machine

/-! ## Sets of numbers -/

/-- A set of numbers, as a tree that branches by their bits, the lowest first, as far as it takes to tell them
apart. -/
inductive KeySet where
  | empty
  | leaf (rest : Nat)
  | node (even odd : KeySet)
deriving DecidableEq, Repr

/-- Whether a number is in the set. -/
def KeySet.has : KeySet → Nat → Bool
  | .empty, _ => false
  | .leaf rest, n => rest == n
  | .node even odd, n => if n % 2 = 0 then even.has (n / 2) else odd.has (n / 2)

/-- A set passed on as a constructor term, so that an evaluation by the kernel does its work once. -/
def KeySet.forced {α : Type} (t : KeySet) (f : KeySet → α) : α :=
  match t with
  | .empty => f .empty
  | .leaf rest => f (.leaf rest)
  | .node even odd => f (.node even odd)

/-- The set with a number added; a number longer than `fuel` bits may be left out. -/
def KeySet.add : Nat → KeySet → Nat → KeySet
  | 0, t, _ => t
  | _ + 1, .empty, n => .leaf n
  | fuel + 1, .leaf rest, n =>
    if rest = n then .leaf rest
    else
      let (even, odd) : KeySet × KeySet :=
        if rest % 2 = 0 then (.leaf (rest / 2), .empty) else (.empty, .leaf (rest / 2))
      if n % 2 = 0 then (KeySet.add fuel even (n / 2)).forced fun t => .node t odd
      else (KeySet.add fuel odd (n / 2)).forced fun t => .node even t
  | fuel + 1, .node even odd, n =>
    if n % 2 = 0 then (KeySet.add fuel even (n / 2)).forced fun t => .node t odd
    else (KeySet.add fuel odd (n / 2)).forced fun t => .node even t

/-! ## Situations -/

/-- What the walk knows of a set of flags: a value, or nothing; and, where `apart` is set, that Z and S are not
both set, as no result is zero and negative (R212). -/
structure KnownFlags where
  z : Option Bool := none
  c : Option Bool := none
  v : Option Bool := none
  s : Option Bool := none
  apart : Bool := false
deriving DecidableEq, Repr

/-- Flags of which all is known. -/
def KnownFlags.ofFlags (f : Flags) : KnownFlags :=
  { z := some f.z, c := some f.c, v := some f.v, s := some f.s, apart := !(f.z && f.s) }

/-- What the walk knows of a moment of the machine: the micro-address; a word that stands for `ir` (`indexCan`); the field of `ir` whose register the latest REG read since the last fetch has latched, if
there was one; whether `regsel` may name a register; the committed and the pending flags; the values of `t` and
`mdr`. -/
structure Situation where
  upc : Nat
  ir : Word
  latched : Option RegField := none
  named : Bool := true
  flags : KnownFlags := {}
  pending : KnownFlags := {}
  t : Option Word := none
  mdr : Option Word := none
deriving DecidableEq, Repr

/-- What a walk keeps: `certificate` the group and MAD of `ir`, the latched field, and the committed flags until the
next fetch; `control` opcode and mode fields of `ir`, whether `regsel` may name a register, and the flags; `data` the
values of `t` and `mdr` too. -/
inductive Precision where
  | certificate | control | data
deriving DecidableEq, Repr

/-- One word of the opcode table for each opcode and each value of MAS and MAD that its words can hold. -/
def classWords (c : Codes) : List Word :=
  let fields : List Nat := [0, 1, 2, 3]
  let opcodes (base count : Nat) : List Nat := (List.range count).map (base + ·)
  (((opcodes c.twoOp.base c.twoOp.ops.length).flatMap fun op =>
        fields.flatMap fun mas => fields.map fun mad => op * 2 ^ 12 + mas * 2 ^ 10 + mad * 2 ^ 4)
    ++ ((opcodes c.oneOp.base c.oneOp.ops.length).flatMap fun op => fields.map fun mad => op * 2 ^ 6 + mad * 2 ^ 4)
    ++ ((opcodes c.branch.base c.branch.ops.length).flatMap fun op =>
        fields.map fun mad => op * 2 ^ 8 + mad * 2 ^ 4)
    ++ opcodes c.other.base c.other.ops.length).map (BitVec.ofNat 16)

/-- One word for each group and each value of MAD, reserved opcodes not excluded. -/
def groupWords : List Word :=
  [0x0000, 0x8000, 0xC000, 0xE000].flatMap fun g => [0x00, 0x10, 0x20, 0x30].map (g ||| ·)

/-! ## Conditions and indices -/

/-- The outcomes, true and false, that a flag condition wanting a value can have. -/
def wants (value : Bool) (known : Option Bool) : Bool × Bool :=
  match known with
  | none => (true, true)
  | some b => (b == value, b != value)

/-- Whether a condition can come out true and can come out false in a situation. -/
def condCan (c : Codes) (sel : Cond) (q : Situation) : Bool × Bool :=
  let known (b : Bool) : Bool × Bool := (b, !b)
  match sel with
  | .always => (true, false)
  | .noOp => known (group q.ir == .other)
  | .oneOp => known (group q.ir == .oneOp)
  | .branch => known (group q.ir == .branch)
  | .regDest => known (modeDstField q.ir == c.modeCode .direct)
  | .int => (true, true)
  | .z => wants true q.flags.z
  | .nz => wants false q.flags.z
  | .s => wants true q.flags.s
  | .ns => wants false q.flags.s
  | .v => wants true q.flags.v
  | .nv => wants false q.flags.v
  | .c => wants true q.flags.c
  | .nc => wants false q.flags.c

/-- The knowledge with the value of Z, and with S clear where a set Z says so. -/
def KnownFlags.withZ (b : Bool) (f : KnownFlags) : KnownFlags :=
  { f with z := some b, s := if b && f.apart then some false else f.s }

/-- The knowledge with the value of S, and with Z clear where a set S says so. -/
def KnownFlags.withS (b : Bool) (f : KnownFlags) : KnownFlags :=
  { f with s := some b, z := if b && f.apart then some false else f.z }

/-- What a condition's outcome tells of the committed flags (R266). -/
def learn (sel : Cond) (outcome : Bool) (f : KnownFlags) : KnownFlags :=
  match sel with
  | .z => f.withZ outcome
  | .nz => f.withZ !outcome
  | .s => f.withS outcome
  | .ns => f.withS !outcome
  | .v => { f with v := some outcome }
  | .nv => { f with v := some !outcome }
  | .c => { f with c := some outcome }
  | .nc => { f with c := some !outcome }
  | .always | .noOp | .oneOp | .branch | .regDest | .int => f

/-- The distances of a group's opcodes to its reference opcode, scaled by the slot width (R278 to R280). -/
def groupDistances (c : Codes) (g : Group) : List Nat :=
  match g with
  | .branch => (List.range c.branch.ops.length).map (2 * ·)
  | .other => (List.range c.other.ops.length).map (2 * ·)
  | .oneOp => (List.range c.oneOp.ops.length).map fun i =>
      2 * i + (if c.oneOp.base + i > c.oneOp.value .call then 2 else 0)
  | .twoOp => (List.range c.twoOp.ops.length).map (2 * ·)

/-- The values an index selector can take on the words that `w` stands for; `none` when the selector is not defined
for their group (R282). For a certificate `w` stands for all words of its group and MAD, otherwise for those that
agree with it in opcode and MAS too. A reserved opcode, which `ir` holds only where a table does not list the word 0,
ends the run (U1). -/
def indexCan (c : Codes) (p : Precision) (ix : Index) (w : Word) : Option (List Nat) :=
  if p = .certificate then
    match ix with
    | .none => some [0]
    | .mas => some [0, 1, 2, 3]
    | .mad => some [(modeDstField w).toNat]
    | .opcode => if group w = .branch ∨ group w = .other then some (groupDistances c (group w)) else none
    | .oneOp => if group w = .oneOp then some (groupDistances c .oneOp) else none
    | .twoOp => if group w = .twoOp then some (groupDistances c .twoOp) else none
  else
    match indexValue c ix { State.reset with ir := w } with
    | .ok v => some [v]
    | .error (.reservedOpcode _) => some []
    | .error _ => none

/-! ## The stages -/

/-- The SBus value, where it is known. -/
def sbusKnown (sel : SBus) (q : Situation) : Option Word :=
  match sel with
  | .none => some 0
  | .zero => some 0
  | .reg => none
  | .t => q.t
  | .mdr => q.mdr
  | .irOffset => none
  | .minusOne => some 0xFFFF
  | .one => some 1

/-- The DBus value, where it is known. -/
def dbusKnown (sel : DBus) (q : Situation) : Option Word :=
  match sel with
  | .none => some 0
  | .zero => some 0
  | .pc => none
  | .reg => none
  | .mdr => q.mdr
  | .notMdr => q.mdr.map (· ^^^ 0xFFFF)
  | .t => q.t
  | .sp => none
  | .flags => none

/-- The operands of a word's ALU operation, where they are known. A latch that is subtracted from itself, or
exclusive-ored with itself, gives what 0 gives. -/
def operandsKnown (m : MicroInstr) (q : Situation) : Option Word × Option Word :=
  let twice := (m.sbus == .t && m.dbus == .t) || (m.sbus == .mdr && m.dbus == .mdr)
  if twice && (m.alu == .sub || m.alu == .xor) then (some 0, some 0)
  else (sbusKnown m.sbus q, dbusKnown m.dbus q)

/-- What is known of an operation's pending flags whatever its operands (R217 to R227). -/
def openFlags (op : Alu) : KnownFlags :=
  match op with
  | .none | .sum | .sub | .asl => { apart := true }
  | .and | .or | .xor => { c := some false, v := some false, apart := true }
  | .asr | .rol | .ror | .rlc | .rrc => { v := some false, apart := true }
  | .lsr => { v := some false, s := some false, apart := true }

/-- The result of an ALU operation, where it is known, and what is known of its pending flags. -/
def aluKnown (op : Alu) (S D : Option Word) (carry : Option Bool) : Option Word × KnownFlags :=
  let exact (S D : Word) (carry : Bool) : Option Word × KnownFlags :=
    match alu op S D carry with
    | none => (none, openFlags op)
    | some (res, pf) => (some res, .ofFlags pf)
  match op, S, D, carry with
  | .none, _, _, _ => (none, openFlags op)
  | .sum, some S, some D, _ => exact S D false
  | .sub, some S, some D, _ => exact S D false
  | .and, some S, some D, _ => exact S D false
  | .or, some S, some D, _ => exact S D false
  | .xor, some S, some D, _ => exact S D false
  | .asl, _, some D, _ => exact 0 D false
  | .asr, _, some D, _ => exact 0 D false
  | .lsr, _, some D, _ => exact 0 D false
  | .rol, _, some D, _ => exact 0 D false
  | .ror, _, some D, _ => exact 0 D false
  | .rlc, _, some D, some b => exact 0 D b
  | .rrc, _, some D, some b => exact 0 D b
  | _, _, _, _ => (none, openFlags op)

/-- What is known of the committed flags after a word's `Misc`: a commit takes the pending ones, a flag operation
fixes one. -/
def miscKnown (sel : Misc) (pending f : KnownFlags) : KnownFlags :=
  match sel with
  | .setZ => { f with z := some true, apart := f.s == some false }
  | .clrZ => { f with z := some false, apart := true }
  | .setC => { f with c := some true }
  | .clrC => { f with c := some false }
  | .setV => { f with v := some true }
  | .clrV => { f with v := some false }
  | .setS => { f with s := some true, apart := f.z == some false }
  | .clrS => { f with s := some false, apart := true }
  | .cond => pending
  | .none | .incPc | .incSp | .decSp => f

/-- The field latched after stages 2 and 3: the later stage's read is the latest (R31). -/
def latchedAfter (m : MicroInstr) (before : Option RegField) : Option RegField :=
  if m.dbus = .reg then some .destination else if m.sbus = .reg then some .source else before

/-- The situation after a word's stages 2 to 7, its fetch apart. -/
def afterData (m : MicroInstr) (q : Situation) : Situation :=
  let (S, D) := operandsKnown m q
  let (res, pf) := aluKnown m.alu S D q.flags.c
  let pending := if m.alu = .none then q.pending else pf
  let flags : KnownFlags := if m.rbus = .flags then
      match res with
      | none => {}
      | some w => .ofFlags (Flags.ofWord w)
    else q.flags
  { q with
    latched := latchedAfter m q.latched
    named := q.named || m.sbus == .reg || m.dbus == .reg
    pending
    flags := miscKnown m.misc pending flags
    t := if m.rbus = .t then res else q.t
    mdr := if m.mem = .read then none else if m.rbus = .mdr then res else q.mdr }

/-- The part of a situation that a walk keeps; `fetched` says whether the word has fetched. A fetch forgets what was
latched (R305). -/
def Precision.keep (p : Precision) (fetched : Bool) (q : Situation) : Situation :=
  match p with
  | .certificate =>
    { upc := q.upc, ir := q.ir, latched := if fetched then none else q.latched
      flags := if fetched then {} else q.flags }
  | .control => { upc := q.upc, ir := q.ir, named := q.named, flags := q.flags, pending := q.pending }
  | .data => { q with latched := none }

/-- The situations a word can be in after its own stage 7: one for each class of word after a fetch, one
otherwise; none where the word writes a register and `regsel` names none, which ends the run (U6). -/
def afterStages (k : Setup) (p : Precision) (m : MicroInstr) (q : Situation) : List Situation :=
  let after := afterData m q
  let kept := p.keep (m.mem == .ifch) after
  if m.rbus = .reg && !after.named then []
  else if m.mem = .ifch then
    (if p = .certificate then groupWords else classWords k.codes).map fun w => { kept with ir := w }
  else [kept]

/-- R305: the field whose register a word's `RBus.REG` is meant for. -/
def Setup.writesField (k : Setup) (address : Nat) : RegField :=
  if k.sourceWrites.contains address then .source else .destination

/-- Whether the word at a micro-address fetches. -/
def Setup.fetchesAt (k : Setup) (address : Nat) : Bool :=
  ((k.rom[address]?).bind k.selectors.ofWord).any fun m => m.mem == .ifch

/-- A situation on its way to a word. What `ir` holds is forgotten before a fetch, which replaces it before the
word's condition and index look at it. -/
def Situation.enter (k : Setup) (address : Nat) (q : Situation) : Situation :=
  { q with upc := address, ir := if k.fetchesAt address then 0 else q.ir }

/-- The situations one (address, index) pair leads to; `none` when the selector is on the wrong group (R303) or a
sum lies beyond the store (R301). -/
def pairSuccessors (k : Setup) (p : Precision) (q : Situation) (addr : Nat) (ix : Index) : Option (List Situation) :=
  match indexCan k.codes p ix q.ir with
  | none => none
  | some values =>
    if values.all fun v => addr + v < k.rom.length then some (values.map fun v => q.enter k (addr + v)) else none

/-- The situations that all answers of a list lead to; `none` when one answers none. -/
def gather : List (Option (List Situation)) → Option (List Situation)
  | [] => some []
  | none :: _ => none
  | some qs :: rest =>
    match gather rest with
    | none => none
    | some more => some (qs ++ more)

/-- The answers of a word's two pairs in a situation after its stage 7, of each that can be chosen. -/
def branches (k : Setup) (p : Precision) (m : MicroInstr) (q : Situation) : List (Option (List Situation)) :=
  let can := condCan k.codes m.cond q
  (if can.1 then
      [pairSuccessors k p { q with flags := learn m.cond true q.flags } m.addressTrue m.indexTrue]
    else [])
    ++ (if can.2 then
        [pairSuccessors k p { q with flags := learn m.cond false q.flags } m.addressFalse m.indexFalse]
      else [])

/-- Whether a word's register write, if it makes one, is prepared: the latest REG read since the last fetch has
latched the intended field (R305). -/
def writePrepared (k : Setup) (address : Nat) (m : MicroInstr) (latched : Option RegField) : Bool :=
  m.rbus != .reg || latchedAfter m latched == some (k.writesField address)

/-- The situations a word can lead to; `none` when one of its pairs does not pass, or, for a certificate, when it
writes a register unprepared. -/
def successors (k : Setup) (p : Precision) (m : MicroInstr) (q : Situation) : Option (List Situation) :=
  if p == .certificate && !writePrepared k q.upc m q.latched then none
  else gather ((afterStages k p m q).flatMap (branches k p m))

/-! ## The walk -/

/-- What is known of a flag, as a digit. -/
def flagDigit : Option Bool → Nat
  | none => 0
  | some false => 1
  | some true => 2

/-- What is known of a word, as a number. -/
def wordNumber : Option Word → Nat
  | none => 0
  | some w => w.toNat + 1

/-- What is known of a set of flags, as a number below 162. -/
def KnownFlags.number (f : KnownFlags) : Nat :=
  (((flagDigit f.z * 3 + flagDigit f.c) * 3 + flagDigit f.v) * 3 + flagDigit f.s) * 2 + f.apart.toNat

/-- A situation of a store of at most 256 words as a number, for the set of those already met. -/
def Situation.key (q : Situation) : Nat :=
  let latched := match q.latched with | none => 0 | some .source => 1 | some .destination => 2
  let data := wordNumber q.t * 65537 + wordNumber q.mdr
  let flags := q.flags.number * 162 + q.pending.number
  ((((data * 26244 + flags) * 3 + latched) * 2 + q.named.toNat) * 65536 + q.ir.toNat) * 256 + q.upc

/-- The set with a situation's number added. -/
def KeySet.meet (met : KeySet) (q : Situation) : KeySet := KeySet.add 128 met q.key

/-- The situations of a list that are not yet met, each once, and the set with them added. -/
def addFresh : KeySet → List Situation → KeySet × List Situation
  | met, [] => (met, [])
  | met, q :: qs =>
    if met.has q.key then addFresh met qs
    else
      (met.meet q).forced fun met =>
        match addFresh met qs with
        | (met, fresh) => (met, q :: fresh)

/-- The walk: take a situation from the list, check its word, add where it leads. It fails at the first word
that does not pass, and when `fuel`, which bounds the situations visited, runs out. -/
def walk (k : Setup) (p : Precision) : Nat → KeySet → List Situation → Bool
  | _, _, [] => true
  | 0, _, _ :: _ => false
  | fuel + 1, met, q :: todo =>
    match (k.rom[q.upc]?).bind k.selectors.ofWord with
    | none => false
    | some m =>
      match successors k p m q with
      | none => false
      | some next =>
        match addFresh met next with
        | (met, fresh) => walk k p fuel met (fresh ++ todo)

/-- The situation at reset: word 0, `ir`, `t`, `mdr` and all flags 0, nothing latched (R38, R307). -/
def startSituation : Situation :=
  { upc := 0, ir := 0, named := false, flags := .ofFlags {}, pending := .ofFlags {}, t := some 0, mdr := some 0 }

/-- The walk from reset. -/
def walkFromReset (k : Setup) (p : Precision) (fuel : Nat) : Bool :=
  let start := p.keep true startSituation
  walk k p fuel (KeySet.empty.meet start) [start]

/-- R301, R303, R305 hold along every path from word 0 that the walk takes for possible. The fuel is more than the
situations of a certificate. -/
def pathsCertified (k : Setup) : Bool := walkFromReset k .certificate (2 ^ 48)

/-- R301 and R303 hold along every path from word 0 that a more precise walk takes for possible, one that follows
the values of `t` and `mdr` for some time or one that follows the flags alone. -/
def pathsSafe (k : Setup) : Bool := walkFromReset k .data (2 ^ 16) || walkFromReset k .control (2 ^ 48)

/-! ## Register writes along a run (R305) -/

/-- The index that a word's `RBus.REG` is meant for in a state: that of its field of `ir` (R305). -/
def Setup.intendedIndex (k : Setup) (s : State) : Reg :=
  match k.writesField s.upc.toNat with
  | .source => regSrcField s.ir
  | .destination => regDstField s.ir

/-- R305 along a run of micro-cycles: every register write finds the intended index latched by a REG read since the
latest fetch; `latched` says whether one has happened before the run. -/
def writesPrepared (k : Setup) : Nat → Bool → State → Bool
  | 0, _, _ => true
  | n + 1, latched, s =>
    match (k.rom[s.upc.toNat]?).bind k.selectors.ofWord with
    | none => true
    | some m =>
      let latched := latched || m.sbus == .reg || m.dbus == .reg
      let read := (dbusStage m.dbus (sbusStage m.sbus s).2).2
      (m.rbus != .reg || (latched && read.regsel == some (k.intendedIndex s)))
        && match microCycle k s with
          | .next t => writesPrepared k n (latched && m.mem != .ifch) t
          | .fault _ => true
          | .refused _ => true

/-! ## Progress (R306) -/

/-- The values an index selector can take on any word of the opcode table it is defined for. -/
def indexSpread (c : Codes) (ix : Index) : List Nat :=
  match ix with
  | .none => [0]
  | .mas => [0, 1, 2, 3]
  | .mad => [0, 1, 2, 3]
  | .opcode => groupDistances c .branch ++ groupDistances c .other
  | .oneOp => groupDistances c .oneOp
  | .twoOp => groupDistances c .twoOp

/-- The addresses a word names, each with every value its index can add. -/
def namedAddresses (c : Codes) (m : MicroInstr) : List Nat :=
  (indexSpread c m.indexTrue).map (m.addressTrue + ·)
    ++ (if m.cond = .always then [] else (indexSpread c m.indexFalse).map (m.addressFalse + ·))

/-- One round of R306: the words already known to have a path to a fetch, as the bits of `good`, with those
added that fetch or that name a good word. -/
def progressRound (k : Setup) (good : Nat) : Nat :=
  k.rom.zipIdx.foldl (init := good) fun good (w, a) =>
    match k.selectors.ofWord w with
    | none => good
    | some m =>
      if m.mem == .ifch || (namedAddresses k.codes m).any good.testBit then good ||| (1 <<< a) else good

/-- R306: after some rounds every word has a path to a word with `Mem.IFCH`. The source requires nothing here,
so the load does not ask for it. -/
def progresses (k : Setup) : Nat → Nat → Bool
  | 0, good => good == 2 ^ k.rom.length - 1
  | n + 1, good => progresses k n (progressRound k good)

end Sys2Proof.Machine
end

