-- ==== Sys2Proof/Machine/StoreTrials.lean ====
section
/-! DEFINITION. The runs of a control store that break R301 or R303: what such a run is, a search that finds one fast,
and the list of all runs, which decides where neither the search finds one nor a walk shows that there is none.
How runs are searched for is the model's choice (log 23). -/

namespace Sys2Proof.Machine

/-! ## Runs -/

/-- A run of the machine from reset: its parameters, its program, and the pending-interrupt flag that the host sets
before each micro-cycle (R470). -/
structure Run where
  params : Params
  program : List Word
  schedule : List Bool
deriving DecidableEq, Repr

/-- The state a run starts in (R471). -/
def Run.start (r : Run) : State := bootState r.params r.program

/-- A run from a state in which the host sets the pending-interrupt flag before every micro-cycle (R470). -/
def runHosted (k : Setup) : List Bool → State → Result
  | [], s => .next s
  | b :: bs, s => andThen (microCycle k (setInt b s)) (runHosted k bs)

/-- Whether a word of reserved opcode, of which R301 does not speak, has just been fetched. -/
def fetchedReserved (k : Setup) (w : ControlWord) (t : State) : Bool :=
  (k.selectors.ofWord w).any (fun m => m.mem == .ifch) && !k.codes.opcodeDefined t.ir

/-- A hosted run that looks for a broken rule: a selector applied to a wrong group (R303), a sum beyond the store
(R301). It gives up without a verdict at any other fault, and when a word of reserved opcode is fetched. -/
def trial (k : Setup) : List Bool → State → Option Refusal
  | [], _ => none
  | b :: bs, s =>
    match k.rom[s.upc.toNat]? with
    | none => some (.sumBeyondControlStore s.upc.toNat)
    | some w =>
      match microCycle k (setInt b s) with
      | .fault (.wrongGroupIndex t) =>
        if fetchedReserved k w t then none else some (.unguardedIndex s.upc.toNat)
      | .fault _ => none
      | .refused _ => none
      | .next t =>
        if fetchedReserved k w t then none
        else if k.rom.length ≤ t.upc.toNat then some (.sumBeyondControlStore s.upc.toNat)
        else trial k bs t

/-- The rule a run breaks, if its program fits and it breaks one. -/
def Run.breaks (k : Setup) (r : Run) : Option Refusal :=
  if programFits r.params r.program then trial k r.schedule r.start else none

/-! ## The search

Runs from reset, breadth first, whose program is made up as they go: the first time a run fetches or reads a cell
of the program, several choices for the cell are followed. -/

/-- The parameters the search starts with: the first are those of a narrow search; the others differ in `sp` at reset,
its sign, its lowest bit and whether it is 0, and in BR_OFFSET_SIGNED. -/
def trialParams : List Params :=
  [(65536, 32768), (65535, 32768), (32769, 16384), (32768, 16384), (1, 1), (2, 1)].flatMap fun (memSize, stackSize) =>
    [false, true].map fun brOffsetSigned => { memSize, stackSize, brOffsetSigned }

/-- The words a fetched cell is tried with: each class of words on register 0, on register 15 and on one more. -/
def trialWords (c : Codes) : List Word :=
  (classWords c).zipIdx.flatMap fun (w, i) =>
    if group w == .other then [w] else [w, w ||| 15, w ||| BitVec.ofNat 16 (i % 16)]

/-- The words a read cell is tried with, besides those of a fetched one: between them they hold every value of the flags (R37), each sign, and
the ends of the number range. -/
def trialData : List Word :=
  (List.range 16).map (BitVec.ofNat 16) ++ [0x4000, 0x5555, 0x7FFF, 0x8000, 0x8001, 0xAAAA, 0xC000, 0xFFFE, 0xFFFF]

/-- The length of a program that the search makes up, 256 words where they fit. -/
def trialLength (p : Params) : Nat := min 256 p.stackBase

/-- A run in the making: its state, the program chosen so far, the addresses whose cells are settled, and the
host's schedule, the latest entry first. -/
structure Probe where
  state : State
  program : Memory := []
  settled : List Nat := []
  schedule : List Bool := []
deriving DecidableEq, Repr

/-- Whether a cell of the program is still to be chosen. -/
def Probe.isOpen (p : Probe) (a : Word) : Bool := decide (a.toNat < trialLength p.state.params) && !p.settled.contains a.toNat

/-- Choose the value of a cell. -/
def Probe.choose (p : Probe) (a v : Word) : Probe :=
  { p with
    state := { p.state with mem := p.state.mem.write a.toNat v }
    program := p.program.write a.toNat v
    settled := a.toNat :: p.settled }

/-- The word that a probe executes next. -/
def Probe.word (k : Setup) (p : Probe) : Option MicroInstr :=
  (k.rom[p.state.upc.toNat]?).bind k.selectors.ofWord

/-- The probes that differ in what the next micro-cycle depends on: the pending-interrupt flag where it is tested,
and the cell fetched or read. -/
def Probe.choices (k : Setup) (words : List Word) (p : Probe) : List Probe :=
  match p.word k with
  | none => [p]
  | some m =>
    let hosted := if m.cond = .int then
        [{ p with state := setInt false p.state }, { p with state := setInt true p.state }]
      else [p]
    hosted.flatMap fun p =>
      match m.mem with
      | .ifch => if p.isOpen p.state.pc then words.map (p.choose p.state.pc) else [p]
      | .read =>
        let address := match microCycle k p.state with
          | .next t => t.adr
          | .fault (.stackOverflow s) => s.adr
          | .fault (.wrongGroupIndex s) => s.adr
          | .fault _ => p.state.adr
          | .refused _ => p.state.adr
        if p.isOpen address then (trialData ++ words).map (p.choose address) else [p]
      | .write => [p]
      | .none => [p]

/-- The probe after its next micro-cycle, unless the run ends there. -/
def Probe.advance (k : Setup) (p : Probe) : Option Probe :=
  match k.rom[p.state.upc.toNat]?, microCycle k p.state with
  | some w, .next t =>
    if fetchedReserved k w t then none
    else
      let writes := (k.selectors.ofWord w).any fun m => m.mem == .write
      some { p with
        state := t
        settled := if writes then t.adr.toNat :: p.settled else p.settled
        schedule := p.state.intp :: p.schedule }
  | _, _ => none

/-- A word's class: zero, negative or positive, as a number below 3. -/
def valueClass (w : Word) : Nat := if w = 0 then 0 else if w.msb then 1 else 2

/-- What the control of a probe's next cycles depends on, as far as it is kept, as a number: the micro-address, both
sets of flags, the classes of `t`, `mdr` and `sp`, the lowest bit of `sp`, BR_OFFSET_SIGNED, and the word that governs
the next dispatch: `ir`, or, where the next word fetches, the cell at `pc` if it is settled. -/
def Probe.key (k : Setup) (p : Probe) : Nat :=
  let s := p.state
  let word := if !k.fetchesAt s.upc.toNat then s.ir.toNat + 1
    else if p.isOpen s.pc then 0 else (s.mem.read s.pc.toNat).toNat + 1
  let flags := s.flags.word.toNat * 16 + s.pending.word.toNat
  let data := ((valueClass s.t * 3 + valueClass s.mdr) * 3 + valueClass s.sp) * 2 + s.sp.toNat % 2
  ((data * 2 + s.params.brOffsetSigned.toNat) * 65537 + word) * 65536 + flags * 256 + s.upc.toNat

/-- The key with the data of the run itself, apart from every key. -/
def Probe.fullKey (k : Setup) (p : Probe) : Nat :=
  let s := p.state
  [s.t, s.mdr, s.adr, s.pc, s.sp, s.reg 0, s.reg 15].foldl (fun n w => n * 65536 + w.toNat) 1 * 2 ^ 64 + p.key k

/-- The number of bits that keys and full keys fit. -/
def probeBits : Nat := 256

/-- The probes of a list whose key is not in the set, each key once, the probes whose full key is not in it
either, and the set with the new keys. -/
def sift (k : Setup) : KeySet → List Probe → KeySet × List Probe × List Probe
  | seen, [] => (seen, [], [])
  | seen, p :: ps =>
    if seen.has (p.key k) then
      match sift k seen ps with
      | (after, fresh, spare) => (after, fresh, if seen.has (p.fullKey k) then spare else p :: spare)
    else
      (KeySet.add probeBits seen (p.key k)).forced fun seen =>
        match sift k seen ps with
        | (after, fresh, spare) => (after, p :: fresh, spare)

/-- The entries of a list with `gap` entries left out between two, the first after `skip`. -/
def thin (gap : Nat) : Nat → List Probe → List Probe
  | _, [] => []
  | 0, p :: ps => p :: thin gap gap ps
  | skip + 1, _ :: ps => thin gap skip ps

/-- The bounds of a search: the probes with a new key, and the probes with new data alone, that go on from one
micro-cycle to the next. -/
structure Breadth where
  fresh : Nat
  spare : Nat
deriving DecidableEq, Repr

/-- The search, one micro-cycle of every probe at a time: the first probe whose next micro-cycle breaks a rule. -/
def search (k : Setup) (words : List Word) (b : Breadth) : Nat → KeySet → List Probe → Option Probe
  | 0, _, _ => none
  | _ + 1, _, [] => none
  | n + 1, seen, p :: ps =>
    let chosen := (p :: ps).flatMap (Probe.choices k words)
    match chosen.find? fun p => (trial k [p.state.intp] p.state).isSome with
    | some found => some found
    | none =>
      match sift k seen (chosen.filterMap (Probe.advance k)) with
      | (seen, fresh, spare) =>
        let spare := thin (spare.length / b.spare) 0 spare
        search k words b n (spare.foldl (fun seen p => KeySet.add probeBits seen (p.fullKey k)) seen)
          (fresh.take b.fresh ++ spare)

/-- The run that a probe has made, its next micro-cycle included. -/
def Probe.run (p : Probe) : Run where
  params := p.state.params
  program := (List.range (trialLength p.state.params)).map p.program.read
  schedule := (p.state.intp :: p.schedule).reverse

/-- A search over programs of some words under some parameters. -/
def searchFrom (k : Setup) (words : List Word) (params : List Params) : Option Probe :=
  search k words { fresh := 20000, spare := 50 } 400 .empty (params.map fun params => { state := bootState params [] })

/-- The run of the first find, of a narrow search and then of a wide one. -/
def findRun (k : Setup) : Option Run :=
  (match searchFrom k (classWords k.codes) (trialParams.take 1) with
    | some p => some p
    | none => searchFrom k (trialWords k.codes) trialParams).map Probe.run

/-- The broken rule that the run found shows, if one is found. -/
def shownFault (k : Setup) : Option Refusal := (findRun k).bind (Run.breaks k)

/-! ## All runs -/

/-- The first answer for a number from `i` on, of the next `count`. -/
def firstOf (f : Nat → Option Refusal) : Nat → Nat → Option Refusal
  | 0, _ => none
  | count + 1, i =>
    match f i with
    | some r => some r
    | none => firstOf f count (i + 1)

/-- The first answer for a schedule of a length, put before `bs`. -/
def firstSchedule (f : List Bool → Option Refusal) : Nat → List Bool → Option Refusal
  | 0, bs => f bs
  | n + 1, bs =>
    match firstSchedule f n (false :: bs) with
    | some r => some r
    | none => firstSchedule f n (true :: bs)

/-- The first answer for a program of a length, put before `ws`. -/
def firstProgram (f : List Word → Option Refusal) : Nat → List Word → Option Refusal
  | 0, ws => f ws
  | n + 1, ws => firstOf (fun w => firstProgram f n (BitVec.ofNat 16 w :: ws)) 65536 0

/-- The first answer for a run with programs of at most `size` words and a schedule of `size` entries, under any
parameters. -/
def firstRun (f : Run → Option Refusal) (size : Nat) : Option Refusal :=
  firstOf (fun memSize => firstOf (fun stackSize => firstOf (fun signed => firstOf (fun length =>
      firstProgram (fun program => firstSchedule (fun schedule =>
          f { params := { memSize, stackSize, brOffsetSigned := signed == 1 }, program, schedule })
        size []) length [])
    (size + 1) 0) 2 0) 65537 0) 65537 0

/-- More than the states of a machine: of its bits, 2^20 are those of 65536 cells and fewer than 2^10 the rest. A run
that breaks a rule can be had without the cycles between two visits of one state, so with fewer micro-cycles
(DEDUCED, log 23). -/
def runBound : Nat := 2 ^ (2 ^ 21)

/-- The broken rule that some run shows, if one does: of all runs, the short ones first. -/
def anyFault (k : Setup) : Option Refusal := firstOf (firstRun (Run.breaks k)) runBound 0

end Sys2Proof.Machine
end

