-- ==== Sys2Proof/Machine/StoreCheck.lean ====
section
/-! DEFINITION. The load of a control store with its check (R300, R301, R303). -/

namespace Sys2Proof.Machine

/-- The first word of a control store, from an address on, that breaks R300. -/
def firstIllFormed (n : Selectors) : Nat → List ControlWord → Option Nat
  | _, [] => none
  | a, w :: rom => if n.wordLegal w then firstIllFormed n (a + 1) rom else some a

/-- R301, R303: the rule that some run from reset breaks, if one does. Where the walks find no way to break one, no
run does; where they do, a run is searched for, and only where the search has none is every run tried. -/
def brokenRule (k : Setup) : Option Refusal :=
  if pathsCertified k || pathsSafe k then none
  else
    match shownFault k with
    | some r => some r
    | none => anyFault k

/-- R300: a control store is checked once, when it is given. It is refused at its first word that breaks R300
(U4, U5), and when some run from reset breaks R301 or R303 (U2, U7); every other store is admitted (R6). No store is
refused for R305: its register write goes to the latched register (R235), and is the fault U6 where none is latched.
Which of several faults of a store is named is the model's choice (log 9). The state is the machine the store is given
to. -/
def acceptStore (k : Setup) (s : State) : Result :=
  match firstIllFormed k.selectors 0 k.rom with
  | some a => .refused (.illFormedControlStore a)
  | none =>
    match brokenRule k with
    | some r => .refused r
    | none => .next s

end Sys2Proof.Machine
end

