-- ==== Sys2Proof/Safety.lean ====
section
/-! DEFINITION. The terms statements are made in: the architectural state, an operand's place and value as the
spec's pseudocode gives them (R319, R340), what it is to complete, and the invariants. -/

namespace Sys2Proof.Machine

/-! ## The architectural state -/

/-- R480: at instruction level the architectural state is `x`, `pc`, `sp`, `F`, `M` and `intp`; beside it
the parameters, which are constant. -/
structure Arch where
  regs : Vector Word 16
  pc : Word
  sp : Word
  flags : Flags
  mem : Memory
  intp : Bool
  params : Params
deriving DecidableEq, Repr

/-- The architectural part of a state. -/
def State.arch (s : State) : Arch where
  regs := s.regs
  pc := s.pc
  sp := s.sp
  flags := s.flags
  mem := s.mem
  intp := s.intp
  params := s.params

/-! ## Operands at instruction level (R319, R340) -/

/-- Where an operand lives: `Reg(r)` or `Mem(p)` of R340. -/
inductive Place where
  | reg (r : Reg)
  | cell (a : Word)
deriving DecidableEq, Repr

/-- R340 `DSTLOC`, R319: an operand's place; `at_` is the address of its extra word, which is the place of an
IMMEDIATE destination (R130). -/
def placeOf (o : Operand) (s : State) (at_ : Word) : Place :=
  match o with
  | .immediate _ _ => .cell at_
  | .direct r => .reg r
  | .indirect r => .cell (s.reg r)
  | .indexed r e => .cell (s.reg r + e)

/-- R340 `SRC`, R319: an operand's value. -/
def valueOf (o : Operand) (s : State) : Word :=
  match o with
  | .immediate _ v => v
  | .direct r => s.reg r
  | .indirect r => s.mem.read (s.reg r).toNat
  | .indexed r e => s.mem.read (s.reg r + e).toNat

/-- Reading the operand meets no address outside memory (R66). -/
def readable (o : Operand) (s : State) : Bool :=
  match o with
  | .immediate _ _ => true
  | .direct _ => true
  | .indirect r => s.inMemory (s.reg r)
  | .indexed r e => s.inMemory (s.reg r + e)

/-- Storing to the place meets no address outside memory (R66). -/
def Place.inMemory (p : Place) (s : State) : Bool :=
  match p with
  | .reg _ => true
  | .cell a => s.inMemory a

/-- How many extra words the operand takes, as an amount added to `pc` (R98, R312). -/
def extraCount (o : Operand) : Word :=
  match o with
  | .immediate _ _ => 1
  | .direct _ => 0
  | .indirect _ => 0
  | .indexed _ _ => 1

/-- R340 `DSTLOC` of a two-operand instruction: the destination's place, its extra word following the
source's. -/
def destPlace (src dst : Operand) (s : State) : Place := placeOf dst s (s.pc + extraCount src)

/-- R340 `store`: a value stored at a place. -/
def Arch.store (a : Arch) (p : Place) (v : Word) : Arch :=
  match p with
  | .reg r => { a with regs := a.regs.set r.toNat v r.isLt }
  | .cell c => { a with mem := a.mem.write c.toNat v }

/-! ## Completion and stops -/

/-- The instruction completes: it answers a next state at the fetch word, with the architectural state given
and `ir` as it was. -/
def Completes (r : Result) (s : State) (a : Arch) : Prop :=
  ∃ t, r = .next t ∧ t.upc = uFetch ∧ t.ir = s.ir ∧ t.arch = a

/-- The instruction completes having stored a value at one place: from the architectural state `before`, which
differs from the starting one in `pc`, `sp` or flags only, and with every cell and register outside the place
as it was. -/
def CompletesStoring (r : Result) (s : State) (before : Arch) (p : Place) (v : Word) : Prop :=
  ∃ t, r = .next t ∧ t.upc = uFetch ∧ t.ir = s.ir ∧ t.arch = before.store p v
    ∧ (∀ n : Nat, (∀ a, p = .cell a → a.toNat ≠ n) → t.mem.read n = s.mem.read n)
    ∧ (∀ q : Reg, p ≠ .reg q → t.reg q = s.reg q)

/-- The instruction completes as a read-modify-write does (R340, R360): `pc` past `words` extra words, the
flags `f` committed, the value `v` stored at one place. -/
def StoresResult (r : Result) (s : State) (words : Word) (f : Flags) (p : Place) (v : Word) : Prop :=
  CompletesStoring r s { s.arch with pc := s.pc + words, flags := f } p v

/-- The instruction stops with StackOverflow at the word `u` that pushes: the value `v` is stored at `sp`, `sp`
is as it was, and `pc` is past `words` extra words (R377, R447). -/
def OverflowsPushing (r : Result) (s : State) (u : MicroAddr) (words v : Word) : Prop :=
  ∃ t, r = .fault (.stackOverflow t) ∧ t.upc = u
    ∧ t.arch = ({ s.arch with pc := s.pc + words }).store (.cell s.sp) v

/-- The instruction stops on a data access outside memory, leaving a residue with the architectural state
given (U3, R249). -/
def StopsOutOfRange (r : Result) (a : Arch) : Prop :=
  ∃ t, r = .fault (.dataOutOfRange t) ∧ t.arch = a

/-- The control word at a micro-address of the reference store is this micro-instruction (R321). -/
abbrev wordAt (u : MicroAddr) (m : MicroInstr) : Prop :=
  (controlWordAt u).bind MicroInstr.ofWord = some m

/-- R315, R321: the form of an execute word that leaves its result in `mdr`, commits its flags and goes to
the write-back of the destination. -/
def resultWord (sbus : SBus) (dbus : DBus) (op : Alu) : MicroInstr :=
  { sbus, dbus, alu := op, rbus := .mdr, misc := .cond, cond := .regDest, addressTrue := 15,
    addressFalse := 16 }

/-- `DEC_SP` passes its test (R247). -/
def canPush (s : State) : Bool := decide ((s.params.stackBase : Int) ≤ (s.sp.toNat : Int) - 1)

/-- An operation performed a number of times, as long as it answers a next state. -/
def times (f : State → Result) : Nat → State → Result
  | 0, s => .next s
  | n + 1, s => andThen (f s) (times f n)

/-- The state a fault leaves behind. -/
def Fault.residue : Fault → State
  | .programEnd s => s
  | .stackOverflow s => s
  | .reservedOpcode s => s
  | .microAddress s => s
  | .dataOutOfRange s => s
  | .reservedSelector s => s
  | .noAluResult s => s
  | .registerNotLatched s => s
  | .wrongGroupIndex s => s

/-- The same fault with the same architectural residue. -/
def Fault.agrees : Fault → Fault → Prop
  | .programEnd a, .programEnd b => a.arch = b.arch
  | .stackOverflow a, .stackOverflow b => a.arch = b.arch
  | .reservedOpcode a, .reservedOpcode b => a.arch = b.arch
  | .microAddress a, .microAddress b => a.arch = b.arch
  | .dataOutOfRange a, .dataOutOfRange b => a.arch = b.arch
  | .reservedSelector a, .reservedSelector b => a.arch = b.arch
  | .noAluResult a, .noAluResult b => a.arch = b.arch
  | .registerNotLatched a, .registerNotLatched b => a.arch = b.arch
  | .wrongGroupIndex a, .wrongGroupIndex b => a.arch = b.arch
  | _, _ => False

/-- Two answers that no program can tell apart: next states with the same architectural state at the same
micro-address, or the same fault with the same architectural residue. -/
def sameAtInstructionLevel : Result → Result → Prop
  | .next a, .next b => a.arch = b.arch ∧ a.upc = b.upc
  | .fault f, .fault g => f.agrees g
  | .refused a, .refused b => a = b
  | _, _ => False

/-- A fault that no well-formed control store meets (R300, R301, R303, R305): U2, U4, U5, U6, U7. -/
def Fault.storeError : Fault → Bool
  | .microAddress _ => true
  | .reservedSelector _ => true
  | .noAluResult _ => true
  | .registerNotLatched _ => true
  | .wrongGroupIndex _ => true
  | .programEnd _ => false
  | .stackOverflow _ => false
  | .reservedOpcode _ => false
  | .dataOutOfRange _ => false

/-! ## Invariants -/

/-- What every step of the reference machine keeps: the parameters meet R6; memory has its canonical form and
lists only cells that exist (R35, R60); `upc` is a valid index into the store (R32, R301); the latched control
word, if any, is one of the store's (R33, R36). -/
def State.Inv (s : State) : Prop :=
  s.params.valid ∧ s.mem.wf = true ∧ s.mem.below s.params.memSize = true
    ∧ s.upc.toNat < referenceStore.length ∧ (∀ w, s.cw = some w → w ∈ referenceStore)

/-- The micro-addresses that stand between an unchecked `INC_SP` and the read at the new `sp` (R317). -/
def readsPopped (u : MicroAddr) : Bool :=
  [uPop1, uRet1, uReti1, uReti2, uReti3, uPoppc1, uPopflag1].contains u

/-- Where `sp` can be when memory does not fill the address space (R23, R246, R247): inside the stack region,
or one past memory's end between an `INC_SP` and the read that then faults. -/
def State.SpInv (s : State) : Prop :=
  s.params.stackBase ≤ s.sp.toNat
    ∧ (if readsPopped s.upc then s.sp.toNat ≤ s.params.memSize else s.sp.toNat < s.params.memSize)

end Sys2Proof.Machine
end

