-- ==== Sys2Proof/Certificates/Slice0/Obligations.lean ====
section
/-! DEFINITION. The statements for the provers. A statement about an instruction's execution speaks of
`exec`, which runs on the state after the FETCH cycle: there `s.pc` is the address after the opcode word. -/

open Sys2Proof Sys2Proof.Machine

/-! ## The instruction codec -/

/-- The words the spec writes beside R253, R291, R350 and R110 decode to the instructions it names. -/
def Obligations.SampleWordsDecode : Prop :=
  decodeWords [0x0010, 0x0005] = .ok (.mov (.immediate 0 5) (.direct 0), [])
  ∧ decodeWords [0x0CD4, 0x0001] = .ok (.mov (.indexed 3 1) (.direct 4), [])
  ∧ decodeWords [0x1872, 0x0002] = .ok (.add (.indirect 1) (.indexed 2 2), [])
  ∧ decodeWords [0x3452] = .ok (.cmp (.direct 1) (.direct 2), [])
  ∧ decodeWords [0x8351] = .ok (.push (.direct 1), [])
  ∧ decodeWords [0x8032, 0x0008] = .ok (.clr (.indexed 2 8), [])
  ∧ decodeWords [0xC203] = .ok (.beq 3, [])
  ∧ decodeWords [0xE00B] = .ok (.ret, [])

/-- R100: every word has one group, given by its leading bits; the opcode field of that group; and the value
of that field lies in the range of its own group and of no other. -/
def Obligations.ClassificationIsTotal : Prop :=
  Group.range .twoOp = (0x0, 0x7) ∧ Group.range .oneOp = (0x200, 0x2FF)
  ∧ Group.range .branch = (0xC0, 0xDF) ∧ Group.range .other = (0xE000, 0xFFFF)
  ∧ ∀ w : Word,
    (w.toNat / 2 ^ 15 = 0 ∧ group w = .twoOp ∧ opcode w = w.toNat / 2 ^ 12
      ∨ w.toNat / 2 ^ 14 = 0b10 ∧ group w = .oneOp ∧ opcode w = w.toNat / 2 ^ 6
      ∨ w.toNat / 2 ^ 13 = 0b110 ∧ group w = .branch ∧ opcode w = w.toNat / 2 ^ 8
      ∨ w.toNat / 2 ^ 13 = 0b111 ∧ group w = .other ∧ opcode w = w.toNat)
    ∧ ∀ g : Group, (g.range.1 ≤ opcode w ∧ opcode w ≤ g.range.2) ↔ g = group w

/-- Decode and encode agree: the words of any instruction, followed by anything, decode to it and leave the
rest, under the reference instance and under every other admitted opcode table and mode numbering. It holds for
the instructions the encoder refuses too, which the decoder that follows the hardware reads (R99, R130). -/
def Obligations.DecodeOfEncode : Prop :=
  (∀ (i : Instr) (rest : List Word), decodeWords (encode i ++ rest) = .ok (i, rest))
  ∧ ∀ (c : Codes), c.valid → ∀ (i : Instr) (rest : List Word),
      c.decodeWords (c.encode i ++ rest) = .ok (i, rest)

/-- The other direction, which the spec derives in R124: what decodes is what the encoder writes for it; for
the codec's `decode`, when it answers without the flag `noncanonical`. It holds under every admitted opcode table
and mode numbering, `Codes.reference` among them. -/
def Obligations.EncodeOfDecode : Prop :=
  ∀ (c : Codes), c.valid →
    (∀ (ws rest : List Word) (i : Instr), c.decodeWords ws = .ok (i, rest) → c.encode i ++ rest = ws)
    ∧ (∀ (extra : List (AddrMode × AddrMode)) (ws : List Word) (d : Decoded),
        c.decode extra ws 0 = .ok d → d.noncanonical = false →
        c.encodeCall extra d.instr = .ok (ws.take d.length))

/-- R120: what the encoder accepts, with ignored arguments at their defaults, decodes from the words produced,
at any position of a word list, to exactly the input, with its length and no flag; under every admitted opcode
table and mode numbering, `Codes.reference` among them. -/
def Obligations.RoundTripLaw : Prop :=
  ∀ (c : Codes) (extra : List (AddrMode × AddrMode)) (i : Instr) (before after : List Word),
    c.valid → i.wellFormedFor extra = true →
    ∃ ws, c.encodeCall extra i = .ok ws ∧ ws = c.encode i
      ∧ c.decode extra (before ++ ws ++ after) before.length
          = .ok { instr := i, length := ws.length, noncanonical := false }

/-- R107, R108: the encoders of the one-word groups: the raw opcode, which cannot fail; and `(op<<8)|offset`,
which fails exactly when the offset is outside 0 to 255. -/
def Obligations.OneWordEncoders : Prop :=
  (∀ op : OtherOp, ∃ w : Word, encodeNoOperand op = [w] ∧ w.toNat = op.value)
  ∧ (∀ (op : BranchOp) (offset : Int), 0 ≤ offset → offset < 256 →
      ∃ w : Word, encodeBranch op offset = .ok [w] ∧ (w.toNat : Int) = op.value * 256 + offset)
  ∧ (∀ (op : BranchOp) (offset : Int), (offset < 0 ∨ 256 ≤ offset) →
      encodeBranch op offset = .error .operandRangeError)

/-- R109: the checks of the one-operand encoder in their order, and its result. -/
def Obligations.OneOperandEncoder : Prop :=
  ∀ (op : OneOp) (mode : Nat) (reg offset : Int),
    let modeOk := mode < 4
    let listed := mode = 0 → op = .jmp ∨ op = .call ∨ op = .push
    let regOk := mode ≠ 0 → 0 ≤ reg ∧ reg < 16
    let offsetOk := (mode = 0 ∨ mode = 3) → 0 ≤ offset ∧ offset < 65536
    let result := encodeOneOperand op mode reg offset
    (¬ modeOk → result = .error .invalidAddressingMode)
    ∧ (modeOk → ¬ listed → result = .error .invalidAddressingMode)
    ∧ (modeOk → listed → ¬ regOk → result = .error .registerRangeError)
    ∧ (modeOk → listed → regOk → ¬ offsetOk → result = .error .operandRangeError)
    ∧ (modeOk → listed → regOk → offsetOk →
        ∃ (w : Word) (ws : List Word), result = .ok (w :: ws)
          ∧ (w.toNat : Int) = op.value * 64 + mode * 16 + (if mode = 0 then 0 else reg)
          ∧ (mode = 0 ∨ mode = 3 → ∃ e : Word, ws = [e] ∧ (e.toNat : Int) = offset)
          ∧ (mode = 1 ∨ mode = 2 → ws = []))

/-- R110, R111: the checks of the two-operand encoder in their order, and its result. -/
def Obligations.TwoOperandEncoder : Prop :=
  ∀ (extra : List (AddrMode × AddrMode)) (op : TwoOp) (modeDst modeSrc : Nat)
    (regDst regSrc offsetDst offsetSrc : Int),
    let modesOk := modeSrc < 4 ∧ modeDst < 4 ∧ modeDst ≠ 0
      ∧ ((modeSrc = 0 ∧ modeDst = 1)
        ∨ (AddrMode.ofCode (BitVec.ofNat 2 modeSrc), AddrMode.ofCode (BitVec.ofNat 2 modeDst)) ∉ extra)
    let regsOk := (0 ≤ regSrc ∧ regSrc < 16) ∧ 0 ≤ regDst ∧ regDst < 16
    let takesSrc := modeSrc = 0 ∨ modeSrc = 3
    let offsetsOk := (takesSrc → 0 ≤ offsetSrc ∧ offsetSrc < 65536)
      ∧ (modeDst = 3 → 0 ≤ offsetDst ∧ offsetDst < 65536)
    let result := encodeTwoOperand extra op modeDst regDst modeSrc regSrc offsetDst offsetSrc
    (¬ modesOk → result = .error .invalidAddressingMode)
    ∧ (modesOk → ¬ regsOk → result = .error .registerRangeError)
    ∧ (modesOk → regsOk → ¬ offsetsOk → result = .error .operandRangeError)
    ∧ (modesOk → regsOk → offsetsOk →
        ∃ (w : Word) (first second : List Word), result = .ok (w :: (first ++ second))
          ∧ (w.toNat : Int)
              = op.value * 4096 + modeSrc * 1024 + regSrc * 64 + modeDst * 16 + regDst
          ∧ (takesSrc → ∃ e : Word, first = [e] ∧ (e.toNat : Int) = offsetSrc)
          ∧ (¬ takesSrc → first = [])
          ∧ (modeDst = 3 → ∃ e : Word, second = [e] ∧ (e.toNat : Int) = offsetDst)
          ∧ (modeDst ≠ 3 → second = []))

/-- R121 with the ranges of R128: the decoder answers ReservedOpcode exactly on the words whose opcode is in
no table, wherever they stand; and a word list that ends before the word asked for is Truncated. -/
def Obligations.ReservedWordsRejected : Prop :=
  ∀ (extra : List (AddrMode × AddrMode)) (ws : List Word) (i : Nat),
    (decode extra ws i = .error .reservedOpcode ↔
      ∃ w, ws[i]? = some w ∧
        (0x7000 ≤ w.toNat ∧ w.toNat ≤ 0x7FFF ∨ 0x83C0 ≤ w.toNat ∧ w.toNat ≤ 0xBFFF
          ∨ 0xC900 ≤ w.toNat ∧ w.toNat ≤ 0xDFFF ∨ 0xE013 ≤ w.toNat))
    ∧ (ws.length ≤ i → decode extra ws i = .error .truncated)

/-! ## The control word, the control store -/

/-- R152: the integer of a record is the sum of its fields at their places, below 2^44, when every field is
within its width. -/
def Obligations.ControlWordValue : Prop :=
  ∀ f : Fields, f.inWidth →
    build f = f.sbus * 2 ^ 41 + f.dbus * 2 ^ 37 + f.alu * 2 ^ 33 + f.rbus * 2 ^ 30 + f.misc * 2 ^ 26
        + f.mem * 2 ^ 24 + f.cond * 2 ^ 20 + f.addressTrue * 2 ^ 13 + f.addressFalse * 2 ^ 6
        + f.indexTrue * 2 ^ 3 + f.indexFalse
      ∧ build f < 2 ^ 44

/-- The two round trips of the control word, which the spec derives in R155; and, under every admitted numbering
of the selectors, the word of a micro-instruction read back. -/
def Obligations.ControlWordRoundTrip : Prop :=
  (∀ f : Fields, f.inWidth → unpack (build f) = f)
  ∧ (∀ w : Nat, w < 2 ^ 44 → build (unpack w) = w ∧ (unpack w).inWidth)
  ∧ (∀ (n : Selectors) (m : MicroInstr), n.valid → m.addressTrue < 128 → m.addressFalse < 128 →
      n.ofWord (n.toWord m) = some m)

/-- A word is legal exactly when no selector field holds a reserved code and no RBus destination stands without
an ALU operation; a store with an illegal word is refused, and one that is accepted has none (R300). A store of
legal words is refused only for a rule that a run from reset of some program breaks, the host setting `intp` between
the micro-cycles: a sum beyond the store (R301) or a selector on a wrong group (R303); any other is admitted (R6).
That the refusal names the first illegal word, before any run, is the model's choice (log 9), and so is how runs are
looked for (log 23). -/
def Obligations.StoreLegality : Prop :=
  (∀ w : ControlWord, wordLegal w = true ↔
    (let f := unpack w.toNat
     f.dbus ≤ 8 ∧ f.alu ≤ 12 ∧ f.rbus ≤ 6 ∧ f.misc ≤ 12 ∧ f.cond ≤ 13 ∧ f.indexTrue ≤ 5
      ∧ f.indexFalse ≤ 5 ∧ (f.alu = 0 → f.rbus = 0)))
  ∧ ∀ (k : Setup) (s : State),
    ((∀ w ∈ k.rom, k.selectors.wordLegal w = true) → pathsCertified k = true →
        acceptStore k s = .next s)
    ∧ (∀ t, acceptStore k s = .next t → t = s ∧ ∀ w ∈ k.rom, k.selectors.wordLegal w = true)
    ∧ ((∃ w ∈ k.rom, k.selectors.wordLegal w = false) →
        ∃ a w, acceptStore k s = .refused (.illFormedControlStore a) ∧ k.rom[a]? = some w
          ∧ k.selectors.wordLegal w = false
          ∧ ∀ b v, b < a → k.rom[b]? = some v → k.selectors.wordLegal v = true)
    ∧ (∀ r, (∀ w ∈ k.rom, k.selectors.wordLegal w = true) → acceptStore k s = .refused r →
        pathsCertified k = false
        ∧ ∃ run : Run, programFits run.params run.program
          ∧ ((∃ a t, r = .sumBeyondControlStore a ∧ runHosted k run.schedule run.start = .next t
              ∧ k.rom.length ≤ t.upc.toNat)
            ∨ (∃ a t, r = .unguardedIndex a
              ∧ runHosted k run.schedule run.start = .fault (.wrongGroupIndex t) ∧ t.upc.toNat = a)))

/-- The reference store has 135 words, is accepted at its load, its paths certified by the model's own check of
R301, R303 and R305, and passes the model's check of R306. How paths are checked is the model's choice (log 23). -/
def Obligations.ReferenceStoreWellFormed : Prop :=
  referenceStore.length = 135 ∧ (∀ s : State, acceptStore Setup.reference s = .next s)
  ∧ pathsCertified Setup.reference = true ∧ progresses Setup.reference 5 0 = true

/-- R320: the entry of every opcode's routine, with its slot width, and the index selector of the opcode's
group reaching it from the group's base on every word that holds the opcode. -/
def Obligations.EntryTable : Prop :=
  TwoOp.table.map twoOpEntry = [17, 19, 21, 23, 25, 27, 29]
  ∧ OneOp.table.map oneOpEntry = [31, 33, 35, 37, 39, 41, 43, 45, 47, 49, 51, 53, 55, 59, 61]
  ∧ OtherOp.table.map otherOpEntry
      = [63, 65, 67, 69, 71, 73, 75, 77, 79, 81, 83, 85, 87, 89, 91, 93, 95, 97, 99]
  ∧ BranchOp.table.map branchOpEntry = [117, 119, 121, 123, 125, 127, 129, 131, 133]
  ∧ (∀ op : OneOp, oneOpSlotWidth op = if op = .call then 4 else 2)
  ∧ ∀ s : State,
    (∀ op : TwoOp, s.ir.toNat / 2 ^ 12 = op.value →
      ∃ k, indexValue Codes.reference .twoOp s = .ok k ∧ 17 + k = twoOpEntry op)
    ∧ (∀ op : OneOp, s.ir.toNat / 2 ^ 6 = op.value →
      ∃ k, indexValue Codes.reference .oneOp s = .ok k ∧ 31 + k = oneOpEntry op)
    ∧ (∀ op : OtherOp, s.ir.toNat = op.value →
      ∃ k, indexValue Codes.reference .opcode s = .ok k ∧ 63 + k = otherOpEntry op)
    ∧ (∀ op : BranchOp, s.ir.toNat / 2 ^ 8 = op.value →
      ∃ k, indexValue Codes.reference .opcode s = .ok k ∧ 117 + k = branchOpEntry op)

/-- A control store that the load admits breaks neither R301 nor R303 in any run from reset, over any fitting program
under any parameters, the host setting `intp` between the micro-cycles: while the fetched words hold opcodes of the
table, every micro-address formed names a word of the store and no selector meets a word of a wrong group. And a store
of legal words whose paths are certified never meets U2, U4, U5, U6 or U7, and makes every register write with the
intended index latched since the latest fetch (R305), from word 0 on and for any number of micro-cycles, whatever
program is in memory, under any opcode table and numberings; `ir` is there as reset leaves it (a TWO_OP word with MAD
0). The stores have at most as many words as `upc` can name, and the runs of the first part fewer micro-cycles than
`runBound`, which is more than the machine has states. The certificate, `runBound`, and which index a write is meant
for, are the model's (log 23). -/
def Obligations.CheckedStoreNeverErrs : Prop :=
  (∀ (k : Setup) (s : State) (run : Run),
    acceptStore k s = .next s → k.rom.length ≤ 256 → programFits run.params run.program →
    run.schedule.length + 1 < runBound →
    (∀ bs b w t u, bs ++ [b] <+: run.schedule → runHosted k bs run.start = .next t →
      k.rom[t.upc.toNat]? = some w → microCycle k (setInt b t) = .next u → fetchedReserved k w u = false) →
    (∀ t, runHosted k run.schedule run.start = .next t → t.upc.toNat < k.rom.length)
    ∧ (∀ t, runHosted k run.schedule run.start = .fault (.wrongGroupIndex t) →
        ∃ w, k.rom[t.upc.toNat]? = some w ∧ fetchedReserved k w t = true))
  ∧ ∀ (k : Setup) (n : Nat) (s : State),
    (∀ w ∈ k.rom, k.selectors.wordLegal w = true) → pathsCertified k = true → k.rom.length ≤ 256 →
    s.upc = 0 → group s.ir = .twoOp → modeDstField s.ir = 0 →
    (∀ f : Fault, runCycles k n s = .fault f → f.storeError = false)
    ∧ writesPrepared k n false s = true

/-! ## The micro-cycle -/

/-- What one micro-cycle of any configuration can change, and through which selector (10_state.md). -/
def Obligations.MicroCycleFrame : Prop :=
  ∀ (k : Setup) (m : MicroInstr) (s t : State),
    (k.rom[s.upc.toNat]?).bind k.selectors.ofWord = some m → microCycle k s = .next t →
    (∀ r : Reg, t.reg r ≠ s.reg r → m.rbus = .reg ∧ t.regsel = some r)
    ∧ (t.pc ≠ s.pc → m.rbus = .pc ∨ m.misc = .incPc)
    ∧ (t.sp = s.sp ∨ (m.misc = .incSp ∧ t.sp = s.sp + 1)
        ∨ (m.misc = .decSp ∧ canPush s = true ∧ t.sp = s.sp - 1))
    ∧ (t.ir ≠ s.ir → m.mem = .ifch)
    ∧ (t.adr ≠ s.adr → m.rbus = .adr)
    ∧ (t.mdr ≠ s.mdr → m.rbus = .mdr ∨ m.mem = .read)
    ∧ (t.t ≠ s.t → m.rbus = .t)
    ∧ (m.dbus = .reg → t.regsel = some (regDstField s.ir))
    ∧ (m.dbus ≠ .reg → m.sbus = .reg → t.regsel = some (regSrcField s.ir))
    ∧ (m.dbus ≠ .reg → m.sbus ≠ .reg → t.regsel = s.regsel)
    ∧ (∀ a : Nat, t.mem.read a ≠ s.mem.read a → m.mem = .write ∧ t.adr.toNat = a)
    ∧ t.cw = k.rom[s.upc.toNat]?

/-- R214, R242: the pending flags are overwritten as a whole by every ALU operation and by nothing else; a flag
operation of Misc changes one committed flag only, COND copies the pending ones, and no other Misc changes any,
on the committed flags as stage 5 left them. -/
def Obligations.TwoPhaseFlags : Prop :=
  ∀ (k : Setup) (m : MicroInstr) (s t : State),
    (k.rom[s.upc.toNat]?).bind k.selectors.ofWord = some m → microCycle k s = .next t →
    let result := alu m.alu (sbusStage m.sbus s).1 (dbusStage m.dbus s).1 s.flags.c
    (m.alu = .none → t.pending = s.pending)
    ∧ (m.alu ≠ .none → ∃ res, result = some (res, t.pending))
    ∧ ∃ f : Flags,
      (m.rbus ≠ .flags → f = s.flags)
      ∧ (m.rbus = .flags → ∃ res pf, result = some (res, pf) ∧ f = Flags.ofWord res)
      ∧ t.flags = match m.misc with
        | .cond => t.pending
        | .setZ => { f with z := true }
        | .clrZ => { f with z := false }
        | .setC => { f with c := true }
        | .clrC => { f with c := false }
        | .setV => { f with v := true }
        | .clrV => { f with v := false }
        | .setS => { f with s := true }
        | .clrS => { f with s := false }
        | .none => f
        | .incPc => f
        | .incSp => f
        | .decSp => f

/-- R452: no micro-cycle of any configuration, and no step, writes `intp` (nor the parameters), also where it faults;
`set_int(b)` writes it and nothing else. -/
def Obligations.OnlyTheHostWritesIntp : Prop :=
  (∀ (k : Setup) (s t : State), microCycle k s = .next t →
    t.intp = s.intp ∧ t.params = s.params)
  ∧ (∀ (k : Setup) (s : State) (f : Fault), microCycle k s = .fault f →
    f.residue.intp = s.intp ∧ f.residue.params = s.params)
  ∧ (∀ s t : State, step s = .next t → t.intp = s.intp ∧ t.params = s.params)
  ∧ (∀ (s : State) (f : Fault), step s = .fault f →
    f.residue.intp = s.intp ∧ f.residue.params = s.params)
  ∧ (∀ (b : Bool) (s : State), setInt b s = { s with intp := b })

/-- The flag-commit property, which the spec works out in R252: the word A under any configuration and in any state with
F.S = 0 updates the pending S only and goes to `a0`; with `Misc.COND` as well it commits and goes to `a1`. -/
def Obligations.FlagCommit : Prop :=
  ∀ (k : Setup) (s : State) (a1 a0 : Nat) (misc : Misc),
    k.selectors.valid → a1 < 128 → a0 < 128 → s.flags.s = false → (misc = .none ∨ misc = .cond) →
    k.rom[s.upc.toNat]? = some (k.selectors.toWord
      { sbus := .minusOne, dbus := .zero, alu := .sum, misc, cond := .s, addressTrue := a1,
        addressFalse := a0 }) →
    ∃ t, microCycle k s = .next t
      ∧ t.pending = { z := false, c := false, v := false, s := true }
      ∧ (misc = .none → t.flags = s.flags ∧ t.upc.toNat = a0)
      ∧ (misc = .cond → t.flags = t.pending ∧ t.upc.toNat = a1)

/-- The carry and overflow of R215 and R216 are the exact ones: the carry completes the unsigned sum, the
borrow the unsigned difference, and V holds exactly when the signed result does not fit 16 bits. -/
def Obligations.CarryAndOverflowAreExact : Prop :=
  ∀ S D : Word,
    (let (r, f) := aluSum S D
     S.toNat + D.toNat = r.toNat + (if f.c then 65536 else 0)
      ∧ (f.v = true ↔ S.toInt + D.toInt ≠ r.toInt)
      ∧ (f.z = true ↔ r.toNat = 0) ∧ (f.s = true ↔ r.toInt < 0))
    ∧ (let (r, f) := aluSub S D
       D.toNat + (if f.c then 65536 else 0) = r.toNat + S.toNat
        ∧ (f.v = true ↔ D.toInt - S.toInt ≠ r.toInt)
        ∧ (f.z = true ↔ r.toNat = 0) ∧ (f.s = true ↔ r.toInt < 0))

/-- R37: the flag word's bits, and the flags a word loads, its upper bits ignored. -/
def Obligations.FlagWordLayout : Prop :=
  ∀ (f : Flags) (v w : Word),
    f.word.getLsbD 0 = f.c ∧ f.word.getLsbD 1 = f.v ∧ f.word.getLsbD 2 = f.z ∧ f.word.getLsbD 3 = f.s
    ∧ (∀ k, 4 ≤ k → f.word.getLsbD k = false)
    ∧ Flags.ofWord w
        = { c := w.getLsbD 0, v := w.getLsbD 1, z := w.getLsbD 2, s := w.getLsbD 3 }
    ∧ (v &&& 0x000F = w &&& 0x000F → Flags.ofWord v = Flags.ofWord w)

/-- A store is seen by every later data read and instruction fetch of the cell, and by no access to another
cell (R70, R72). -/
def Obligations.StoreIsSeen : Prop :=
  ∀ s t u : State, s.mem.wf = true → memWrite s = .next t → u.mem = t.mem → u.params = s.params →
    (u.adr = s.adr → ∃ v, memRead u = .next v ∧ v.mdr = s.mdr)
    ∧ (u.pc = s.adr → u.pc.toNat < u.params.stackBase → ∃ v, fetchIr u = .next v ∧ v.ir = s.mdr)
    ∧ (∀ a, a ≠ s.adr.toNat → u.mem.read a = s.mem.read a)

/-! ## Faults -/

/-- A step raises ProgramEnd exactly at the fetch word with `pc` at or above STACK_BASE, and nothing but the
latched control word changes (R440, R447). -/
def Obligations.ProgramEndExactly : Prop :=
  ∀ s t : State, step s = .fault (.programEnd t) ↔
    (s.upc = uFetch ∧ s.params.stackBase ≤ s.pc.toNat ∧ t = { s with cw := controlWordAt uFetch })

/-- A step raises StackOverflow only in PUSH, CALL, PUSHPC or PUSHFLAG (the whole instruction, or its pushing
word alone), with `sp - 1 < STACK_BASE`; `sp` is kept, the pushed value is stored at it, and `upc` is the
pushing word's (R441, R447). -/
def Obligations.StackOverflowOnlyFromPushes : Prop :=
  ∀ s t : State, step s = .fault (.stackOverflow t) →
    (s.sp.toNat : Int) - 1 < s.params.stackBase ∧ t.sp = s.sp
    ∧ t.mem = s.mem.write s.sp.toNat t.mdr
    ∧ t.upc ∈ [uPush0, uCall2, uPushpc1, uPushflag1]
    ∧ (s.upc = t.upc ∨ ∃ i, s.nextInstr = some i
        ∧ (i = .pushpc ∨ i = .pushflag ∨ (∃ o, i = .push o) ∨ (∃ o, i = .call o)))

/-- Stepping again after an architectural fault raises the same fault with the same residue, which the spec
derives in R448. -/
def Obligations.FaultsRepeat : Prop :=
  ∀ s t : State, s.mem.wf = true →
    (step s = .fault (.programEnd t) → step t = .fault (.programEnd t))
    ∧ (step s = .fault (.stackOverflow t) → step t = .fault (.stackOverflow t))

/-- The stack discipline: from the state reset leaves, exactly STACK_SIZE - 1 decrements of `sp` succeed and
the next one faults, which the spec derives from R247 (R74, R472). -/
def Obligations.StackDiscipline : Prop :=
  ∀ (p : Params) (program : List Word), programFits p program →
    (∀ n, n < p.stackSize → ∃ t, times decSp n (bootState p program) = .next t
      ∧ t.sp.toNat = p.memSize - 1 - n)
    ∧ ∃ t, times decSp p.stackSize (bootState p program) = .fault (.stackOverflow t)
      ∧ t.sp.toNat = p.stackBase

/-- A reserved opcode word at the fetch is never executed: its own micro-cycles end in the model-level fault
U1, or in an out-of-range operand access before that; a word of group BRANCH or OTHER in U1 itself. U1 is the
treatment 93_implementation_defined.md asks for (log 8). -/
def Obligations.ReservedOpcodeStops : Prop :=
  ∀ (s : State) (n : Nat), s.upc = uFetch → s.pc.toNat < s.params.stackBase →
    opcodeDefined (s.mem.read s.pc.toNat) = false → 8 ≤ n →
    (∃ t, run n s = .fault (.reservedOpcode t))
    ∨ ((group (s.mem.read s.pc.toNat) = .twoOp ∨ group (s.mem.read s.pc.toNat) = .oneOp)
        ∧ ∃ t, run n s = .fault (.dataOutOfRange t))

/-! ## Reset, the step, the invariants -/

/-- R471: `reset(P)` for a program and parameters that meet its `require`. -/
def Obligations.ResetOfAProgram : Prop :=
  (∀ (n : Nat) (program : List Word), (defaultParams n program).memSize = program.length + n
    ∧ (defaultParams n program).stackSize = n)
  ∧ ∀ (p : Params) (program : List Word), 1 ≤ p.stackSize →
    program.length + p.stackSize ≤ p.memSize → p.memSize ≤ 65536 →
    ∃ t, boot p program = .next t
      ∧ (∀ i w, program[i]? = some w → t.mem.read i = w)
      ∧ (∀ i, program.length ≤ i → t.mem.read i = 0)
      ∧ t.params = p ∧ t.params.stackBase = p.memSize - p.stackSize
      ∧ t.pc = 0 ∧ t.sp.toNat = p.memSize - 1 ∧ (∀ r : Reg, t.reg r = 0)
      ∧ t.ir = 0 ∧ t.adr = 0 ∧ t.mdr = 0 ∧ t.t = 0
      ∧ t.flags = { z := false, c := false, v := false, s := false }
      ∧ t.pending = { z := false, c := false, v := false, s := false }
      ∧ t.intp = false ∧ t.regsel = none ∧ t.upc = 0 ∧ t.cw = none

/-- `State.reset` is `reset(P)` of the empty program with the parameters of `Config.resetParams`, MEM_SIZE
65536 and STACK_SIZE 8, which are the model's choice (log 3); its first step is the idle word and leads to the
fetch word (R474, log 2). -/
def Obligations.ResetState : Prop :=
  boot Config.resetParams [] = .next State.reset
  ∧ step State.reset = .next { State.reset with cw := some 0x2000, upc := uFetch }

/-- R6 (U8): under `refuse` a program of whole instructions is rejected at the first opcode word whose mode the
encoder refuses, whatever words follow it or are missing after it, and loaded as under `follow` when there is
none. How the sweep finds instruction boundaries, and that it comes before the test whether the program fits, is
the model's choice (log 12). -/
def Obligations.IllegalModePolicyRefuses : Prop :=
  ∀ (c : Codes) (extra : List (AddrMode × AddrMode)) (p : Params) (legal : List Instr), c.valid →
    (∀ i ∈ legal, i.legal extra = true) →
    bootUnder .refuse c extra p (legal.flatMap c.encode) = boot p (legal.flatMap c.encode)
    ∧ ∀ (bad : Instr) (w : Word) (rest : List Word), bad.legal extra = false →
      (c.encode bad).head? = some w →
      bootUnder .refuse c extra p (legal.flatMap c.encode ++ w :: rest)
          = .refused (.illegalModeInProgram (legal.flatMap c.encode).length)
        ∧ bootUnder .follow c extra p (legal.flatMap c.encode ++ w :: rest)
          = boot p (legal.flatMap c.encode ++ w :: rest)

/-- The reset state meets the invariant of the next statement but one. -/
def Obligations.ResetMeetsTheInvariants : Prop :=
  State.reset.Inv ∧ State.reset.SpInv

/-- Every step keeps `State.Inv`: legal parameters, canonical memory that lists only cells that exist, `upc` a
valid index into the store, and a latched word of the store. -/
def Obligations.StepKeepsTheInvariant : Prop :=
  ∀ s t : State, s.Inv → step s = .next t → t.Inv

/-- When memory does not fill the address space every step keeps `sp` inside the stack region, but for the
unchecked INC_SP of a pop, after which the read faults: no run of any program moves `sp` anywhere else. -/
def Obligations.StackPointerStaysInItsRegion : Prop :=
  ∀ s t : State, s.params.valid → s.params.memSize < 65536 → s.SpInv → step s = .next t → t.SpInv

/-- A step runs the decoded instruction: at the fetch word, with `pc` below STACK_BASE and the words at `pc`
decoding to `i`, the step is `exec i` on the state after the FETCH cycle, which has loaded `ir`, moved `pc`
past the opcode word, and changed nothing else architectural. -/
def Obligations.StepRunsTheDecodedInstruction : Prop :=
  ∀ (s : State) (i : Instr) (rest : List Word),
    s.upc = uFetch → s.pc.toNat < s.params.stackBase → decodeWords s.fetchWords = .ok (i, rest) →
    step s = exec i s.fetched
    ∧ s.fetched.ir = s.mem.read s.pc.toNat
    ∧ s.fetched.arch = { s.arch with pc := s.pc + 1 }
    ∧ s.fetched.upc = uFetch ∧ s.fetched.cw = controlWordAt uFetch
    ∧ s.fetched.adr = s.adr ∧ s.fetched.mdr = s.mdr ∧ s.fetched.t = s.t
    ∧ s.fetched.pending = s.pending ∧ s.fetched.regsel = s.regsel

/-- An instruction whose words stand at `pc`, in cells that exist, is the one the step runs. -/
def Obligations.PlacedInstructionRuns : Prop :=
  ∀ (i : Instr) (s : State), s.mem.wf = true → s.pc.toNat < s.params.stackBase →
    (∀ k, k < (encode i).length → s.inMemory (s.pc + BitVec.ofNat 16 k) = true) →
    let u := s.placeInstr (encode i)
    step u = exec i u.fetched ∧ u.arch = { s.arch with mem := u.mem }
      ∧ (encode i).head? = some u.fetched.ir

/-- The meanings are the microcode: at an instruction boundary, running the reference control store for the
number of micro-cycles R325 gives the instruction ends in exactly the state, latches included, that the step
answers, or in the same fault with the same residue. -/
def Obligations.MicrocodeRefinesTheStep : Prop :=
  ∀ (s : State) (i : Instr), s.nextInstr = some i → run (cycles i s) s = step s

/-- No program can tell apart two states that agree in `x`, `pc`, `sp`, `F`, `M` and `intp` at an instruction
boundary: after any number of micro-cycles they agree in these and in `upc`, or stop with the same fault and
residue. The spec derives this in R480. -/
def Obligations.LatchesAreInvisible : Prop :=
  ∀ (a b : State) (n : Nat), a.upc = uFetch → b.upc = uFetch → a.arch = b.arch →
    sameAtInstructionLevel (run n a) (run n b)

/-! ## TWO_OP instructions -/

/-- R341: MOV. -/
def Obligations.MovStoresTheSource : Prop :=
  wordAt 17 { sbus := .t, alu := .sum, rbus := .mdr, cond := .regDest, addressTrue := 15,
              addressFalse := 16 }
  ∧ ∀ (src dst : Operand) (s : State),
    (encode (.mov src dst)).head?
      = some (0b0000#4 ++ src.mode.code ++ src.field ++ dst.mode.code ++ dst.field)
    ∧ (Instr.mov src dst).wellFormed = (dst.mode != .immediate)
    ∧ (readable src s = true → (destPlace src dst s).inMemory s = true →
        StoresResult (exec (.mov src dst) s) s (extraCount src + extraCount dst) s.flags
          (destPlace src dst s) (valueOf src s))
    ∧ (readable src s = true → readable dst s = false →
        StopsOutOfRange (exec (.mov src dst) s)
          { s.arch with pc := s.pc + (extraCount src + extraCount dst) })

/-- R342: ADD. -/
def Obligations.AddStoresTheSum : Prop :=
  wordAt 19 (resultWord .t .mdr .sum)
  ∧ ∀ (src dst : Operand) (s : State),
    (encode (.add src dst)).head?
      = some (0b0001#4 ++ src.mode.code ++ src.field ++ dst.mode.code ++ dst.field)
    ∧ (Instr.add src dst).wellFormed = (dst.mode != .immediate)
    ∧ (readable src s = true → (destPlace src dst s).inMemory s = true →
        let v := valueOf src s
        let d := valueOf dst s
        let r := v + d
        StoresResult (exec (.add src dst) s) s (extraCount src + extraCount dst)
          { z := r == 0, s := r.msb, c := decide (65536 ≤ v.toNat + d.toNat),
            v := v.msb == d.msb && r.msb != v.msb }
          (destPlace src dst s) r)

/-- R343: SUB. -/
def Obligations.SubStoresTheDifference : Prop :=
  wordAt 21 (resultWord .t .mdr .sub)
  ∧ ∀ (src dst : Operand) (s : State),
    (encode (.sub src dst)).head?
      = some (0b0010#4 ++ src.mode.code ++ src.field ++ dst.mode.code ++ dst.field)
    ∧ (Instr.sub src dst).wellFormed = (dst.mode != .immediate)
    ∧ (readable src s = true → (destPlace src dst s).inMemory s = true →
        let v := valueOf src s
        let d := valueOf dst s
        let r := d - v
        StoresResult (exec (.sub src dst) s) s (extraCount src + extraCount dst)
          { z := r == 0, s := r.msb, c := decide (d.toNat < v.toNat),
            v := d.msb != v.msb && r.msb != d.msb }
          (destPlace src dst s) r)

/-- R344: CMP: only the flags and `pc` change. An IMMEDIATE destination is read from the instruction. -/
def Obligations.CmpSetsOnlyTheFlags : Prop :=
  wordAt 23 { sbus := .t, dbus := .mdr, alu := .sub, misc := .cond }
  ∧ ∀ (src dst : Operand) (s : State),
    (encode (.cmp src dst)).head?
      = some (0b0011#4 ++ src.mode.code ++ src.field ++ dst.mode.code ++ dst.field)
    ∧ (Instr.cmp src dst).wellFormed = (dst.mode != .immediate)
    ∧ (readable src s = true → readable dst s = true →
        let v := valueOf src s
        let d := valueOf dst s
        let r := d - v
        Completes (exec (.cmp src dst) s) s
          { s.arch with
            pc := s.pc + (extraCount src + extraCount dst)
            flags :=
              { z := r == 0, s := r.msb, c := decide (d.toNat < v.toNat),
                v := d.msb != v.msb && r.msb != d.msb } })

/-- R345, R346, R347: AND, OR, XOR: Z and S of the result, C and V cleared. -/
def Obligations.LogicStoresTheResult : Prop :=
  wordAt 25 (resultWord .t .mdr .and) ∧ wordAt 27 (resultWord .t .mdr .or)
  ∧ wordAt 29 (resultWord .t .mdr .xor)
  ∧ ∀ (src dst : Operand) (s : State),
    (encode (.and src dst)).head?
      = some (0b0100#4 ++ src.mode.code ++ src.field ++ dst.mode.code ++ dst.field)
    ∧ (encode (.or src dst)).head?
      = some (0b0101#4 ++ src.mode.code ++ src.field ++ dst.mode.code ++ dst.field)
    ∧ (encode (.xor src dst)).head?
      = some (0b0110#4 ++ src.mode.code ++ src.field ++ dst.mode.code ++ dst.field)
    ∧ (Instr.and src dst).wellFormed = (dst.mode != .immediate)
    ∧ (Instr.or src dst).wellFormed = (dst.mode != .immediate)
    ∧ (Instr.xor src dst).wellFormed = (dst.mode != .immediate)
    ∧ (readable src s = true → (destPlace src dst s).inMemory s = true →
        let v := valueOf src s
        let d := valueOf dst s
        let stores (i : Instr) (r : Word) : Prop :=
          StoresResult (exec i s) s (extraCount src + extraCount dst)
            { z := r == 0, s := r.msb, c := false, v := false } (destPlace src dst s) r
        stores (.and src dst) (v &&& d) ∧ stores (.or src dst) (v ||| d)
          ∧ stores (.xor src dst) (v ^^^ d))

/-! ## ONE_OP instructions -/

/-- R361: CLR. -/
def Obligations.ClrStoresZero : Prop :=
  wordAt 31 (resultWord .zero .zero .sum)
  ∧ ∀ (dst : Operand) (s : State),
    (encode (.clr dst)).head? = some (0b1000000000#10 ++ dst.mode.code ++ dst.field)
    ∧ (Instr.clr dst).legal [] = (dst.mode != .immediate)
    ∧ ((placeOf dst s s.pc).inMemory s = true →
        StoresResult (exec (.clr dst) s) s (extraCount dst)
          { z := true, s := false, c := false, v := false } (placeOf dst s s.pc) 0)
    ∧ (readable dst s = false →
        StopsOutOfRange (exec (.clr dst) s) { s.arch with pc := s.pc + extraCount dst })

/-- R362: NEG. -/
def Obligations.NegStoresTheNegation : Prop :=
  wordAt 33 { sbus := .mdr, alu := .sum, rbus := .t, addressTrue := 34 }
  ∧ wordAt 34 (resultWord .t .zero .sub)
  ∧ ∀ (dst : Operand) (s : State),
    (encode (.neg dst)).head? = some (0b1000000001#10 ++ dst.mode.code ++ dst.field)
    ∧ (Instr.neg dst).legal [] = (dst.mode != .immediate)
    ∧ ((placeOf dst s s.pc).inMemory s = true →
        let d := valueOf dst s
        let r := 0 - d
        StoresResult (exec (.neg dst) s) s (extraCount dst)
          { z := r == 0, s := r.msb, c := d != 0, v := d == 0x8000 } (placeOf dst s s.pc) r)

/-- R363, R364: INC and DEC. -/
def Obligations.IncAndDecStore : Prop :=
  wordAt 35 (resultWord .one .mdr .sum) ∧ wordAt 37 (resultWord .one .mdr .sub)
  ∧ ∀ (dst : Operand) (s : State),
    (encode (.inc dst)).head? = some (0b1000000010#10 ++ dst.mode.code ++ dst.field)
    ∧ (encode (.dec dst)).head? = some (0b1000000011#10 ++ dst.mode.code ++ dst.field)
    ∧ (Instr.inc dst).legal [] = (dst.mode != .immediate)
    ∧ (Instr.dec dst).legal [] = (dst.mode != .immediate)
    ∧ ((placeOf dst s s.pc).inMemory s = true →
        let d := valueOf dst s
        StoresResult (exec (.inc dst) s) s (extraCount dst)
            { z := d + 1 == 0, s := (d + 1).msb, c := d == 0xFFFF, v := d == 0x7FFF }
            (placeOf dst s s.pc) (d + 1)
          ∧ StoresResult (exec (.dec dst) s) s (extraCount dst)
            { z := d - 1 == 0, s := (d - 1).msb, c := d == 0, v := d == 0x8000 }
            (placeOf dst s s.pc) (d - 1))

/-- R365, R366, R367: ASL, ASR, LSR. -/
def Obligations.ShiftsStore : Prop :=
  wordAt 39 (resultWord .none .mdr .asl) ∧ wordAt 41 (resultWord .none .mdr .asr)
  ∧ wordAt 43 (resultWord .none .mdr .lsr)
  ∧ ∀ (dst : Operand) (s : State),
    (encode (.asl dst)).head? = some (0b1000000100#10 ++ dst.mode.code ++ dst.field)
    ∧ (encode (.asr dst)).head? = some (0b1000000101#10 ++ dst.mode.code ++ dst.field)
    ∧ (encode (.lsr dst)).head? = some (0b1000000110#10 ++ dst.mode.code ++ dst.field)
    ∧ (Instr.asl dst).legal [] = (dst.mode != .immediate)
    ∧ (Instr.asr dst).legal [] = (dst.mode != .immediate)
    ∧ (Instr.lsr dst).legal [] = (dst.mode != .immediate)
    ∧ ((placeOf dst s s.pc).inMemory s = true →
        let d := valueOf dst s
        let stores (i : Instr) (r : Word) (c v : Bool) : Prop :=
          StoresResult (exec i s) s (extraCount dst) { z := r == 0, s := r.msb, c, v }
            (placeOf dst s s.pc) r
        stores (.asl dst) (d <<< 1) (d.getLsbD 15) (d.getLsbD 15 ^^ d.getLsbD 14)
          ∧ stores (.asr dst) ((d >>> 1) ||| (d &&& 0x8000)) (d.getLsbD 0) false
          ∧ stores (.lsr dst) (d >>> 1) (d.getLsbD 0) false
          ∧ (d >>> 1).msb = false)

/-- R368 to R371: ROL, ROR, RLC, RRC, the last two through the committed carry. -/
def Obligations.RotatesStore : Prop :=
  wordAt 45 (resultWord .none .mdr .rol) ∧ wordAt 47 (resultWord .none .mdr .ror)
  ∧ wordAt 49 (resultWord .none .mdr .rlc) ∧ wordAt 51 (resultWord .none .mdr .rrc)
  ∧ ∀ (dst : Operand) (s : State),
    (encode (.rol dst)).head? = some (0b1000000111#10 ++ dst.mode.code ++ dst.field)
    ∧ (encode (.ror dst)).head? = some (0b1000001000#10 ++ dst.mode.code ++ dst.field)
    ∧ (encode (.rlc dst)).head? = some (0b1000001001#10 ++ dst.mode.code ++ dst.field)
    ∧ (encode (.rrc dst)).head? = some (0b1000001010#10 ++ dst.mode.code ++ dst.field)
    ∧ (Instr.rol dst).legal [] = (dst.mode != .immediate)
    ∧ (Instr.ror dst).legal [] = (dst.mode != .immediate)
    ∧ (Instr.rlc dst).legal [] = (dst.mode != .immediate)
    ∧ (Instr.rrc dst).legal [] = (dst.mode != .immediate)
    ∧ ((placeOf dst s s.pc).inMemory s = true →
        let d := valueOf dst s
        let stores (i : Instr) (r : Word) (c : Bool) : Prop :=
          StoresResult (exec i s) s (extraCount dst) { z := r == 0, s := r.msb, c, v := false }
            (placeOf dst s s.pc) r
        stores (.rol dst) ((d <<< 1) ||| (if d.getLsbD 15 then 1 else 0)) (d.getLsbD 15)
          ∧ stores (.ror dst) ((d >>> 1) ||| (if d.getLsbD 0 then 0x8000 else 0)) (d.getLsbD 0)
          ∧ stores (.rlc dst) ((d <<< 1) ||| (if s.flags.c then 1 else 0)) (d.getLsbD 15)
          ∧ stores (.rrc dst) ((d >>> 1) ||| (if s.flags.c then 0x8000 else 0)) (d.getLsbD 0))

/-- R372: JMP takes the operand's value, from any mode, as the new `pc`; nothing else changes. -/
def Obligations.JmpLoadsThePc : Prop :=
  wordAt 53 { dbus := .mdr, alu := .sum, rbus := .pc }
  ∧ ∀ (target : Operand) (s : State),
    (encode (.jmp target)).head? = some (0b1000001011#10 ++ target.mode.code ++ target.field)
    ∧ (Instr.jmp target).legal [] = true
    ∧ (readable target s = true →
        Completes (exec (.jmp target) s) s { s.arch with pc := valueOf target s })

/-- R373: CALL pushes the address after the whole instruction and transfers to the operand's value, read before
the push; when the decrement faults the address is stored, `sp` is kept and `pc` is that address. -/
def Obligations.CallPushesAndTransfers : Prop :=
  wordAt 55 { sbus := .mdr, alu := .sum, rbus := .t, addressTrue := 56 }
  ∧ wordAt 56 { dbus := .pc, alu := .sum, rbus := .mdr, addressTrue := 57 }
  ∧ wordAt 57 { dbus := .sp, alu := .sum, rbus := .adr, misc := .decSp, mem := .write,
                addressTrue := 58 }
  ∧ wordAt 58 { sbus := .t, alu := .sum, rbus := .pc }
  ∧ ∀ (target : Operand) (s : State),
    (encode (.call target)).head? = some (0b1000001100#10 ++ target.mode.code ++ target.field)
    ∧ (Instr.call target).legal [] = true
    ∧ (readable target s = true → s.inMemory s.sp = true →
        (canPush s = true →
          CompletesStoring (exec (.call target) s) s
            { s.arch with pc := valueOf target s, sp := s.sp - 1 } (.cell s.sp)
            (s.pc + extraCount target))
        ∧ (canPush s = false →
          OverflowsPushing (exec (.call target) s) s 57 (extraCount target)
            (s.pc + extraCount target)))

/-- R374: PUSH stores the operand's value at `sp` and decrements `sp`; when the decrement faults the value is
stored and `sp` is kept. -/
def Obligations.PushStoresAndDecrements : Prop :=
  wordAt 59 { dbus := .sp, alu := .sum, rbus := .adr, misc := .decSp, mem := .write }
  ∧ ∀ (src : Operand) (s : State),
    (encode (.push src)).head? = some (0b1000001101#10 ++ src.mode.code ++ src.field)
    ∧ (Instr.push src).legal [] = true
    ∧ (readable src s = true → s.inMemory s.sp = true →
        (canPush s = true →
          CompletesStoring (exec (.push src) s) s
            { s.arch with pc := s.pc + extraCount src, sp := s.sp - 1 } (.cell s.sp)
            (valueOf src s))
        ∧ (canPush s = false →
          OverflowsPushing (exec (.push src) s) s 59 (extraCount src) (valueOf src s)))

/-- R375, with R376's IMMEDIATE destination: POP stores the cell above `sp` at the operand's place, which is the
one the registers name before the pop; flags are kept; an IMMEDIATE destination drops the value. -/
def Obligations.PopLoadsTheTop : Prop :=
  wordAt 61 { misc := .incSp, addressTrue := 62 }
  ∧ wordAt 62 { dbus := .sp, alu := .sum, rbus := .adr, mem := .read, addressTrue := 101 }
  ∧ wordAt 101 { sbus := .mdr, alu := .sum, rbus := .t, addressTrue := 102, indexTrue := .mad }
  ∧ ∀ (dst : Operand) (s : State),
    (encode (.pop dst)).head? = some (0b1000001110#10 ++ dst.mode.code ++ dst.field)
    ∧ (Instr.pop dst).legal [] = (dst.mode != .immediate)
    ∧ (readable dst s = true → s.inMemory (s.sp + 1) = true →
        (dst.mode ≠ .immediate →
          CompletesStoring (exec (.pop dst) s) s
            { s.arch with pc := s.pc + extraCount dst, sp := s.sp + 1 } (placeOf dst s s.pc)
            (s.mem.read (s.sp + 1).toNat))
        ∧ (dst.mode = .immediate →
          Completes (exec (.pop dst) s) s { s.arch with pc := s.pc + 1, sp := s.sp + 1 }))

/-! ## BRANCH instructions -/

/-- R391 to R399: each branch, taken exactly under its condition on the committed flags, adds the offset
(zero-extended, or sign-extended when BR_OFFSET_SIGNED is true) to the address after it, modulo 65536; not taken
it falls through. Nothing but `pc` changes. -/
def Obligations.BranchesTransfer : Prop :=
  ∀ (o : BitVec 8) (s : State),
    let offset : Word := if s.params.brOffsetSigned then o.signExtend 16 else o.zeroExtend 16
    let branches (i : Instr) (code : BitVec 8) (taken : Bool) : Prop :=
      encode i = [code ++ o]
      ∧ Completes (exec i s) s (if taken then { s.arch with pc := s.pc + offset } else s.arch)
    branches (.br o) 0b11000000 true
    ∧ branches (.bne o) 0b11000001 (s.flags.z == false)
    ∧ branches (.beq o) 0b11000010 (s.flags.z == true)
    ∧ branches (.bpl o) 0b11000011 (s.flags.s == false)
    ∧ branches (.bmi o) 0b11000100 (s.flags.s == true)
    ∧ branches (.bcs o) 0b11000101 (s.flags.c == true)
    ∧ branches (.bcc o) 0b11000110 (s.flags.c == false)
    ∧ branches (.bvs o) 0b11000111 (s.flags.v == true)
    ∧ branches (.bvc o) 0b11001000 (s.flags.v == false)

/-! ## OTHER instructions -/

/-- R411 to R420: each flag instruction writes its flags and leaves the other flags and everything else as they
were. -/
def Obligations.FlagInstructionsWriteTheirFlags : Prop :=
  wordAt 63 { misc := .clrC } ∧ wordAt 65 { misc := .clrV } ∧ wordAt 67 { misc := .clrZ }
  ∧ wordAt 69 { misc := .clrS } ∧ wordAt 73 { misc := .setC } ∧ wordAt 75 { misc := .setV }
  ∧ wordAt 77 { misc := .setZ } ∧ wordAt 79 { misc := .setS }
  ∧ wordAt 71 { misc := .clrC, addressTrue := 72 } ∧ wordAt 72 { misc := .clrV, addressTrue := 108 }
  ∧ wordAt 108 { misc := .clrZ, addressTrue := 109 } ∧ wordAt 109 { misc := .clrS }
  ∧ wordAt 81 { misc := .setC, addressTrue := 82 } ∧ wordAt 82 { misc := .setV, addressTrue := 110 }
  ∧ wordAt 110 { misc := .setZ, addressTrue := 111 } ∧ wordAt 111 { misc := .setS }
  ∧ ∀ s : State,
    let writes (i : Instr) (word : Word) (f : Flags) : Prop :=
      encode i = [word] ∧ Completes (exec i s) s { s.arch with flags := f }
    cycles .ccc s = 5 ∧ cycles .scc s = 5
    ∧ writes .clc 0xE000 { s.flags with c := false }
    ∧ writes .clv 0xE001 { s.flags with v := false }
    ∧ writes .clz 0xE002 { s.flags with z := false }
    ∧ writes .cls 0xE003 { s.flags with s := false }
    ∧ writes .ccc 0xE004 { z := false, c := false, v := false, s := false }
    ∧ writes .sec 0xE005 { s.flags with c := true }
    ∧ writes .sev 0xE006 { s.flags with v := true }
    ∧ writes .sez 0xE007 { s.flags with z := true }
    ∧ writes .ses 0xE008 { s.flags with s := true }
    ∧ writes .scc 0xE009 { z := true, c := true, v := true, s := true }

/-- R421, R424: NOP and HALT do nothing; execution goes on with the next word. -/
def Obligations.NopAndHaltDoNothing : Prop :=
  wordAt 83 {} ∧ wordAt 89 {}
  ∧ ∀ s : State,
    encode .nop = [0xE00A] ∧ Completes (exec .nop s) s s.arch ∧ cycles .nop s = 2
    ∧ encode .halt = [0xE00D] ∧ Completes (exec .halt s) s s.arch

/-- R425: with `intp` = 1 WAIT goes on and `intp` is kept; with `intp` = 0 it is at WAIT.0, where every further
step is an idle micro-cycle that changes nothing, until the host sets `intp` and the next step goes on. -/
def Obligations.WaitWaitsForIntp : Prop :=
  encode .wait = [0xE00E] ∧ wordAt 91 { cond := .int, addressFalse := 91 }
  ∧ ∀ s : State,
    (s.intp = true → Completes (exec .wait s) s s.arch ∧ cycles .wait s = 2)
    ∧ (s.intp = false →
        ∃ t, exec .wait s = .next t ∧ t.upc = 91 ∧ t.ir = s.ir ∧ t.arch = s.arch
          ∧ step t = .next t
          ∧ Completes (step (setInt true t)) s { s.arch with intp := true })

/-- R422, R427: RET and POPPC pop `pc`; flags are kept. -/
def Obligations.RetAndPoppcPopThePc : Prop :=
  encode .ret = [0xE00B] ∧ encode .poppc = [0xE010]
  ∧ wordAt 85 { misc := .incSp, addressTrue := 86 }
  ∧ wordAt 86 { dbus := .sp, alu := .sum, rbus := .adr, mem := .read, addressTrue := 112 }
  ∧ wordAt 95 { misc := .incSp, addressTrue := 96 }
  ∧ wordAt 96 { dbus := .sp, alu := .sum, rbus := .adr, mem := .read, addressTrue := 112 }
  ∧ wordAt 112 { dbus := .mdr, alu := .sum, rbus := .pc }
  ∧ ∀ s : State, s.inMemory (s.sp + 1) = true →
    cycles .ret s = 4 ∧ cycles .poppc s = 4
      ∧ Completes (exec .ret s) s
          { s.arch with pc := s.mem.read (s.sp + 1).toNat, sp := s.sp + 1 }
      ∧ Completes (exec .poppc s) s
          { s.arch with pc := s.mem.read (s.sp + 1).toNat, sp := s.sp + 1 }

/-- R423, R429: RETI pops `pc` and then the flags, POPFLAG the flags, from bits 0 to 3 of the popped word. -/
def Obligations.RetiAndPopflagPopTheFlags : Prop :=
  encode .reti = [0xE00C] ∧ encode .popflag = [0xE012]
  ∧ wordAt 87 { misc := .incSp, addressTrue := 88 }
  ∧ wordAt 88 { dbus := .sp, alu := .sum, rbus := .adr, misc := .incSp, mem := .read,
                addressTrue := 113 }
  ∧ wordAt 113 { dbus := .mdr, alu := .sum, rbus := .pc, addressTrue := 114 }
  ∧ wordAt 114 { dbus := .sp, alu := .sum, rbus := .adr, mem := .read, addressTrue := 115 }
  ∧ wordAt 115 { dbus := .mdr, alu := .sum, rbus := .flags }
  ∧ wordAt 99 { misc := .incSp, addressTrue := 100 }
  ∧ wordAt 100 { dbus := .sp, alu := .sum, rbus := .adr, mem := .read, addressTrue := 116 }
  ∧ wordAt 116 { dbus := .mdr, alu := .sum, rbus := .flags }
  ∧ ∀ s : State,
    cycles .reti s = 6 ∧ cycles .popflag s = 4
    ∧ (s.inMemory (s.sp + 1) = true → s.inMemory (s.sp + 2) = true →
      let w := s.mem.read (s.sp + 2).toNat
      Completes (exec .reti s) s
        { s.arch with
          pc := s.mem.read (s.sp + 1).toNat
          sp := s.sp + 2
          flags := { c := w.getLsbD 0, v := w.getLsbD 1, z := w.getLsbD 2, s := w.getLsbD 3 } })
    ∧ (s.inMemory (s.sp + 1) = true →
      let w := s.mem.read (s.sp + 1).toNat
      Completes (exec .popflag s) s
        { s.arch with
          sp := s.sp + 1
          flags := { c := w.getLsbD 0, v := w.getLsbD 1, z := w.getLsbD 2, s := w.getLsbD 3 } })

/-- R426, R428: PUSHPC pushes the address of the next instruction, PUSHFLAG the flag word; when the decrement
faults the value is stored and `sp` is kept. -/
def Obligations.PushpcAndPushflagPush : Prop :=
  encode .pushpc = [0xE00F] ∧ encode .pushflag = [0xE011]
  ∧ wordAt 93 { dbus := .pc, alu := .sum, rbus := .mdr, addressTrue := 94 }
  ∧ wordAt 94 { dbus := .sp, alu := .sum, rbus := .adr, misc := .decSp, mem := .write }
  ∧ wordAt 97 { dbus := .flags, alu := .sum, rbus := .mdr, addressTrue := 98 }
  ∧ wordAt 98 { dbus := .sp, alu := .sum, rbus := .adr, misc := .decSp, mem := .write }
  ∧ ∀ s : State, s.inMemory s.sp = true →
    let bit (b : Bool) (n : Nat) : Nat := if b then 2 ^ n else 0
    let word := BitVec.ofNat 16
      (bit s.flags.s 3 + bit s.flags.z 2 + bit s.flags.v 1 + bit s.flags.c 0)
    cycles .pushpc s = 3 ∧ cycles .pushflag s = 3
    ∧ (canPush s = true →
      CompletesStoring (exec .pushpc s) s { s.arch with sp := s.sp - 1 } (.cell s.sp) s.pc
      ∧ CompletesStoring (exec .pushflag s) s { s.arch with sp := s.sp - 1 } (.cell s.sp) word)
    ∧ (canPush s = false →
      OverflowsPushing (exec .pushpc s) s 94 0 s.pc
      ∧ OverflowsPushing (exec .pushflag s) s 98 0 word)

/-! ## Out-of-range accesses, and stack round trips -/

/-- A data access beyond memory stops the instruction with the model-level fault U3 (log 6), with nothing
stored and no register changed: a source or destination operand, a push, and a pop (U9), where RETI's second one
has `pc` popped already. The two clauses on the write-back into an IMMEDIATE destination whose cell does not exist
(after the flags are committed) are the model's choice (log 7): `exec` takes the extra word from the instruction,
where DST.IMM's own read of that cell would stop first (R314, R239), and no step reaches such a state. -/
def Obligations.AccessesBeyondMemoryStop : Prop :=
  ∀ s : State,
    (∀ (op : TwoOp) (src dst : Operand), readable src s = false →
      StopsOutOfRange (exec (op.instr src dst) s) { s.arch with pc := s.pc + extraCount src })
    ∧ (∀ (op : TwoOp) (src dst : Operand), readable src s = true → readable dst s = false →
      StopsOutOfRange (exec (op.instr src dst) s)
        { s.arch with pc := s.pc + (extraCount src + extraCount dst) })
    ∧ (∀ (op : OneOp) (dst : Operand), readable dst s = false →
      StopsOutOfRange (exec (op.instr dst) s) { s.arch with pc := s.pc + extraCount dst })
    ∧ (∀ (op : TwoOp) (src : Operand) (f : Reg) (v : Word), op ≠ .cmp → readable src s = true →
      s.inMemory (s.pc + extraCount src) = false →
      ∃ t, exec (op.instr src (.immediate f v)) s = .fault (.dataOutOfRange t) ∧ t.mem = s.mem
        ∧ t.regs = s.regs ∧ t.sp = s.sp)
    ∧ (∀ (op : OneOp) (f : Reg) (v : Word), op ∉ [.jmp, .call, .push, .pop] →
      s.inMemory s.pc = false →
      ∃ t, exec (op.instr (.immediate f v)) s = .fault (.dataOutOfRange t) ∧ t.mem = s.mem
        ∧ t.regs = s.regs ∧ t.sp = s.sp)
    ∧ (s.inMemory s.sp = false →
      (∀ o, readable o s = true →
        StopsOutOfRange (exec (.push o) s) { s.arch with pc := s.pc + extraCount o }
        ∧ StopsOutOfRange (exec (.call o) s) { s.arch with pc := s.pc + extraCount o })
      ∧ StopsOutOfRange (exec .pushpc s) s.arch ∧ StopsOutOfRange (exec .pushflag s) s.arch)
    ∧ (s.inMemory (s.sp + 1) = false →
      (∀ o, readable o s = true → StopsOutOfRange (exec (.pop o) s)
          { s.arch with pc := s.pc + extraCount o, sp := s.sp + 1 })
      ∧ StopsOutOfRange (exec .ret s) { s.arch with sp := s.sp + 1 }
      ∧ StopsOutOfRange (exec .poppc s) { s.arch with sp := s.sp + 1 }
      ∧ StopsOutOfRange (exec .popflag s) { s.arch with sp := s.sp + 1 }
      ∧ StopsOutOfRange (exec .reti s) { s.arch with sp := s.sp + 1 })
    ∧ (s.inMemory (s.sp + 1) = true → s.inMemory (s.sp + 2) = false →
      StopsOutOfRange (exec .reti s)
        { s.arch with pc := s.mem.read (s.sp + 1).toNat, sp := s.sp + 2 })

/-- What is pushed is what the matching pop gives back, and `sp` returns: PUSH with POP to a register, CALL with
RET, PUSHFLAG with POPFLAG, and PUSHFLAG, PUSHPC with RETI. It follows from R377's push and pop. -/
def Obligations.PopsReturnWhatWasPushed : Prop :=
  ∀ s : State, s.mem.wf = true → s.inMemory s.sp = true → canPush s = true →
    (∀ (o : Operand) (r : Reg), readable o s = true →
      ∃ t u, exec (.push o) s = .next t ∧ exec (.pop (.direct r)) t = .next u
        ∧ u.reg r = valueOf o s ∧ u.sp = s.sp ∧ u.flags = s.flags)
    ∧ (∀ o : Operand, readable o s = true →
      ∃ t u, exec (.call o) s = .next t ∧ t.pc = valueOf o s ∧ exec .ret t = .next u
        ∧ u.pc = s.pc + extraCount o ∧ u.sp = s.sp ∧ u.flags = s.flags ∧ u.regs = s.regs)
    ∧ (∃ t, exec .pushflag s = .next t ∧ ∀ f : Flags,
        ∃ u, exec .popflag { t with flags := f } = .next u ∧ u.flags = s.flags ∧ u.sp = s.sp)
    ∧ (s.inMemory (s.sp - 1) = true → (s.params.stackBase : Int) ≤ (s.sp.toNat : Int) - 2 →
      ∃ t u v, exec .pushflag s = .next t ∧ exec .pushpc t = .next u
        ∧ exec .reti { u with flags := {}, pc := 0 } = .next v
        ∧ v.flags = s.flags ∧ v.pc = s.pc ∧ v.sp = s.sp)
end

