-- ==== Sys2Proof/Laws/ControlStore.lean ====
section
/-! SUPPORT. The reference control store read back field by field: the selectors that the table of R321 and
spec/control_store.json name beside each hexadecimal word, and the proof that the words say the same. -/

namespace Sys2Proof.Machine

/-- R321: the fields of control words 0 to 26. -/
def storeFields0 : List MicroInstr :=
  [{},
   { misc := .incPc, mem := .ifch, cond := .noOp, addressTrue := 63, addressFalse := 2,
     indexTrue := .opcode },
   { cond := .oneOp, addressTrue := 10, addressFalse := 3, indexTrue := .mad },
   { cond := .branch, addressTrue := 117, addressFalse := 4, indexTrue := .opcode, indexFalse := .mas },
   { dbus := .pc, alu := .sum, rbus := .adr, misc := .incPc, mem := .read, addressTrue := 9 },
   { sbus := .reg, alu := .sum, rbus := .t, addressTrue := 10, indexTrue := .mad },
   { sbus := .reg, alu := .sum, rbus := .adr, mem := .read, addressTrue := 9 },
   { dbus := .pc, alu := .sum, rbus := .adr, misc := .incPc, mem := .read, addressTrue := 8 },
   { sbus := .reg, dbus := .mdr, alu := .sum, rbus := .adr, mem := .read, addressTrue := 9 },
   { sbus := .mdr, alu := .sum, rbus := .t, addressTrue := 10, indexTrue := .mad },
   { dbus := .pc, alu := .sum, rbus := .adr, misc := .incPc, mem := .read, cond := .oneOp,
     addressTrue := 31, addressFalse := 17, indexTrue := .oneOp, indexFalse := .twoOp },
   { dbus := .reg, alu := .sum, rbus := .mdr, cond := .oneOp, addressTrue := 31, addressFalse := 17,
     indexTrue := .oneOp, indexFalse := .twoOp },
   { dbus := .reg, alu := .sum, rbus := .adr, mem := .read, cond := .oneOp, addressTrue := 31,
     addressFalse := 17, indexTrue := .oneOp, indexFalse := .twoOp },
   { dbus := .pc, alu := .sum, rbus := .adr, misc := .incPc, mem := .read, addressTrue := 14 },
   { sbus := .mdr, dbus := .reg, alu := .sum, rbus := .adr, mem := .read, cond := .oneOp,
     addressTrue := 31, addressFalse := 17, indexTrue := .oneOp, indexFalse := .twoOp },
   { dbus := .mdr, alu := .sum, rbus := .reg }, { mem := .write },
   { sbus := .t, alu := .sum, rbus := .mdr, cond := .regDest, addressTrue := 15, addressFalse := 16 },
   {},
   { sbus := .t, dbus := .mdr, alu := .sum, rbus := .mdr, misc := .cond, cond := .regDest,
     addressTrue := 15, addressFalse := 16 },
   {},
   { sbus := .t, dbus := .mdr, alu := .sub, rbus := .mdr, misc := .cond, cond := .regDest,
     addressTrue := 15, addressFalse := 16 },
   {}, { sbus := .t, dbus := .mdr, alu := .sub, misc := .cond }, {},
   { sbus := .t, dbus := .mdr, alu := .and, rbus := .mdr, misc := .cond, cond := .regDest,
     addressTrue := 15, addressFalse := 16 },
   {}]

/-- R321: the fields of control words 27 to 53. -/
def storeFields1 : List MicroInstr :=
  [{ sbus := .t, dbus := .mdr, alu := .or, rbus := .mdr, misc := .cond, cond := .regDest,
     addressTrue := 15, addressFalse := 16 },
   {},
   { sbus := .t, dbus := .mdr, alu := .xor, rbus := .mdr, misc := .cond, cond := .regDest,
     addressTrue := 15, addressFalse := 16 },
   {},
   { sbus := .zero, dbus := .zero, alu := .sum, rbus := .mdr, misc := .cond, cond := .regDest,
     addressTrue := 15, addressFalse := 16 },
   {}, { sbus := .mdr, alu := .sum, rbus := .t, addressTrue := 34 },
   { sbus := .t, dbus := .zero, alu := .sub, rbus := .mdr, misc := .cond, cond := .regDest,
     addressTrue := 15, addressFalse := 16 },
   { sbus := .one, dbus := .mdr, alu := .sum, rbus := .mdr, misc := .cond, cond := .regDest,
     addressTrue := 15, addressFalse := 16 },
   {},
   { sbus := .one, dbus := .mdr, alu := .sub, rbus := .mdr, misc := .cond, cond := .regDest,
     addressTrue := 15, addressFalse := 16 },
   {},
   { dbus := .mdr, alu := .asl, rbus := .mdr, misc := .cond, cond := .regDest, addressTrue := 15,
     addressFalse := 16 },
   {},
   { dbus := .mdr, alu := .asr, rbus := .mdr, misc := .cond, cond := .regDest, addressTrue := 15,
     addressFalse := 16 },
   {},
   { dbus := .mdr, alu := .lsr, rbus := .mdr, misc := .cond, cond := .regDest, addressTrue := 15,
     addressFalse := 16 },
   {},
   { dbus := .mdr, alu := .rol, rbus := .mdr, misc := .cond, cond := .regDest, addressTrue := 15,
     addressFalse := 16 },
   {},
   { dbus := .mdr, alu := .ror, rbus := .mdr, misc := .cond, cond := .regDest, addressTrue := 15,
     addressFalse := 16 },
   {},
   { dbus := .mdr, alu := .rlc, rbus := .mdr, misc := .cond, cond := .regDest, addressTrue := 15,
     addressFalse := 16 },
   {},
   { dbus := .mdr, alu := .rrc, rbus := .mdr, misc := .cond, cond := .regDest, addressTrue := 15,
     addressFalse := 16 },
   {}, { dbus := .mdr, alu := .sum, rbus := .pc }]

/-- R321: the fields of control words 54 to 80. -/
def storeFields2 : List MicroInstr :=
  [{}, { sbus := .mdr, alu := .sum, rbus := .t, addressTrue := 56 },
   { dbus := .pc, alu := .sum, rbus := .mdr, addressTrue := 57 },
   { dbus := .sp, alu := .sum, rbus := .adr, misc := .decSp, mem := .write, addressTrue := 58 },
   { sbus := .t, alu := .sum, rbus := .pc },
   { dbus := .sp, alu := .sum, rbus := .adr, misc := .decSp, mem := .write }, {},
   { misc := .incSp, addressTrue := 62 },
   { dbus := .sp, alu := .sum, rbus := .adr, mem := .read, addressTrue := 101 }, { misc := .clrC }, {},
   { misc := .clrV }, {}, { misc := .clrZ }, {}, { misc := .clrS }, {},
   { misc := .clrC, addressTrue := 72 }, { misc := .clrV, addressTrue := 108 }, { misc := .setC }, {},
   { misc := .setV }, {}, { misc := .setZ }, {}, { misc := .setS }, {}]

/-- R321: the fields of control words 81 to 107. -/
def storeFields3 : List MicroInstr :=
  [{ misc := .setC, addressTrue := 82 }, { misc := .setV, addressTrue := 110 }, {}, {},
   { misc := .incSp, addressTrue := 86 },
   { dbus := .sp, alu := .sum, rbus := .adr, mem := .read, addressTrue := 112 },
   { misc := .incSp, addressTrue := 88 },
   { dbus := .sp, alu := .sum, rbus := .adr, misc := .incSp, mem := .read, addressTrue := 113 }, {}, {},
   { cond := .int, addressFalse := 91 }, {},
   { dbus := .pc, alu := .sum, rbus := .mdr, addressTrue := 94 },
   { dbus := .sp, alu := .sum, rbus := .adr, misc := .decSp, mem := .write },
   { misc := .incSp, addressTrue := 96 },
   { dbus := .sp, alu := .sum, rbus := .adr, mem := .read, addressTrue := 112 },
   { dbus := .flags, alu := .sum, rbus := .mdr, addressTrue := 98 },
   { dbus := .sp, alu := .sum, rbus := .adr, misc := .decSp, mem := .write },
   { misc := .incSp, addressTrue := 100 },
   { dbus := .sp, alu := .sum, rbus := .adr, mem := .read, addressTrue := 116 },
   { sbus := .mdr, alu := .sum, rbus := .t, addressTrue := 102, indexTrue := .mad }, {},
   { sbus := .t, alu := .sum, rbus := .reg },
   { dbus := .reg, alu := .sum, rbus := .adr, addressTrue := 107 },
   { sbus := .minusOne, dbus := .pc, alu := .sum, rbus := .adr, mem := .read, addressTrue := 106 },
   { sbus := .mdr, dbus := .reg, alu := .sum, rbus := .adr, addressTrue := 107 },
   { sbus := .t, alu := .sum, rbus := .mdr, mem := .write }]

/-- R321: the fields of control words 108 to 134. -/
def storeFields4 : List MicroInstr :=
  [{ misc := .clrZ, addressTrue := 109 }, { misc := .clrS }, { misc := .setZ, addressTrue := 111 },
   { misc := .setS }, { dbus := .mdr, alu := .sum, rbus := .pc },
   { dbus := .mdr, alu := .sum, rbus := .pc, addressTrue := 114 },
   { dbus := .sp, alu := .sum, rbus := .adr, mem := .read, addressTrue := 115 },
   { dbus := .mdr, alu := .sum, rbus := .flags }, { dbus := .mdr, alu := .sum, rbus := .flags },
   { sbus := .irOffset, dbus := .pc, alu := .sum, rbus := .pc }, {},
   { cond := .nz, addressTrue := 117, addressFalse := 1 }, {},
   { cond := .z, addressTrue := 117, addressFalse := 1 }, {},
   { cond := .ns, addressTrue := 117, addressFalse := 1 }, {},
   { cond := .s, addressTrue := 117, addressFalse := 1 }, {},
   { cond := .c, addressTrue := 117, addressFalse := 1 }, {},
   { cond := .nc, addressTrue := 117, addressFalse := 1 }, {},
   { cond := .v, addressTrue := 117, addressFalse := 1 }, {},
   { cond := .nv, addressTrue := 117, addressFalse := 1 }, {}]

/-- R321: the fields of the whole store, a micro-instruction with no field named being the all-defaults
word of R310. -/
def referenceFields : List MicroInstr :=
  storeFields0 ++ storeFields1 ++ storeFields2 ++ storeFields3 ++ storeFields4

/-- R311: ROM_LEN = 135. -/
theorem referenceStore_length : referenceStore.length = 135 := by decide +kernel

/-- R321, R154: every word of the store decodes to the fields its row of the table names. -/
theorem referenceStore_fields :
    referenceStore.map MicroInstr.ofWord = referenceFields.map some := by decide +kernel

/-- R321, R152: every word of the store is what `build` makes of its fields. -/
theorem referenceStore_build :
    referenceStore.map BitVec.toNat = referenceFields.map fun m => build m.fields := by decide +kernel

/-- The micro-instruction at an address of the store. -/
theorem controlWordAt_fields (u : MicroAddr) :
    (controlWordAt u).bind MicroInstr.ofWord = referenceFields[u.toNat]? := by
  have h := congrArg (fun l => l[u.toNat]?) referenceStore_fields
  simp only [List.getElem?_map] at h
  unfold controlWordAt
  cases hr : referenceStore[u.toNat]? <;> cases hf : referenceFields[u.toNat]? <;> simp_all

end Sys2Proof.Machine
end

