-- ==== Sys2Proof/Laws/Encoding.lean ====
section
/-! SUPPORT. The fields of the words the encoder builds (R94, R95, R96), read back by the decoder's own field
functions, and the inverse of each code. -/

namespace Sys2Proof

/-! ## The TWO_OP word -/

section TwoOpWord

variable (op : BitVec 4) (ms md : BitVec 2) (rs rd : Reg)

theorem twoOpWord_opcode : (op ++ ms ++ rs ++ md ++ rd : Word).extractLsb' 12 4 = op := by
  ext i hi
  rw [BitVec.getElem_extractLsb']
  repeat rw [BitVec.getLsbD_append]
  simp [show ¬ 12 + i < 4 by omega, show ¬ 12 + i - 4 < 2 by omega, show ¬ 12 + i - 4 - 2 < 4 by omega,
    show ¬ 12 + i - 4 - 2 - 4 < 2 by omega, show 12 + i - 4 - 2 - 4 - 2 = i by omega, hi]

theorem twoOpWord_modeSrc : modeSrcField (op ++ ms ++ rs ++ md ++ rd : Word) = ms := by
  ext i hi
  rw [modeSrcField, BitVec.getElem_extractLsb']
  repeat rw [BitVec.getLsbD_append]
  simp [show ¬ 10 + i < 4 by omega, show ¬ 10 + i - 4 < 2 by omega, show ¬ 10 + i - 4 - 2 < 4 by omega,
    show 10 + i - 4 - 2 - 4 = i by omega, hi]

theorem twoOpWord_regSrc : regSrcField (op ++ ms ++ rs ++ md ++ rd : Word) = rs := by
  ext i hi
  rw [regSrcField, BitVec.getElem_extractLsb']
  repeat rw [BitVec.getLsbD_append]
  simp [show ¬ 6 + i < 4 by omega, show ¬ 6 + i - 4 < 2 by omega, show 6 + i - 4 - 2 = i by omega, hi]

theorem twoOpWord_modeDst : modeDstField (op ++ ms ++ rs ++ md ++ rd : Word) = md := by
  ext i hi
  rw [modeDstField, BitVec.getElem_extractLsb']
  repeat rw [BitVec.getLsbD_append]
  simp [show ¬ 4 + i < 4 by omega, show 4 + i - 4 = i by omega, hi]

theorem twoOpWord_regDst : regDstField (op ++ ms ++ rs ++ md ++ rd : Word) = rd := by
  ext i hi
  rw [regDstField, BitVec.getElem_extractLsb']
  repeat rw [BitVec.getLsbD_append]
  simp [hi]

/-- A word whose opcode field has its top bit clear is in group TWO_OP (R100). -/
theorem twoOpWord_group (h : op.msb = false) :
    group (op ++ ms ++ rs ++ md ++ rd : Word) = .twoOp := by
  have h15 : (op ++ ms ++ rs ++ md ++ rd : Word).extractLsb' 15 1 = 0 := by
    ext i hi
    rw [BitVec.getElem_extractLsb']
    repeat rw [BitVec.getLsbD_append]
    have hi0 : i = 0 := by omega
    subst hi0
    simpa [BitVec.msb_eq_getLsbD_last] using h
  simp [group, h15]

end TwoOpWord

/-! ## The ONE_OP word -/

section OneOpWord

variable (op : BitVec 10) (m : BitVec 2) (r : Reg)

theorem oneOpWord_opcode : (op ++ m ++ r : Word).extractLsb' 6 10 = op := by
  ext i hi
  rw [BitVec.getElem_extractLsb']
  repeat rw [BitVec.getLsbD_append]
  simp [show ¬ 6 + i < 4 by omega, show ¬ 6 + i - 4 < 2 by omega, show 6 + i - 4 - 2 = i by omega, hi]

theorem oneOpWord_mode : modeDstField (op ++ m ++ r : Word) = m := by
  ext i hi
  rw [modeDstField, BitVec.getElem_extractLsb']
  repeat rw [BitVec.getLsbD_append]
  simp [show ¬ 4 + i < 4 by omega, show 4 + i - 4 = i by omega, hi]

theorem oneOpWord_reg : regDstField (op ++ m ++ r : Word) = r := by
  ext i hi
  rw [regDstField, BitVec.getElem_extractLsb']
  repeat rw [BitVec.getLsbD_append]
  simp [hi]

/-- A word whose opcode field starts with the bits 10 is in group ONE_OP (R100). -/
theorem oneOpWord_group (h9 : op.getLsbD 9 = true) (h8 : op.getLsbD 8 = false) :
    group (op ++ m ++ r : Word) = .oneOp := by
  have h15 : (op ++ m ++ r : Word).extractLsb' 15 1 = 1 := by
    ext i hi
    rw [BitVec.getElem_extractLsb']
    repeat rw [BitVec.getLsbD_append]
    have hi0 : i = 0 := by omega
    subst hi0
    simpa using h9
  have h14 : (op ++ m ++ r : Word).extractLsb' 14 1 = 0 := by
    ext i hi
    rw [BitVec.getElem_extractLsb']
    repeat rw [BitVec.getLsbD_append]
    have hi0 : i = 0 := by omega
    subst hi0
    simpa using h8
  simp [group, h15, h14]

end OneOpWord

/-! ## The BRANCH word -/

section BranchWord

variable (op offset : BitVec 8)

theorem branchWord_opcode : (op ++ offset : Word).extractLsb' 8 8 = op := by
  ext i hi
  rw [BitVec.getElem_extractLsb', BitVec.getLsbD_append]
  simp [show 8 + i - 8 = i by omega, hi]

theorem branchWord_offset : offsetField (op ++ offset : Word) = offset := by
  ext i hi
  rw [offsetField, BitVec.getElem_extractLsb', BitVec.getLsbD_append]
  simp [hi]

/-- A word whose opcode field starts with the bits 110 is in group BRANCH (R100). -/
theorem branchWord_group (h7 : op.getLsbD 7 = true) (h6 : op.getLsbD 6 = true)
    (h5 : op.getLsbD 5 = false) : group (op ++ offset : Word) = .branch := by
  have h15 : (op ++ offset : Word).extractLsb' 15 1 = 1 := by
    ext i hi
    rw [BitVec.getElem_extractLsb', BitVec.getLsbD_append]
    have hi0 : i = 0 := by omega
    subst hi0
    simpa using h7
  have h14 : (op ++ offset : Word).extractLsb' 14 1 = 1 := by
    ext i hi
    rw [BitVec.getElem_extractLsb', BitVec.getLsbD_append]
    have hi0 : i = 0 := by omega
    subst hi0
    simpa using h6
  have h13 : (op ++ offset : Word).extractLsb' 13 1 = 0 := by
    ext i hi
    rw [BitVec.getElem_extractLsb', BitVec.getLsbD_append]
    have hi0 : i = 0 := by omega
    subst hi0
    simpa using h5
  simp [group, h15, h14, h13]

end BranchWord

/-! ## Codes and their inverses, for any opcode table and mode numbering -/

/-- R101: the value of an opcode of the run names it. -/
theorem OpcodeRun.named_value {α : Type} [DecidableEq α] (run : OpcodeRun α) {op : α}
    (h : op ∈ run.ops) : run.named (run.value op) = some op := by
  simp [named, value, List.idxOf_lt_length_iff.mpr h]

/-- R101: what a value names has that value. -/
theorem OpcodeRun.value_named {α : Type} [DecidableEq α] (run : OpcodeRun α) (h : run.ops.Nodup)
    {v : Nat} {op : α} (hv : run.named v = some op) : run.value op = v := by
  simp only [named] at hv
  split at hv
  · cases hv
  · obtain ⟨hlt, rfl⟩ := List.getElem?_eq_some_iff.mp hv
    simp only [value, h.idxOf_getElem]
    omega

/-- R100: the values of a complete run lie in its group's range. -/
theorem OpcodeRun.value_mem {α : Type} [DecidableEq α] {run : OpcodeRun α} {all : List α}
    {range : Nat × Nat} (h : run.complete all range) {op : α} (ho : op ∈ all) :
    range.1 ≤ run.value op ∧ run.value op ≤ range.2 := by
  obtain ⟨-, hall, hlo, hhi⟩ := h
  have := List.idxOf_lt_length_iff.mpr (hall op ho)
  simp only [value]
  omega

theorem TwoOp.mem_table (op : TwoOp) : op ∈ TwoOp.table := by cases op <;> decide
theorem OneOp.mem_table (op : OneOp) : op ∈ OneOp.table := by cases op <;> decide
theorem BranchOp.mem_table (op : BranchOp) : op ∈ BranchOp.table := by cases op <;> decide
theorem OtherOp.mem_table (op : OtherOp) : op ∈ OtherOp.table := by cases op <;> decide

/-- A numbering of the four modes without repeats names every mode. -/
theorem Codes.mem_modes {c : Codes} (h : c.modes.toList.Nodup) (m : AddrMode) : m ∈ c.modes.toList := by
  have hsub : c.modes.toList ⊆ [.immediate, .direct, .indirect, .indexed] := by
    intro x _; cases x <;> simp
  have hlen : [AddrMode.immediate, .direct, .indirect, .indexed].length ≤ c.modes.toList.length := by simp
  have hperm := (List.subperm_of_subset h hsub).perm_of_length_le hlen
  exact hperm.mem_iff.mpr (by cases m <;> simp)

/-- R92: a mode's code names it. -/
theorem Codes.modeOf_modeCode {c : Codes} (h : c.modes.toList.Nodup) (m : AddrMode) :
    c.modeOf (c.modeCode m) = m := by
  have hlt : c.modes.toList.idxOf m < 4 := by simpa using List.idxOf_lt_length_iff.mpr (c.mem_modes h m)
  have hmod : (c.modeCode m).toNat = c.modes.toList.idxOf m := by simp [modeCode]; omega
  have hget : c.modes.toList[c.modes.toList.idxOf m]'(by simpa using hlt) = m := List.getElem_idxOf _
  rw [Vector.getElem_toList] at hget
  simp only [modeOf, hmod, hget]

/-- R92: the mode a code names has that code. -/
theorem Codes.modeCode_modeOf {c : Codes} (h : c.modes.toList.Nodup) (code : BitVec 2) :
    c.modeCode (c.modeOf code) = code := by
  have hidx : c.modes.toList.idxOf (c.modes.toList[code.toNat]'(by simpa using code.isLt)) = code.toNat :=
    h.idxOf_getElem _ _
  simp only [Vector.getElem_toList] at hidx
  simp [modeCode, modeOf, hidx]

/-- The reference instance keeps the relations of R101 and R92. -/
theorem Codes.reference_valid : Codes.reference.valid := by decide

@[simp] theorem AddrMode.ofCode_code (m : AddrMode) : AddrMode.ofCode m.code = m := by cases m <;> rfl

/-- R122: an operand is read back from its mode, its register field and its extra words. -/
theorem Operand.read_encoded (o : Operand) (rest : List Word) :
    Operand.read o.mode o.field (o.extraWords ++ rest) = some (o, rest) := by
  cases o <;> simp [Operand.read, Operand.mode, Operand.field, Operand.extraWords]

/-- R98: an operand has an extra word exactly when its mode is IMMEDIATE or INDEXED. -/
theorem Operand.extraWords_length (o : Operand) :
    o.extraWords.length = if o.mode.takesExtra then 1 else 0 := by
  cases o <;> rfl

end Sys2Proof
end

