-- ==== Sys2Proof/Laws/Memory.lean ====
section
/-! SUPPORT. Memory: what a read gives after a write, and that every operation keeps the canonical form. -/

namespace Sys2Proof.Machine.Memory

/-- Every listed address from `low` on, none repeated, none holding the unwritten value: one cell. -/
theorem wfFrom_cons (low b : Nat) (w : Word) (m : Memory) :
    wfFrom low ((b, w) :: m) = true ↔ low ≤ b ∧ w ≠ unwritten ∧ wfFrom (b + 1) m = true := by
  simp [wfFrom, and_assoc]

/-- A lower bound can be lowered. -/
theorem wfFrom_mono {low low' : Nat} (h : low' ≤ low) : ∀ {m : Memory}, wfFrom low m = true →
    wfFrom low' m = true
  | [], _ => rfl
  | (b, w) :: m, hm => by
    rw [wfFrom_cons] at hm ⊢
    exact ⟨h.trans hm.1, hm.2⟩

/-- Below every listed address a cell is unlisted. -/
theorem read_below {a : Nat} : ∀ {m : Memory} {low : Nat}, wfFrom low m = true → a < low →
    m.read a = unwritten
  | [], _, _, _ => rfl
  | (b, w) :: m, low, hm, ha => by
    rw [wfFrom_cons] at hm
    have hab : a ≠ b := by omega
    simp [read, hab, read_below hm.2.2 (show a < b + 1 by omega)]

/-- A write leaves every other cell as it was, whatever the list. -/
theorem read_write_other {a b : Nat} (v : Word) (hab : b ≠ a) :
    ∀ m : Memory, (m.write a v).read b = m.read b
  | [] => by
    unfold write
    split <;> simp [read, hab]
  | (c, w) :: m => by
    unfold write
    split
    · split <;> simp [read, hab]
    · split
      · rename_i hc
        subst hc
        split <;> simp [read, hab]
      · simp [read, read_write_other v hab m]

/-- A read after a write to the same cell of a canonical list gives the value written. -/
theorem read_write_same_from {a : Nat} (v : Word) :
    ∀ {m : Memory} {low : Nat}, wfFrom low m = true → (m.write a v).read a = v
  | [], _, _ => by
    unfold write
    split <;> simp_all [read]
  | (c, w) :: m, low, hm => by
    rw [wfFrom_cons] at hm
    unfold write
    split
    · rename_i hac
      split
      · rename_i hv
        have : a ≠ c := by omega
        simp [read, this, hv, read_below hm.2.2 (show a < c + 1 by omega)]
      · simp [read]
    · split
      · rename_i hac
        split
        · rename_i hv
          rw [hv, read_below hm.2.2 (by omega)]
        · simp [read]
      · rename_i hne
        simp [read, hne, read_write_same_from v hm.2.2]

/-- A write to a canonical list keeps it canonical. -/
theorem wfFrom_write {a : Nat} (v : Word) :
    ∀ {m : Memory} {low : Nat}, wfFrom low m = true → wfFrom (min low a) (m.write a v) = true
  | [], low, _ => by
    unfold write
    split <;> simp_all [wfFrom]
  | (c, w) :: m, low, hm => by
    have hm' := hm
    rw [wfFrom_cons] at hm
    unfold write
    split
    · split
      · exact wfFrom_mono (by omega) hm'
      · rw [wfFrom_cons]
        refine ⟨by omega, by assumption, ?_⟩
        rw [wfFrom_cons]
        exact ⟨by omega, hm.2⟩
    · split
      · split
        · exact wfFrom_mono (by omega) hm.2.2
        · rw [wfFrom_cons]
          exact ⟨by omega, by assumption, wfFrom_mono (by omega) hm.2.2⟩
      · rw [wfFrom_cons]
        refine ⟨by omega, hm.2.1, wfFrom_mono ?_ (wfFrom_write v hm.2.2)⟩
        omega

/-- R70: a read after a write. -/
theorem read_write {m : Memory} (hm : m.wf = true) (a b : Nat) (v : Word) :
    (m.write a v).read b = if b = a then v else m.read b := by
  split
  · subst b
    exact read_write_same_from v hm
  · exact read_write_other v (by assumption) m

/-- The canonical form is kept by a write. -/
theorem wf_write {m : Memory} (hm : m.wf = true) (a : Nat) (v : Word) : (m.write a v).wf = true := by
  have := wfFrom_write (a := a) v hm
  simpa [wf] using wfFrom_mono (Nat.zero_le _) this

/-- The canonical form is kept by writing consecutive words. -/
theorem wf_writeWords : ∀ (ws : List Word) (a : Nat) {m : Memory}, m.wf = true →
    (m.writeWords a ws).wf = true
  | [], _, _, hm => hm
  | w :: ws, a, _, hm => wf_writeWords ws (a + 1) (wf_write hm a w)

/-- A write below a bound lists only cells below it. -/
theorem below_write {bound a : Nat} (v : Word) (ha : a < bound) :
    ∀ {m : Memory}, m.below bound = true → (m.write a v).below bound = true
  | [], _ => by
    unfold write
    split <;> simp_all [below]
  | (c, w) :: m, hm => by
    have hc : c < bound ∧ below m bound = true := by simpa [below] using hm
    unfold write
    split
    · split
      · exact hm
      · simpa [below, ha] using hc
    · split
      · split
        · exact hc.2
        · simpa [below, ha] using hc.2
      · have := below_write v ha hc.2
        simpa [below, hc.1] using this

/-- Canonical memories that read the same are the same data. -/
theorem ext_from : ∀ {m n : Memory} {low : Nat}, wfFrom low m = true → wfFrom low n = true →
    (∀ a, m.read a = n.read a) → m = n
  | [], [], _, _, _, _ => rfl
  | [], (c, w) :: n, _, _, hn, h => by
    rw [wfFrom_cons] at hn
    have := h c
    simp only [read, if_true] at this
    exact absurd this.symm hn.2.1
  | (b, v) :: m, [], _, hm, _, h => by
    rw [wfFrom_cons] at hm
    have := h b
    simp only [read, if_true] at this
    exact absurd this hm.2.1
  | (b, v) :: m, (c, w) :: n, _, hm, hn, h => by
    rw [wfFrom_cons] at hm hn
    have hbc : b = c := by
      by_contra hne
      rcases Nat.lt_or_gt_of_ne hne with hlt | hgt
      · have hb := h b
        rw [show read ((c, w) :: n) b = read n b by simp [read, hne],
          read_below hn.2.2 (by omega)] at hb
        simp only [read, if_true] at hb
        exact hm.2.1 hb
      · have hc := h c
        rw [show read ((b, v) :: m) c = read m c by simp [read, Ne.symm hne],
          read_below hm.2.2 (by omega)] at hc
        simp only [read, if_true] at hc
        exact hn.2.1 hc.symm
    subst hbc
    have hvw : v = w := by
      have := h b
      simpa [read] using this
    subst hvw
    have : m = n := ext_from hm.2.2 hn.2.2 fun a => by
      by_cases hab : a = b
      · subst hab
        rw [read_below hm.2.2 (by omega), read_below hn.2.2 (by omega)]
      · simpa [read, hab] using h a
    rw [this]

/-- Writing a cell twice with one value is writing it once. -/
theorem write_write_same {m : Memory} (hm : m.wf = true) (a : Nat) (v : Word) :
    (m.write a v).write a v = m.write a v := by
  have h1 := wf_write hm a v
  refine ext_from (wf_write h1 a v) h1 fun b => ?_
  rw [read_write h1, read_write hm]
  split <;> rfl

end Sys2Proof.Machine.Memory
end

