-- ==== Sys2Proof/Laws/State.lean ====
section
/-! SUPPORT. What each update of the state does to each field, one lemma per field per update. -/

namespace Sys2Proof.Machine.State

variable (s : State)

/-! ### enter -/

@[simp] theorem enter_regs (u : MicroAddr) : (s.enter u).regs = s.regs := rfl
@[simp] theorem enter_pc (u : MicroAddr) : (s.enter u).pc = s.pc := rfl
@[simp] theorem enter_sp (u : MicroAddr) : (s.enter u).sp = s.sp := rfl
@[simp] theorem enter_ir (u : MicroAddr) : (s.enter u).ir = s.ir := rfl
@[simp] theorem enter_adr (u : MicroAddr) : (s.enter u).adr = s.adr := rfl
@[simp] theorem enter_mdr (u : MicroAddr) : (s.enter u).mdr = s.mdr := rfl
@[simp] theorem enter_t (u : MicroAddr) : (s.enter u).t = s.t := rfl
@[simp] theorem enter_flags (u : MicroAddr) : (s.enter u).flags = s.flags := rfl
@[simp] theorem enter_pending (u : MicroAddr) : (s.enter u).pending = s.pending := rfl
@[simp] theorem enter_intp (u : MicroAddr) : (s.enter u).intp = s.intp := rfl
@[simp] theorem enter_regsel (u : MicroAddr) : (s.enter u).regsel = s.regsel := rfl
@[simp] theorem enter_upc (u : MicroAddr) : (s.enter u).upc = u := rfl
@[simp] theorem enter_cw (u : MicroAddr) : (s.enter u).cw = controlWordAt u := rfl
@[simp] theorem enter_mem (u : MicroAddr) : (s.enter u).mem = s.mem := rfl
@[simp] theorem enter_params (u : MicroAddr) : (s.enter u).params = s.params := rfl

/-! ### toFetch -/

@[simp] theorem toFetch_regs : (s.toFetch).regs = s.regs := rfl
@[simp] theorem toFetch_pc : (s.toFetch).pc = s.pc := rfl
@[simp] theorem toFetch_sp : (s.toFetch).sp = s.sp := rfl
@[simp] theorem toFetch_ir : (s.toFetch).ir = s.ir := rfl
@[simp] theorem toFetch_adr : (s.toFetch).adr = s.adr := rfl
@[simp] theorem toFetch_mdr : (s.toFetch).mdr = s.mdr := rfl
@[simp] theorem toFetch_t : (s.toFetch).t = s.t := rfl
@[simp] theorem toFetch_flags : (s.toFetch).flags = s.flags := rfl
@[simp] theorem toFetch_pending : (s.toFetch).pending = s.pending := rfl
@[simp] theorem toFetch_intp : (s.toFetch).intp = s.intp := rfl
@[simp] theorem toFetch_regsel : (s.toFetch).regsel = s.regsel := rfl
@[simp] theorem toFetch_upc : (s.toFetch).upc = uFetch := rfl
@[simp] theorem toFetch_cw : (s.toFetch).cw = s.cw := rfl
@[simp] theorem toFetch_mem : (s.toFetch).mem = s.mem := rfl
@[simp] theorem toFetch_params : (s.toFetch).params = s.params := rfl

/-! ### latchReg -/

@[simp] theorem latchReg_regs (r : Reg) : (s.latchReg r).regs = s.regs := rfl
@[simp] theorem latchReg_pc (r : Reg) : (s.latchReg r).pc = s.pc := rfl
@[simp] theorem latchReg_sp (r : Reg) : (s.latchReg r).sp = s.sp := rfl
@[simp] theorem latchReg_ir (r : Reg) : (s.latchReg r).ir = s.ir := rfl
@[simp] theorem latchReg_adr (r : Reg) : (s.latchReg r).adr = s.adr := rfl
@[simp] theorem latchReg_mdr (r : Reg) : (s.latchReg r).mdr = s.mdr := rfl
@[simp] theorem latchReg_t (r : Reg) : (s.latchReg r).t = s.t := rfl
@[simp] theorem latchReg_flags (r : Reg) : (s.latchReg r).flags = s.flags := rfl
@[simp] theorem latchReg_pending (r : Reg) : (s.latchReg r).pending = s.pending := rfl
@[simp] theorem latchReg_intp (r : Reg) : (s.latchReg r).intp = s.intp := rfl
@[simp] theorem latchReg_regsel (r : Reg) : (s.latchReg r).regsel = some r := rfl
@[simp] theorem latchReg_upc (r : Reg) : (s.latchReg r).upc = s.upc := rfl
@[simp] theorem latchReg_cw (r : Reg) : (s.latchReg r).cw = s.cw := rfl
@[simp] theorem latchReg_mem (r : Reg) : (s.latchReg r).mem = s.mem := rfl
@[simp] theorem latchReg_params (r : Reg) : (s.latchReg r).params = s.params := rfl

/-! ### setReg -/

@[simp] theorem setReg_regs (r : Reg) (v : Word) : (s.setReg r v).regs = s.regs.set r.toNat v r.isLt := rfl
@[simp] theorem setReg_pc (r : Reg) (v : Word) : (s.setReg r v).pc = s.pc := rfl
@[simp] theorem setReg_sp (r : Reg) (v : Word) : (s.setReg r v).sp = s.sp := rfl
@[simp] theorem setReg_ir (r : Reg) (v : Word) : (s.setReg r v).ir = s.ir := rfl
@[simp] theorem setReg_adr (r : Reg) (v : Word) : (s.setReg r v).adr = s.adr := rfl
@[simp] theorem setReg_mdr (r : Reg) (v : Word) : (s.setReg r v).mdr = s.mdr := rfl
@[simp] theorem setReg_t (r : Reg) (v : Word) : (s.setReg r v).t = s.t := rfl
@[simp] theorem setReg_flags (r : Reg) (v : Word) : (s.setReg r v).flags = s.flags := rfl
@[simp] theorem setReg_pending (r : Reg) (v : Word) : (s.setReg r v).pending = s.pending := rfl
@[simp] theorem setReg_intp (r : Reg) (v : Word) : (s.setReg r v).intp = s.intp := rfl
@[simp] theorem setReg_regsel (r : Reg) (v : Word) : (s.setReg r v).regsel = s.regsel := rfl
@[simp] theorem setReg_upc (r : Reg) (v : Word) : (s.setReg r v).upc = s.upc := rfl
@[simp] theorem setReg_cw (r : Reg) (v : Word) : (s.setReg r v).cw = s.cw := rfl
@[simp] theorem setReg_mem (r : Reg) (v : Word) : (s.setReg r v).mem = s.mem := rfl
@[simp] theorem setReg_params (r : Reg) (v : Word) : (s.setReg r v).params = s.params := rfl

/-! ### incPc -/

@[simp] theorem incPc_regs : (s.incPc).regs = s.regs := rfl
@[simp] theorem incPc_pc : (s.incPc).pc = s.pc + 1 := rfl
@[simp] theorem incPc_sp : (s.incPc).sp = s.sp := rfl
@[simp] theorem incPc_ir : (s.incPc).ir = s.ir := rfl
@[simp] theorem incPc_adr : (s.incPc).adr = s.adr := rfl
@[simp] theorem incPc_mdr : (s.incPc).mdr = s.mdr := rfl
@[simp] theorem incPc_t : (s.incPc).t = s.t := rfl
@[simp] theorem incPc_flags : (s.incPc).flags = s.flags := rfl
@[simp] theorem incPc_pending : (s.incPc).pending = s.pending := rfl
@[simp] theorem incPc_intp : (s.incPc).intp = s.intp := rfl
@[simp] theorem incPc_regsel : (s.incPc).regsel = s.regsel := rfl
@[simp] theorem incPc_upc : (s.incPc).upc = s.upc := rfl
@[simp] theorem incPc_cw : (s.incPc).cw = s.cw := rfl
@[simp] theorem incPc_mem : (s.incPc).mem = s.mem := rfl
@[simp] theorem incPc_params : (s.incPc).params = s.params := rfl

/-! ### incSp -/

@[simp] theorem incSp_regs : (s.incSp).regs = s.regs := rfl
@[simp] theorem incSp_pc : (s.incSp).pc = s.pc := rfl
@[simp] theorem incSp_sp : (s.incSp).sp = s.sp + 1 := rfl
@[simp] theorem incSp_ir : (s.incSp).ir = s.ir := rfl
@[simp] theorem incSp_adr : (s.incSp).adr = s.adr := rfl
@[simp] theorem incSp_mdr : (s.incSp).mdr = s.mdr := rfl
@[simp] theorem incSp_t : (s.incSp).t = s.t := rfl
@[simp] theorem incSp_flags : (s.incSp).flags = s.flags := rfl
@[simp] theorem incSp_pending : (s.incSp).pending = s.pending := rfl
@[simp] theorem incSp_intp : (s.incSp).intp = s.intp := rfl
@[simp] theorem incSp_regsel : (s.incSp).regsel = s.regsel := rfl
@[simp] theorem incSp_upc : (s.incSp).upc = s.upc := rfl
@[simp] theorem incSp_cw : (s.incSp).cw = s.cw := rfl
@[simp] theorem incSp_mem : (s.incSp).mem = s.mem := rfl
@[simp] theorem incSp_params : (s.incSp).params = s.params := rfl

/-! ### commit -/

@[simp] theorem commit_regs : (s.commit).regs = s.regs := rfl
@[simp] theorem commit_pc : (s.commit).pc = s.pc := rfl
@[simp] theorem commit_sp : (s.commit).sp = s.sp := rfl
@[simp] theorem commit_ir : (s.commit).ir = s.ir := rfl
@[simp] theorem commit_adr : (s.commit).adr = s.adr := rfl
@[simp] theorem commit_mdr : (s.commit).mdr = s.mdr := rfl
@[simp] theorem commit_t : (s.commit).t = s.t := rfl
@[simp] theorem commit_flags : (s.commit).flags = s.pending := rfl
@[simp] theorem commit_pending : (s.commit).pending = s.pending := rfl
@[simp] theorem commit_intp : (s.commit).intp = s.intp := rfl
@[simp] theorem commit_regsel : (s.commit).regsel = s.regsel := rfl
@[simp] theorem commit_upc : (s.commit).upc = s.upc := rfl
@[simp] theorem commit_cw : (s.commit).cw = s.cw := rfl
@[simp] theorem commit_mem : (s.commit).mem = s.mem := rfl
@[simp] theorem commit_params : (s.commit).params = s.params := rfl

/-! ### setZ -/

@[simp] theorem setZ_regs (b : Bool) : (s.setZ b).regs = s.regs := rfl
@[simp] theorem setZ_pc (b : Bool) : (s.setZ b).pc = s.pc := rfl
@[simp] theorem setZ_sp (b : Bool) : (s.setZ b).sp = s.sp := rfl
@[simp] theorem setZ_ir (b : Bool) : (s.setZ b).ir = s.ir := rfl
@[simp] theorem setZ_adr (b : Bool) : (s.setZ b).adr = s.adr := rfl
@[simp] theorem setZ_mdr (b : Bool) : (s.setZ b).mdr = s.mdr := rfl
@[simp] theorem setZ_t (b : Bool) : (s.setZ b).t = s.t := rfl
@[simp] theorem setZ_flags (b : Bool) : (s.setZ b).flags = Flags.mk b s.flags.c s.flags.v s.flags.s := rfl
@[simp] theorem setZ_pending (b : Bool) : (s.setZ b).pending = s.pending := rfl
@[simp] theorem setZ_intp (b : Bool) : (s.setZ b).intp = s.intp := rfl
@[simp] theorem setZ_regsel (b : Bool) : (s.setZ b).regsel = s.regsel := rfl
@[simp] theorem setZ_upc (b : Bool) : (s.setZ b).upc = s.upc := rfl
@[simp] theorem setZ_cw (b : Bool) : (s.setZ b).cw = s.cw := rfl
@[simp] theorem setZ_mem (b : Bool) : (s.setZ b).mem = s.mem := rfl
@[simp] theorem setZ_params (b : Bool) : (s.setZ b).params = s.params := rfl

/-! ### setC -/

@[simp] theorem setC_regs (b : Bool) : (s.setC b).regs = s.regs := rfl
@[simp] theorem setC_pc (b : Bool) : (s.setC b).pc = s.pc := rfl
@[simp] theorem setC_sp (b : Bool) : (s.setC b).sp = s.sp := rfl
@[simp] theorem setC_ir (b : Bool) : (s.setC b).ir = s.ir := rfl
@[simp] theorem setC_adr (b : Bool) : (s.setC b).adr = s.adr := rfl
@[simp] theorem setC_mdr (b : Bool) : (s.setC b).mdr = s.mdr := rfl
@[simp] theorem setC_t (b : Bool) : (s.setC b).t = s.t := rfl
@[simp] theorem setC_flags (b : Bool) : (s.setC b).flags = Flags.mk s.flags.z b s.flags.v s.flags.s := rfl
@[simp] theorem setC_pending (b : Bool) : (s.setC b).pending = s.pending := rfl
@[simp] theorem setC_intp (b : Bool) : (s.setC b).intp = s.intp := rfl
@[simp] theorem setC_regsel (b : Bool) : (s.setC b).regsel = s.regsel := rfl
@[simp] theorem setC_upc (b : Bool) : (s.setC b).upc = s.upc := rfl
@[simp] theorem setC_cw (b : Bool) : (s.setC b).cw = s.cw := rfl
@[simp] theorem setC_mem (b : Bool) : (s.setC b).mem = s.mem := rfl
@[simp] theorem setC_params (b : Bool) : (s.setC b).params = s.params := rfl

/-! ### setV -/

@[simp] theorem setV_regs (b : Bool) : (s.setV b).regs = s.regs := rfl
@[simp] theorem setV_pc (b : Bool) : (s.setV b).pc = s.pc := rfl
@[simp] theorem setV_sp (b : Bool) : (s.setV b).sp = s.sp := rfl
@[simp] theorem setV_ir (b : Bool) : (s.setV b).ir = s.ir := rfl
@[simp] theorem setV_adr (b : Bool) : (s.setV b).adr = s.adr := rfl
@[simp] theorem setV_mdr (b : Bool) : (s.setV b).mdr = s.mdr := rfl
@[simp] theorem setV_t (b : Bool) : (s.setV b).t = s.t := rfl
@[simp] theorem setV_flags (b : Bool) : (s.setV b).flags = Flags.mk s.flags.z s.flags.c b s.flags.s := rfl
@[simp] theorem setV_pending (b : Bool) : (s.setV b).pending = s.pending := rfl
@[simp] theorem setV_intp (b : Bool) : (s.setV b).intp = s.intp := rfl
@[simp] theorem setV_regsel (b : Bool) : (s.setV b).regsel = s.regsel := rfl
@[simp] theorem setV_upc (b : Bool) : (s.setV b).upc = s.upc := rfl
@[simp] theorem setV_cw (b : Bool) : (s.setV b).cw = s.cw := rfl
@[simp] theorem setV_mem (b : Bool) : (s.setV b).mem = s.mem := rfl
@[simp] theorem setV_params (b : Bool) : (s.setV b).params = s.params := rfl

/-! ### setS -/

@[simp] theorem setS_regs (b : Bool) : (s.setS b).regs = s.regs := rfl
@[simp] theorem setS_pc (b : Bool) : (s.setS b).pc = s.pc := rfl
@[simp] theorem setS_sp (b : Bool) : (s.setS b).sp = s.sp := rfl
@[simp] theorem setS_ir (b : Bool) : (s.setS b).ir = s.ir := rfl
@[simp] theorem setS_adr (b : Bool) : (s.setS b).adr = s.adr := rfl
@[simp] theorem setS_mdr (b : Bool) : (s.setS b).mdr = s.mdr := rfl
@[simp] theorem setS_t (b : Bool) : (s.setS b).t = s.t := rfl
@[simp] theorem setS_flags (b : Bool) : (s.setS b).flags = Flags.mk s.flags.z s.flags.c s.flags.v b := rfl
@[simp] theorem setS_pending (b : Bool) : (s.setS b).pending = s.pending := rfl
@[simp] theorem setS_intp (b : Bool) : (s.setS b).intp = s.intp := rfl
@[simp] theorem setS_regsel (b : Bool) : (s.setS b).regsel = s.regsel := rfl
@[simp] theorem setS_upc (b : Bool) : (s.setS b).upc = s.upc := rfl
@[simp] theorem setS_cw (b : Bool) : (s.setS b).cw = s.cw := rfl
@[simp] theorem setS_mem (b : Bool) : (s.setS b).mem = s.mem := rfl
@[simp] theorem setS_params (b : Bool) : (s.setS b).params = s.params := rfl

/-! ### takeExtra -/

@[simp] theorem takeExtra_regs (e : Word) : (s.takeExtra e).regs = s.regs := rfl
@[simp] theorem takeExtra_pc (e : Word) : (s.takeExtra e).pc = s.pc + 1 := rfl
@[simp] theorem takeExtra_sp (e : Word) : (s.takeExtra e).sp = s.sp := rfl
@[simp] theorem takeExtra_ir (e : Word) : (s.takeExtra e).ir = s.ir := rfl
@[simp] theorem takeExtra_adr (e : Word) : (s.takeExtra e).adr = 0 + s.pc := rfl
@[simp] theorem takeExtra_mdr (e : Word) : (s.takeExtra e).mdr = e := rfl
@[simp] theorem takeExtra_t (e : Word) : (s.takeExtra e).t = s.t := rfl
@[simp] theorem takeExtra_flags (e : Word) : (s.takeExtra e).flags = s.flags := rfl
@[simp] theorem takeExtra_pending (e : Word) : (s.takeExtra e).pending = (aluSum 0 s.pc).2 := rfl
@[simp] theorem takeExtra_intp (e : Word) : (s.takeExtra e).intp = s.intp := rfl
@[simp] theorem takeExtra_regsel (e : Word) : (s.takeExtra e).regsel = s.regsel := rfl
@[simp] theorem takeExtra_upc (e : Word) : (s.takeExtra e).upc = s.upc := rfl
@[simp] theorem takeExtra_cw (e : Word) : (s.takeExtra e).cw = s.cw := rfl
@[simp] theorem takeExtra_mem (e : Word) : (s.takeExtra e).mem = s.mem := rfl
@[simp] theorem takeExtra_params (e : Word) : (s.takeExtra e).params = s.params := rfl

/-! ### aluOnly -/

@[simp] theorem aluOnly_regs (op : Alu) (S D : Word) : (s.aluOnly op S D).regs = s.regs := by
  unfold State.aluOnly; split <;> rfl
@[simp] theorem aluOnly_pc (op : Alu) (S D : Word) : (s.aluOnly op S D).pc = s.pc := by
  unfold State.aluOnly; split <;> rfl
@[simp] theorem aluOnly_sp (op : Alu) (S D : Word) : (s.aluOnly op S D).sp = s.sp := by
  unfold State.aluOnly; split <;> rfl
@[simp] theorem aluOnly_ir (op : Alu) (S D : Word) : (s.aluOnly op S D).ir = s.ir := by
  unfold State.aluOnly; split <;> rfl
@[simp] theorem aluOnly_adr (op : Alu) (S D : Word) : (s.aluOnly op S D).adr = s.adr := by
  unfold State.aluOnly; split <;> rfl
@[simp] theorem aluOnly_mdr (op : Alu) (S D : Word) : (s.aluOnly op S D).mdr = s.mdr := by
  unfold State.aluOnly; split <;> rfl
@[simp] theorem aluOnly_t (op : Alu) (S D : Word) : (s.aluOnly op S D).t = s.t := by
  unfold State.aluOnly; split <;> rfl
@[simp] theorem aluOnly_flags (op : Alu) (S D : Word) : (s.aluOnly op S D).flags = s.flags := by
  unfold State.aluOnly; split <;> rfl
@[simp] theorem aluOnly_intp (op : Alu) (S D : Word) : (s.aluOnly op S D).intp = s.intp := by
  unfold State.aluOnly; split <;> rfl
@[simp] theorem aluOnly_regsel (op : Alu) (S D : Word) : (s.aluOnly op S D).regsel = s.regsel := by
  unfold State.aluOnly; split <;> rfl
@[simp] theorem aluOnly_upc (op : Alu) (S D : Word) : (s.aluOnly op S D).upc = s.upc := by
  unfold State.aluOnly; split <;> rfl
@[simp] theorem aluOnly_cw (op : Alu) (S D : Word) : (s.aluOnly op S D).cw = s.cw := by
  unfold State.aluOnly; split <;> rfl
@[simp] theorem aluOnly_mem (op : Alu) (S D : Word) : (s.aluOnly op S D).mem = s.mem := by
  unfold State.aluOnly; split <;> rfl
@[simp] theorem aluOnly_params (op : Alu) (S D : Word) : (s.aluOnly op S D).params = s.params := by
  unfold State.aluOnly; split <;> rfl
theorem aluOnly_pending (op : Alu) (S D res : Word) (pf : Flags) (h : alu op S D s.flags.c = some (res, pf)) :
    (s.aluOnly op S D).pending = pf := by
  simp [State.aluOnly, h]
@[simp] theorem aluOnly_sum_pending (S D : Word) : (s.aluOnly .sum S D).pending = (aluSum S D).2 := rfl

/-! ### toAdr -/

@[simp] theorem toAdr_regs (op : Alu) (S D : Word) : (s.toAdr op S D).regs = s.regs := by
  unfold State.toAdr; split <;> rfl
@[simp] theorem toAdr_pc (op : Alu) (S D : Word) : (s.toAdr op S D).pc = s.pc := by
  unfold State.toAdr; split <;> rfl
@[simp] theorem toAdr_sp (op : Alu) (S D : Word) : (s.toAdr op S D).sp = s.sp := by
  unfold State.toAdr; split <;> rfl
@[simp] theorem toAdr_ir (op : Alu) (S D : Word) : (s.toAdr op S D).ir = s.ir := by
  unfold State.toAdr; split <;> rfl
@[simp] theorem toAdr_mdr (op : Alu) (S D : Word) : (s.toAdr op S D).mdr = s.mdr := by
  unfold State.toAdr; split <;> rfl
@[simp] theorem toAdr_t (op : Alu) (S D : Word) : (s.toAdr op S D).t = s.t := by
  unfold State.toAdr; split <;> rfl
@[simp] theorem toAdr_flags (op : Alu) (S D : Word) : (s.toAdr op S D).flags = s.flags := by
  unfold State.toAdr; split <;> rfl
@[simp] theorem toAdr_intp (op : Alu) (S D : Word) : (s.toAdr op S D).intp = s.intp := by
  unfold State.toAdr; split <;> rfl
@[simp] theorem toAdr_regsel (op : Alu) (S D : Word) : (s.toAdr op S D).regsel = s.regsel := by
  unfold State.toAdr; split <;> rfl
@[simp] theorem toAdr_upc (op : Alu) (S D : Word) : (s.toAdr op S D).upc = s.upc := by
  unfold State.toAdr; split <;> rfl
@[simp] theorem toAdr_cw (op : Alu) (S D : Word) : (s.toAdr op S D).cw = s.cw := by
  unfold State.toAdr; split <;> rfl
@[simp] theorem toAdr_mem (op : Alu) (S D : Word) : (s.toAdr op S D).mem = s.mem := by
  unfold State.toAdr; split <;> rfl
@[simp] theorem toAdr_params (op : Alu) (S D : Word) : (s.toAdr op S D).params = s.params := by
  unfold State.toAdr; split <;> rfl
theorem toAdr_adr (op : Alu) (S D res : Word) (pf : Flags) (h : alu op S D s.flags.c = some (res, pf)) :
    (s.toAdr op S D).adr = res := by
  simp [State.toAdr, h]
@[simp] theorem toAdr_sum_adr (S D : Word) : (s.toAdr .sum S D).adr = S + D := rfl
theorem toAdr_pending (op : Alu) (S D res : Word) (pf : Flags) (h : alu op S D s.flags.c = some (res, pf)) :
    (s.toAdr op S D).pending = pf := by
  simp [State.toAdr, h]
@[simp] theorem toAdr_sum_pending (S D : Word) : (s.toAdr .sum S D).pending = (aluSum S D).2 := rfl

/-! ### toT -/

@[simp] theorem toT_regs (op : Alu) (S D : Word) : (s.toT op S D).regs = s.regs := by
  unfold State.toT; split <;> rfl
@[simp] theorem toT_pc (op : Alu) (S D : Word) : (s.toT op S D).pc = s.pc := by
  unfold State.toT; split <;> rfl
@[simp] theorem toT_sp (op : Alu) (S D : Word) : (s.toT op S D).sp = s.sp := by
  unfold State.toT; split <;> rfl
@[simp] theorem toT_ir (op : Alu) (S D : Word) : (s.toT op S D).ir = s.ir := by
  unfold State.toT; split <;> rfl
@[simp] theorem toT_adr (op : Alu) (S D : Word) : (s.toT op S D).adr = s.adr := by
  unfold State.toT; split <;> rfl
@[simp] theorem toT_mdr (op : Alu) (S D : Word) : (s.toT op S D).mdr = s.mdr := by
  unfold State.toT; split <;> rfl
@[simp] theorem toT_flags (op : Alu) (S D : Word) : (s.toT op S D).flags = s.flags := by
  unfold State.toT; split <;> rfl
@[simp] theorem toT_intp (op : Alu) (S D : Word) : (s.toT op S D).intp = s.intp := by
  unfold State.toT; split <;> rfl
@[simp] theorem toT_regsel (op : Alu) (S D : Word) : (s.toT op S D).regsel = s.regsel := by
  unfold State.toT; split <;> rfl
@[simp] theorem toT_upc (op : Alu) (S D : Word) : (s.toT op S D).upc = s.upc := by
  unfold State.toT; split <;> rfl
@[simp] theorem toT_cw (op : Alu) (S D : Word) : (s.toT op S D).cw = s.cw := by
  unfold State.toT; split <;> rfl
@[simp] theorem toT_mem (op : Alu) (S D : Word) : (s.toT op S D).mem = s.mem := by
  unfold State.toT; split <;> rfl
@[simp] theorem toT_params (op : Alu) (S D : Word) : (s.toT op S D).params = s.params := by
  unfold State.toT; split <;> rfl
theorem toT_t (op : Alu) (S D res : Word) (pf : Flags) (h : alu op S D s.flags.c = some (res, pf)) :
    (s.toT op S D).t = res := by
  simp [State.toT, h]
@[simp] theorem toT_sum_t (S D : Word) : (s.toT .sum S D).t = S + D := rfl
theorem toT_pending (op : Alu) (S D res : Word) (pf : Flags) (h : alu op S D s.flags.c = some (res, pf)) :
    (s.toT op S D).pending = pf := by
  simp [State.toT, h]
@[simp] theorem toT_sum_pending (S D : Word) : (s.toT .sum S D).pending = (aluSum S D).2 := rfl

/-! ### toMdr -/

@[simp] theorem toMdr_regs (op : Alu) (S D : Word) : (s.toMdr op S D).regs = s.regs := by
  unfold State.toMdr; split <;> rfl
@[simp] theorem toMdr_pc (op : Alu) (S D : Word) : (s.toMdr op S D).pc = s.pc := by
  unfold State.toMdr; split <;> rfl
@[simp] theorem toMdr_sp (op : Alu) (S D : Word) : (s.toMdr op S D).sp = s.sp := by
  unfold State.toMdr; split <;> rfl
@[simp] theorem toMdr_ir (op : Alu) (S D : Word) : (s.toMdr op S D).ir = s.ir := by
  unfold State.toMdr; split <;> rfl
@[simp] theorem toMdr_adr (op : Alu) (S D : Word) : (s.toMdr op S D).adr = s.adr := by
  unfold State.toMdr; split <;> rfl
@[simp] theorem toMdr_t (op : Alu) (S D : Word) : (s.toMdr op S D).t = s.t := by
  unfold State.toMdr; split <;> rfl
@[simp] theorem toMdr_flags (op : Alu) (S D : Word) : (s.toMdr op S D).flags = s.flags := by
  unfold State.toMdr; split <;> rfl
@[simp] theorem toMdr_intp (op : Alu) (S D : Word) : (s.toMdr op S D).intp = s.intp := by
  unfold State.toMdr; split <;> rfl
@[simp] theorem toMdr_regsel (op : Alu) (S D : Word) : (s.toMdr op S D).regsel = s.regsel := by
  unfold State.toMdr; split <;> rfl
@[simp] theorem toMdr_upc (op : Alu) (S D : Word) : (s.toMdr op S D).upc = s.upc := by
  unfold State.toMdr; split <;> rfl
@[simp] theorem toMdr_cw (op : Alu) (S D : Word) : (s.toMdr op S D).cw = s.cw := by
  unfold State.toMdr; split <;> rfl
@[simp] theorem toMdr_mem (op : Alu) (S D : Word) : (s.toMdr op S D).mem = s.mem := by
  unfold State.toMdr; split <;> rfl
@[simp] theorem toMdr_params (op : Alu) (S D : Word) : (s.toMdr op S D).params = s.params := by
  unfold State.toMdr; split <;> rfl
theorem toMdr_mdr (op : Alu) (S D res : Word) (pf : Flags) (h : alu op S D s.flags.c = some (res, pf)) :
    (s.toMdr op S D).mdr = res := by
  simp [State.toMdr, h]
@[simp] theorem toMdr_sum_mdr (S D : Word) : (s.toMdr .sum S D).mdr = S + D := rfl
theorem toMdr_pending (op : Alu) (S D res : Word) (pf : Flags) (h : alu op S D s.flags.c = some (res, pf)) :
    (s.toMdr op S D).pending = pf := by
  simp [State.toMdr, h]
@[simp] theorem toMdr_sum_pending (S D : Word) : (s.toMdr .sum S D).pending = (aluSum S D).2 := rfl

/-! ### toPc -/

@[simp] theorem toPc_regs (op : Alu) (S D : Word) : (s.toPc op S D).regs = s.regs := by
  unfold State.toPc; split <;> rfl
@[simp] theorem toPc_sp (op : Alu) (S D : Word) : (s.toPc op S D).sp = s.sp := by
  unfold State.toPc; split <;> rfl
@[simp] theorem toPc_ir (op : Alu) (S D : Word) : (s.toPc op S D).ir = s.ir := by
  unfold State.toPc; split <;> rfl
@[simp] theorem toPc_adr (op : Alu) (S D : Word) : (s.toPc op S D).adr = s.adr := by
  unfold State.toPc; split <;> rfl
@[simp] theorem toPc_mdr (op : Alu) (S D : Word) : (s.toPc op S D).mdr = s.mdr := by
  unfold State.toPc; split <;> rfl
@[simp] theorem toPc_t (op : Alu) (S D : Word) : (s.toPc op S D).t = s.t := by
  unfold State.toPc; split <;> rfl
@[simp] theorem toPc_flags (op : Alu) (S D : Word) : (s.toPc op S D).flags = s.flags := by
  unfold State.toPc; split <;> rfl
@[simp] theorem toPc_intp (op : Alu) (S D : Word) : (s.toPc op S D).intp = s.intp := by
  unfold State.toPc; split <;> rfl
@[simp] theorem toPc_regsel (op : Alu) (S D : Word) : (s.toPc op S D).regsel = s.regsel := by
  unfold State.toPc; split <;> rfl
@[simp] theorem toPc_upc (op : Alu) (S D : Word) : (s.toPc op S D).upc = s.upc := by
  unfold State.toPc; split <;> rfl
@[simp] theorem toPc_cw (op : Alu) (S D : Word) : (s.toPc op S D).cw = s.cw := by
  unfold State.toPc; split <;> rfl
@[simp] theorem toPc_mem (op : Alu) (S D : Word) : (s.toPc op S D).mem = s.mem := by
  unfold State.toPc; split <;> rfl
@[simp] theorem toPc_params (op : Alu) (S D : Word) : (s.toPc op S D).params = s.params := by
  unfold State.toPc; split <;> rfl
theorem toPc_pc (op : Alu) (S D res : Word) (pf : Flags) (h : alu op S D s.flags.c = some (res, pf)) :
    (s.toPc op S D).pc = res := by
  simp [State.toPc, h]
@[simp] theorem toPc_sum_pc (S D : Word) : (s.toPc .sum S D).pc = S + D := rfl
theorem toPc_pending (op : Alu) (S D res : Word) (pf : Flags) (h : alu op S D s.flags.c = some (res, pf)) :
    (s.toPc op S D).pending = pf := by
  simp [State.toPc, h]
@[simp] theorem toPc_sum_pending (S D : Word) : (s.toPc .sum S D).pending = (aluSum S D).2 := rfl

/-! ### toFlags -/

@[simp] theorem toFlags_regs (op : Alu) (S D : Word) : (s.toFlags op S D).regs = s.regs := by
  unfold State.toFlags; split <;> rfl
@[simp] theorem toFlags_pc (op : Alu) (S D : Word) : (s.toFlags op S D).pc = s.pc := by
  unfold State.toFlags; split <;> rfl
@[simp] theorem toFlags_sp (op : Alu) (S D : Word) : (s.toFlags op S D).sp = s.sp := by
  unfold State.toFlags; split <;> rfl
@[simp] theorem toFlags_ir (op : Alu) (S D : Word) : (s.toFlags op S D).ir = s.ir := by
  unfold State.toFlags; split <;> rfl
@[simp] theorem toFlags_adr (op : Alu) (S D : Word) : (s.toFlags op S D).adr = s.adr := by
  unfold State.toFlags; split <;> rfl
@[simp] theorem toFlags_mdr (op : Alu) (S D : Word) : (s.toFlags op S D).mdr = s.mdr := by
  unfold State.toFlags; split <;> rfl
@[simp] theorem toFlags_t (op : Alu) (S D : Word) : (s.toFlags op S D).t = s.t := by
  unfold State.toFlags; split <;> rfl
@[simp] theorem toFlags_intp (op : Alu) (S D : Word) : (s.toFlags op S D).intp = s.intp := by
  unfold State.toFlags; split <;> rfl
@[simp] theorem toFlags_regsel (op : Alu) (S D : Word) : (s.toFlags op S D).regsel = s.regsel := by
  unfold State.toFlags; split <;> rfl
@[simp] theorem toFlags_upc (op : Alu) (S D : Word) : (s.toFlags op S D).upc = s.upc := by
  unfold State.toFlags; split <;> rfl
@[simp] theorem toFlags_cw (op : Alu) (S D : Word) : (s.toFlags op S D).cw = s.cw := by
  unfold State.toFlags; split <;> rfl
@[simp] theorem toFlags_mem (op : Alu) (S D : Word) : (s.toFlags op S D).mem = s.mem := by
  unfold State.toFlags; split <;> rfl
@[simp] theorem toFlags_params (op : Alu) (S D : Word) : (s.toFlags op S D).params = s.params := by
  unfold State.toFlags; split <;> rfl
theorem toFlags_flags (op : Alu) (S D res : Word) (pf : Flags) (h : alu op S D s.flags.c = some (res, pf)) :
    (s.toFlags op S D).flags = Flags.ofWord res := by
  simp [State.toFlags, h]
@[simp] theorem toFlags_sum_flags (S D : Word) : (s.toFlags .sum S D).flags = Flags.ofWord (S + D) := rfl
theorem toFlags_pending (op : Alu) (S D res : Word) (pf : Flags) (h : alu op S D s.flags.c = some (res, pf)) :
    (s.toFlags op S D).pending = pf := by
  simp [State.toFlags, h]
@[simp] theorem toFlags_sum_pending (S D : Word) : (s.toFlags .sum S D).pending = (aluSum S D).2 := rfl

/-! ### toReg -/

@[simp] theorem toReg_pc (r : Reg) (op : Alu) (S D : Word) : (s.toReg r op S D).pc = s.pc := by
  unfold State.toReg; split <;> rfl
@[simp] theorem toReg_sp (r : Reg) (op : Alu) (S D : Word) : (s.toReg r op S D).sp = s.sp := by
  unfold State.toReg; split <;> rfl
@[simp] theorem toReg_ir (r : Reg) (op : Alu) (S D : Word) : (s.toReg r op S D).ir = s.ir := by
  unfold State.toReg; split <;> rfl
@[simp] theorem toReg_adr (r : Reg) (op : Alu) (S D : Word) : (s.toReg r op S D).adr = s.adr := by
  unfold State.toReg; split <;> rfl
@[simp] theorem toReg_mdr (r : Reg) (op : Alu) (S D : Word) : (s.toReg r op S D).mdr = s.mdr := by
  unfold State.toReg; split <;> rfl
@[simp] theorem toReg_t (r : Reg) (op : Alu) (S D : Word) : (s.toReg r op S D).t = s.t := by
  unfold State.toReg; split <;> rfl
@[simp] theorem toReg_flags (r : Reg) (op : Alu) (S D : Word) : (s.toReg r op S D).flags = s.flags := by
  unfold State.toReg; split <;> rfl
@[simp] theorem toReg_intp (r : Reg) (op : Alu) (S D : Word) : (s.toReg r op S D).intp = s.intp := by
  unfold State.toReg; split <;> rfl
@[simp] theorem toReg_regsel (r : Reg) (op : Alu) (S D : Word) : (s.toReg r op S D).regsel = s.regsel := by
  unfold State.toReg; split <;> rfl
@[simp] theorem toReg_upc (r : Reg) (op : Alu) (S D : Word) : (s.toReg r op S D).upc = s.upc := by
  unfold State.toReg; split <;> rfl
@[simp] theorem toReg_cw (r : Reg) (op : Alu) (S D : Word) : (s.toReg r op S D).cw = s.cw := by
  unfold State.toReg; split <;> rfl
@[simp] theorem toReg_mem (r : Reg) (op : Alu) (S D : Word) : (s.toReg r op S D).mem = s.mem := by
  unfold State.toReg; split <;> rfl
@[simp] theorem toReg_params (r : Reg) (op : Alu) (S D : Word) : (s.toReg r op S D).params = s.params := by
  unfold State.toReg; split <;> rfl
@[simp] theorem toReg_sum_regs (r : Reg) (S D : Word) :
    (s.toReg r .sum S D).regs = s.regs.set r.toNat (S + D) r.isLt := rfl
@[simp] theorem toReg_sum_pending (r : Reg) (S D : Word) :
    (s.toReg r .sum S D).pending = (aluSum S D).2 := rfl

/-! ### Registers and addresses read through an update -/

theorem reg_setReg (r q : Reg) (v : Word) :
    (s.setReg r v).reg q = if q = r then v else s.reg q := by
  simp only [State.reg, State.setReg, Vector.getElem_set, BitVec.toNat_eq, eq_comm]

/-- Equal register files read equal. -/
theorem reg_congr (s' : State) (h : s'.regs = s.regs) (r : Reg) : s'.reg r = s.reg r := by
  simp [State.reg, h]

/-- Equal parameters bound the same addresses. -/
theorem inMemory_congr (s' : State) (h : s'.params = s.params) (a : Word) :
    s'.inMemory a = s.inMemory a := by
  simp [State.inMemory, h]

@[simp] theorem reg_enter (u : MicroAddr) (q : Reg) : (s.enter u).reg q = s.reg q := rfl
@[simp] theorem reg_toFetch (q : Reg) : (s.toFetch).reg q = s.reg q := rfl
@[simp] theorem reg_latchReg (r : Reg) (q : Reg) : (s.latchReg r).reg q = s.reg q := rfl
@[simp] theorem reg_incPc (q : Reg) : (s.incPc).reg q = s.reg q := rfl
@[simp] theorem reg_incSp (q : Reg) : (s.incSp).reg q = s.reg q := rfl
@[simp] theorem reg_commit (q : Reg) : (s.commit).reg q = s.reg q := rfl
@[simp] theorem reg_setZ (b : Bool) (q : Reg) : (s.setZ b).reg q = s.reg q := rfl
@[simp] theorem reg_setC (b : Bool) (q : Reg) : (s.setC b).reg q = s.reg q := rfl
@[simp] theorem reg_setV (b : Bool) (q : Reg) : (s.setV b).reg q = s.reg q := rfl
@[simp] theorem reg_setS (b : Bool) (q : Reg) : (s.setS b).reg q = s.reg q := rfl
@[simp] theorem reg_takeExtra (e : Word) (q : Reg) : (s.takeExtra e).reg q = s.reg q := rfl
@[simp] theorem reg_aluOnly (op : Alu) (S D : Word) (q : Reg) : (s.aluOnly op S D).reg q = s.reg q :=
  reg_congr _ _ (by simp) q
@[simp] theorem reg_toAdr (op : Alu) (S D : Word) (q : Reg) : (s.toAdr op S D).reg q = s.reg q :=
  reg_congr _ _ (by simp) q
@[simp] theorem reg_toT (op : Alu) (S D : Word) (q : Reg) : (s.toT op S D).reg q = s.reg q :=
  reg_congr _ _ (by simp) q
@[simp] theorem reg_toMdr (op : Alu) (S D : Word) (q : Reg) : (s.toMdr op S D).reg q = s.reg q :=
  reg_congr _ _ (by simp) q
@[simp] theorem reg_toPc (op : Alu) (S D : Word) (q : Reg) : (s.toPc op S D).reg q = s.reg q :=
  reg_congr _ _ (by simp) q
@[simp] theorem reg_toFlags (op : Alu) (S D : Word) (q : Reg) : (s.toFlags op S D).reg q = s.reg q :=
  reg_congr _ _ (by simp) q

@[simp] theorem inMemory_enter (u : MicroAddr) (a : Word) : (s.enter u).inMemory a = s.inMemory a := rfl
@[simp] theorem inMemory_toFetch (a : Word) : (s.toFetch).inMemory a = s.inMemory a := rfl
@[simp] theorem inMemory_latchReg (r : Reg) (a : Word) : (s.latchReg r).inMemory a = s.inMemory a := rfl
@[simp] theorem inMemory_setReg (r : Reg) (v : Word) (a : Word) : (s.setReg r v).inMemory a = s.inMemory a := rfl
@[simp] theorem inMemory_incPc (a : Word) : (s.incPc).inMemory a = s.inMemory a := rfl
@[simp] theorem inMemory_incSp (a : Word) : (s.incSp).inMemory a = s.inMemory a := rfl
@[simp] theorem inMemory_commit (a : Word) : (s.commit).inMemory a = s.inMemory a := rfl
@[simp] theorem inMemory_setZ (b : Bool) (a : Word) : (s.setZ b).inMemory a = s.inMemory a := rfl
@[simp] theorem inMemory_setC (b : Bool) (a : Word) : (s.setC b).inMemory a = s.inMemory a := rfl
@[simp] theorem inMemory_setV (b : Bool) (a : Word) : (s.setV b).inMemory a = s.inMemory a := rfl
@[simp] theorem inMemory_setS (b : Bool) (a : Word) : (s.setS b).inMemory a = s.inMemory a := rfl
@[simp] theorem inMemory_takeExtra (e : Word) (a : Word) : (s.takeExtra e).inMemory a = s.inMemory a := rfl
@[simp] theorem inMemory_aluOnly (op : Alu) (S D a : Word) : (s.aluOnly op S D).inMemory a = s.inMemory a :=
  inMemory_congr _ _ (by simp) a
@[simp] theorem inMemory_toAdr (op : Alu) (S D a : Word) : (s.toAdr op S D).inMemory a = s.inMemory a :=
  inMemory_congr _ _ (by simp) a
@[simp] theorem inMemory_toT (op : Alu) (S D a : Word) : (s.toT op S D).inMemory a = s.inMemory a :=
  inMemory_congr _ _ (by simp) a
@[simp] theorem inMemory_toMdr (op : Alu) (S D a : Word) : (s.toMdr op S D).inMemory a = s.inMemory a :=
  inMemory_congr _ _ (by simp) a
@[simp] theorem inMemory_toPc (op : Alu) (S D a : Word) : (s.toPc op S D).inMemory a = s.inMemory a :=
  inMemory_congr _ _ (by simp) a
@[simp] theorem inMemory_toFlags (op : Alu) (S D a : Word) : (s.toFlags op S D).inMemory a = s.inMemory a :=
  inMemory_congr _ _ (by simp) a

end Sys2Proof.Machine.State
end

