-- ==== Sys2Proof/Laws/Ops.lean ====
section
/-! SUPPORT. One lemma for each shared operation that says everything it can do. -/

namespace Sys2Proof.Machine

/-! ## Sequencing -/

@[simp] theorem andThen_next (s : State) (f : State → Result) : andThen (.next s) f = f s := rfl
@[simp] theorem andThen_fault (e : Fault) (f : State → Result) :
    andThen (.fault e) f = .fault e := rfl
@[simp] theorem andThen_refused (e : Refusal) (f : State → Result) :
    andThen (.refused e) f = .refused e := rfl

/-- A sequence answers a next state when both parts do. -/
theorem andThen_eq_next {r : Result} {f : State → Result} {t : State} :
    andThen r f = .next t ↔ ∃ s, r = .next s ∧ f s = .next t := by
  cases r <;> simp

/-- A sequence faults where the first part faults, or where the second faults after it. -/
theorem andThen_eq_fault {r : Result} {f : State → Result} {e : Fault} :
    andThen r f = .fault e ↔ r = .fault e ∨ ∃ s, r = .next s ∧ f s = .fault e := by
  cases r <;> simp

/-! ## The memory accesses and the checked decrement -/

/-- R232: everything the fetch can do. -/
theorem fetchIr_cases (s : State) :
    (s.params.stackBase ≤ s.pc.toNat ∧ fetchIr s = .fault (.programEnd s)) ∨
    (s.pc.toNat < s.params.stackBase
      ∧ fetchIr s = .next { s with ir := s.mem.read s.pc.toNat }) := by
  unfold fetchIr
  split
  · exact .inl ⟨by assumption, rfl⟩
  · exact .inr ⟨by omega, rfl⟩

/-- R239: everything a data read can do. -/
theorem memRead_cases (s : State) :
    (s.inMemory s.adr = true ∧ memRead s = .next { s with mdr := s.mem.read s.adr.toNat }) ∨
    (s.inMemory s.adr = false ∧ memRead s = .fault (.dataOutOfRange s)) := by
  unfold memRead
  split
  · exact .inl ⟨by assumption, rfl⟩
  · exact .inr ⟨by simp_all, rfl⟩

/-- R244: everything a data write can do. -/
theorem memWrite_cases (s : State) :
    (s.inMemory s.adr = true
      ∧ memWrite s = .next { s with mem := s.mem.write s.adr.toNat s.mdr }) ∨
    (s.inMemory s.adr = false ∧ memWrite s = .fault (.dataOutOfRange s)) := by
  unfold memWrite
  split
  · exact .inl ⟨by assumption, rfl⟩
  · exact .inr ⟨by simp_all, rfl⟩

/-- R247: everything the checked decrement can do. -/
theorem decSp_cases (s : State) :
    (canPush s = true ∧ decSp s = .next { s with sp := s.sp - 1 }) ∨
    (canPush s = false ∧ decSp s = .fault (.stackOverflow s)) := by
  unfold decSp canPush
  split
  · exact .inr ⟨by simp; omega, rfl⟩
  · exact .inl ⟨by simp; omega, rfl⟩

/-! ## What a canonical memory keeps -/

/-- A data write keeps the canonical form of memory. -/
theorem memWrite_wf {s t : State} (hs : s.mem.wf = true) (h : memWrite s = .next t) :
    t.mem.wf = true := by
  rcases memWrite_cases s with ⟨_, hw⟩ | ⟨_, hw⟩ <;> rw [hw] at h
  · cases h
    exact Memory.wf_write hs _ _
  · cases h

/-- Placing words in consecutive cells keeps the canonical form. -/
theorem Memory.wf_placeAt : ∀ (ws : List Word) (a : Word) {m : Memory}, m.wf = true →
    (Memory.placeAt m a ws).wf = true
  | [], _, _, h => h
  | _ :: ws, a, _, h => wf_placeAt ws (a + 1) (wf_write h a.toNat _)

/-- The memory of reset is canonical. -/
theorem reset_mem_wf : State.reset.mem.wf = true := rfl

/-- The memory a program is loaded into is canonical. -/
theorem boot_mem_wf (p : Params) (program : List Word) : (bootState p program).mem.wf = true :=
  Memory.wf_writeWords program 0 rfl

/-! ## Operands -/

/-- R313: the source fetch of a readable operand leaves its value in `t` and changes nothing architectural
but `pc`, by the operand's extra words; of an unreadable one it stops. -/
theorem fetchSource_spec (o : Operand) (s : State) :
    (readable o s = true → ∃ t, fetchSource o s = .next t ∧ t.t = valueOf o s
      ∧ t.arch = { s.arch with pc := s.pc + extraCount o } ∧ t.ir = s.ir) ∧
    (readable o s = false → ∃ t, fetchSource o s = .fault (.dataOutOfRange t)
      ∧ t.arch = { s.arch with pc := s.pc + extraCount o }) := by
  cases o <;> constructor <;> intro h <;>
    simp_all [readable, fetchSource, memRead, valueOf, extraCount, State.arch]

/-- R314: the destination fetch of an operand leaves its value in `mdr` and its place in `adr` or `regsel`,
keeps `t`, and changes nothing architectural but `pc`; of an unreadable one it stops. -/
theorem fetchDest_spec (o : Operand) (s : State) :
    (readable o s = true → ∃ t, fetchDest o s = .next t ∧ t.mdr = valueOf o s ∧ t.t = s.t
      ∧ t.arch = { s.arch with pc := s.pc + extraCount o } ∧ t.ir = s.ir
      ∧ (∀ a, placeOf o s s.pc = .cell a → t.adr = a)
      ∧ (∀ r, placeOf o s s.pc = .reg r → t.regsel = some r)) ∧
    (readable o s = false → ∃ t, fetchDest o s = .fault (.dataOutOfRange t)
      ∧ t.arch = { s.arch with pc := s.pc + extraCount o }) := by
  cases o <;> constructor <;> intro h <;>
    simp_all [readable, fetchDest, memRead, valueOf, placeOf, extraCount, State.arch,
      BitVec.add_comm]

/-- R315: the write-back stores `mdr` at the operand's place when `adr` holds it and the cell exists. -/
theorem writeBack_next {o : Operand} {s : State} {p : Place}
    (hr : ∀ r, o = .direct r → p = .reg r)
    (hc : (∀ r, o ≠ .direct r) → p = .cell s.adr ∧ s.inMemory s.adr = true) :
    ∃ t, writeBack o s = .next t ∧ t.upc = uFetch ∧ t.ir = s.ir
      ∧ t.arch = s.arch.store p s.mdr := by
  cases o with
  | direct r =>
    obtain rfl := hr r rfl
    refine ⟨_, rfl, rfl, by simp, ?_⟩
    simp [State.arch, Arch.store]
  | immediate f v =>
    obtain ⟨rfl, h⟩ := hc (by simp)
    simp_all [writeBack, memWrite, State.arch, Arch.store]
  | indirect r =>
    obtain ⟨rfl, h⟩ := hc (by simp)
    simp_all [writeBack, memWrite, State.arch, Arch.store]
  | indexed r e =>
    obtain ⟨rfl, h⟩ := hc (by simp)
    simp_all [writeBack, memWrite, State.arch, Arch.store]

/-- R316: everything a push can do: the store fails, the store happens and the decrement faults, or both
happen. -/
theorem pushMdr_cases (s : State) :
    (s.inMemory s.sp = false ∧ ∃ t, pushMdr s = .fault (.dataOutOfRange t) ∧ t.arch = s.arch) ∨
    (s.inMemory s.sp = true ∧ canPush s = false ∧ ∃ t, pushMdr s = .fault (.stackOverflow t)
      ∧ t.arch = s.arch.store (.cell s.sp) s.mdr ∧ t.upc = s.upc) ∨
    (s.inMemory s.sp = true ∧ canPush s = true ∧ ∃ t, pushMdr s = .next t
      ∧ t.arch = { s.arch.store (.cell s.sp) s.mdr with sp := s.sp - 1 } ∧ t.t = s.t
      ∧ t.ir = s.ir) := by
  by_cases hm : s.inMemory s.sp = true
  · by_cases hc : (s.sp.toNat : Int) - 1 < s.params.stackBase
    · refine .inr (.inl ⟨hm, by simp [canPush]; omega, ?_⟩)
      simp [pushMdr, memWrite, decSp, hm, hc, State.arch, Arch.store]
    · refine .inr (.inr ⟨hm, by simp [canPush]; omega, ?_⟩)
      simp [pushMdr, memWrite, decSp, hm, hc, State.arch, Arch.store]
  · have hm' : s.inMemory s.sp = false := by simpa using hm
    refine .inl ⟨hm', ?_⟩
    simp [pushMdr, memWrite, hm', State.arch]

/-- R317: everything the read of a pop can do; `s` is the state after the increment. -/
theorem readTop_cases (s : State) :
    (s.inMemory s.sp = true ∧ ∃ t, readTop s = .next t ∧ t.mdr = s.mem.read s.sp.toNat
      ∧ t.arch = s.arch ∧ t.t = s.t ∧ t.ir = s.ir) ∨
    (s.inMemory s.sp = false ∧ ∃ t, readTop s = .fault (.dataOutOfRange t) ∧ t.arch = s.arch) := by
  rcases hm : s.inMemory s.sp
  · refine .inr ⟨rfl, ?_⟩
    simp [readTop, memRead, hm, State.arch]
  · refine .inl ⟨rfl, ?_⟩
    simp [readTop, memRead, hm, State.arch]

end Sys2Proof.Machine
end

