-- ==== Sys2Proof/Laws/PerInstr.lean ====
section
/-! SUPPORT. The per-instruction family `EncodeLength`: the number of words of each instruction's encoding is
the length R99 gives its opcode word, from 1 to 3. -/

namespace Sys2Proof.Laws.EncodeLength

/-- R90, R99: the encoding is an opcode word of the length that word announces, 1 to 3 words in all. -/
def Statement (i : Instr) : Prop :=
  ∃ w ws, encode i = w :: ws ∧ instrLength w = 1 + ws.length ∧ ws.length ≤ 2

/-- The statement for a two-operand instruction. -/
theorem two {i : Instr} (op : TwoOp) {src dst : Operand} (h : i.shape = .two op src dst) :
    Statement i := by
  refine ⟨_, src.extraWords ++ dst.extraWords, by simp only [encode, Codes.encode, h]; rfl, ?_, ?_⟩
  · have hm : (BitVec.ofNat 4 (Codes.reference.twoOp.value op)).msb = false := by cases op <;> rfl
    simp only [instrLength, Codes.instrLength, twoOpWord_group _ _ _ _ _ hm, twoOpWord_modeSrc,
      twoOpWord_modeDst, List.length_append, Operand.extraWords_length,
      Codes.modeOf_modeCode Codes.reference_valid.1]
    omega
  · cases src <;> cases dst <;> simp [Operand.extraWords]

/-- The statement for a one-operand instruction. -/
theorem one {i : Instr} (op : OneOp) {dst : Operand} (h : i.shape = .one op dst) : Statement i := by
  refine ⟨_, dst.extraWords, by simp only [encode, Codes.encode, h]; rfl, ?_, ?_⟩
  · have h9 : (BitVec.ofNat 10 (Codes.reference.oneOp.value op)).getLsbD 9 = true := by cases op <;> rfl
    have h8 : (BitVec.ofNat 10 (Codes.reference.oneOp.value op)).getLsbD 8 = false := by cases op <;> rfl
    simp only [instrLength, Codes.instrLength, oneOpWord_group _ _ _ h9 h8, oneOpWord_mode,
      Operand.extraWords_length, Codes.modeOf_modeCode Codes.reference_valid.1]
  · cases dst <;> simp [Operand.extraWords]

/-- The statement for a branch. -/
theorem branch {i : Instr} (op : BranchOp) {o : BitVec 8} (h : i.shape = .branch op o) :
    Statement i := by
  refine ⟨_, [], by simp only [encode, Codes.encode, h]; rfl, ?_, by simp⟩
  have h7 : (BitVec.ofNat 8 (Codes.reference.branch.value op)).getLsbD 7 = true := by cases op <;> rfl
  have h6 : (BitVec.ofNat 8 (Codes.reference.branch.value op)).getLsbD 6 = true := by cases op <;> rfl
  have h5 : (BitVec.ofNat 8 (Codes.reference.branch.value op)).getLsbD 5 = false := by cases op <;> rfl
  simp [instrLength, Codes.instrLength, branchWord_group _ _ h7 h6 h5]

/-- The statement for an instruction without operands. -/
theorem other {i : Instr} (op : OtherOp) (h : i.shape = .other op) : Statement i := by
  refine ⟨_, [], by simp only [encode, Codes.encode, h]; rfl, ?_, by simp⟩
  cases op <;> rfl

theorem mov (src dst : Operand) : Statement (.mov src dst) := two .mov rfl
theorem add (src dst : Operand) : Statement (.add src dst) := two .add rfl
theorem sub (src dst : Operand) : Statement (.sub src dst) := two .sub rfl
theorem cmp (src dst : Operand) : Statement (.cmp src dst) := two .cmp rfl
theorem and (src dst : Operand) : Statement (.and src dst) := two .and rfl
theorem or (src dst : Operand) : Statement (.or src dst) := two .or rfl
theorem xor (src dst : Operand) : Statement (.xor src dst) := two .xor rfl
theorem clr (dst : Operand) : Statement (.clr dst) := one .clr rfl
theorem neg (dst : Operand) : Statement (.neg dst) := one .neg rfl
theorem inc (dst : Operand) : Statement (.inc dst) := one .inc rfl
theorem dec (dst : Operand) : Statement (.dec dst) := one .dec rfl
theorem asl (dst : Operand) : Statement (.asl dst) := one .asl rfl
theorem asr (dst : Operand) : Statement (.asr dst) := one .asr rfl
theorem lsr (dst : Operand) : Statement (.lsr dst) := one .lsr rfl
theorem rol (dst : Operand) : Statement (.rol dst) := one .rol rfl
theorem ror (dst : Operand) : Statement (.ror dst) := one .ror rfl
theorem rlc (dst : Operand) : Statement (.rlc dst) := one .rlc rfl
theorem rrc (dst : Operand) : Statement (.rrc dst) := one .rrc rfl
theorem jmp (dst : Operand) : Statement (.jmp dst) := one .jmp rfl
theorem call (dst : Operand) : Statement (.call dst) := one .call rfl
theorem push (dst : Operand) : Statement (.push dst) := one .push rfl
theorem pop (dst : Operand) : Statement (.pop dst) := one .pop rfl
theorem br (offset : BitVec 8) : Statement (.br offset) := branch .br rfl
theorem bne (offset : BitVec 8) : Statement (.bne offset) := branch .bne rfl
theorem beq (offset : BitVec 8) : Statement (.beq offset) := branch .beq rfl
theorem bpl (offset : BitVec 8) : Statement (.bpl offset) := branch .bpl rfl
theorem bmi (offset : BitVec 8) : Statement (.bmi offset) := branch .bmi rfl
theorem bcs (offset : BitVec 8) : Statement (.bcs offset) := branch .bcs rfl
theorem bcc (offset : BitVec 8) : Statement (.bcc offset) := branch .bcc rfl
theorem bvs (offset : BitVec 8) : Statement (.bvs offset) := branch .bvs rfl
theorem bvc (offset : BitVec 8) : Statement (.bvc offset) := branch .bvc rfl
theorem clc : Statement .clc := other .clc rfl
theorem clv : Statement .clv := other .clv rfl
theorem clz : Statement .clz := other .clz rfl
theorem cls : Statement .cls := other .cls rfl
theorem ccc : Statement .ccc := other .ccc rfl
theorem sec : Statement .sec := other .sec rfl
theorem sev : Statement .sev := other .sev rfl
theorem sez : Statement .sez := other .sez rfl
theorem ses : Statement .ses := other .ses rfl
theorem scc : Statement .scc := other .scc rfl
theorem nop : Statement .nop := other .nop rfl
theorem ret : Statement .ret := other .ret rfl
theorem reti : Statement .reti := other .reti rfl
theorem halt : Statement .halt := other .halt rfl
theorem wait : Statement .wait := other .wait rfl
theorem pushpc : Statement .pushpc := other .pushpc rfl
theorem poppc : Statement .poppc := other .poppc rfl
theorem pushflag : Statement .pushflag := other .pushflag rfl
theorem popflag : Statement .popflag := other .popflag rfl

end Sys2Proof.Laws.EncodeLength
end

