-- ==== Sys2Proof/Laws/Setup.lean ====
section
/-! SUPPORT. What the operations on a configuration can do: the selector numberings, the walk over a control
store, and its load. -/

namespace Sys2Proof.Machine

/-! ## Selector numberings -/

/-- In a numbering without repeated codes the code of a listed selector names it. -/
theorem Numbering.named_code {α : Type} [DecidableEq α] (n : Numbering α)
    (hcodes : (n.map Prod.snd).Nodup) {sel : α} (h : sel ∈ n.map Prod.fst) :
    n.named (n.code sel) = some sel := by
  induction n with
  | nil => simp at h
  | cons p n ih =>
    obtain ⟨a, v⟩ := p
    simp only [List.map_cons, List.nodup_cons] at hcodes
    by_cases ha : sel = a
    · subst ha
      simp [Numbering.named, Numbering.code, List.lookup]
    · have hmem : sel ∈ n.map Prod.fst := by simpa [ha] using h
      have hcode : Numbering.code ((a, v) :: n) sel = Numbering.code n sel := by
        simp [Numbering.code, List.lookup, beq_false_of_ne ha]
      have hnamed := ih hcodes.2 hmem
      have hv : v ≠ Numbering.code n sel := by
        intro hv
        simp only [Numbering.named, Option.map_eq_some_iff] at hnamed
        obtain ⟨p, hp, -⟩ := hnamed
        have := List.mem_map_of_mem (f := Prod.snd) (List.mem_of_find?_eq_some hp)
        have hps : p.2 = Numbering.code n sel := by simpa using List.find?_some hp
        exact hcodes.1 (by rw [hv, ← hps]; exact this)
      rw [hcode]
      simpa [Numbering.named, List.find?_cons, beq_false_of_ne hv] using hnamed

/-- The code of a listed selector fits the field. -/
theorem Numbering.code_lt {α : Type} [DecidableEq α] {n : Numbering α} {all : List α} {width : Nat}
    (h : n.valid all width) {sel : α} (hs : sel ∈ all) : n.code sel < 2 ^ width := by
  have hnamed := n.named_code h.2.1 (h.2.2.1 sel hs)
  simp only [Numbering.named, Option.map_eq_some_iff] at hnamed
  obtain ⟨p, hp, -⟩ := hnamed
  have hps : p.2 = n.code sel := by simpa using List.find?_some hp
  exact hps ▸ h.2.2.2 p (List.mem_of_find?_eq_some hp)

/-! ## The walk over a control store -/

/-- A gathering that succeeds holds every situation of every answer gathered. -/
theorem gather_some {l : List (Option (List Situation))} {qs : List Situation}
    (h : gather l = some qs) : ∀ x ∈ l, ∃ part, x = some part ∧ ∀ q ∈ part, q ∈ qs := by
  induction l generalizing qs with
  | nil => simp
  | cons x rest ih =>
    cases x with
    | none => simp [gather] at h
    | some part =>
      simp only [gather] at h
      split at h
      · cases h
      · rename_i more hmore
        cases h
        intro x hx
        rcases List.mem_cons.mp hx with rfl | hx
        · exact ⟨part, rfl, fun q hq => List.mem_append_left _ hq⟩
        · obtain ⟨p, hp, hsub⟩ := ih hmore x hx
          exact ⟨p, hp, fun q hq => List.mem_append_right _ (hsub q hq)⟩

/-- R301, R303: a pair that passes has a selector defined for the group, every sum it can form lies in the store,
and each leads to a situation listed. -/
theorem pairSuccessors_some {k : Setup} {p : Precision} {q : Situation} {addr : Nat} {ix : Index}
    {qs : List Situation} (h : pairSuccessors k p q addr ix = some qs) :
    ∃ values, indexCan k.codes p ix q.ir = some values
      ∧ (∀ v ∈ values, addr + v < k.rom.length)
      ∧ qs = values.map fun v => q.enter k (addr + v) := by
  simp only [pairSuccessors] at h
  split at h
  · cases h
  · rename_i values hv
    split at h
    · rename_i hall
      cases h
      exact ⟨values, hv, by simpa using hall, rfl⟩
    · cases h

/-- A precise walk's index, where the machine's index selector answers one, is that one alone. -/
theorem indexCan_ok {c : Codes} {p : Precision} {ix : Index} {w : Word} {v : Nat} (hp : p ≠ .certificate)
    (h : indexValue c ix { State.reset with ir := w } = .ok v) : indexCan c p ix w = some [v] := by
  simp [indexCan, hp, h]

/-- R305: a prepared word that writes a register has the intended field latched. -/
theorem writePrepared_reg {k : Setup} {a : Nat} {m : MicroInstr} {l : Option RegField}
    (h : writePrepared k a m l = true) (hm : m.rbus = .reg) :
    latchedAfter m l = some (k.writesField a) := by
  simpa [writePrepared, hm] using h

/-- Each branch of a word that passes passes and leads to situations listed, and for a certificate the word is
prepared. -/
theorem successors_some {k : Setup} {p : Precision} {m : MicroInstr} {q : Situation} {qs : List Situation}
    (h : successors k p m q = some qs) :
    (p = .certificate → writePrepared k q.upc m q.latched = true)
      ∧ ∀ a ∈ afterStages k p m q, ∀ x ∈ branches k p m a, ∃ part, x = some part ∧ ∀ r ∈ part, r ∈ qs := by
  simp only [successors] at h
  split at h
  · cases h
  · rename_i hw
    refine ⟨fun hp => ?_, fun a ha x hx => gather_some h x (List.mem_flatMap.mpr ⟨a, ha, hx⟩)⟩
    simpa [hp] using hw

/-- A flag condition's outcome is among those its knowledge allows, when the knowledge is right. -/
theorem wants_sound {value actual : Bool} {known : Option Bool} (h : ∀ b, known = some b → b = actual) :
    ((actual == value) = true → (wants value known).1 = true)
      ∧ ((actual == value) = false → (wants value known).2 = true) := by
  cases known with
  | none => simp [wants]
  | some b =>
    have := h b rfl
    subst this
    cases b <;> cases value <;> simp [wants]

/-- Forcing a set changes nothing. -/
@[simp] theorem KeySet.forced_eq {α : Type} (t : KeySet) (f : KeySet → α) : t.forced f = f t := by
  cases t <;> rfl

/-- What a set holds after a number is added was in it before or is that number. -/
theorem KeySet.has_add {fuel : Nat} {t : KeySet} {n a : Nat} (h : (KeySet.add fuel t n).has a = true) :
    t.has a = true ∨ a = n := by
  induction fuel generalizing t n a with
  | zero => exact .inl h
  | succ fuel ih =>
    cases t with
    | empty => exact .inr (Eq.symm (by simpa [KeySet.add, KeySet.has] using h))
    | leaf rest =>
      simp only [KeySet.add] at h
      split at h
      · exact .inl h
      · have half : ∀ x y : Nat, x % 2 = y % 2 → x / 2 = y / 2 → x = y := by omega
        by_cases hr : rest % 2 = 0 <;> by_cases hn : n % 2 = 0 <;> by_cases ha : a % 2 = 0 <;>
          simp only [hr, hn, ha, if_true, if_false, KeySet.forced_eq, KeySet.has] at h <;>
          first
          | (rcases ih h with h | h
             · simp only [KeySet.has, beq_iff_eq] at h
               exact .inl (by simp only [KeySet.has, beq_iff_eq]; exact half _ _ (by omega) h)
             · exact .inr (half _ _ (by omega) h))
          | (rcases ih h with h | h
             · exact absurd h (by simp [KeySet.has])
             · exact .inr (half _ _ (by omega) h))
          | (simp only [beq_iff_eq] at h
             exact .inl (by simp only [KeySet.has, beq_iff_eq]; exact half _ _ (by omega) h))
          | exact absurd h (by simp)
    | node even odd =>
      have half : ∀ x y : Nat, x % 2 = y % 2 → x / 2 = y / 2 → x = y := by omega
      by_cases hn : n % 2 = 0 <;> by_cases ha : a % 2 = 0 <;>
        simp only [KeySet.add, hn, ha, if_true, if_false, KeySet.forced_eq, KeySet.has] at h ⊢ <;>
        first
        | exact .inl h
        | (rcases ih h with h | h
           · exact .inl h
           · exact .inr (half _ _ (by omega) h))

/-- A situation of a list is met already, or one of its number is among the fresh ones; and what the new set holds
was met before or is the number of a fresh one. -/
theorem addFresh_spec (met : KeySet) (qs : List Situation) :
    (∀ q ∈ qs, met.has q.key = true ∨ ∃ p ∈ (addFresh met qs).2, p.key = q.key)
      ∧ ∀ n, (addFresh met qs).1.has n = true → met.has n = true ∨ ∃ p ∈ (addFresh met qs).2, p.key = n := by
  induction qs generalizing met with
  | nil => simp [addFresh]
  | cons q qs ih =>
    simp only [addFresh, KeySet.forced_eq]
    split
    · rename_i hq
      refine ⟨fun x hx => ?_, (ih met).2⟩
      rcases List.mem_cons.mp hx with rfl | hx
      · exact .inl hq
      · exact (ih met).1 x hx
    · have spec := ih (met.meet q)
      have added : ∀ n, (met.meet q).has n = true → met.has n = true ∨ q.key = n := fun n h =>
        (KeySet.has_add h).imp_right Eq.symm
      refine ⟨fun x hx => ?_, fun n hn => ?_⟩
      · rcases List.mem_cons.mp hx with rfl | hx
        · exact .inr ⟨x, List.mem_cons_self, rfl⟩
        · rcases spec.1 x hx with h | ⟨p, hp, hk⟩
          · exact (added _ h).imp_right fun h => ⟨q, List.mem_cons_self, h⟩
          · exact .inr ⟨p, List.mem_cons_of_mem _ hp, hk⟩
      · rcases spec.2 n hn with h | ⟨p, hp, hk⟩
        · exact (added _ h).imp_right fun h => ⟨q, List.mem_cons_self, h⟩
        · exact .inr ⟨p, List.mem_cons_of_mem _ hp, hk⟩

/-! ## All runs -/

/-- An answer of `firstOf` is an answer of its function. -/
theorem firstOf_some {f : Nat → Option Refusal} {count i : Nat} {r : Refusal} (h : firstOf f count i = some r) :
    ∃ j, f j = some r := by
  induction count generalizing i with
  | zero => cases h
  | succ count ih =>
    simp only [firstOf] at h
    split at h
    · rename_i r' hr
      cases h
      exact ⟨i, hr⟩
    · exact ih h

/-- Where `firstOf` has no answer its function has none on the numbers tried. -/
theorem firstOf_none {f : Nat → Option Refusal} {count i : Nat} (h : firstOf f count i = none) :
    ∀ j, i ≤ j → j < i + count → f j = none := by
  induction count generalizing i with
  | zero => intro j h1 h2; omega
  | succ count ih =>
    simp only [firstOf] at h
    split at h
    · cases h
    · rename_i hi
      intro j h1 h2
      by_cases hj : j = i
      · exact hj ▸ hi
      · exact ih h j (by omega) (by omega)

/-- An answer of `firstSchedule` is an answer of its function. -/
theorem firstSchedule_some {f : List Bool → Option Refusal} {n : Nat} {bs : List Bool} {r : Refusal}
    (h : firstSchedule f n bs = some r) : ∃ cs, f cs = some r := by
  induction n generalizing bs with
  | zero => exact ⟨bs, h⟩
  | succ n ih =>
    simp only [firstSchedule] at h
    split at h
    · rename_i r' hr
      cases h
      exact ih hr
    · exact ih h

/-- Where `firstSchedule` has no answer its function has none on any schedule of the length. -/
theorem firstSchedule_none {f : List Bool → Option Refusal} {cs bs : List Bool}
    (h : firstSchedule f cs.length bs = none) : f (cs.reverse ++ bs) = none := by
  induction cs generalizing bs with
  | nil => exact h
  | cons c cs ih =>
    simp only [List.length_cons, firstSchedule] at h
    split at h
    · cases h
    · rename_i hf
      cases c
      · simpa using ih hf
      · simpa using ih h

/-- An answer of `firstProgram` is an answer of its function. -/
theorem firstProgram_some {f : List Word → Option Refusal} {n : Nat} {ws : List Word} {r : Refusal}
    (h : firstProgram f n ws = some r) : ∃ vs, f vs = some r := by
  induction n generalizing ws with
  | zero => exact ⟨ws, h⟩
  | succ n ih =>
    obtain ⟨_, h⟩ := firstOf_some h
    exact ih h

/-- Where `firstProgram` has no answer its function has none on any program of the length. -/
theorem firstProgram_none {f : List Word → Option Refusal} {vs ws : List Word}
    (h : firstProgram f vs.length ws = none) : f (vs.reverse ++ ws) = none := by
  induction vs generalizing ws with
  | nil => exact h
  | cons v vs ih =>
    have := firstOf_none h v.toNat (Nat.zero_le _) (by simpa using v.isLt)
    simpa using ih this

/-- A rule broken is broken by a run. -/
theorem anyFault_some {k : Setup} {r : Refusal} (h : anyFault k = some r) : ∃ run : Run, run.breaks k = some r := by
  obtain ⟨_, h⟩ := firstOf_some h
  obtain ⟨_, h⟩ := firstOf_some h
  obtain ⟨_, h⟩ := firstOf_some h
  obtain ⟨_, h⟩ := firstOf_some h
  obtain ⟨_, h⟩ := firstOf_some h
  obtain ⟨_, h⟩ := firstProgram_some h
  obtain ⟨_, h⟩ := firstSchedule_some h
  exact ⟨_, h⟩

/-- Where no rule is broken no run within the bound breaks one. -/
theorem anyFault_none {k : Setup} (h : anyFault k = none) (run : Run) (hbound : run.schedule.length < runBound)
    (hprogram : run.program.length ≤ run.schedule.length) : run.breaks k = none := by
  by_cases hfits : programFits run.params run.program
  · have h := firstOf_none h run.schedule.length (Nat.zero_le _) (by omega)
    have h := firstOf_none h run.params.memSize (Nat.zero_le _) (by have := hfits.2.2; omega)
    have h := firstOf_none h run.params.stackSize (Nat.zero_le _) (by have := hfits.2; omega)
    have h := firstOf_none h run.params.brOffsetSigned.toNat (Nat.zero_le _)
      (by cases run.params.brOffsetSigned <;> simp)
    have h := firstOf_none h run.program.length (Nat.zero_le _) (by omega)
    have h := firstProgram_none (vs := run.program.reverse) (by simpa using h)
    have h := firstSchedule_none (cs := run.schedule.reverse) (by simpa using h)
    obtain ⟨⟨memSize, stackSize, signed⟩, program, schedule⟩ := run
    cases signed <;> simpa using h
  · simp [Run.breaks, hfits]

/-! ## The load -/

/-- R301, R303: where a store breaks a rule the walks have not certified it, and a run breaks the rule. -/
theorem brokenRule_some {k : Setup} {r : Refusal} (h : brokenRule k = some r) :
    pathsCertified k = false ∧ pathsSafe k = false ∧ ∃ run : Run, run.breaks k = some r := by
  simp only [brokenRule] at h
  split at h
  · cases h
  · rename_i hpaths
    simp only [Bool.or_eq_true, not_or, Bool.not_eq_true] at hpaths
    refine ⟨hpaths.1, hpaths.2, ?_⟩
    split at h
    · rename_i r' hr
      cases h
      obtain ⟨run, -, hrun⟩ := Option.bind_eq_some_iff.mp hr
      exact ⟨run, hrun⟩
    · exact anyFault_some h

/-- R301, R303: where a store breaks no rule a walk has certified it, or no run within the bound breaks one. -/
theorem brokenRule_none {k : Setup} (h : brokenRule k = none) :
    pathsCertified k = true ∨ pathsSafe k = true ∨ anyFault k = none := by
  simp only [brokenRule] at h
  split at h
  · rename_i hpaths
    simp only [Bool.or_eq_true] at hpaths
    exact hpaths.imp_right .inl
  · split at h
    · cases h
    · exact .inr (.inr h)

/-- R300: an accepted load leaves the machine as it is and has found no illegal word and no broken rule. -/
theorem acceptStore_next {k : Setup} {s t : State} (h : acceptStore k s = .next t) :
    t = s ∧ firstIllFormed k.selectors 0 k.rom = none ∧ brokenRule k = none := by
  simp only [acceptStore] at h
  split at h
  · cases h
  · rename_i hill
    split at h
    · cases h
    · rename_i hrule
      cases h
      exact ⟨rfl, hill, hrule⟩

/-- R6: a refused load has found an illegal word, or a run from reset that breaks a rule. -/
theorem acceptStore_refused {k : Setup} {s : State} {r : Refusal} (h : acceptStore k s = .refused r) :
    (∃ a, r = .illFormedControlStore a ∧ firstIllFormed k.selectors 0 k.rom = some a)
      ∨ (firstIllFormed k.selectors 0 k.rom = none ∧ brokenRule k = some r) := by
  simp only [acceptStore] at h
  split at h
  · rename_i a ha
    cases h
    exact .inl ⟨a, rfl, ha⟩
  · rename_i hill
    split at h
    · rename_i r' hr
      cases h
      exact .inr ⟨hill, hr⟩
    · cases h

end Sys2Proof.Machine
end

