-- ==== Sys2Proof/Tests/Slice0.lean ====
section
/-! SUPPORT. Tests: the checks of WellFormed, words written out from the encodings, vectors of the spec (the id
of the vector of 95_test_vectors.md, or the rule whose example it is, stands in each comment), one step each,
and for each statement a state and operands that meet its hypotheses. -/

namespace Sys2Proof.Tests

open Sys2Proof Sys2Proof.Machine

-- Elaborated one theorem at a time: side by side, their threads' stacks exceed the check's memory limit.
set_option Elab.async false

/-! ## Helpers -/

/-- The next state of an answer. -/
def answer : Result → Option State
  | .next t => some t
  | .fault _ => none
  | .refused _ => none

/-- The fault of an answer. -/
def stop : Result → Option Fault
  | .next _ => none
  | .fault f => some f
  | .refused _ => none

/-- The words of an encoder's answer. -/
def words : Except EncodeError (List Word) → Option (List Word)
  | .ok ws => some ws
  | .error _ => none

/-- The error of an encoder's answer. -/
def encodingError : Except EncodeError (List Word) → Option EncodeError
  | .ok _ => none
  | .error e => some e

/-- The record of a decoder's answer. -/
def record : Except DecodeError Decoded → Option Decoded
  | .ok d => some d
  | .error _ => none

/-- The error of a decoder's answer. -/
def decodingError : Except DecodeError Decoded → Option DecodeError
  | .ok _ => none
  | .error e => some e

/-- A machine at the fetch word with a program loaded, STACK_SIZE 8 and the default MEM_SIZE (the vectors'
convention), some registers and the flags preset. -/
def machine (program : List Word) (regs : List (Reg × Word) := []) (flags : Flags := {}) : State :=
  let s := bootState (defaultParams 8 program) program
  regs.foldl (fun s p => s.setReg p.1 p.2) { s with upc := uFetch, flags }

/-- Flags in the order of the vectors: Z C V S. -/
def zcvs (z c v s : Nat) : Flags := { z := z == 1, c := c == 1, v := v == 1, s := s == 1 }

/-- What a vector looks at after one step: a register, the flags, `pc`. -/
def seen (s : State) (r : Reg) : Option (Word × Flags × Word) :=
  (answer (step s)).map fun t => (t.reg r, t.flags, t.pc)

/-- What a vector looks at after one step: a memory cell, the flags, `pc`, `sp`. -/
def stored (s : State) (a : Nat) : Option (Word × Flags × Word × Word) :=
  (answer (step s)).map fun t => (t.mem.read a, t.flags, t.pc, t.sp)

/-! ## WellFormed refuses an ill-formed term by each of its checks -/

theorem test_refuses_immediate_destination :
    (Instr.mov (.direct 1) (.immediate 0 5)).wellFormed = false := by decide
theorem test_refuses_pair_made_illegal :
    (Instr.mov (.indexed 1 2) (.indexed 3 4)).wellFormedFor [(.indexed, .indexed)] = false
      ∧ (Instr.mov (.indexed 1 2) (.indexed 3 4)).wellFormed = true := by decide
theorem test_refuses_immediate_outside_whitelist :
    (Instr.clr (.immediate 0 5)).wellFormed = false ∧ (Instr.pop (.immediate 0 5)).wellFormed = false
      ∧ (Instr.push (.immediate 0 5)).wellFormed = true := by decide
theorem test_refuses_noncanonical_immediate :
    (Instr.push (.immediate 5 5)).wellFormed = false ∧ (Instr.push (.immediate 5 5)).legal [] = true := by
  decide

/-! ## Decoding: a word for each constructor, written out from the patterns of R102 to R105 -/

theorem test_decode_mov :
    decodeWords [0b0000_00_0000_01_0000, 0x1234] = .ok (.mov (.immediate 0 0x1234) (.direct 0), []) := rfl
theorem test_decode_add :
    decodeWords [0b0001_01_0001_01_0010] = .ok (.add (.direct 1) (.direct 2), []) := rfl
theorem test_decode_sub :
    decodeWords [0b0010_11_0101_10_1010, 0x1234] = .ok (.sub (.indexed 5 0x1234) (.indirect 10), []) := rfl
theorem test_decode_cmp :
    decodeWords [0b0011_10_1111_11_0001, 0x5678] = .ok (.cmp (.indirect 15) (.indexed 1 0x5678), []) := rfl
theorem test_decode_and :
    decodeWords [0b0100_01_1000_11_0111, 0x5678] = .ok (.and (.direct 8) (.indexed 7 0x5678), []) := rfl
theorem test_decode_or :
    decodeWords [0b0101_00_0011_10_0100, 0x1234] = .ok (.or (.immediate 3 0x1234) (.indirect 4), []) := rfl
theorem test_decode_xor :
    decodeWords [0b0110_11_0010_11_0011, 0x1234, 0x5678] = .ok (.xor (.indexed 2 0x1234) (.indexed 3 0x5678), []) := rfl
theorem test_decode_clr :
    decodeWords [0b1000000000_01_0001] = .ok (.clr (.direct 1), []) := rfl
theorem test_decode_neg :
    decodeWords [0b1000000001_10_0010] = .ok (.neg (.indirect 2), []) := rfl
theorem test_decode_inc :
    decodeWords [0b1000000010_11_0011, 0xFEDC] = .ok (.inc (.indexed 3 0xFEDC), []) := rfl
theorem test_decode_dec :
    decodeWords [0b1000000011_01_0100] = .ok (.dec (.direct 4), []) := rfl
theorem test_decode_asl :
    decodeWords [0b1000000100_10_0101] = .ok (.asl (.indirect 5), []) := rfl
theorem test_decode_asr :
    decodeWords [0b1000000101_11_0110, 0xFEDC] = .ok (.asr (.indexed 6 0xFEDC), []) := rfl
theorem test_decode_lsr :
    decodeWords [0b1000000110_01_0111] = .ok (.lsr (.direct 7), []) := rfl
theorem test_decode_rol :
    decodeWords [0b1000000111_10_1000] = .ok (.rol (.indirect 8), []) := rfl
theorem test_decode_ror :
    decodeWords [0b1000001000_11_1001, 0xFEDC] = .ok (.ror (.indexed 9 0xFEDC), []) := rfl
theorem test_decode_rlc :
    decodeWords [0b1000001001_01_1010] = .ok (.rlc (.direct 10), []) := rfl
theorem test_decode_rrc :
    decodeWords [0b1000001010_10_1011] = .ok (.rrc (.indirect 11), []) := rfl
theorem test_decode_jmp :
    decodeWords [0b1000001011_00_0000, 0xFEDC] = .ok (.jmp (.immediate 0 0xFEDC), []) := rfl
theorem test_decode_call :
    decodeWords [0b1000001100_00_0000, 0xFEDC] = .ok (.call (.immediate 0 0xFEDC), []) := rfl
theorem test_decode_push :
    decodeWords [0b1000001101_00_0000, 0xFEDC] = .ok (.push (.immediate 0 0xFEDC), []) := rfl
theorem test_decode_pop :
    decodeWords [0b1000001110_10_1111] = .ok (.pop (.indirect 15), []) := rfl
theorem test_decode_br : decodeWords [0b11000000_10000001] = .ok (.br 0x81, []) := rfl
theorem test_decode_bne : decodeWords [0b11000001_10000010] = .ok (.bne 0x82, []) := rfl
theorem test_decode_beq : decodeWords [0b11000010_10000011] = .ok (.beq 0x83, []) := rfl
theorem test_decode_bpl : decodeWords [0b11000011_10000100] = .ok (.bpl 0x84, []) := rfl
theorem test_decode_bmi : decodeWords [0b11000100_10000101] = .ok (.bmi 0x85, []) := rfl
theorem test_decode_bcs : decodeWords [0b11000101_10000110] = .ok (.bcs 0x86, []) := rfl
theorem test_decode_bcc : decodeWords [0b11000110_10000111] = .ok (.bcc 0x87, []) := rfl
theorem test_decode_bvs : decodeWords [0b11000111_10001000] = .ok (.bvs 0x88, []) := rfl
theorem test_decode_bvc : decodeWords [0b11001000_10001001] = .ok (.bvc 0x89, []) := rfl
theorem test_decode_clc : decodeWords [0xE000] = .ok (.clc, []) := rfl
theorem test_decode_clv : decodeWords [0xE001] = .ok (.clv, []) := rfl
theorem test_decode_clz : decodeWords [0xE002] = .ok (.clz, []) := rfl
theorem test_decode_cls : decodeWords [0xE003] = .ok (.cls, []) := rfl
theorem test_decode_ccc : decodeWords [0xE004] = .ok (.ccc, []) := rfl
theorem test_decode_sec : decodeWords [0xE005] = .ok (.sec, []) := rfl
theorem test_decode_sev : decodeWords [0xE006] = .ok (.sev, []) := rfl
theorem test_decode_sez : decodeWords [0xE007] = .ok (.sez, []) := rfl
theorem test_decode_ses : decodeWords [0xE008] = .ok (.ses, []) := rfl
theorem test_decode_scc : decodeWords [0xE009] = .ok (.scc, []) := rfl
theorem test_decode_nop : decodeWords [0xE00A] = .ok (.nop, []) := rfl
theorem test_decode_ret : decodeWords [0xE00B] = .ok (.ret, []) := rfl
theorem test_decode_reti : decodeWords [0xE00C] = .ok (.reti, []) := rfl
theorem test_decode_halt : decodeWords [0xE00D] = .ok (.halt, []) := rfl
theorem test_decode_wait : decodeWords [0xE00E] = .ok (.wait, []) := rfl
theorem test_decode_pushpc : decodeWords [0xE00F] = .ok (.pushpc, []) := rfl
theorem test_decode_poppc : decodeWords [0xE010] = .ok (.poppc, []) := rfl
theorem test_decode_pushflag : decodeWords [0xE011] = .ok (.pushflag, []) := rfl
theorem test_decode_popflag : decodeWords [0xE012] = .ok (.popflag, []) := rfl

/-! ## Codec vectors -/

/-- D1, and D10 for the table form. -/
theorem test_decode_table_words :
    decodeTableWord 16 0x0010 = some (.mov (.immediate 0 0) (.direct 0))
      ∧ decodeTableWord 32 0x00050010 = some (.mov (.immediate 0 5) (.direct 0))
      ∧ decodeTableWord 16 0xE00A = some .nop ∧ decodeTableWord 16 0x7000 = none := by decide
/-- D2: the source's extra word comes first. -/
theorem test_decode_extra_word_order :
    record (decode [] [0x6CB3, 0x0020, 0x0010] 0)
      = some { instr := .xor (.indexed 2 0x20) (.indexed 3 0x10), length := 3, noncanonical := false } := by
  decide
/-- D5: a ONE_OP immediate with a register field. -/
theorem test_decode_noncanonical :
    record (decode [] [0x8345, 0x0005] 0)
      = some { instr := .push (.immediate 5 5), length := 2, noncanonical := true } := by decide
/-- D12 to D16. -/
theorem test_decode_reserved :
    [0xE013, 0x7000, 0x83C0, 0xC900, 0xFFFF].map (fun w => decodingError (decode [] [w] 0))
      = List.replicate 5 (some .reservedOpcode) := by decide
/-- D17 to D19. -/
theorem test_decode_truncated :
    [[0x0010], [0x8032], [0x0CF3, 0x0020]].map (fun ws => decodingError (decode [] ws 0))
      = List.replicate 3 (some .truncated) := by decide
/-- D20 to D22. -/
theorem test_decode_illegal_mode :
    [[0x8000, 0x0005], [0x0000, 0x0001, 0x0002], [0x0401]].map (fun ws => decodingError (decode [] ws 0))
      = List.replicate 3 (some .illegalAddressingMode) := by decide
/-- The lengths below the table of D vectors (R99). -/
theorem test_lengths :
    [0x0010, 0x0C72, 0x0452, 0x0000, 0x8340, 0x8351, 0x8371, 0xC103, 0xE00B].map instrLength
      = [2, 3, 1, 3, 2, 1, 2, 1, 1] := by decide
/-- E3, E7: extra word order, and an unused offset that is not checked. -/
theorem test_encode_two :
    words (encodeTwoOperand [] .xor 3 3 3 2 0x10 0x20) = some [0x6CB3, 0x0020, 0x0010]
      ∧ words (encodeTwoOperand [] .mov 1 0 0 0 99999 5) = some [0x0010, 0x0005] := by decide
/-- E9, E12, E13: the order of the checks. -/
theorem test_encode_two_errors :
    encodingError (encodeTwoOperand [] .mov 0 16 0 16 70000 70000) = some .invalidAddressingMode
      ∧ encodingError (encodeTwoOperand [] .mov 1 16 0 0 0 65536) = some .registerRangeError
      ∧ encodingError (encodeTwoOperand [] .mov 1 0 0 0 0 65536) = some .operandRangeError := by decide
/-- E16, E28. -/
theorem test_encode_one :
    words (encodeOneOperand .push 0 99 5) = some [0x8340, 0x0005]
      ∧ words (encodeOneOperand .pop 2 15) = some [0x83AF] := by decide
/-- E18, E21, E27, E30. -/
theorem test_encode_one_errors :
    encodingError (encodeOneOperand .clr 0 99 70000) = some .invalidAddressingMode
      ∧ encodingError (encodeOneOperand .jmp 0 0 65536) = some .operandRangeError
      ∧ encodingError (encodeOneOperand .clr 3 16 65536) = some .registerRangeError
      ∧ encodingError (encodeOneOperand .inc 4 0) = some .invalidAddressingMode := by decide
/-- E33 to E35. -/
theorem test_encode_branch :
    words (encodeBranch .bvc 255) = some [0xC8FF]
      ∧ encodingError (encodeBranch .bvc 256) = some .operandRangeError
      ∧ encodingError (encodeBranch .beq (-1)) = some .operandRangeError := by decide
/-- W7, W11, and the excess bit of `build(Cond=16)`. -/
theorem test_control_word_codec :
    build { sbus := 7, dbus := 15, alu := 15, rbus := 7, misc := 15, mem := 3, cond := 15,
            addressTrue := 127, addressFalse := 127, indexTrue := 7, indexFalse := 7 } = 0xFFFFFFFFFFF
      ∧ unpack 0x123456789AB
        = { sbus := 0, dbus := 9, alu := 1, rbus := 5, misc := 1, mem := 1, cond := 6, addressTrue := 60,
            addressFalse := 38, indexTrue := 5, indexFalse := 3 }
      ∧ build { cond := 16 } = 0x00001002000 := by decide

/-! ## ALU vectors A1 to A36 -/

/-- Result and flags of an operation. -/
def aluOf (op : Alu) (S D : Word) (carry : Nat) : Option (Word × Flags) := alu op S D (carry == 1)

theorem test_alu_sum :
    aluOf .sum 0x7FFF 0x0001 0 = some (0x8000, zcvs 0 0 1 1)
      ∧ aluOf .sum 0xFFFF 0x0001 0 = some (0x0000, zcvs 1 1 0 0)
      ∧ aluOf .sum 0x8000 0x8000 0 = some (0x0000, zcvs 1 1 1 0)
      ∧ aluOf .sum 0x0000 0x0000 0 = some (0x0000, zcvs 1 0 0 0)
      ∧ aluOf .sum 0xFFFF 0xFFFF 1 = some (0xFFFE, zcvs 0 1 0 1) := by decide
theorem test_alu_sub :
    aluOf .sub 0x0007 0x0005 0 = some (0xFFFE, zcvs 0 1 0 1)
      ∧ aluOf .sub 0x0001 0x8000 0 = some (0x7FFF, zcvs 0 0 1 0)
      ∧ aluOf .sub 0x0000 0x0000 0 = some (0x0000, zcvs 1 0 0 0)
      ∧ aluOf .sub 0xFFFF 0x7FFF 0 = some (0x8000, zcvs 0 1 1 1)
      ∧ aluOf .sub 0x0001 0x0000 0 = some (0xFFFF, zcvs 0 1 0 1)
      ∧ aluOf .sub 0x8000 0x8000 0 = some (0x0000, zcvs 1 0 0 0) := by decide
theorem test_alu_and :
    aluOf .and 0xFF00 0x0FF0 1 = some (0x0F00, zcvs 0 0 0 0)
      ∧ aluOf .and 0xAAAA 0x5555 0 = some (0x0000, zcvs 1 0 0 0) := by decide
theorem test_alu_or :
    aluOf .or 0x8000 0x0001 0 = some (0x8001, zcvs 0 0 0 1)
      ∧ aluOf .or 0x0000 0x0000 1 = some (0x0000, zcvs 1 0 0 0) := by decide
theorem test_alu_xor :
    aluOf .xor 0xFFFF 0xFFFF 0 = some (0x0000, zcvs 1 0 0 0)
      ∧ aluOf .xor 0x8000 0x0000 0 = some (0x8000, zcvs 0 0 0 1) := by decide
theorem test_alu_asl :
    aluOf .asl 0x1234 0x4000 0 = some (0x8000, zcvs 0 0 1 1)
      ∧ aluOf .asl 0x0000 0x8000 0 = some (0x0000, zcvs 1 1 1 0)
      ∧ aluOf .asl 0x0000 0xC000 0 = some (0x8000, zcvs 0 1 0 1)
      ∧ aluOf .asl 0x0000 0x0001 0 = some (0x0002, zcvs 0 0 0 0) := by decide
theorem test_alu_asr :
    aluOf .asr 0x0000 0x8001 0 = some (0xC000, zcvs 0 1 0 1)
      ∧ aluOf .asr 0x0000 0x0001 0 = some (0x0000, zcvs 1 1 0 0)
      ∧ aluOf .asr 0x0000 0x7FFE 0 = some (0x3FFF, zcvs 0 0 0 0) := by decide
theorem test_alu_lsr :
    aluOf .lsr 0x0000 0x8001 0 = some (0x4000, zcvs 0 1 0 0)
      ∧ aluOf .lsr 0x0000 0x0001 0 = some (0x0000, zcvs 1 1 0 0) := by decide
theorem test_alu_rol :
    aluOf .rol 0x0000 0x8001 0 = some (0x0003, zcvs 0 1 0 0)
      ∧ aluOf .rol 0x0000 0x4000 0 = some (0x8000, zcvs 0 0 0 1) := by decide
theorem test_alu_ror :
    aluOf .ror 0x0000 0x0001 0 = some (0x8000, zcvs 0 1 0 1)
      ∧ aluOf .ror 0x0000 0x8000 0 = some (0x4000, zcvs 0 0 0 0) := by decide
theorem test_alu_rlc :
    aluOf .rlc 0x0000 0x8000 1 = some (0x0001, zcvs 0 1 0 0)
      ∧ aluOf .rlc 0x0000 0x8000 0 = some (0x0000, zcvs 1 1 0 0)
      ∧ aluOf .rlc 0x0000 0x4000 1 = some (0x8001, zcvs 0 0 0 1) := by decide
theorem test_alu_rrc :
    aluOf .rrc 0x0000 0x0001 0 = some (0x0000, zcvs 1 1 0 0)
      ∧ aluOf .rrc 0x0000 0x0000 1 = some (0x8000, zcvs 0 0 0 1)
      ∧ aluOf .rrc 0x0000 0xFFFF 1 = some (0xFFFF, zcvs 0 1 0 1) := by decide

/-! ## One step of each instruction -/

/-- R341: `MOV #5, R0`. -/
theorem test_mov_immediate :
    seen (machine [0x0010, 0x0005] [] (zcvs 1 1 1 1)) 0
      = some (0x0005, zcvs 1 1 1 1, 2) := by
  decide +kernel
/-- R350 (a): `MOV R1, (R2)`. -/
theorem test_mov_to_memory :
    stored (machine [0x0462, 0xC002, 0x0000, 0x0000] [(1, 0xBEEF), (2, 0x0003)]) 3
      = some (0xBEEF, zcvs 0 0 0 0, 1, 11) := by
  decide +kernel
/-- R342: `ADD R1, R2`. -/
theorem test_add_registers :
    seen (machine [0x1452] [(1, 0x0003), (2, 0x0005)]) 2
      = some (0x0008, zcvs 0 0 0 0, 1) := by
  decide +kernel
/-- R350 (c): `ADD (R1), 2(R2)`. -/
theorem test_add_memory :
    stored (machine [0x1872, 0x0002, 0xC003, 0x000A, 0x0014, 0x001E] [(1, 0x0004), (2, 0x0003)]) 5
      = some (0x0032, zcvs 0 0 0 0, 2, 13) := by
  decide +kernel
/-- R343: 5 - 7. -/
theorem test_sub_borrow :
    seen (machine [0x2452] [(1, 0x0007), (2, 0x0005)]) 2
      = some (0xFFFE, zcvs 0 1 0 1, 1) := by
  decide +kernel
/-- R343: `SUB #1, R0`. -/
theorem test_sub_overflow :
    seen (machine [0x2010, 0x0001] [(0, 0x8000)]) 0
      = some (0x7FFF, zcvs 0 0 1 0, 2) := by
  decide +kernel
/-- R344: equal operands. -/
theorem test_cmp_equal :
    seen (machine [0x3452] [(1, 0x0005), (2, 0x0005)]) 2
      = some (0x0005, zcvs 1 0 0 0, 1) := by
  decide +kernel
/-- R344: `CMP #7, R2`. -/
theorem test_cmp_less :
    seen (machine [0x3012, 0x0007] [(2, 0x0005)]) 2
      = some (0x0005, zcvs 0 1 0 1, 2) := by
  decide +kernel
/-- R345. -/
theorem test_and_clears_c_and_v :
    seen (machine [0x4010, 0x0F0F] [(0, 0xFF00)] (zcvs 0 1 1 0)) 0
      = some (0x0F00, zcvs 0 0 0 0, 2) := by
  decide +kernel
/-- R346. -/
theorem test_or_registers :
    seen (machine [0x5450] [(0, 0x00F0), (1, 0x8001)]) 0
      = some (0x80F1, zcvs 0 0 0 1, 1) := by
  decide +kernel
/-- R347: `XOR R0, R0`. -/
theorem test_xor_same_register :
    seen (machine [0x6410] [(0, 0x1234)]) 0
      = some (0x0000, zcvs 1 0 0 0, 1) := by
  decide +kernel
/-- R361. -/
theorem test_clr_register :
    seen (machine [0x8010] [(0, 0x1234)]) 0
      = some (0x0000, zcvs 1 0 0 0, 1) := by
  decide +kernel
/-- R361: `CLR (R1)`. -/
theorem test_clr_memory :
    stored (machine [0x8021, 0xC001, 0x1234] [(1, 0x0002)] (zcvs 0 1 1 1)) 2
      = some (0x0000, zcvs 1 0 0 0, 1, 10) := by
  decide +kernel
/-- R362. -/
theorem test_neg_one :
    seen (machine [0x8050] [(0, 0x0001)]) 0
      = some (0xFFFF, zcvs 0 1 0 1, 1) := by
  decide +kernel
/-- R362. -/
theorem test_neg_most_negative :
    seen (machine [0x8050] [(0, 0x8000)]) 0
      = some (0x8000, zcvs 0 1 1 1, 1) := by
  decide +kernel
/-- R363. -/
theorem test_inc_overflow :
    seen (machine [0x8090] [(0, 0x7FFF)]) 0
      = some (0x8000, zcvs 0 0 1 1, 1) := by
  decide +kernel
/-- R363: `INC 1(R1)`. -/
theorem test_inc_indexed :
    stored (machine [0x80B1, 0x0001, 0xC002, 0x0000, 0xFFFF] [(1, 0x0003)]) 4
      = some (0x0000, zcvs 1 1 0 0, 2, 12) := by
  decide +kernel
/-- R364. -/
theorem test_dec_borrow :
    seen (machine [0x80D0] [(0, 0x0000)]) 0
      = some (0xFFFF, zcvs 0 1 0 1, 1) := by
  decide +kernel
/-- R364. -/
theorem test_dec_overflow :
    seen (machine [0x80D0] [(0, 0x8000)]) 0
      = some (0x7FFF, zcvs 0 0 1 0, 1) := by
  decide +kernel
/-- R365. -/
theorem test_asl_sign_change :
    seen (machine [0x8110] [(0, 0x4000)]) 0
      = some (0x8000, zcvs 0 0 1 1, 1) := by
  decide +kernel
/-- R366. -/
theorem test_asr_keeps_sign :
    seen (machine [0x8150] [(0, 0x8001)]) 0
      = some (0xC000, zcvs 0 1 0 1, 1) := by
  decide +kernel
/-- R367. -/
theorem test_lsr_zero_in :
    seen (machine [0x8190] [(0, 0x8001)]) 0
      = some (0x4000, zcvs 0 1 0 0, 1) := by
  decide +kernel
/-- R368. -/
theorem test_rol_wraps :
    seen (machine [0x81D0] [(0, 0x8001)]) 0
      = some (0x0003, zcvs 0 1 0 0, 1) := by
  decide +kernel
/-- R369. -/
theorem test_ror_wraps :
    seen (machine [0x8210] [(0, 0x0001)]) 0
      = some (0x8000, zcvs 0 1 0 1, 1) := by
  decide +kernel
/-- R370, after SEC. -/
theorem test_rlc_takes_carry :
    seen (machine [0x8250] [(0, 0x8000)] (zcvs 0 1 0 0)) 0
      = some (0x0001, zcvs 0 1 0 0, 1) := by
  decide +kernel
/-- R371, C = 0. -/
theorem test_rrc_without_carry :
    seen (machine [0x8290] [(0, 0x0001)]) 0
      = some (0x0000, zcvs 1 1 0 0, 1) := by
  decide +kernel
/-- R371, after SEC. -/
theorem test_rrc_takes_carry :
    seen (machine [0x8290] [(0, 0x0000)] (zcvs 0 1 0 0)) 0
      = some (0x8000, zcvs 0 0 0 1, 1) := by
  decide +kernel
/-- R372: `JMP #3`. -/
theorem test_jmp_immediate :
    seen (machine [0x82C0, 0x0003, 0x8090, 0xE00A]) 0
      = some (0x0000, zcvs 0 0 0 0, 3) := by
  decide +kernel
/-- R372: through a memory cell. -/
theorem test_jmp_indirect :
    seen (machine [0x82E1, 0xC001, 0x0004, 0x8090, 0xE00A] [(1, 0x0002)]) 1
      = some (0x0002, zcvs 0 0 0 0, 4) := by
  decide +kernel
/-- R373. -/
theorem test_call_immediate :
    stored (machine [0x8300, 0x0005, 0x8090, 0xC003, 0xE00A, 0x8091, 0xE00B]) 14
      = some (0x0002, zcvs 0 0 0 0, 5, 13) := by
  decide +kernel
/-- R374. -/
theorem test_push_register :
    stored (machine [0x8351] [(1, 0xABCD)]) 8
      = some (0xABCD, zcvs 0 0 0 0, 1, 7) := by
  decide +kernel
/-- R374: `PUSH (R1)`. -/
theorem test_push_indirect :
    stored (machine [0x8361, 0xC001, 0x7777] [(1, 0x0002)]) 10
      = some (0x7777, zcvs 0 0 0 0, 1, 9) := by
  decide +kernel
/-- R374's overflow, on its last push: the value is stored, `sp` is kept. -/
theorem test_push_overflow :
    (stop (step { machine [0x8340, 0x0003] with sp := 2 })).map
        (fun f => (f.residue.mem.read 2, f.residue.sp, f.residue.pc, f.residue.upc))
      = some (0x0003, 2, 2, 59) := by
  decide +kernel
/-- R375: `POP R1` after a push of 5. -/
theorem test_pop_register :
    (answer (step { machine [0x8391, 0] with sp := 8, mem := [(0, 0x8391), (9, 5)] })).map
        (fun t => (t.reg 1, t.sp, t.pc)) = some (5, 9, 1) := by
  decide +kernel
/-- R375: `POP 2(R2)` with `x[2] = 7` after a push of 7. -/
theorem test_pop_indexed :
    (answer (step { machine [0x83B2, 0x0002, 0, 0, 0, 0, 0, 0, 0, 0xAAAA] [(2, 7)] with
        sp := 16, mem := [(0, 0x83B2), (1, 2), (9, 0xAAAA), (17, 7)] })).map
        (fun t => (t.mem.read 9, t.sp, t.pc)) = some (7, 17, 2) := by
  decide +kernel
/-- R391. -/
theorem test_br_forward :
    seen (machine [0xC001, 0x8090, 0xE00A]) 0
      = some (0x0000, zcvs 0 0 0 0, 2) := by
  decide +kernel
/-- R392: the flag set, and clear. -/
theorem test_bne :
    seen (machine [0xC101, 0x8090, 0xE00A] [] (zcvs 1 0 0 0)) 0
        = some (0x0000, zcvs 1 0 0 0, 1)
      ∧ seen (machine [0xC101, 0x8090, 0xE00A]) 0
        = some (0x0000, zcvs 0 0 0 0, 2) := by
  decide +kernel
/-- R393: the flag set, and clear. -/
theorem test_beq :
    seen (machine [0xC201, 0x8090, 0xE00A] [] (zcvs 1 0 0 0)) 0
        = some (0x0000, zcvs 1 0 0 0, 2)
      ∧ seen (machine [0xC201, 0x8090, 0xE00A]) 0
        = some (0x0000, zcvs 0 0 0 0, 1) := by
  decide +kernel
/-- R394: the flag set, and clear. -/
theorem test_bpl :
    seen (machine [0xC301, 0x8090, 0xE00A] [] (zcvs 0 0 0 1)) 0
        = some (0x0000, zcvs 0 0 0 1, 1)
      ∧ seen (machine [0xC301, 0x8090, 0xE00A]) 0
        = some (0x0000, zcvs 0 0 0 0, 2) := by
  decide +kernel
/-- R395: the flag set, and clear. -/
theorem test_bmi :
    seen (machine [0xC401, 0x8090, 0xE00A] [] (zcvs 0 0 0 1)) 0
        = some (0x0000, zcvs 0 0 0 1, 2)
      ∧ seen (machine [0xC401, 0x8090, 0xE00A]) 0
        = some (0x0000, zcvs 0 0 0 0, 1) := by
  decide +kernel
/-- R396: the flag set, and clear. -/
theorem test_bcs :
    seen (machine [0xC501, 0x8090, 0xE00A] [] (zcvs 0 1 0 0)) 0
        = some (0x0000, zcvs 0 1 0 0, 2)
      ∧ seen (machine [0xC501, 0x8090, 0xE00A]) 0
        = some (0x0000, zcvs 0 0 0 0, 1) := by
  decide +kernel
/-- R397: the flag set, and clear. -/
theorem test_bcc :
    seen (machine [0xC601, 0x8090, 0xE00A] [] (zcvs 0 1 0 0)) 0
        = some (0x0000, zcvs 0 1 0 0, 1)
      ∧ seen (machine [0xC601, 0x8090, 0xE00A]) 0
        = some (0x0000, zcvs 0 0 0 0, 2) := by
  decide +kernel
/-- R398: the flag set, and clear. -/
theorem test_bvs :
    seen (machine [0xC701, 0x8090, 0xE00A] [] (zcvs 0 0 1 0)) 0
        = some (0x0000, zcvs 0 0 1 0, 2)
      ∧ seen (machine [0xC701, 0x8090, 0xE00A]) 0
        = some (0x0000, zcvs 0 0 0 0, 1) := by
  decide +kernel
/-- R399: the flag set, and clear. -/
theorem test_bvc :
    seen (machine [0xC801, 0x8090, 0xE00A] [] (zcvs 0 0 1 0)) 0
        = some (0x0000, zcvs 0 0 1 0, 1)
      ∧ seen (machine [0xC801, 0x8090, 0xE00A]) 0
        = some (0x0000, zcvs 0 0 0 0, 2) := by
  decide +kernel
/-- R390: a sign-extended offset, 0xFD being -3. -/
theorem test_br_backward :
    (answer (step { machine [0xE00A, 0x8090, 0xC0FD] with
        pc := 2, params := { memSize := 11, stackSize := 8, brOffsetSigned := true } })).map (·.pc)
      = some 0 := by
  decide +kernel
/-- R411. -/
theorem test_clc :
    seen (machine [0xE000] [] (zcvs 1 1 1 1)) 0
      = some (0x0000, zcvs 1 0 1 1, 1) := by
  decide +kernel
/-- R412. -/
theorem test_clv :
    seen (machine [0xE001] [] (zcvs 1 1 1 1)) 0
      = some (0x0000, zcvs 1 1 0 1, 1) := by
  decide +kernel
/-- R413. -/
theorem test_clz :
    seen (machine [0xE002] [] (zcvs 1 1 1 1)) 0
      = some (0x0000, zcvs 0 1 1 1, 1) := by
  decide +kernel
/-- R414. -/
theorem test_cls :
    seen (machine [0xE003] [] (zcvs 1 1 1 1)) 0
      = some (0x0000, zcvs 1 1 1 0, 1) := by
  decide +kernel
/-- R415. -/
theorem test_ccc :
    seen (machine [0xE004] [] (zcvs 1 1 1 1)) 0
      = some (0x0000, zcvs 0 0 0 0, 1) := by
  decide +kernel
/-- R416. -/
theorem test_sec :
    seen (machine [0xE005] [] (zcvs 0 0 0 0)) 0
      = some (0x0000, zcvs 0 1 0 0, 1) := by
  decide +kernel
/-- R417. -/
theorem test_sev :
    seen (machine [0xE006] [] (zcvs 0 0 0 0)) 0
      = some (0x0000, zcvs 0 0 1 0, 1) := by
  decide +kernel
/-- R418. -/
theorem test_sez :
    seen (machine [0xE007] [] (zcvs 0 0 0 0)) 0
      = some (0x0000, zcvs 1 0 0 0, 1) := by
  decide +kernel
/-- R419. -/
theorem test_ses :
    seen (machine [0xE008] [] (zcvs 0 0 0 0)) 0
      = some (0x0000, zcvs 0 0 0 1, 1) := by
  decide +kernel
/-- R420. -/
theorem test_scc :
    seen (machine [0xE009] [] (zcvs 0 0 0 0)) 0
      = some (0x0000, zcvs 1 1 1 1, 1) := by
  decide +kernel
/-- R421. -/
theorem test_nop :
    seen (machine [0xE00A] [] (zcvs 1 0 1 0)) 0
      = some (0x0000, zcvs 1 0 1 0, 1) := by
  decide +kernel
/-- R424. -/
theorem test_halt :
    seen (machine [0xE00D] [] (zcvs 0 1 0 1)) 0
      = some (0x0000, zcvs 0 1 0 1, 1) := by
  decide +kernel
/-- R425: with `intp` 1 on to the next word, with `intp` 0 at micro-address 91. -/
theorem test_wait :
    (answer (step { machine [0xE00E, 0x8090] with intp := true })).map (fun t => (t.upc, t.pc, t.intp))
        = some (1, 1, true)
      ∧ (answer (step (machine [0xE00E, 0x8090]))).map (fun t => (t.upc, t.pc, t.intp))
        = some (91, 1, false) := by
  decide +kernel
/-- R422: to the word after the CALL of R373's example. -/
theorem test_ret :
    (answer (step { machine [0xE00B] with sp := 5, mem := [(0, 0xE00B), (6, 2)] })).map
        (fun t => (t.pc, t.sp)) = some (2, 6) := by
  decide +kernel
/-- R427. -/
theorem test_poppc :
    (answer (step { machine [0xE010] with sp := 7, mem := [(0, 0xE010), (8, 4)] })).map
        (fun t => (t.pc, t.sp)) = some (4, 8) := by
  decide +kernel
/-- R423: the frame of the example, the flag word 15 above the address 6. -/
theorem test_reti :
    (answer (step { machine [0xE00C] with sp := 6, mem := [(0, 0xE00C), (7, 6), (8, 0x000F)] })).map
        (fun t => (t.pc, t.sp, t.flags)) = some (6, 8, zcvs 1 1 1 1) := by
  decide +kernel
/-- R426's example with STACK_SIZE 1: the value is stored and the push overflows. -/
theorem test_pushpc_overflow :
    (stop (step { machine [0xE00F] with
        sp := 1, params := { memSize := 2, stackSize := 1, brOffsetSigned := false } })).map
        (fun f => (f.residue.mem.read 1, f.residue.sp, f.residue.pc, f.residue.upc))
      = some (1, 1, 1, 94) := by
  decide +kernel
/-- R426: the address of the next instruction. -/
theorem test_pushpc :
    stored (machine [0xE00F]) 8
      = some (0x0001, zcvs 0 0 0 0, 1, 7) := by
  decide +kernel
/-- R428: C and S set. -/
theorem test_pushflag :
    stored (machine [0xE011] [] (zcvs 0 1 0 1)) 8
      = some (0x0009, zcvs 0 1 0 1, 1, 7) := by
  decide +kernel
/-- R429: the word 0xFFF5. -/
theorem test_popflag :
    (answer (step { machine [0xE012] with sp := 7, mem := [(0, 0xE012), (8, 0xFFF5)] })).map
        (fun t => (t.flags, t.sp)) = some (zcvs 1 1 0 0, 8) := by
  decide +kernel
/-- R376: "INC #5" modifies its own extra word. -/
theorem test_inc_of_its_own_extra_word :
    stored (machine [0x8080, 0x0005]) 1 = some (6, zcvs 0 0 0 0, 2, 9) := by decide +kernel

/-! ## Micro-cycles -/

/-- M1: DST.DIR, then PUSH.0 of `PUSH R1`. -/
theorem test_microcycles_of_push :
    (answer (run 4 { machine [0x8351] [(1, 0xABCD)] with upc := 0 })).map
        (fun t => (t.upc, t.mdr, t.regsel, t.pending)) = some (59, 0xABCD, some 1, zcvs 0 0 0 1)
      ∧ (answer (run 5 { machine [0x8351] [(1, 0xABCD)] with upc := 0 })).map
        (fun t => (t.upc, t.adr, t.sp, t.mem.read 8)) = some (1, 8, 7, 0xABCD) := by
  decide +kernel
/-- M3: index values of `PUSH R1` and of BVC 255. -/
theorem test_index_values :
    indexValue Codes.reference .oneOp { State.reset with ir := 0x8351 } = .ok 28
      ∧ indexValue Codes.reference .opcode { State.reset with ir := 0xC8FF } = .ok 16
      ∧ indexValue Codes.reference .mas { State.reset with ir := 0xC8FF } = .ok 2 := ⟨rfl, rfl, rfl⟩
/-- V8: the two words, and the two-cycle variant. -/
theorem test_flag_commit :
    (answer (microCycle (.ofStore [0xC2200704040]) State.reset)).map (fun t => (t.pending, t.flags, t.upc))
        = some (zcvs 0 0 0 1, zcvs 0 0 0 0, 1)
      ∧ (answer (microCycle (.ofStore [0xC2228704040]) State.reset)).map (fun t => (t.flags, t.upc))
        = some (zcvs 0 0 0 1, 2)
      ∧ (answer (runCycles (.ofStore [0xC2200002000, 0x00028706080]) 2 State.reset)).map
        (fun t => (t.flags, t.upc)) = some (zcvs 0 0 0 1, 3) := by
  decide +kernel
/-- The model-level faults: a reserved opcode (U1), a data read out of range (U3), a register write with nothing
latched (U6), a selector on the wrong group that is not chosen and one that is (U7), a micro-address beyond the
store (U2), a reserved code (U4) and a result that does not exist (U5). -/
theorem test_model_level_faults :
    stop (step (machine [0xE013]))
        = some (.reservedOpcode { (machine [0xE013]) with pc := 1, ir := 0xE013, cw := controlWordAt 1 })
      ∧ (stop (step (machine [0x0860] [(1, 0x4000)]))).map Fault.storeError = some false
      ∧ (stop (microCycle (.ofStore [0x60300002000]) State.reset)).map Fault.storeError = some true
      ∧ (stop (microCycle (.ofStore [0x00000002003]) { State.reset with cw := none })).isNone = true
      ∧ (stop (microCycle (.ofStore [0x00000002018]) State.reset)).map Fault.storeError = some true
      ∧ (stop (microCycle (.ofStore []) State.reset)).map Fault.storeError = some true
      ∧ (stop (microCycle (.ofStore [0x00000002030]) State.reset)).map Fault.storeError = some true
      ∧ (stop (microCycle (.ofStore [0x00040002000]) State.reset)).map Fault.storeError = some true := by
  decide +kernel
/-- The order of two faults of one stage (log 24): a reserved TWO_OP word under `Index.OPCODE` is U7, and a
register write with neither result nor latched index is U5. -/
theorem test_fault_order :
    (indexValue Codes.reference .opcode { State.reset with ir := 0x7000 }
        matches .error (.wrongGroupIndex _)) = true
      ∧ (rbusStage .reg none State.reset matches .fault (.noAluResult _)) = true := by decide

/-! ## The control store -/

/-- Why a control store is refused, if it is. -/
def storeRefusal (k : Setup) : Option Refusal :=
  match acceptStore k State.reset with
  | .next _ => none
  | .fault _ => none
  | .refused r => some r

/-- A start with half of the address space stack. -/
def trialStart (program : List Word) : State :=
  bootState { memSize := 65536, stackSize := 32768, brOffsetSigned := false } program

/-- The reference store is certified. -/
theorem test_reference_store : pathsCertified Setup.reference = true := by decide +kernel

/-- Refused at the load are: an illegal word (R300), an address beyond the store (R301), an unguarded
`Index.OPCODE` (R303). -/
theorem test_store_checks :
    progresses Setup.reference 5 0 = true
      ∧ storeRefusal (.ofStore [0x2000, 0x00040002000]) = some (.illFormedControlStore 1)
      ∧ storeRefusal (.ofStore [0x2000]) = some (.sumBeyondControlStore 0)
      ∧ storeRefusal (.ofStore [0x18]) = some (.unguardedIndex 0) := by
  decide +kernel

/-- Refused too: `Index.MAD` beyond the store on a branch with MAD 3 (R301), and `Index.TWO_OP` on a branch with
MAD DIRECT (R303), both at word 2. -/
theorem test_store_checks_on_branches :
    let fetch : MicroInstr := { mem := MemOp.ifch, cond := Cond.branch, addressTrue := 2, addressFalse := 1 }
    let mad : MicroInstr := { addressTrue := 0, indexTrue := Index.mad }
    let twoOp : MicroInstr := { cond := Cond.regDest, addressTrue := 0, addressFalse := 1,
                                indexTrue := Index.twoOp }
    [mad, twoOp].map (fun m => storeRefusal (.ofStore ([{}, fetch, m].map Selectors.reference.toWord)))
      = [some (.sumBeyondControlStore 2), some (.unguardedIndex 2)] := by
  decide +kernel

/-- Refused too, where the run needs the flag word 4 in a cell that it reads: a sum beyond the store (R301) and an
unguarded `Index.ONE_OP` on the word 0 (R303). -/
theorem test_store_checks_on_data :
    [0x00000CFE000, 0x00000C00020].map (fun w => storeRefusal (.ofStore [0x2002000, 0x80380504000, w]))
      = [some (.sumBeyondControlStore 2), some (.unguardedIndex 2)] := by
  decide +kernel

/-- R305: a register write after a fetch with nothing latched, and one after an `SBus.REG`, are not certified,
unless the latter is meant for the source register; in a run of CLC, whose two fields hold the same index, the latter
write is prepared all the same, and it is made. -/
theorem test_register_writes :
    let unlatched := Setup.ofStore [0x2000, 0x02005004000, 0x60300002000]
    let source := Setup.ofStore [0x2000, 0x00005004000, 0x40300002000]
    [unlatched, source, { source with sourceWrites := [2] }].map pathsCertified = [false, false, true]
      ∧ writesPrepared unlatched 3 false (trialStart [0xE000]) = false
      ∧ writesPrepared source 3 false (trialStart [0xE000]) = true
      ∧ (answer (runCycles source 3 (trialStart [0xE000]))).isSome = true
      ∧ writesPrepared source 3 false (trialStart [0xE001]) = false := by
  decide +kernel

/-- A pair that is never chosen breaks no rule (R301, R303, R6): a word that sets Z and then tests it is
certified, though its false pair names a wrong selector and an address beyond the store; and so is a word that
tests Z again where Z is known. -/
theorem test_pairs_never_chosen :
    let sez : MicroInstr :=
      { misc := .setZ, cond := .z, addressTrue := 0, addressFalse := 127, indexFalse := .opcode }
    pathsCertified (.ofStore [Selectors.reference.toWord sez]) = true
      ∧ pathsCertified (.ofStore ([({ cond := .z, addressTrue := 1, addressFalse := 0 } : MicroInstr),
          { cond := .nz, addressTrue := 127, addressFalse := 0 }].map Selectors.reference.toWord)) = true := by
  decide +kernel

/-- A store that meets the rules though the first walk does not certify it is accepted: it puts 1 into `t`, adds 0 to
it, commits the flags and tests Z, which is always clear. -/
theorem test_uncertified_store_accepted :
    let k := Setup.ofStore ([{ sbus := .one, alu := .sum, rbus := .t, addressTrue := 1 },
      { sbus := .t, alu := .sum, misc := .cond, cond := .z, addressTrue := 127, addressFalse := 0 }].map
        Selectors.reference.toWord)
    pathsCertified k = false ∧ storeRefusal k = none := by
  decide +kernel

/-! ## Another instance (R3)

A table and numberings other than the reference ones that keep R101 and the injectivity of D2. -/

/-- Modes numbered backwards, and every group's opcodes moved and reordered behind the reference opcode. -/
def otherCodes : Codes where
  modes := #v[.indexed, .indirect, .direct, .immediate]
  twoOp := { base := 1, ops := [.mov, .xor, .or, .and, .cmp, .sub, .add] }
  oneOp := { base := 0x2F1, ops := .clr :: .call :: (OneOp.table.erase .clr).erase .call }
  branch := { base := 0xD7, ops := .br :: (BranchOp.table.erase .br).reverse }
  other := { base := 0xFFED, ops := OtherOp.table.reverse }

/-- Every selector numbered backwards. -/
def otherSelectors : Selectors where
  sbus := SBus.table.reverse.zipIdx
  dbus := DBus.table.reverse.zipIdx 7
  alu := Alu.table.reverse.zipIdx 3
  rbus := RBus.table.reverse.zipIdx 1
  misc := Misc.table.reverse.zipIdx 3
  mem := MemOp.table.reverse.zipIdx
  cond := Cond.table.reverse.zipIdx 2
  index := Index.table.reverse.zipIdx 2

theorem otherCodes_valid : otherCodes.valid := by decide
theorem selectors_valid : Selectors.reference.valid := by decide
theorem otherSelectors_valid : otherSelectors.valid := by decide

/-- MOV #5, R0 and CALL 3(R2) under the other table, by the formats of R94 and R95. -/
theorem test_other_codes :
    otherCodes.encode (.mov (.immediate 0 5) (.direct 0)) = [0x1C20, 5]
      ∧ otherCodes.encode (.call (.indexed 2 3)) = [0xBC82, 3]
      ∧ (otherCodes.decodeWords [0xBC82, 3] matches .ok (.call (.indexed 2 3), [])) = true
      ∧ opcodeDistance otherCodes 0xBC82 = 2 ∧ opcodeDistance otherCodes 0xBCC2 = 6 := by
  decide +kernel

/-- The reference control store packed under the other numbering has legal words and runs PUSH R1 as the
reference one does (M1). -/
theorem test_other_selectors :
    let k : Setup := { codes := Codes.reference, selectors := otherSelectors,
                       rom := referenceFields.map otherSelectors.toWord }
    firstIllFormed k.selectors 0 k.rom = none
      ∧ (answer (runCycles k 5 { machine [0x8351] [(1, 0xABCD)] with upc := 0 })).map
        (fun t => (t.upc, t.adr, t.sp, t.mem.read 8)) = some (1, 8, 7, 0xABCD) := by
  decide +kernel

/-! ## The hypotheses of each statement can be met

Each theorem `witness_<Name>` shows a state and operands that meet the hypotheses of `Obligations.<Name>`, at
the ends of their ranges where a clause has one. The small machine has MEM_SIZE 16, STACK_SIZE 4, so
STACK_BASE 12, and `sp` at 15. -/

/-- A state of the small machine: registers 1 and 2 point to its last cell and one past it. -/
def small : State :=
  let p : Params := { memSize := 16, stackSize := 4, brOffsetSigned := false }
  let s := bootState p [0x0010, 0x0005]
  { (s.setReg 1 15).setReg 2 16 with upc := uFetch, sp := 14, mem := [(0, 0x0010), (1, 5), (15, 7)] }

/-- Each addressing mode readable, at the last cell of memory for the modes that read memory. -/
theorem small_readable :
    readable (.immediate 0 5) small = true ∧ readable (.direct 15) small = true
      ∧ readable (.indirect 1) small = true ∧ readable (.indexed 2 0xFFFF) small = true
      ∧ readable (.indirect 2) small = false ∧ readable (.indexed 1 1) small = false := by decide

/-- Each addressing mode a place that exists, after a source with and without an extra word. -/
theorem small_places :
    (destPlace (.direct 3) (.immediate 0 5) small).inMemory small = true
      ∧ (destPlace (.immediate 0 1) (.immediate 0 5) { small with pc := 14 }).inMemory small = true
      ∧ (destPlace (.immediate 0 1) (.direct 15) small).inMemory small = true
      ∧ (destPlace (.direct 3) (.indirect 1) small).inMemory small = true
      ∧ (destPlace (.indirect 1) (.indexed 2 0xFFFF) small).inMemory small = true := by decide

theorem witness_DecodeOfEncode : otherCodes.valid := otherCodes_valid
theorem witness_EncodeOfDecode :
    Codes.reference.valid ∧ decodeWords [0x0010, 0x0005, 9] = .ok (.mov (.immediate 0 5) (.direct 0), [9])
      ∧ record (decode [] [0x0010, 0x0005] 0)
        = some { instr := .mov (.immediate 0 5) (.direct 0), length := 2, noncanonical := false } :=
  ⟨Codes.reference_valid, rfl, by decide⟩
theorem witness_RoundTripLaw :
    Codes.reference.valid ∧ otherCodes.valid
      ∧ (Instr.xor (.indexed 15 0xFFFF) (.indexed 15 0xFFFF)).wellFormedFor [(.direct, .indexed)] = true
      ∧ (Instr.push (.immediate 0 0xFFFF)).wellFormedFor [] = true :=
  ⟨Codes.reference_valid, otherCodes_valid, by decide⟩
theorem witness_OneWordEncoders :
    (0 : Int) ≤ 0 ∧ (0 : Int) < 256 ∧ (0 : Int) ≤ 255 ∧ (255 : Int) < 256 ∧ (-1 : Int) < 0
      ∧ (256 : Int) ≤ 256 := by decide
/-- A call for each clause: mode 4; CLR IMMEDIATE; register 16; offset 65536; and the ends that pass. -/
theorem witness_OneOperandEncoder :
    encodingError (encodeOneOperand .inc 4 0) = some .invalidAddressingMode
      ∧ encodingError (encodeOneOperand .clr 0 0 0) = some .invalidAddressingMode
      ∧ encodingError (encodeOneOperand .inc 1 16 0) = some .registerRangeError
      ∧ encodingError (encodeOneOperand .inc 3 15 65536) = some .operandRangeError
      ∧ words (encodeOneOperand .inc 3 15 65535) = some [0x80BF, 0xFFFF] := by decide
/-- A call for each clause. -/
theorem witness_TwoOperandEncoder :
    encodingError (encodeTwoOperand [] .mov 4 0 1 0) = some .invalidAddressingMode
      ∧ encodingError (encodeTwoOperand [(.direct, .direct)] .mov 1 0 1 0) = some .invalidAddressingMode
      ∧ encodingError (encodeTwoOperand [(.immediate, .direct)] .mov 1 0 0 0) = none
      ∧ encodingError (encodeTwoOperand [] .mov 1 16 1 15) = some .registerRangeError
      ∧ encodingError (encodeTwoOperand [] .mov 3 0 1 0 65536) = some .operandRangeError
      ∧ words (encodeTwoOperand [] .mov 3 15 0 15 65535 65535) = some [0x03FF, 0xFFFF, 0xFFFF] := by decide
/-- The ends of the reserved ranges, their neighbours, and a position beyond the list. -/
theorem witness_ReservedWordsRejected :
    [0x7000, 0x7FFF, 0x83C0, 0xBFFF, 0xC900, 0xDFFF, 0xE013, 0xFFFF].map
        (fun w => decodingError (decode [] [w, 0, 0] 0)) = List.replicate 8 (some .reservedOpcode)
      ∧ [0x6FDF, 0x8000, 0x83BF, 0xC000, 0xC8FF, 0xE000, 0xE012].map
        (fun w => decodingError (decode [] [w, 0, 0] 0) == some .reservedOpcode)
        = List.replicate 7 false
      ∧ decodingError (decode [] [0xE000] 1) = some .truncated := by decide
theorem witness_ControlWordValue :
    (Fields.mk 7 15 15 7 15 3 15 127 127 7 7).inWidth ∧ ({} : Fields).inWidth := by decide
theorem witness_ControlWordRoundTrip :
    ((Fields.mk 7 15 15 7 15 3 15 127 127 7 7).inWidth ∧ 2 ^ 44 - 1 < 2 ^ 44)
      ∧ Selectors.reference.valid ∧ otherSelectors.valid :=
  ⟨by decide, selectors_valid, otherSelectors_valid⟩
theorem witness_StoreLegality :
    [(0x2000 : ControlWord), 0x682E831E400, 0x00040002000].map wordLegal = [true, true, false]
      ∧ pathsCertified Setup.reference = true
      ∧ storeRefusal (.ofStore [0x2000]) = some (.sumBeyondControlStore 0) :=
  ⟨by decide +kernel, test_reference_store, by decide +kernel⟩
/-- The first and the last opcode of each group. -/
theorem witness_EntryTable :
    (0x0FFF : Word).toNat / 2 ^ 12 = TwoOp.mov.value ∧ (0x6000 : Word).toNat / 2 ^ 12 = TwoOp.xor.value
      ∧ (0x803F : Word).toNat / 2 ^ 6 = OneOp.clr.value
      ∧ (0x8300 : Word).toNat / 2 ^ 6 = OneOp.call.value
      ∧ (0x8380 : Word).toNat / 2 ^ 6 = OneOp.pop.value
      ∧ (0xE000 : Word).toNat = OtherOp.clc.value ∧ (0xE012 : Word).toNat = OtherOp.popflag.value
      ∧ (0xC0FF : Word).toNat / 2 ^ 8 = BranchOp.br.value
      ∧ (0xC800 : Word).toNat / 2 ^ 8 = BranchOp.bvc.value := by decide
/-- The reference store: admitted, with a run of MOV #5, R0 of three micro-cycles, no cycle of which fetches
a reserved opcode; certified, with an empty program, which ends in a fault in its second micro-cycle. -/
theorem witness_CheckedStoreNeverErrs :
    (acceptStore Setup.reference State.reset = .next State.reset
      ∧ Setup.reference.rom.length ≤ 256
      ∧ programFits { memSize := 10, stackSize := 8, brOffsetSigned := false } [0x0010, 0x0005]
      ∧ ([[], [false], [false, true]] : List (List Bool)).all fun bs =>
          (answer (runHosted Setup.reference bs
              (bootState { memSize := 10, stackSize := 8, brOffsetSigned := false } [0x0010, 0x0005]))).any fun t =>
            (Setup.reference.rom[t.upc.toNat]?).any fun w =>
              (answer (microCycle Setup.reference (setInt true t))).any fun u =>
                !fetchedReserved Setup.reference w u)
      ∧ (referenceStore.all wordLegal) = true ∧ pathsCertified Setup.reference = true
      ∧ (machine []).ir = 0 ∧ group 0 = .twoOp ∧ modeDstField 0 = 0
      ∧ (stop (runCycles Setup.reference 2 { machine [] with upc := 0 })).map Fault.storeError
        = some false := by
  refine ⟨⟨?_, by decide +kernel, by decide, by decide +kernel⟩, by decide +kernel, test_reference_store,
    by decide +kernel⟩
  have hill : firstIllFormed Setup.reference.selectors 0 Setup.reference.rom = none := by decide +kernel
  simp [acceptStore, brokenRule, hill, test_reference_store]
theorem witness_MicroCycleFrame :
    ([(0x80280014010 : ControlWord)][State.reset.upc.toNat]?).bind MicroInstr.ofWord
        = some { sbus := .mdr, alu := .sum, rbus := .t, addressTrue := 10, indexTrue := .mad }
      ∧ (answer (microCycle (.ofStore [0x80280014010]) State.reset)).isSome = true := by
  decide +kernel
/-- A word that commits, one that sets a flag and one that loads the flags. -/
theorem witness_TwoPhaseFlags :
    [(0xC2228704040 : ControlWord), 0x00010002000, 0x08380002000].map
        (fun w => (MicroInstr.ofWord w).isSome && (answer (microCycle (.ofStore [w]) State.reset)).isSome)
      = [true, true, true] := by
  decide +kernel
theorem witness_OnlyTheHostWritesIntp :
    (answer (microStep State.reset)).isSome = true ∧ (stop (microStep (machine []))).isSome = true
      ∧ (answer (step State.reset)).isSome = true ∧ (stop (step (machine []))).isSome = true := by
  decide +kernel
theorem witness_FlagCommit :
    ∀ misc ∈ [Misc.none, Misc.cond],
      Selectors.reference.valid ∧ [Selectors.reference.toWord
          { sbus := .minusOne, dbus := .zero, alu := .sum, misc, cond := .s, addressTrue := 127,
            addressFalse := 0 }][State.reset.upc.toNat]?.isSome = true
        ∧ State.reset.flags.s = false := by decide
theorem witness_StoreIsSeen :
    small.mem.wf = true ∧ (answer (memWrite { small with adr := 11, mdr := 9 })).map
        (fun t => ({ t with pc := 11 } : State).pc.toNat < t.params.stackBase) = some True := by
  simp [small, memWrite, State.inMemory, answer, bootState, State.setReg, Params.stackBase, Memory.wf,
    Memory.wfFrom, unwritten]
/-- `sp` at STACK_BASE. -/
theorem witness_StackOverflowOnlyFromPushes :
    (stop (step { machine [0x8340, 0x0003] with sp := 2 })).map
        (fun f => match f with | .stackOverflow _ => true | _ => false) = some true := by
  decide +kernel
theorem witness_FaultsRepeat :
    (machine []).mem.wf = true ∧ (machine [0x8340, 0x0003]).mem.wf = true
      ∧ stop (step (machine [])) = some (.programEnd { machine [] with cw := controlWordAt uFetch })
      ∧ (stop (step { machine [0x8340, 0x0003] with sp := 2 })).isSome = true := by
  decide +kernel
theorem witness_StackDiscipline :
    programFits { memSize := 1, stackSize := 1, brOffsetSigned := false } []
      ∧ programFits { memSize := 65536, stackSize := 65535, brOffsetSigned := true } [1] := by decide
/-- A reserved word of each group at the last cell that can be fetched. -/
theorem witness_ReservedOpcodeStops :
    [(0x7000 : Word), 0x83D0, 0xC900, 0xE013].map (fun w =>
        decide ((machine [w]).pc.toNat < (machine [w]).params.stackBase)
          && !opcodeDefined ((machine [w]).mem.read 0) && (stop (run 8 (machine [w]))).isSome)
      = [true, true, true, true] := by
  decide +kernel
theorem witness_ResetOfAProgram :
    programFits { memSize := 10, stackSize := 8, brOffsetSigned := false } [0x0010, 0x0005] := by decide
theorem witness_IllegalModePolicyRefuses :
    Codes.reference.valid ∧ (∀ i ∈ [Instr.nop, .mov (.immediate 0 5) (.direct 0)], i.legal [] = true)
      ∧ (Instr.clr (.immediate 0 3)).legal [] = false
      ∧ (encode (.clr (.immediate 0 3))).head? = some 0x8000 := by decide
/-- A refused mode is recognised where words are missing after it, and behind a legal instruction (U8). -/
theorem test_refused_modes :
    [[0x0401], [0x0000, 5], [0x8000], [0x0010, 5, 0x0401], [0x0010, 5]].map
        (firstIllegal Codes.reference [] 9 0)
      = [some 0, some 0, some 0, some 2, none] := by decide
theorem witness_StepKeepsTheInvariant :
    small.params.valid ∧ small.mem.wf = true ∧ small.mem.below small.params.memSize = true
      ∧ small.upc.toNat < referenceStore.length ∧ small.cw = none
      ∧ (answer (step small)).isSome = true := by
  decide +kernel
/-- `sp` at STACK_BASE, at the last cell, and one past it where a pop is to read. -/
theorem witness_StackPointerStaysInItsRegion :
    small.params.valid ∧ small.params.memSize < 65536
      ∧ ({ small with sp := 12 } : State).SpInv ∧ ({ small with sp := 15 } : State).SpInv
      ∧ ({ small with sp := 16, upc := uRet1 } : State).SpInv
      ∧ (answer (step { small with sp := 12 })).isSome = true := by
  refine ⟨by decide, by decide, ⟨by decide, by decide⟩, ⟨by decide, by decide⟩, ⟨by decide, by decide⟩, ?_⟩
  decide +kernel
theorem witness_StepRunsTheDecodedInstruction :
    small.upc = uFetch ∧ ({ small with pc := 11 } : State).pc.toNat < small.params.stackBase
      ∧ decodeWords small.fetchWords = .ok (.mov (.immediate 0 5) (.direct 0), [0]) :=
  ⟨rfl, by decide, rfl⟩
/-- Two words, the opcode word in the last cell below STACK_BASE. -/
theorem witness_PlacedInstructionRuns :
    small.mem.wf = true ∧ ({ small with pc := 11 } : State).pc.toNat < small.params.stackBase
      ∧ ∀ k, k < (encode (.mov (.immediate 0 5) (.direct 0))).length →
        ({ small with pc := 11 } : State).inMemory (11 + BitVec.ofNat 16 k) = true := by decide
theorem witness_MicrocodeRefinesTheStep :
    small.nextInstr = some (.mov (.immediate 0 5) (.direct 0)) := by decide
theorem witness_LatchesAreInvisible :
    small.upc = uFetch ∧ ({ small with adr := 3, t := 9, regsel := some 4 } : State).arch = small.arch := by
  decide
theorem witness_MovStoresTheSource :
    readable (.indexed 2 0xFFFF) small = true
      ∧ (destPlace (.indexed 2 0xFFFF) (.indirect 1) small).inMemory small = true
      ∧ readable (.indirect 2) small = false := by decide
theorem witness_AddStoresTheSum :
    readable (.direct 15) small = true
      ∧ (destPlace (.direct 15) (.indexed 2 0xFFFF) small).inMemory small = true := by decide
theorem witness_SubStoresTheDifference :
    readable (.indirect 1) small = true
      ∧ (destPlace (.indirect 1) (.direct 0) small).inMemory small = true := by decide
theorem witness_CmpSetsOnlyTheFlags :
    readable (.immediate 0 5) small = true ∧ readable (.indirect 1) small = true := by decide
theorem witness_LogicStoresTheResult :
    readable (.immediate 0 5) small = true
      ∧ (destPlace (.immediate 0 5) (.indirect 1) small).inMemory small = true := by decide
theorem witness_ClrStoresZero :
    (placeOf (.indexed 2 0xFFFF) small small.pc).inMemory small = true
      ∧ readable (.indirect 2) small = false := by decide
theorem witness_NegStoresTheNegation :
    (placeOf (.indirect 1) small small.pc).inMemory small = true := by decide
theorem witness_IncAndDecStore :
    (placeOf (.immediate 0 5) { small with pc := 15 } 15).inMemory small = true
      ∧ (placeOf (.direct 15) small small.pc).inMemory small = true := by decide
theorem witness_ShiftsStore : (placeOf (.direct 0) small small.pc).inMemory small = true := by decide
theorem witness_RotatesStore :
    (placeOf (.indexed 2 0xFFFF) small small.pc).inMemory small = true := by decide
theorem witness_JmpLoadsThePc :
    readable (.indexed 2 0xFFFF) small = true ∧ readable (.immediate 0 0xFFFF) small = true := by decide
/-- `sp` one above STACK_BASE, where the push passes, and at it, where it does not. -/
theorem witness_CallPushesAndTransfers :
    readable (.immediate 0 5) small = true ∧ small.inMemory 13 = true
      ∧ canPush { small with sp := 13 } = true ∧ canPush { small with sp := 12 } = false := by decide
theorem witness_PushStoresAndDecrements :
    readable (.indirect 1) small = true ∧ small.inMemory 12 = true
      ∧ canPush { small with sp := 13 } = true ∧ canPush { small with sp := 12 } = false := by decide
/-- `sp + 1` the last cell of memory; a destination of each kind. -/
theorem witness_PopLoadsTheTop :
    small.inMemory (small.sp + 1) = true ∧ small.sp + 1 = 15 ∧ readable (.indirect 1) small = true
      ∧ (Operand.indirect 1).mode ≠ .immediate ∧ (Operand.immediate 0 5).mode = .immediate := by decide
theorem witness_WaitWaitsForIntp :
    ({ small with intp := true } : State).intp = true ∧ small.intp = false := by decide
theorem witness_RetAndPoppcPopThePc : small.inMemory (small.sp + 1) = true := by decide
theorem witness_RetiAndPopflagPopTheFlags :
    ({ small with sp := 13 } : State).inMemory (13 + 1) = true
      ∧ ({ small with sp := 13 } : State).inMemory (13 + 2) = true
      ∧ ({ small with sp := 14 } : State).inMemory (14 + 1) = true := by decide
theorem witness_PushpcAndPushflagPush :
    small.inMemory 12 = true ∧ canPush { small with sp := 13 } = true
      ∧ canPush { small with sp := 12 } = false := by decide
/-- Each clause: an unreadable source, destination and operand, an IMMEDIATE destination past memory, `sp` past
memory, and an empty stack, for RETI with one cell left too. -/
theorem witness_AccessesBeyondMemoryStop :
    readable (.indirect 2) small = false ∧ readable (.direct 1) small = true
      ∧ ({ small with pc := 16 } : State).inMemory (16 + extraCount (.direct 1)) = false
      ∧ ({ small with sp := 16 } : State).inMemory 16 = false
      ∧ ({ small with sp := 15 } : State).inMemory (15 + 1) = false
      ∧ ({ small with sp := 14 } : State).inMemory (14 + 1) = true
      ∧ ({ small with sp := 14 } : State).inMemory (14 + 2) = false := by decide
theorem witness_PopsReturnWhatWasPushed :
    small.mem.wf = true ∧ small.inMemory small.sp = true ∧ canPush small = true
      ∧ readable (.indirect 1) small = true ∧ small.inMemory (small.sp - 1) = true
      ∧ (small.params.stackBase : Int) ≤ (small.sp.toNat : Int) - 2 := by decide

end Sys2Proof.Tests
end

/-! The flag word (R37): which flag each bit of `Flags.word` holds, and which bits `Flags.ofWord` looks at. -/

namespace Sys2Proof.Proofs.FlagWord
open Sys2Proof Sys2Proof.Machine

/-- The word is built from twelve zeros by adding one flag at a time below; the library looks bits up in this form. -/
theorem getLsbD_word_eq_concat (f : Flags) (k : Nat) :
    f.word.getLsbD k = (((((0 : BitVec 12).concat f.s).concat f.z).concat f.v).concat f.c).getLsbD k := rfl

/-- From bit 0 upward: the flags in R37's order, then zeros. -/
theorem getLsbD_word (f : Flags) (k : Nat) : f.word.getLsbD k = [f.c, f.v, f.z, f.s].getD k false := by
  rw [getLsbD_word_eq_concat]
  match k with
  | 0 | 1 | 2 | 3 =>
    simp only [BitVec.getLsbD_concat_succ, BitVec.getLsbD_concat_zero, List.getD_cons_succ, List.getD_cons_zero]
  | n + 4 =>
    simp only [BitVec.getLsbD_concat_succ, BitVec.ofNat_eq_ofNat, BitVec.getLsbD_zero, List.getD_cons_succ,
      List.getD_nil]

/-- Bits 15:4 are 0 when read. -/
theorem getLsbD_word_of_four_le (f : Flags) (k : Nat) (hk : 4 ≤ k) : f.word.getLsbD k = false := by
  rw [getLsbD_word, List.getD_eq_default _ _ hk]

/-- The mask `0x000F` keeps bits 3:0. -/
theorem getLsbD_low_nibble (w : Word) (k : Nat) (hk : k < 4) : (w &&& 0x000F).getLsbD k = w.getLsbD k := by
  have mask : (0x000F : Word).getLsbD k = true := by interval_cases k <;> rfl
  rw [BitVec.getLsbD_and, mask, Bool.and_true]

/-- Bits 15:4 are ignored when a word is loaded into the flags. -/
theorem ofWord_low_nibble (w : Word) : Flags.ofWord (w &&& 0x000F) = Flags.ofWord w := by
  have kept := getLsbD_low_nibble w
  rw [Flags.ofWord, kept 0 (by decide), kept 1 (by decide), kept 2 (by decide), kept 3 (by decide), Flags.ofWord]

theorem ofWord_eq_of_low_nibble_eq {v w : Word} (h : v &&& 0x000F = w &&& 0x000F) :
    Flags.ofWord v = Flags.ofWord w := by
  rw [← ofWord_low_nibble v, h, ofWord_low_nibble]

/-- Settles O21: each bit of the word of any flags, the bits a load reads, and that it ignores the others. -/
theorem flagWordLayout : Obligations.FlagWordLayout := by
  intro f v w
  exact ⟨getLsbD_word f 0, getLsbD_word f 1, getLsbD_word f 2, getLsbD_word f 3,
    getLsbD_word_of_four_le f, rfl, ofWord_eq_of_low_nibble_eq⟩

end Sys2Proof.Proofs.FlagWord

/-! The classification of a word by number (R100): group and opcode field as quotients of the word's value. -/

namespace Sys2Proof.Proofs.Classification
open Sys2Proof

/-- A bit of a word as a digit of its value. -/
theorem extractLsb'_one_eq_zero_iff (w : Word) (k : Nat) :
    w.extractLsb' k 1 = 0 ↔ w.toNat / 2 ^ k % 2 = 0 := by
  rw [← BitVec.toNat_inj, BitVec.extractLsb'_toNat, Nat.shiftRight_eq_div_pow]
  rfl

/-- R100: the leading bits of the value give the group. -/
theorem group_cases (w : Word) :
    w.toNat / 2 ^ 15 = 0 ∧ group w = .twoOp ∨ w.toNat / 2 ^ 14 = 0b10 ∧ group w = .oneOp
      ∨ w.toNat / 2 ^ 13 = 0b110 ∧ group w = .branch ∨ w.toNat / 2 ^ 13 = 0b111 ∧ group w = .other := by
  have := w.isLt
  simp only [group, extractLsb'_one_eq_zero_iff]
  split_ifs <;> simp only [and_true, and_false, or_false, false_or] <;> omega

/-- The top `len` bits of a word of `start + len` bits. -/
theorem extractLsb'_top (w : Word) (start len : Nat) (h : start + len = 16) :
    (w.extractLsb' start len).toNat = w.toNat / 2 ^ start := by
  rw [BitVec.extractLsb'_toNat, Nat.shiftRight_eq_div_pow, Nat.mod_eq_of_lt]
  rw [Nat.div_lt_iff_lt_mul (Nat.two_pow_pos start), ← Nat.pow_add, Nat.add_comm, h]
  exact w.isLt

theorem opcode_of_twoOp {w : Word} (h : group w = .twoOp) : opcode w = w.toNat / 2 ^ 12 := by
  simp only [opcode, h, extractLsb'_top w 12 4 rfl]

theorem opcode_of_oneOp {w : Word} (h : group w = .oneOp) : opcode w = w.toNat / 2 ^ 6 := by
  simp only [opcode, h, extractLsb'_top w 6 10 rfl]

theorem opcode_of_branch {w : Word} (h : group w = .branch) : opcode w = w.toNat / 2 ^ 8 := by
  simp only [opcode, h, extractLsb'_top w 8 8 rfl]

theorem opcode_of_other {w : Word} (h : group w = .other) : opcode w = w.toNat := by
  simp only [opcode, h]

/-- R100's table, a row for each group. -/
theorem group_opcode_cases (w : Word) :
    w.toNat / 2 ^ 15 = 0 ∧ group w = .twoOp ∧ opcode w = w.toNat / 2 ^ 12
      ∨ w.toNat / 2 ^ 14 = 0b10 ∧ group w = .oneOp ∧ opcode w = w.toNat / 2 ^ 6
      ∨ w.toNat / 2 ^ 13 = 0b110 ∧ group w = .branch ∧ opcode w = w.toNat / 2 ^ 8
      ∨ w.toNat / 2 ^ 13 = 0b111 ∧ group w = .other ∧ opcode w = w.toNat := by
  obtain ⟨lead, hg⟩ | ⟨lead, hg⟩ | ⟨lead, hg⟩ | ⟨lead, hg⟩ := group_cases w
  · exact .inl ⟨lead, hg, opcode_of_twoOp hg⟩
  · exact .inr (.inl ⟨lead, hg, opcode_of_oneOp hg⟩)
  · exact .inr (.inr (.inl ⟨lead, hg, opcode_of_branch hg⟩))
  · exact .inr (.inr (.inr ⟨lead, hg, opcode_of_other hg⟩))

/-- The four ranges of opcode values do not meet. -/
theorem group_eq_of_mem_range {v : Nat} {g h : Group} (hg : g.range.1 ≤ v ∧ v ≤ g.range.2)
    (hh : h.range.1 ≤ v ∧ v ≤ h.range.2) : g = h := by
  cases g <;> cases h <;> simp only [Group.range, reduceCtorEq] at hg hh ⊢ <;> omega

theorem opcode_mem_range (w : Word) : (group w).range.1 ≤ opcode w ∧ opcode w ≤ (group w).range.2 := by
  have := w.isLt
  obtain ⟨lead, hg, hop⟩ | ⟨lead, hg, hop⟩ | ⟨lead, hg, hop⟩ | ⟨lead, hg, hop⟩ := group_opcode_cases w <;>
    rw [hg, hop] <;> simp only [Group.range] <;> omega

/-- Settles O2: the group and the field by R100's table, and the ranges, of which each value lies in one. -/
theorem classificationIsTotal : Obligations.ClassificationIsTotal := by
  refine ⟨rfl, rfl, rfl, rfl, fun w => ⟨group_opcode_cases w, fun g => ⟨fun hg => ?_, fun hg => ?_⟩⟩⟩
  · exact group_eq_of_mem_range hg (opcode_mem_range w)
  · exact hg ▸ opcode_mem_range w

end Sys2Proof.Proofs.Classification

/-! The decoder (R121 to R124): when it answers ReservedOpcode, and what it answers on the words of an encoding. -/

namespace Sys2Proof.Proofs.Decoder
open Sys2Proof Sys2Proof.Proofs.Classification

/-! ## Reserved opcodes -/

/-- R101: a run names exactly the values of its span. -/
theorem named_isSome_iff {α : Type} (run : OpcodeRun α) (v : Nat) :
    (run.named v).isSome ↔ run.base ≤ v ∧ v < run.base + run.ops.length := by
  unfold OpcodeRun.named
  split
  · simp; omega
  · simp only [isSome_getElem?]; omega

/-- R121: the only way to ReservedOpcode is a first word whose opcode the table lacks. -/
theorem decodeWords_cons_eq_reserved_iff (c : Codes) (w : Word) (ws : List Word) :
    c.decodeWords (w :: ws) = .error .reservedOpcode ↔ c.opcodeDefined w = false := by
  cases hg : group w <;> simp only [Codes.decodeWords, Codes.opcodeDefined, opcode, hg]
  case twoOp =>
    cases c.twoOp.named (w.extractLsb' 12 4).toNat with
    | none => simp
    | some op =>
      cases Operand.read (c.modeOf (modeSrcField w)) (regSrcField w) ws with
      | none => simp
      | some p => cases hd : Operand.read (c.modeOf (modeDstField w)) (regDstField w) p.2 <;> simp [hd]
  case oneOp =>
    cases c.oneOp.named (w.extractLsb' 6 10).toNat with
    | none => simp
    | some op => cases Operand.read (c.modeOf (modeDstField w)) (regDstField w) ws <;> simp
  case branch => cases c.branch.named (w.extractLsb' 8 8).toNat <;> simp
  case other => cases c.other.named w.toNat <;> simp

/-- The verdict on modes never hides a reserved opcode. -/
theorem decode_eq_reserved_iff (c : Codes) (extra : List (AddrMode × AddrMode)) (ws : List Word) (i : Nat) :
    c.decode extra ws i = .error .reservedOpcode ↔ ∃ w, ws[i]? = some w ∧ c.opcodeDefined w = false := by
  rw [← List.head?_drop]
  unfold Codes.decode
  cases hrest : ws.drop i with
  | nil => simp [Codes.immediateDestination, Codes.decodeWords]
  | cons w rest =>
    have reserved := decodeWords_cons_eq_reserved_iff c w rest
    cases hdef : c.opcodeDefined w with
    | false => simp [Codes.immediateDestination, hdef, reserved.mpr hdef]
    | true =>
      have other_error : c.decodeWords (w :: rest) ≠ .error .reservedOpcode := by simp [reserved, hdef]
      simp only [List.head?_cons, Option.some.injEq, exists_eq_left', hdef, Bool.true_eq_false, iff_false]
      split
      · simp
      · cases hwords : c.decodeWords (w :: rest) with
        | error e => simpa [hwords] using other_error
        | ok p => dsimp only; split <;> simp

theorem decode_past_end (c : Codes) (extra : List (AddrMode × AddrMode)) {ws : List Word} {i : Nat}
    (h : ws.length ≤ i) : c.decode extra ws i = .error .truncated := by
  rw [Codes.decode, List.drop_eq_nil_of_le h]
  rfl

/-- R128: the reserved words of the reference table, from each group's first free value to the end of its range. -/
theorem opcodeDefined_reference_eq_false_iff (w : Word) :
    Codes.reference.opcodeDefined w = false ↔
      0x7000 ≤ w.toNat ∧ w.toNat ≤ 0x7FFF ∨ 0x83C0 ≤ w.toNat ∧ w.toNat ≤ 0xBFFF
        ∨ 0xC900 ≤ w.toNat ∧ w.toNat ≤ 0xDFFF ∨ 0xE013 ≤ w.toNat := by
  have := w.isLt
  obtain ⟨lead, hg, hop⟩ | ⟨lead, hg, hop⟩ | ⟨lead, hg, hop⟩ | ⟨lead, hg, hop⟩ := group_opcode_cases w <;>
    simp only [Codes.opcodeDefined, hg, hop, ← Bool.not_eq_true, named_isSome_iff, Codes.reference,
      TwoOp.table, OneOp.table, BranchOp.table, OtherOp.table, List.length_cons, List.length_nil] <;>
    omega

/-- Settles O9: the words with no table entry, which are those of R128, and a drop that leaves nothing to read. -/
theorem reservedWordsRejected : Obligations.ReservedWordsRejected := by
  intro extra ws i
  refine ⟨?_, decode_past_end Codes.reference extra⟩
  simp only [← opcodeDefined_reference_eq_false_iff]
  exact decode_eq_reserved_iff Codes.reference extra ws i

end Sys2Proof.Proofs.Decoder

/-! The four encode functions (R107 to R112): for each check of each encoder, what it answers when that check is
the first to fail, and its words when all pass. -/

namespace Sys2Proof.Proofs.Encoders
open Sys2Proof

/-! ## Fields packed side by side -/

/-- Bits beside each other add up. -/
theorem shiftLeft_or_eq (k a : Nat) {b : Nat} (hb : b < 2 ^ k) : (a <<< k) ||| b = a * 2 ^ k + b := by
  rw [← Nat.shiftLeft_add_eq_or_of_lt hb, Nat.shiftLeft_eq]

theorem oneOp_fields_eq (v : Nat) {m r : Nat} (hm : m < 4) (hr : r < 16) :
    (v <<< 6) ||| (m <<< 4) ||| r = v * 64 + m * 16 + r := by
  rw [Nat.or_assoc, shiftLeft_or_eq 4 m hr, shiftLeft_or_eq 6 v (by omega)]
  omega

theorem twoOp_fields_eq (v : Nat) {ms rs md rd : Nat} (hms : ms < 4) (hrs : rs < 16) (hmd : md < 4) (hrd : rd < 16) :
    (v <<< 12) ||| (ms <<< 10) ||| (rs <<< 6) ||| (md <<< 4) ||| rd
      = v * 4096 + ms * 1024 + rs * 64 + md * 16 + rd := by
  rw [Nat.or_assoc, shiftLeft_or_eq 4 md hrd, Nat.or_assoc, shiftLeft_or_eq 6 rs (by omega), Nat.or_assoc,
    shiftLeft_or_eq 10 ms (by omega), shiftLeft_or_eq 12 v (by omega)]
  omega

/-! ## Argument checks -/

theorem registerInRange_iff (r : Int) : registerInRange r = true ↔ 0 ≤ r ∧ r < 16 := by
  simp [registerInRange]

theorem wordInRange_iff (v : Int) : wordInRange v = true ↔ 0 ≤ v ∧ v < 65536 := by
  simp [wordInRange]

/-- A register argument that is used, or an offset a mode takes, is checked. -/
theorem unmet_iff (used ok : Bool) : (used && !ok) = true ↔ ¬ (used = true → ok = true) := by simp

/-- R111: both registers are checked. -/
theorem either_unmet_iff (ok ok' : Bool) : (!ok || !ok') = true ↔ ¬ (ok = true ∧ ok' = true) := by
  simp only [Bool.or_eq_true, Bool.not_iff_not, Classical.not_and_iff_not_or_not]

/-- The destination's offset is checked for INDEXED. -/
theorem unmet_prop_iff (used : Prop) (ok : Bool) : used ∧ ok = false ↔ ¬ (used → ok = true) := by simp

/-- R112. -/
theorem legalPair_iff (extra : List (AddrMode × AddrMode)) (ms md : AddrMode) :
    legalPair extra ms md = true ↔
      md ≠ .immediate ∧ (ms = .immediate ∧ md = .direct ∨ (ms, md) ∉ extra) := by
  simp [legalPair]

/-- R113. -/
theorem legalMode_iff (op : OneOp) (m : AddrMode) :
    legalMode op m = true ↔ (m = .immediate → op = .jmp ∨ op = .call ∨ op = .push) := by
  cases op <;> simp [legalMode, OneOp.acceptsImmediate]

theorem takesExtra_iff (m : AddrMode) : m.takesExtra = true ↔ m = .immediate ∨ m = .indexed := by
  cases m <;> simp [AddrMode.takesExtra]

theorem modeNamed_of_lt (c : Codes) {mode : Nat} (h : mode < 4) :
    c.modeNamed mode = some (c.modeOf (BitVec.ofNat 2 mode)) := if_pos h

theorem modeNamed_of_not_lt (c : Codes) {mode : Nat} (h : ¬ mode < 4) : c.modeNamed mode = none := if_neg h

theorem lt_of_modeNamed {c : Codes} {mode : Nat} {m : AddrMode} (h : c.modeNamed mode = some m) : mode < 4 := by
  by_contra hlt
  simp [modeNamed_of_not_lt c hlt] at h

/-! ## The one-word encoders (R107, R108) -/

/-- R105: a no-operand opcode's value is a word. -/
theorem otherOp_value_lt (op : OtherOp) : op.value < 65536 := by
  obtain ⟨-, -, -, -, run, -⟩ := Codes.reference_valid
  obtain ⟨-, hi⟩ := OpcodeRun.value_mem run op.mem_table
  exact Nat.lt_succ_of_le hi

/-- R104: a branch opcode's value has eight bits. -/
theorem branchOp_value_lt (op : BranchOp) : op.value < 256 := by
  obtain ⟨-, -, -, run, -⟩ := Codes.reference_valid
  obtain ⟨-, hi⟩ := OpcodeRun.value_mem run op.mem_table
  exact Nat.lt_of_le_of_lt hi (by decide)

/-- R103: a one-operand opcode's value has ten bits. -/
theorem oneOp_value_lt (op : OneOp) : op.value < 1024 := by
  obtain ⟨-, -, run, -⟩ := Codes.reference_valid
  obtain ⟨-, hi⟩ := OpcodeRun.value_mem run op.mem_table
  exact Nat.lt_of_le_of_lt hi (by decide)

/-- R102: a two-operand opcode's value has four bits. -/
theorem twoOp_value_lt (op : TwoOp) : op.value < 16 := by
  obtain ⟨-, run, -⟩ := Codes.reference_valid
  obtain ⟨-, hi⟩ := OpcodeRun.value_mem run op.mem_table
  exact Nat.lt_of_le_of_lt hi (by decide)

theorem encodeBranch_ok (c : Codes) (op : BranchOp) {offset : Int} (h : 0 ≤ offset ∧ offset < 256) :
    c.encodeBranch op offset = .ok [BitVec.ofNat 16 (c.branch.value op * 256 + offset.toNat)] := by
  rw [Codes.encodeBranch, if_pos h, shiftLeft_or_eq 8 _ (by omega)]
  rfl

theorem encodeBranch_offset (c : Codes) (op : BranchOp) {offset : Int} (h : ¬ (0 ≤ offset ∧ offset < 256)) :
    c.encodeBranch op offset = .error .operandRangeError := if_neg h

/-- Settles O6: both values fit in the word, so nothing is lost in it. -/
theorem oneWordEncoders : Obligations.OneWordEncoders := by
  refine ⟨fun op => ⟨_, rfl, ?_⟩, fun op offset lo hi => ⟨_, encodeBranch_ok _ op ⟨lo, hi⟩, ?_⟩,
    fun op offset out => encodeBranch_offset _ op (by omega)⟩
  · exact BitVec.toNat_ofNat .. ▸ Nat.mod_eq_of_lt (otherOp_value_lt op)
  · have := branchOp_value_lt op
    rw [BitVec.toNat_ofNat, ← BranchOp.value]
    omega

/-! ## The one-operand encoder (R109) -/

section OneOperand
variable (c : Codes) (op : OneOp) {mode : Nat} {m : AddrMode} {reg offset : Int}

/-- R109's checks 2 to 4 for a named mode, as propositions. -/
theorem encodeOneOperand_named (hm : c.modeNamed mode = some m) (reg offset : Int) :
    c.encodeOneOperand op mode reg offset =
      if ¬ legalMode op m = true then .error .invalidAddressingMode
      else if ¬ (m ≠ .immediate → 0 ≤ reg ∧ reg < 16) then .error .registerRangeError
      else if ¬ (m.takesExtra = true → 0 ≤ offset ∧ offset < 65536) then .error .operandRangeError
      else .ok (BitVec.ofNat 16 ((c.oneOp.value op <<< 6) ||| (mode <<< 4)
            ||| if m = .immediate then 0 else reg.toNat)
          :: if m.takesExtra then [BitVec.ofNat 16 offset.toNat] else []) := by
  simp only [Codes.encodeOneOperand, hm, Bool.not_iff_not, unmet_iff, bne_iff_ne, registerInRange_iff, wordInRange_iff]

theorem encodeOneOperand_unnamed (h : ¬ mode < 4) (reg offset : Int) :
    c.encodeOneOperand op mode reg offset = .error .invalidAddressingMode := by
  simp only [Codes.encodeOneOperand, modeNamed_of_not_lt c h]

theorem encodeOneOperand_illegal (hm : c.modeNamed mode = some m) (hl : ¬ legalMode op m = true) (reg offset : Int) :
    c.encodeOneOperand op mode reg offset = .error .invalidAddressingMode := by
  rw [encodeOneOperand_named c op hm, if_pos hl]

theorem encodeOneOperand_register (hm : c.modeNamed mode = some m) (hl : legalMode op m = true)
    (hr : ¬ (m ≠ .immediate → 0 ≤ reg ∧ reg < 16)) (offset : Int) :
    c.encodeOneOperand op mode reg offset = .error .registerRangeError := by
  rw [encodeOneOperand_named c op hm, if_neg (not_not_intro hl), if_pos hr]

theorem encodeOneOperand_offset (hm : c.modeNamed mode = some m) (hl : legalMode op m = true)
    (hr : m ≠ .immediate → 0 ≤ reg ∧ reg < 16) (ho : ¬ (m.takesExtra = true → 0 ≤ offset ∧ offset < 65536)) :
    c.encodeOneOperand op mode reg offset = .error .operandRangeError := by
  rw [encodeOneOperand_named c op hm, if_neg (not_not_intro hl), if_neg (not_not_intro hr), if_pos ho]

theorem encodeOneOperand_ok (hm : c.modeNamed mode = some m) (hl : legalMode op m = true)
    (hr : m ≠ .immediate → 0 ≤ reg ∧ reg < 16) (ho : m.takesExtra = true → 0 ≤ offset ∧ offset < 65536) :
    c.encodeOneOperand op mode reg offset =
      .ok (BitVec.ofNat 16 (c.oneOp.value op * 64 + mode * 16 + if m = .immediate then 0 else reg.toNat)
        :: if m.takesExtra then [BitVec.ofNat 16 offset.toNat] else []) := by
  have hfield : (if m = .immediate then 0 else reg.toNat) < 16 := by
    split
    · decide
    · next hne => have := hr hne; omega
  rw [encodeOneOperand_named c op hm, if_neg (not_not_intro hl), if_neg (not_not_intro hr),
    if_neg (not_not_intro ho), oneOp_fields_eq _ (lt_of_modeNamed hm) hfield]

end OneOperand

/-! ## The two-operand encoder (R110 to R112) -/

section TwoOperand
variable (c : Codes) (extra : List (AddrMode × AddrMode)) (op : TwoOp) {modeDst modeSrc : Nat} {md ms : AddrMode}
  {regDst regSrc offsetDst offsetSrc : Int}

/-- R110's checks for named modes, as propositions. -/
theorem encodeTwoOperand_named (hs : c.modeNamed modeSrc = some ms) (hd : c.modeNamed modeDst = some md)
    (regDst regSrc offsetDst offsetSrc : Int) :
    c.encodeTwoOperand extra op modeDst regDst modeSrc regSrc offsetDst offsetSrc =
      if ¬ legalPair extra ms md = true then .error .invalidAddressingMode
      else if ¬ ((0 ≤ regSrc ∧ regSrc < 16) ∧ 0 ≤ regDst ∧ regDst < 16) then .error .registerRangeError
      else if ¬ (ms.takesExtra = true → 0 ≤ offsetSrc ∧ offsetSrc < 65536) then .error .operandRangeError
      else if ¬ (md = .indexed → 0 ≤ offsetDst ∧ offsetDst < 65536) then .error .operandRangeError
      else .ok (BitVec.ofNat 16 ((c.twoOp.value op <<< 12) ||| (modeSrc <<< 10) ||| (regSrc.toNat <<< 6)
            ||| (modeDst <<< 4) ||| regDst.toNat)
          :: ((if ms.takesExtra then [BitVec.ofNat 16 offsetSrc.toNat] else [])
            ++ (if md = .indexed then [BitVec.ofNat 16 offsetDst.toNat] else []))) := by
  simp only [Codes.encodeTwoOperand, hs, hd, Bool.not_iff_not, either_unmet_iff, unmet_iff, unmet_prop_iff,
    registerInRange_iff, wordInRange_iff]

theorem encodeTwoOperand_unnamed (h : ¬ (modeSrc < 4 ∧ modeDst < 4)) (regDst regSrc offsetDst offsetSrc : Int) :
    c.encodeTwoOperand extra op modeDst regDst modeSrc regSrc offsetDst offsetSrc
      = .error .invalidAddressingMode := by
  unfold Codes.encodeTwoOperand
  split
  · next hs hd => exact absurd ⟨lt_of_modeNamed hs, lt_of_modeNamed hd⟩ h
  · rfl

theorem encodeTwoOperand_illegal (hs : c.modeNamed modeSrc = some ms) (hd : c.modeNamed modeDst = some md)
    (hl : ¬ legalPair extra ms md = true) (regDst regSrc offsetDst offsetSrc : Int) :
    c.encodeTwoOperand extra op modeDst regDst modeSrc regSrc offsetDst offsetSrc
      = .error .invalidAddressingMode := by
  rw [encodeTwoOperand_named c extra op hs hd, if_pos hl]

theorem encodeTwoOperand_register (hs : c.modeNamed modeSrc = some ms) (hd : c.modeNamed modeDst = some md)
    (hl : legalPair extra ms md = true) (hr : ¬ ((0 ≤ regSrc ∧ regSrc < 16) ∧ 0 ≤ regDst ∧ regDst < 16))
    (offsetDst offsetSrc : Int) :
    c.encodeTwoOperand extra op modeDst regDst modeSrc regSrc offsetDst offsetSrc
      = .error .registerRangeError := by
  rw [encodeTwoOperand_named c extra op hs hd, if_neg (not_not_intro hl), if_pos hr]

theorem encodeTwoOperand_offset (hs : c.modeNamed modeSrc = some ms) (hd : c.modeNamed modeDst = some md)
    (hl : legalPair extra ms md = true) (hr : (0 ≤ regSrc ∧ regSrc < 16) ∧ 0 ≤ regDst ∧ regDst < 16)
    (ho : ¬ ((ms.takesExtra = true → 0 ≤ offsetSrc ∧ offsetSrc < 65536)
      ∧ (md = .indexed → 0 ≤ offsetDst ∧ offsetDst < 65536))) :
    c.encodeTwoOperand extra op modeDst regDst modeSrc regSrc offsetDst offsetSrc
      = .error .operandRangeError := by
  rw [encodeTwoOperand_named c extra op hs hd, if_neg (not_not_intro hl), if_neg (not_not_intro hr)]
  obtain hsrc | hdst := Classical.not_and_iff_not_or_not.mp ho
  · rw [if_pos hsrc]
  · rw [if_pos hdst, ite_self]

theorem encodeTwoOperand_ok (hs : c.modeNamed modeSrc = some ms) (hd : c.modeNamed modeDst = some md)
    (hl : legalPair extra ms md = true) (hr : (0 ≤ regSrc ∧ regSrc < 16) ∧ 0 ≤ regDst ∧ regDst < 16)
    (ho : (ms.takesExtra = true → 0 ≤ offsetSrc ∧ offsetSrc < 65536)
      ∧ (md = .indexed → 0 ≤ offsetDst ∧ offsetDst < 65536)) :
    c.encodeTwoOperand extra op modeDst regDst modeSrc regSrc offsetDst offsetSrc
      = .ok (BitVec.ofNat 16 (c.twoOp.value op * 4096 + modeSrc * 1024 + regSrc.toNat * 64 + modeDst * 16
            + regDst.toNat)
        :: ((if ms.takesExtra then [BitVec.ofNat 16 offsetSrc.toNat] else [])
          ++ (if md = .indexed then [BitVec.ofNat 16 offsetDst.toNat] else []))) := by
  rw [encodeTwoOperand_named c extra op hs hd, if_neg (not_not_intro hl), if_neg (not_not_intro hr),
    if_neg (not_not_intro ho.1), if_neg (not_not_intro ho.2),
    twoOp_fields_eq _ (lt_of_modeNamed hs) (by omega) (lt_of_modeNamed hd) (by omega)]

end TwoOperand

/-! ## The reference numbering of the modes (R92) -/

theorem ofCode_eq_immediate_iff {n : Nat} (h : n < 4) : AddrMode.ofCode (BitVec.ofNat 2 n) = .immediate ↔ n = 0 := by
  interval_cases n <;> decide

theorem ofCode_eq_direct_iff {n : Nat} (h : n < 4) : AddrMode.ofCode (BitVec.ofNat 2 n) = .direct ↔ n = 1 := by
  interval_cases n <;> decide

theorem ofCode_eq_indexed_iff {n : Nat} (h : n < 4) : AddrMode.ofCode (BitVec.ofNat 2 n) = .indexed ↔ n = 3 := by
  interval_cases n <;> decide

theorem ofCode_takesExtra_iff {n : Nat} (h : n < 4) :
    (AddrMode.ofCode (BitVec.ofNat 2 n)).takesExtra = true ↔ n = 0 ∨ n = 3 := by
  rw [takesExtra_iff, ofCode_eq_immediate_iff h, ofCode_eq_indexed_iff h]

theorem modeNamed_reference {n : Nat} (h : n < 4) :
    Codes.reference.modeNamed n = some (AddrMode.ofCode (BitVec.ofNat 2 n)) := modeNamed_of_lt _ h

/-- An offset word holds the offset. -/
theorem toNat_offset_word {v : Int} (h : 0 ≤ v ∧ v < 65536) : ((BitVec.ofNat 16 v.toNat).toNat : Int) = v := by
  rw [BitVec.toNat_ofNat]
  omega

/-- Settles O7: R109's checks in the reference numbering. -/
theorem oneOperandEncoder : Obligations.OneOperandEncoder := by
  intro op mode reg offset modeOk listed regOk offsetOk result
  refine ⟨fun hm => encodeOneOperand_unnamed _ op hm reg offset, ?_⟩
  by_cases hm : mode < 4
  case neg => exact ⟨fun h => absurd h hm, fun h => absurd h hm, fun h => absurd h hm, fun h => absurd h hm⟩
  have named := modeNamed_reference hm
  have hlisted : listed ↔ legalMode op (AddrMode.ofCode (BitVec.ofNat 2 mode)) = true := by
    rw [legalMode_iff, ofCode_eq_immediate_iff hm]
  have hregOk : regOk ↔ (AddrMode.ofCode (BitVec.ofNat 2 mode) ≠ .immediate → 0 ≤ reg ∧ reg < 16) := by
    rw [Ne, ofCode_eq_immediate_iff hm]
  have hoffsetOk : offsetOk ↔
      ((AddrMode.ofCode (BitVec.ofNat 2 mode)).takesExtra = true → 0 ≤ offset ∧ offset < 65536) := by
    rw [ofCode_takesExtra_iff hm]
  rw [hlisted, hregOk, hoffsetOk]
  refine ⟨fun _ hl => encodeOneOperand_illegal _ op named hl reg offset,
    fun _ hl hr => encodeOneOperand_register _ op named hl hr offset,
    fun _ hl hr ho => encodeOneOperand_offset _ op named hl hr ho,
    fun _ hl hr ho => ⟨_, _, encodeOneOperand_ok _ op named hl hr ho, ?_, fun hx => ?_, fun hx => ?_⟩⟩
  · have := oneOp_value_lt op
    simp only [ofCode_eq_immediate_iff hm, ne_eq] at hr ⊢
    rw [← OneOp.value, BitVec.toNat_ofNat]
    split
    · omega
    · next hne => have := hr hne; omega
  · rw [if_pos ((ofCode_takesExtra_iff hm).mpr hx)]
    exact ⟨_, rfl, toNat_offset_word (hoffsetOk.mpr ho hx)⟩
  · rw [if_neg (mt (ofCode_takesExtra_iff hm).mp (by omega))]

/-- Settles O8: R110's checks in the reference numbering. -/
theorem twoOperandEncoder : Obligations.TwoOperandEncoder := by
  intro extra op modeDst modeSrc regDst regSrc offsetDst offsetSrc modesOk regsOk takesSrc offsetsOk result
  by_cases hm : modeSrc < 4 ∧ modeDst < 4
  case neg =>
    have refused : ¬ modesOk := fun ⟨hs, hd, _⟩ => hm ⟨hs, hd⟩
    exact ⟨fun _ => encodeTwoOperand_unnamed _ extra op hm regDst regSrc offsetDst offsetSrc,
      fun h => absurd h refused, fun h => absurd h refused, fun h => absurd h refused⟩
  obtain ⟨hs, hd⟩ := hm
  have namedSrc := modeNamed_reference hs
  have namedDst := modeNamed_reference hd
  have hmodesOk : modesOk ↔ legalPair extra (AddrMode.ofCode (BitVec.ofNat 2 modeSrc))
      (AddrMode.ofCode (BitVec.ofNat 2 modeDst)) = true := by
    rw [legalPair_iff, Ne, ofCode_eq_immediate_iff hd, ofCode_eq_immediate_iff hs, ofCode_eq_direct_iff hd]
    simp only [modesOk, hs, hd, true_and, ne_eq]
  have hoffsetsOk : offsetsOk ↔
      ((AddrMode.ofCode (BitVec.ofNat 2 modeSrc)).takesExtra = true → 0 ≤ offsetSrc ∧ offsetSrc < 65536)
      ∧ (AddrMode.ofCode (BitVec.ofNat 2 modeDst) = .indexed → 0 ≤ offsetDst ∧ offsetDst < 65536) := by
    rw [ofCode_takesExtra_iff hs, ofCode_eq_indexed_iff hd]
  rw [hmodesOk, hoffsetsOk]
  refine ⟨fun hl => encodeTwoOperand_illegal _ extra op namedSrc namedDst hl regDst regSrc offsetDst offsetSrc,
    fun hl hr => encodeTwoOperand_register _ extra op namedSrc namedDst hl hr offsetDst offsetSrc,
    fun hl hr ho => encodeTwoOperand_offset _ extra op namedSrc namedDst hl hr ho,
    fun hl hr ho => ⟨_, _, _, encodeTwoOperand_ok _ extra op namedSrc namedDst hl hr ho,
      ?_, fun hx => ?_, fun hx => ?_, fun hx => ?_, fun hx => ?_⟩⟩
  · have := twoOp_value_lt op
    rw [← TwoOp.value, BitVec.toNat_ofNat]
    omega
  · rw [if_pos ((ofCode_takesExtra_iff hs).mpr hx)]
    exact ⟨_, rfl, toNat_offset_word ((hoffsetsOk.mpr ho).1 hx)⟩
  · rw [if_neg (mt (ofCode_takesExtra_iff hs).mp hx)]
  · rw [if_pos ((ofCode_eq_indexed_iff hd).mpr hx)]
    exact ⟨_, rfl, toNat_offset_word ((hoffsetsOk.mpr ho).2 hx)⟩
  · rw [if_neg (mt (ofCode_eq_indexed_iff hd).mp hx)]

end Sys2Proof.Proofs.Encoders

/-! The round-trip law of the codec (R120): the decoder on the words of an encoding, the encode functions on the
arguments an instruction stands for, and the two put together. -/

namespace Sys2Proof.Proofs.RoundTrip
open Sys2Proof Sys2Proof.Proofs.Encoders

/-! ## An instruction and its shape -/

/-- The instruction of a shape. -/
def shapeInstr : Shape → Instr
  | .two op src dst => op.instr src dst
  | .one op dst => op.instr dst
  | .branch op offset => op.instr offset
  | .other op => op.instr

theorem shapeInstr_shape (i : Instr) : shapeInstr i.shape = i := by cases i <;> rfl

theorem shape_two_instr (op : TwoOp) (src dst : Operand) : (op.instr src dst).shape = .two op src dst := by
  cases op <;> rfl

/-! ## The opcode field as a number -/

theorem getLsbD_ofNat_of_lt {n k : Nat} (v : Nat) (hk : k < n) :
    (BitVec.ofNat n v).getLsbD k = decide (v / 2 ^ k % 2 = 1) := by
  rw [BitVec.getLsbD_ofNat, decide_eq_true hk, Bool.true_and, Nat.testBit_eq_decide_div_mod_eq]

/-- R101: a field wide enough for an opcode's value names the opcode. -/
theorem named_ofNat_value {α : Type} [DecidableEq α] {run : OpcodeRun α} {op : α} {n : Nat} (h : op ∈ run.ops)
    (fits : run.value op < 2 ^ n) : run.named (BitVec.ofNat n (run.value op)).toNat = some op := by
  rw [BitVec.toNat_ofNat, Nat.mod_eq_of_lt fits, run.named_value h]

/-- The value of fields beside each other. -/
theorem toNat_append_eq {n m : Nat} (x : BitVec n) (y : BitVec m) :
    (x ++ y).toNat = x.toNat * 2 ^ m + y.toNat := by
  rw [BitVec.toNat_append, shiftLeft_or_eq m x.toNat y.isLt]

/-! ## The decoder on encoded words, under any admitted table -/

section
variable {c : Codes} (hv : c.valid)
include hv

theorem decodeWords_two (op : TwoOp) (src dst : Operand) (rest : List Word) :
    c.decodeWords ((BitVec.ofNat 4 (c.twoOp.value op) ++ c.modeCode src.mode ++ src.field ++ c.modeCode dst.mode
        ++ dst.field : Word) :: (src.extraWords ++ (dst.extraWords ++ rest))) = .ok (op.instr src dst, rest) := by
  obtain ⟨hmodes, htwo, -⟩ := hv
  have range : c.twoOp.value op ≤ 0x7 := (OpcodeRun.value_mem htwo op.mem_table).2
  have hmsb : (BitVec.ofNat 4 (c.twoOp.value op)).msb = false := by
    rw [BitVec.msb_eq_getLsbD_last, getLsbD_ofNat_of_lt _ (by decide), decide_eq_false_iff_not]
    omega
  have hop := named_ofNat_value (n := 4) (htwo.2.1 op op.mem_table) (by omega)
  simp only [Codes.decodeWords, twoOpWord_group _ _ _ _ _ hmsb, twoOpWord_opcode, twoOpWord_modeSrc, twoOpWord_regSrc,
    twoOpWord_modeDst, twoOpWord_regDst, hop, Codes.modeOf_modeCode hmodes, Operand.read_encoded]

theorem decodeWords_one (op : OneOp) (dst : Operand) (rest : List Word) :
    c.decodeWords ((BitVec.ofNat 10 (c.oneOp.value op) ++ c.modeCode dst.mode ++ dst.field : Word)
      :: (dst.extraWords ++ rest)) = .ok (op.instr dst, rest) := by
  obtain ⟨hmodes, -, hone, -⟩ := hv
  have range : 0x200 ≤ c.oneOp.value op ∧ c.oneOp.value op ≤ 0x2FF := OpcodeRun.value_mem hone op.mem_table
  have h9 : (BitVec.ofNat 10 (c.oneOp.value op)).getLsbD 9 = true := by
    rw [getLsbD_ofNat_of_lt _ (by decide), decide_eq_true_iff]
    omega
  have h8 : (BitVec.ofNat 10 (c.oneOp.value op)).getLsbD 8 = false := by
    rw [getLsbD_ofNat_of_lt _ (by decide), decide_eq_false_iff_not]
    omega
  have hop := named_ofNat_value (n := 10) (hone.2.1 op op.mem_table) (by omega)
  simp only [Codes.decodeWords, oneOpWord_group _ _ _ h9 h8, oneOpWord_opcode, oneOpWord_mode, oneOpWord_reg, hop,
    Codes.modeOf_modeCode hmodes, Operand.read_encoded]

theorem decodeWords_branch (op : BranchOp) (offset : BitVec 8) (rest : List Word) :
    c.decodeWords ((BitVec.ofNat 8 (c.branch.value op) ++ offset : Word) :: rest) = .ok (op.instr offset, rest) := by
  obtain ⟨-, -, -, hbranch, -⟩ := hv
  have range : 0xC0 ≤ c.branch.value op ∧ c.branch.value op ≤ 0xDF := OpcodeRun.value_mem hbranch op.mem_table
  have h7 : (BitVec.ofNat 8 (c.branch.value op)).getLsbD 7 = true := by
    rw [getLsbD_ofNat_of_lt _ (by decide), decide_eq_true_iff]
    omega
  have h6 : (BitVec.ofNat 8 (c.branch.value op)).getLsbD 6 = true := by
    rw [getLsbD_ofNat_of_lt _ (by decide), decide_eq_true_iff]
    omega
  have h5 : (BitVec.ofNat 8 (c.branch.value op)).getLsbD 5 = false := by
    rw [getLsbD_ofNat_of_lt _ (by decide), decide_eq_false_iff_not]
    omega
  have hop := named_ofNat_value (n := 8) (hbranch.2.1 op op.mem_table) (by omega)
  simp only [Codes.decodeWords, branchWord_group _ _ h7 h6 h5, branchWord_opcode, branchWord_offset, hop]

theorem decodeWords_other (op : OtherOp) (rest : List Word) :
    c.decodeWords (BitVec.ofNat 16 (c.other.value op) :: rest) = .ok (op.instr, rest) := by
  obtain ⟨-, -, -, -, hother, -⟩ := hv
  have range : 0xE000 ≤ c.other.value op ∧ c.other.value op ≤ 0xFFFF := OpcodeRun.value_mem hother op.mem_table
  have hval : (BitVec.ofNat 16 (c.other.value op)).toNat = c.other.value op := by
    rw [BitVec.toNat_ofNat, Nat.mod_eq_of_lt (by omega)]
  have hgroup : group (BitVec.ofNat 16 (c.other.value op)) = .other := by
    have leads := Classification.group_cases (BitVec.ofNat 16 (c.other.value op))
    rw [hval] at leads
    obtain ⟨lead, -⟩ | ⟨lead, -⟩ | ⟨lead, -⟩ | ⟨-, hg⟩ := leads
    case inr.inr.inr => exact hg
    all_goals omega
  have hop := named_ofNat_value (n := 16) (hother.2.1 op op.mem_table) (by omega)
  simp only [Codes.decodeWords, hgroup, hop]

/-- R120 for the decoder that follows the hardware: it reads back any instruction, legal or not, and stops behind it. -/
theorem decodeWords_encode (i : Instr) (rest : List Word) : c.decodeWords (c.encode i ++ rest) = .ok (i, rest) := by
  have hi := shapeInstr_shape i
  cases hshape : i.shape <;> rw [hshape, shapeInstr] at hi <;>
    simp only [Codes.encode, hshape, List.cons_append, List.append_assoc, List.nil_append]
  case two op src dst => rw [decodeWords_two hv, hi]
  case one op dst => rw [decodeWords_one hv, hi]
  case branch op offset => rw [decodeWords_branch hv, hi]
  case other op => rw [decodeWords_other hv, hi]

end

/-! ## The codec's decoder on a legal instruction -/

/-- An operand read under a mode has that mode. -/
theorem mode_of_read {mode : AddrMode} {r : Reg} {ws rest : List Word} {o : Operand}
    (h : Operand.read mode r ws = some (o, rest)) : o.mode = mode := by
  cases mode with
  | direct | indirect => cases h; rfl
  | immediate | indexed =>
    cases ws with
    | nil => cases h
    | cons w ws => cases h; rfl

/-- What a TWO_OP word decodes to has the destination mode that the word names. -/
theorem dst_mode_of_decodeWords {c : Codes} {w : Word} {ws rest : List Word} {i : Instr} (hg : group w = .twoOp)
    (hd : c.decodeWords (w :: ws) = .ok (i, rest)) :
    ∃ op src dst, i = TwoOp.instr op src dst ∧ dst.mode = c.modeOf (modeDstField w) := by
  simp only [Codes.decodeWords, hg] at hd
  split at hd
  · cases hd
  · next op _ =>
    split at hd
    · cases hd
    · next src ws1 _ =>
      split at hd
      · cases hd
      · next dst ws2 hread =>
        cases hd
        exact ⟨op, src, dst, rfl, mode_of_read hread⟩

/-- R124: what the codec rejects for its IMMEDIATE destination is illegal as an instruction too. -/
theorem not_legal_of_immediateDestination {c : Codes} (extra : List (AddrMode × AddrMode)) {ws rest : List Word} {i : Instr}
    (himm : c.immediateDestination ws = true) (hd : c.decodeWords ws = .ok (i, rest)) : i.legal extra = false := by
  cases ws with
  | nil => cases himm
  | cons w ws =>
    simp only [Codes.immediateDestination, Bool.and_eq_true, beq_iff_eq] at himm
    obtain ⟨⟨⟨hg, -⟩, hmode⟩, -⟩ := himm
    obtain ⟨op, src, dst, rfl, hdst⟩ := dst_mode_of_decodeWords hg hd
    simp only [Instr.legal, shape_two_instr, legalPair, hdst, hmode, bne_self_eq_false, Bool.false_and]

/-- R121 to R124: a legal instruction that the words hold is what `decode` answers. -/
theorem decode_of_decodeWords {c : Codes} {extra : List (AddrMode × AddrMode)} {ws rest : List Word} {k : Nat}
    {i : Instr} (hd : c.decodeWords (ws.drop k) = .ok (i, rest)) (hl : i.legal extra = true) :
    c.decode extra ws k
      = .ok { instr := i, length := (ws.drop k).length - rest.length, noncanonical := !i.canonical } := by
  have himm : ¬ c.immediateDestination (ws.drop k) = true := fun himm => by
    simp [not_legal_of_immediateDestination extra himm hd] at hl
  simp only [Codes.decode, hd, hl, if_neg himm, if_true]

/-! ## The encode functions on an instruction's own arguments -/

theorem modeNamed_modeCode {c : Codes} (h : c.modes.toList.Nodup) (m : AddrMode) :
    c.modeNamed (c.modeCode m).toNat = some m := by
  rw [modeNamed_of_lt c (c.modeCode m).isLt, BitVec.ofNat_toNat, BitVec.setWidth_eq, Codes.modeOf_modeCode h]

theorem oneOp_word_eq (v : Nat) (m : BitVec 2) (r : Reg) :
    BitVec.ofNat 16 (v * 64 + m.toNat * 16 + r.toNat) = (BitVec.ofNat 10 v ++ m ++ r : Word) := by
  apply BitVec.eq_of_toNat_eq
  have := m.isLt
  have := r.isLt
  simp only [toNat_append_eq, BitVec.toNat_ofNat]
  omega

theorem twoOp_word_eq (v : Nat) (ms : BitVec 2) (rs : Reg) (md : BitVec 2) (rd : Reg) :
    BitVec.ofNat 16 (v * 4096 + ms.toNat * 1024 + rs.toNat * 64 + md.toNat * 16 + rd.toNat)
      = (BitVec.ofNat 4 v ++ ms ++ rs ++ md ++ rd : Word) := by
  apply BitVec.eq_of_toNat_eq
  have := ms.isLt
  have := rs.isLt
  have := md.isLt
  have := rd.isLt
  simp only [toNat_append_eq, BitVec.toNat_ofNat]
  omega

theorem branch_word_eq (v : Nat) (offset : BitVec 8) :
    BitVec.ofNat 16 (v * 256 + offset.toNat) = (BitVec.ofNat 8 v ++ offset : Word) := by
  apply BitVec.eq_of_toNat_eq
  have := offset.isLt
  simp only [toNat_append_eq, BitVec.toNat_ofNat]
  omega

/-- R98: the offset argument is the extra word. -/
theorem extraWords_eq (o : Operand) : (if o.mode.takesExtra then [o.offset] else []) = o.extraWords := by
  cases o <;> rfl

/-- R123: a destination that is not IMMEDIATE has an extra word for INDEXED only. -/
theorem extraWords_eq_of_ne_immediate {o : Operand} (h : o.mode ≠ .immediate) :
    (if o.mode = .indexed then [o.offset] else []) = o.extraWords := by
  cases o with
  | immediate f v => exact absurd rfl h
  | direct r | indirect r | indexed r e => rfl

theorem reg_bounds (r : Reg) : (0 : Int) ≤ r.toNat ∧ (r.toNat : Int) < 16 := by
  have := r.isLt
  omega

theorem word_bounds (w : Word) : (0 : Int) ≤ w.toNat ∧ (w.toNat : Int) < 65536 := by
  have := w.isLt
  omega

theorem encodeTwoOperand_operands {c : Codes} (h : c.modes.toList.Nodup) {extra : List (AddrMode × AddrMode)}
    (op : TwoOp) {src dst : Operand} (hl : legalPair extra src.mode dst.mode = true) :
    c.encodeTwoOperand extra op (c.modeCode dst.mode).toNat dst.field.toNat (c.modeCode src.mode).toNat
        src.field.toNat dst.offset.toNat src.offset.toNat
      = .ok ((BitVec.ofNat 4 (c.twoOp.value op) ++ c.modeCode src.mode ++ src.field ++ c.modeCode dst.mode
        ++ dst.field : Word) :: (src.extraWords ++ dst.extraWords)) := by
  have hdst := ((legalPair_iff extra src.mode dst.mode).mp hl).1
  rw [encodeTwoOperand_ok c extra op (modeNamed_modeCode h _) (modeNamed_modeCode h _) hl
    ⟨reg_bounds _, reg_bounds _⟩ ⟨fun _ => word_bounds _, fun _ => word_bounds _⟩]
  simp only [Int.toNat_natCast, twoOp_word_eq, BitVec.ofNat_toNat, BitVec.setWidth_eq, extraWords_eq,
    extraWords_eq_of_ne_immediate hdst]

theorem encodeOneOperand_operand {c : Codes} (h : c.modes.toList.Nodup) (op : OneOp) {dst : Operand}
    (hl : legalMode op dst.mode = true) (hcanon : dst.mode = .immediate → dst.field = 0) :
    c.encodeOneOperand op (c.modeCode dst.mode).toNat dst.field.toNat dst.offset.toNat
      = .ok ((BitVec.ofNat 10 (c.oneOp.value op) ++ c.modeCode dst.mode ++ dst.field : Word) :: dst.extraWords) := by
  have hfield : (if dst.mode = .immediate then 0 else dst.field.toNat) = dst.field.toNat := by
    split
    · next himm => rw [hcanon himm]; rfl
    · rfl
  rw [encodeOneOperand_ok c op (modeNamed_modeCode h _) hl (fun _ => reg_bounds _) (fun _ => word_bounds _)]
  simp only [Int.toNat_natCast, hfield, oneOp_word_eq, BitVec.ofNat_toNat, BitVec.setWidth_eq, extraWords_eq]

/-- R106 to R110: the encode functions accept a well-formed instruction and give its encoding. -/
theorem encodeCall_of_wellFormed {c : Codes} (h : c.modes.toList.Nodup) {extra : List (AddrMode × AddrMode)}
    {i : Instr} (hl : i.legal extra = true) (hcanon : i.canonical = true) :
    c.encodeCall extra i = .ok (c.encode i) := by
  unfold Codes.encodeCall Codes.encode
  unfold Instr.legal at hl
  unfold Instr.canonical at hcanon
  cases hshape : i.shape <;> simp only [hshape] at hl hcanon ⊢
  case two op src dst => exact encodeTwoOperand_operands h op hl
  case one op dst =>
    refine encodeOneOperand_operand h op hl fun himm => ?_
    cases dst with
    | immediate f v => exact eq_of_beq hcanon
    | direct r | indirect r | indexed r e => cases himm
  case branch op offset =>
    have := offset.isLt
    rw [encodeBranch_ok c op (by omega), Int.toNat_natCast, branch_word_eq]
  case other op => rfl

/-- Settles O5: the encode functions give the encoding, and the decoder reads it back at its place. -/
theorem roundTripLaw : Obligations.RoundTripLaw := by
  intro c extra i before after hv hwf
  obtain ⟨hl, hcanon⟩ : i.legal extra = true ∧ i.canonical = true := by
    simpa [Instr.wellFormedFor] using hwf
  refine ⟨c.encode i, encodeCall_of_wellFormed hv.1 hl hcanon, rfl, ?_⟩
  have hdrop : (before ++ c.encode i ++ after).drop before.length = c.encode i ++ after := by
    rw [List.append_assoc, List.drop_left]
  have hd := decodeWords_encode hv i after
  rw [decode_of_decodeWords (hdrop ▸ hd) hl, hdrop, List.length_append, Nat.add_sub_cancel, hcanon, Bool.not_true]

end Sys2Proof.Proofs.RoundTrip

/-! The control word (R150 to R155): its integer as a number with a digit for each field. -/

namespace Sys2Proof.Proofs.ControlWordCodec
open Sys2Proof Sys2Proof.Machine Sys2Proof.Proofs.Encoders

/-- A field that fits between its place `j` and the fields above it is their lowest digit. -/
theorem shiftLeft_or_shiftLeft_eq (j w hi : Nat) {x : Nat} (hx : x < 2 ^ w) :
    (hi <<< (j + w)) ||| (x <<< j) = (hi * 2 ^ w + x) <<< j := by
  rw [Nat.add_comm, Nat.shiftLeft_add, ← Nat.shiftLeft_or_distrib, shiftLeft_or_eq w hi hx]

/-- R151, R152: the integer of a record in Horner form, field by field from `SBus` down, each digit in the base of
its field's width. The topmost field needs no bound. -/
theorem build_eq_horner {f : Fields} (hf : f.inWidth) :
    build f = (((((((((f.sbus * 2 ^ 4 + f.dbus) * 2 ^ 4 + f.alu) * 2 ^ 3 + f.rbus) * 2 ^ 4 + f.misc) * 2 ^ 2
      + f.mem) * 2 ^ 4 + f.cond) * 2 ^ 7 + f.addressTrue) * 2 ^ 7 + f.addressFalse) * 2 ^ 3 + f.indexTrue) * 2 ^ 3
      + f.indexFalse := by
  obtain ⟨-, hdbus, halu, hrbus, hmisc, hmem, hcond, haddressTrue, haddressFalse, hindexTrue, hindexFalse⟩ := hf
  rw [build, shiftLeft_or_shiftLeft_eq 37 4 _ hdbus, shiftLeft_or_shiftLeft_eq 33 4 _ halu,
    shiftLeft_or_shiftLeft_eq 30 3 _ hrbus, shiftLeft_or_shiftLeft_eq 26 4 _ hmisc,
    shiftLeft_or_shiftLeft_eq 24 2 _ hmem, shiftLeft_or_shiftLeft_eq 20 4 _ hcond,
    shiftLeft_or_shiftLeft_eq 13 7 _ haddressTrue, shiftLeft_or_shiftLeft_eq 6 7 _ haddressFalse,
    shiftLeft_or_shiftLeft_eq 3 3 _ hindexTrue, shiftLeft_or_eq 3 _ hindexFalse]

/-- R152: each field weighs 2 to its shift. -/
theorem build_eq_sum {f : Fields} (hf : f.inWidth) :
    build f = f.sbus * 2 ^ 41 + f.dbus * 2 ^ 37 + f.alu * 2 ^ 33 + f.rbus * 2 ^ 30 + f.misc * 2 ^ 26
      + f.mem * 2 ^ 24 + f.cond * 2 ^ 20 + f.addressTrue * 2 ^ 13 + f.addressFalse * 2 ^ 6
      + f.indexTrue * 2 ^ 3 + f.indexFalse := by
  rw [build_eq_horner hf]
  ring

/-- R152: the widths add up to 44. -/
theorem build_lt {f : Fields} (hf : f.inWidth) : build f < 2 ^ 44 := by
  rw [build_eq_sum hf]
  unfold Fields.inWidth at hf
  omega

/-- Settles O10: the sum is the Horner form multiplied out, and the widths bound it. -/
theorem controlWordValue : Obligations.ControlWordValue :=
  fun _ hf => ⟨build_eq_sum hf, build_lt hf⟩

end Sys2Proof.Proofs.ControlWordCodec

/-! One micro-cycle (R190), stage by stage: what each stage of the Sequencer may write, and through it the two flag
registers, the pending one of stage 4 and the committed one of stages 5 and 7 (R214, R242, R243). -/

namespace Sys2Proof.Proofs.MicroCycle
open Sys2Proof Sys2Proof.Machine

/-! ## Stages 2 and 3: the operands -/

/-- R193: stage 2 latches `regsel` at most. -/
theorem sbusStage_frame (sel : SBus) (s : State) :
    (sbusStage sel s).2 = { s with regsel := (sbusStage sel s).2.regsel } := by
  cases sel <;> rfl

/-- R203: stage 3 latches `regsel` at most. -/
theorem dbusStage_frame (sel : DBus) (s : State) :
    (dbusStage sel s).2 = { s with regsel := (dbusStage sel s).2.regsel } := by
  cases sel <;> rfl

/-- The value on the SBus does not depend on the latched control word. -/
theorem sbusStage_value_latched (sel : SBus) (s : State) (cw : Option ControlWord) :
    (sbusStage sel { s with cw }).1 = (sbusStage sel s).1 := by
  cases sel <;> rfl

/-- The value on the DBus depends neither on the latched control word nor on the latched register. -/
theorem dbusStage_value_latched (sel : DBus) (s : State) (cw : Option ControlWord) (regsel : Option Reg) :
    (dbusStage sel { s with cw, regsel }).1 = (dbusStage sel s).1 := by
  cases sel <;> rfl

/-- What stage 2 latches is not seen on the DBus. -/
theorem dbusStage_value_after_sbusStage (d : DBus) (b : SBus) (s : State) :
    (dbusStage d (sbusStage b s).2).1 = (dbusStage d s).1 := by
  rw [sbusStage_frame]
  exact dbusStage_value_latched d s s.cw _

/-- The state after stages 2 and 3. -/
def operandsRead (m : MicroInstr) (s : State) : State := (dbusStage m.dbus (sbusStage m.sbus s).2).2

theorem operandsRead_frame (m : MicroInstr) (s : State) :
    operandsRead m s = { s with regsel := (operandsRead m s).regsel } := by
  unfold operandsRead
  rw [dbusStage_frame, sbusStage_frame]

/-! ## Stage 4: the ALU -/

/-- R211: `NONE` is the one operation without a result. -/
theorem alu_eq_none_iff (op : Alu) (S D : Word) (carry : Bool) : alu op S D carry = none ↔ op = .none := by
  cases op <;> simp [alu]

/-- R214: the result, where there is one, leaves the value for stage 5 and overwrites the pending flags. -/
theorem aluStage_eq (op : Alu) (S D : Word) (s : State) :
    aluStage op S D s = ((alu op S D s.flags.c).map Prod.fst,
      { s with pending := ((alu op S D s.flags.c).map Prod.snd).getD s.pending }) := by
  unfold aluStage
  cases alu op S D s.flags.c <;> rfl

/-- What the ALU computes in a micro-cycle that starts at `s`. -/
def aluResult (m : MicroInstr) (s : State) : Option (Word × Flags) :=
  alu m.alu (sbusStage m.sbus s).1 (dbusStage m.dbus s).1 s.flags.c

theorem aluResult_latched (m : MicroInstr) (s : State) (cw : Option ControlWord) :
    aluResult m { s with cw } = aluResult m s := by
  unfold aluResult
  rw [sbusStage_value_latched, dbusStage_value_latched m.dbus s cw s.regsel]

/-- The pending flags after stage 4. -/
def pendingAfter (m : MicroInstr) (s : State) : Flags := ((aluResult m s).map Prod.snd).getD s.pending

/-- The state after stages 2 to 4. -/
def computed (m : MicroInstr) (s : State) : State := { operandsRead m s with pending := pendingAfter m s }

theorem pendingAfter_of_none {m : MicroInstr} (s : State) (h : m.alu = .none) : pendingAfter m s = s.pending := by
  rw [pendingAfter, aluResult, (alu_eq_none_iff ..).mpr h]
  rfl

theorem aluResult_eq_some_of_ne_none {m : MicroInstr} (s : State) (h : m.alu ≠ .none) :
    ∃ res, aluResult m s = some (res, pendingAfter m s) := by
  have hne : aluResult m s ≠ none := (alu_eq_none_iff ..).not.mpr h
  obtain ⟨⟨res, pf⟩, hres⟩ := Option.ne_none_iff_exists'.mp hne
  exact ⟨res, by rw [pendingAfter, hres]; rfl⟩

/-- Stages 2 to 4 together. -/
theorem aluStage_operandsRead (m : MicroInstr) (s : State) :
    aluStage m.alu (sbusStage m.sbus s).1 (dbusStage m.dbus (sbusStage m.sbus s).2).1 (operandsRead m s)
      = ((aluResult m s).map Prod.fst, computed m s) := by
  have hflags : (operandsRead m s).flags = s.flags := by rw [operandsRead_frame]
  have hpending : (operandsRead m s).pending = s.pending := by rw [operandsRead_frame]
  rw [aluStage_eq, dbusStage_value_after_sbusStage, computed, pendingAfter, aluResult, hflags, hpending]

theorem computed_frame (m : MicroInstr) (s : State) :
    computed m s = { s with pending := pendingAfter m s, regsel := (computed m s).regsel } := by
  unfold computed
  rw [operandsRead_frame]

/-! ## Stages 5 to 10: what a completed stage has written -/

/-- Stage 5 writes a destination latch: a register, `pc`, `adr`, `mdr`, `t` or the committed flags. -/
theorem rbusStage_frame {sel : RBus} {res : Option Word} {s t : State} (h : rbusStage sel res s = .next t) :
    t = { s with regs := t.regs, pc := t.pc, adr := t.adr, mdr := t.mdr, t := t.t, flags := t.flags } := by
  cases res with
  | none => cases sel <;> cases h; rfl
  | some v =>
    cases sel
    case reg =>
      simp only [rbusStage] at h
      split at h <;> cases h; rfl
    all_goals cases h; rfl

/-- R237: of the destinations only `FLAGS` touches the committed flags, and it loads the ALU's value into them. -/
theorem rbusStage_flags {sel : RBus} {res : Option Word} {s t : State} (h : rbusStage sel res s = .next t) :
    (sel ≠ .flags → t.flags = s.flags)
      ∧ (sel = .flags → ∃ v, res = some v ∧ t.flags = Flags.ofWord v) := by
  cases res with
  | none => cases sel <;> cases h; exact ⟨fun _ => rfl, nofun⟩
  | some v =>
    cases sel
    case flags => cases h; exact ⟨fun hne => absurd rfl hne, fun _ => ⟨v, rfl, rfl⟩⟩
    case reg =>
      simp only [rbusStage] at h
      split at h <;> cases h; exact ⟨fun _ => rfl, nofun⟩
    all_goals cases h; exact ⟨fun _ => rfl, nofun⟩

/-- Stage 6 writes `ir`, `mdr` or memory. -/
theorem memStage_frame {sel : MemOp} {s t : State} (h : memStage sel s = .next t) :
    t = { s with ir := t.ir, mdr := t.mdr, mem := t.mem } := by
  cases sel <;> simp only [memStage] at h
  case none => cases h; rfl
  case ifch => obtain ⟨-, hf⟩ | ⟨-, hf⟩ := fetchIr_cases s <;> rw [hf] at h <;> cases h; rfl
  case read => obtain ⟨-, hr⟩ | ⟨-, hr⟩ := memRead_cases s <;> rw [hr] at h <;> cases h; rfl
  case write => obtain ⟨-, hw⟩ | ⟨-, hw⟩ := memWrite_cases s <;> rw [hw] at h <;> cases h; rfl

/-- R240 to R243: the committed flags that a side effect leaves, of the pending and the committed ones it finds. -/
def miscFlags (sel : Misc) (pending f : Flags) : Flags :=
  match sel with
  | .cond => pending
  | .setZ => { f with z := true }
  | .clrZ => { f with z := false }
  | .setC => { f with c := true }
  | .clrC => { f with c := false }
  | .setV => { f with v := true }
  | .clrV => { f with v := false }
  | .setS => { f with s := true }
  | .clrS => { f with s := false }
  | .none | .incPc | .incSp | .decSp => f

/-- Stage 7 steps `pc` or `sp`, or does what `miscFlags` says to the committed flags. -/
theorem miscStage_frame {sel : Misc} {s t : State} (h : miscStage sel s = .next t) :
    t = { s with pc := t.pc, sp := t.sp, flags := miscFlags sel s.pending s.flags } := by
  cases sel <;> simp only [miscStage] at h
  case decSp => obtain ⟨-, hd⟩ | ⟨-, hd⟩ := decSp_cases s <;> rw [hd] at h <;> cases h; rfl
  all_goals cases h
  all_goals rfl

/-- Stages 8 to 10 write `upc` only. -/
theorem nextAddress_frame {c : Codes} {m : MicroInstr} {s t : State} (h : nextAddress c m s = .next t) :
    t = { s with upc := t.upc } := by
  unfold nextAddress at h
  dsimp only at h
  split at h
  · cases h
  · cases h; rfl

/-! ## The whole micro-cycle -/

/-- R190: a micro-instruction completes when each of its stages does. -/
theorem runMicro_eq_next {c : Codes} {m : MicroInstr} {s t : State} :
    runMicro c m s = .next t ↔ ∃ written accessed effected : State,
      rbusStage m.rbus ((aluResult m s).map Prod.fst) (computed m s) = .next written
        ∧ memStage m.mem written = .next accessed ∧ miscStage m.misc accessed = .next effected
        ∧ nextAddress c m effected = .next t := by
  have hrun : runMicro c m s = andThen (rbusStage m.rbus ((aluResult m s).map Prod.fst) (computed m s)) fun s =>
      andThen (memStage m.mem s) fun s => andThen (miscStage m.misc s) (nextAddress c m) := by
    simp only [runMicro]
    rw [← operandsRead, aluStage_operandsRead]
  simp only [hrun, andThen_eq_next, exists_and_left]

/-- R199: a micro-cycle that completes ran the micro-instruction at `upc`, its word latched. -/
theorem microCycle_eq_next {k : Setup} {s t : State} :
    microCycle k s = .next t ↔ ∃ w m, k.rom[s.upc.toNat]? = some w ∧ k.selectors.ofWord w = some m
      ∧ runMicro k.codes m { s with cw := some w } = .next t := by
  unfold microCycle
  cases hrom : k.rom[s.upc.toNat]? with
  | none => simp
  | some w => cases hm : k.selectors.ofWord w <;> simp [hm]

/-- The flags after a micro-instruction: the pending ones as stage 4 left them, the committed ones as stage 5 left
them (`f`) and stage 7 then changed them. -/
theorem runMicro_flags {c : Codes} {m : MicroInstr} {s t : State} (h : runMicro c m s = .next t) :
    t.pending = pendingAfter m s ∧ ∃ f : Flags,
      (m.rbus ≠ .flags → f = s.flags)
        ∧ (m.rbus = .flags → ∃ res pf, aluResult m s = some (res, pf) ∧ f = Flags.ofWord res)
        ∧ t.flags = miscFlags m.misc t.pending f := by
  obtain ⟨written, accessed, effected, hrbus, hmem, hmisc, hnext⟩ := runMicro_eq_next.mp h
  obtain ⟨hkeep, hload⟩ := rbusStage_flags hrbus
  have hcomputed : (computed m s).flags = s.flags := by rw [computed_frame]
  have hpending : accessed.pending = pendingAfter m s := by
    rw [memStage_frame hmem, rbusStage_frame hrbus, computed_frame]
  have hkept : t.pending = accessed.pending := by rw [nextAddress_frame hnext, miscStage_frame hmisc]
  have hflags : t.flags = miscFlags m.misc accessed.pending accessed.flags := by
    rw [nextAddress_frame hnext, miscStage_frame hmisc]
  have hwritten : accessed.flags = written.flags := by rw [memStage_frame hmem]
  refine ⟨hkept.trans hpending, written.flags, fun hne => (hkeep hne).trans hcomputed, fun heq => ?_, ?_⟩
  · obtain ⟨v, hv, hf⟩ := hload heq
    obtain ⟨⟨res, pf⟩, hres, rfl⟩ := Option.map_eq_some_iff.mp hv
    exact ⟨res, pf, hres, hf⟩
  · rw [hflags, hwritten, hkept]

/-- Settles O17: the ALU's result decides the pending flags, stages 5 and 7 the committed ones; latching the control
word changes neither. -/
theorem twoPhaseFlags : Obligations.TwoPhaseFlags := by
  intro k m s t hm h
  obtain ⟨w, m', hrom, hword, hrun⟩ := microCycle_eq_next.mp h
  obtain rfl : m' = m := by simpa [hrom, hword] using hm
  obtain ⟨hpending, f, hkeep, hload, hflags⟩ := runMicro_flags hrun
  have hlatched := aluResult_latched m' s (some w)
  have hafter : t.pending = pendingAfter m' s := by rw [hpending, pendingAfter, hlatched, pendingAfter]
  rw [hlatched] at hload
  refine ⟨fun hnone => hafter.trans (pendingAfter_of_none s hnone), fun hop => ?_, f, hkeep, hload, ?_⟩
  · rw [hafter]
    exact aluResult_eq_some_of_ne_none s hop
  · rw [hflags]
    rfl

end Sys2Proof.Proofs.MicroCycle

/-! The dispatch (R278 to R282, R320): what the index selectors answer on a word that holds an opcode of a table,
and the entry each opcode of the reference table is reached at. -/

namespace Sys2Proof.Proofs.Dispatch
open Sys2Proof Sys2Proof.Machine Sys2Proof.Proofs.Classification

/-! ## A word that holds an opcode -/

/-- R100: how far above bit 0 the opcode field of a group's words begins. -/
def opcodeShift : Group → Nat
  | .twoOp => 12
  | .oneOp => 6
  | .branch => 8
  | .other => 0

theorem opcode_eq_div (w : Word) : opcode w = w.toNat / 2 ^ opcodeShift (group w) := by
  cases hg : group w with
  | twoOp => exact opcode_of_twoOp hg
  | oneOp => exact opcode_of_oneOp hg
  | branch => exact opcode_of_branch hg
  | other => rw [opcode_of_other hg, opcodeShift, Nat.pow_zero, Nat.div_one]

/-- R100: a word belongs to the group whose range its field lies in, the field being read at that group's place. -/
theorem group_eq_of_field_mem_range {w : Word} {g : Group}
    (h : g.range.1 ≤ w.toNat / 2 ^ opcodeShift g ∧ w.toNat / 2 ^ opcodeShift g ≤ g.range.2) : group w = g := by
  obtain ⟨lead, hg⟩ | ⟨lead, hg⟩ | ⟨lead, hg⟩ | ⟨lead, hg⟩ := group_cases w <;>
    cases g <;> simp only [Group.range, opcodeShift, hg, reduceCtorEq] at h ⊢ <;> omega

/-- R101: a word whose field holds the value of an opcode is in the opcode's group, and its table names it. -/
theorem group_opcode_of_field_eq_value {α : Type} [DecidableEq α] {run : OpcodeRun α} {all : List α} {g : Group}
    {w : Word} {op : α} (hrun : run.complete all g.range) (hall : op ∈ all)
    (h : w.toNat / 2 ^ opcodeShift g = run.value op) :
    group w = g ∧ opcode w = run.value op ∧ (run.named (opcode w)).isSome := by
  have hg : group w = g := group_eq_of_field_mem_range (h ▸ OpcodeRun.value_mem hrun hall)
  have hop : opcode w = run.value op := by rw [opcode_eq_div, hg, h]
  obtain ⟨-, hmem, -⟩ := hrun
  exact ⟨hg, hop, by rw [hop, run.named_value (hmem op hall)]; rfl⟩

/-! ## The index selectors -/

/-- R278 to R280: on a defined opcode of a group it serves, a distance selector answers the distance. -/
theorem distanceIndex_eq_ok {c : Codes} {serves : Group → Bool} {s : State} {g : Group} (hg : group s.ir = g)
    (hserves : serves g = true) (hdef : c.opcodeDefined s.ir = true) :
    distanceIndex c serves s = .ok (opcodeDistance c s.ir) := by
  simp [distanceIndex, hg, hserves, hdef]

section
variable {c : Codes} (hv : c.valid) {s : State}
include hv

theorem indexValue_twoOp {op : TwoOp} (h : s.ir.toNat / 2 ^ 12 = c.twoOp.value op) :
    indexValue c .twoOp s = .ok (2 * (c.twoOp.value op - c.twoOp.base)) := by
  obtain ⟨-, hrun, -⟩ := hv
  obtain ⟨hg, hop, hnamed⟩ := group_opcode_of_field_eq_value (g := .twoOp) hrun op.mem_table h
  have hdef : c.opcodeDefined s.ir = true := by simpa only [Codes.opcodeDefined, hg] using hnamed
  rw [indexValue, distanceIndex_eq_ok hg rfl hdef]
  simp only [opcodeDistance, hg, hop]

theorem indexValue_oneOp {op : OneOp} (h : s.ir.toNat / 2 ^ 6 = c.oneOp.value op) :
    indexValue c .oneOp s = .ok (2 * (c.oneOp.value op - c.oneOp.base)
      + (if c.oneOp.value op > c.oneOp.value .call then 2 else 0)) := by
  obtain ⟨-, -, hrun, -⟩ := hv
  obtain ⟨hg, hop, hnamed⟩ := group_opcode_of_field_eq_value (g := .oneOp) hrun op.mem_table h
  have hdef : c.opcodeDefined s.ir = true := by simpa only [Codes.opcodeDefined, hg] using hnamed
  rw [indexValue, distanceIndex_eq_ok hg rfl hdef]
  simp only [opcodeDistance, hg, hop]

theorem indexValue_opcode_of_branch {op : BranchOp} (h : s.ir.toNat / 2 ^ 8 = c.branch.value op) :
    indexValue c .opcode s = .ok (2 * (c.branch.value op - c.branch.base)) := by
  obtain ⟨-, -, -, hrun, -⟩ := hv
  obtain ⟨hg, hop, hnamed⟩ := group_opcode_of_field_eq_value (g := .branch) hrun op.mem_table h
  have hdef : c.opcodeDefined s.ir = true := by simpa only [Codes.opcodeDefined, hg] using hnamed
  rw [indexValue, distanceIndex_eq_ok hg rfl hdef]
  simp only [opcodeDistance, hg, hop]

theorem indexValue_opcode_of_other {op : OtherOp} (h : s.ir.toNat = c.other.value op) :
    indexValue c .opcode s = .ok (2 * (c.other.value op - c.other.base)) := by
  obtain ⟨-, -, -, -, hrun, -⟩ := hv
  have hfield : s.ir.toNat / 2 ^ opcodeShift .other = c.other.value op := by
    rw [opcodeShift, Nat.pow_zero, Nat.div_one, h]
  obtain ⟨hg, hop, hnamed⟩ := group_opcode_of_field_eq_value hrun op.mem_table hfield
  have hdef : c.opcodeDefined s.ir = true := by simpa only [Codes.opcodeDefined, hg] using hnamed
  rw [indexValue, distanceIndex_eq_ok hg rfl hdef]
  simp only [opcodeDistance, hg, hop]

end

/-! ## The entries of the reference table -/

/-- R279, R320: the entry counts the extra slot from 0x20C, the value of CALL. -/
theorem oneOpEntry_eq (op : OneOp) :
    oneOpEntry op = 31 + (2 * (Codes.reference.oneOp.value op - Codes.reference.oneOp.base)
      + (if Codes.reference.oneOp.value op > Codes.reference.oneOp.value .call then 2 else 0)) := by
  have hcall : Codes.reference.oneOp.value .call = 0x20C := rfl
  rw [hcall, ← Nat.add_assoc]
  rfl

/-- Settles O14: the entries evaluate to R320's numbers, and each selector answers the distance its entry adds to the
group's base. -/
theorem entryTable : Obligations.EntryTable := by
  have hv := Codes.reference_valid
  refine ⟨rfl, rfl, rfl, rfl, fun op => by cases op <;> rfl, fun s =>
    ⟨fun op h => ⟨_, indexValue_twoOp hv h, rfl⟩, fun op h => ⟨_, indexValue_oneOp hv h, (oneOpEntry_eq op).symm⟩,
      fun op h => ⟨_, indexValue_opcode_of_other hv h, rfl⟩, fun op h => ⟨_, indexValue_opcode_of_branch hv h, rfl⟩⟩⟩

end Sys2Proof.Proofs.Dispatch

/-! The two-operand instructions (R340 to R347): their encoding and legality, the fetch of both operands, the execute
word, and the write-back, each once for all of them. -/

namespace Sys2Proof.Proofs.TwoOperand
open Sys2Proof Sys2Proof.Machine

/-! ## Encoding and legality -/

/-- R94: the opcode word of a two-operand instruction, `code` being its opcode's value (R102). -/
theorem encode_head_two {i : Instr} {op : TwoOp} {src dst : Operand} {code : BitVec 4}
    (h : i.shape = .two op src dst) (hcode : BitVec.ofNat 4 op.value = code) :
    (encode i).head? = some (code ++ src.mode.code ++ src.field ++ dst.mode.code ++ dst.field) := by
  subst hcode
  simp only [encode, Codes.encode, h, List.head?_cons]
  rfl

/-- R112, R124: with no extra illegal pair, a two-operand instruction is well formed unless its destination is
IMMEDIATE. -/
theorem wellFormed_two {i : Instr} {op : TwoOp} {src dst : Operand} (h : i.shape = .two op src dst) :
    i.wellFormed = (dst.mode != .immediate) := by
  have hcanonical : i.canonical = true := by rw [Instr.canonical, h]
  have hlegal : i.legal [] = legalPair [] src.mode dst.mode := by rw [Instr.legal, h]
  rw [Instr.wellFormed, Instr.wellFormedFor, Config.twoOpExtraIllegal, hcanonical, hlegal]
  simp [legalPair]

/-- R321: the micro-instruction of a row of the store's table is the one its control word decodes to. -/
theorem wordAt_of_fields {u : MicroAddr} {m : MicroInstr} (h : referenceFields[u.toNat]? = some m) : wordAt u m :=
  (controlWordAt_fields u).trans h

/-! ## Operands at a state whose `pc` has moved -/

section MovedPc

variable {s t : State} {p : Word} (h : t.arch = { s.arch with pc := p })
include h

theorem regs_of_moved_pc : t.regs = s.regs := congrArg Arch.regs h
theorem mem_of_moved_pc : t.mem = s.mem := congrArg Arch.mem h
theorem params_of_moved_pc : t.params = s.params := congrArg Arch.params h

theorem valueOf_of_moved_pc (o : Operand) : valueOf o t = valueOf o s := by
  cases o <;> simp only [valueOf, State.reg_congr s t (regs_of_moved_pc h), mem_of_moved_pc h]

theorem readable_of_moved_pc (o : Operand) : readable o t = readable o s := by
  cases o <;> simp only [readable, State.reg_congr s t (regs_of_moved_pc h),
    State.inMemory_congr s t (params_of_moved_pc h)]

theorem placeOf_of_moved_pc (o : Operand) (at_ : Word) : placeOf o t at_ = placeOf o s at_ := by
  cases o <;> simp only [placeOf, State.reg_congr s t (regs_of_moved_pc h)]

end MovedPc

/-- An operand whose place can be stored to can be read. -/
theorem readable_of_place_inMemory {o : Operand} {s : State} {at_ : Word}
    (h : (placeOf o s at_).inMemory s = true) : readable o s = true := by
  cases o with
  | immediate _ _ | direct _ => rfl
  | indirect _ | indexed _ _ => exact h

/-- Only a DIRECT operand lives in a register. -/
theorem placeOf_eq_cell {o : Operand} (h : ∀ r, o ≠ .direct r) (s : State) (at_ : Word) :
    ∃ a, placeOf o s at_ = .cell a := by
  cases o with
  | direct r => exact absurd rfl (h r)
  | immediate _ _ | indirect _ | indexed _ _ => exact ⟨_, rfl⟩

/-! ## Steps 1 to 3 of R340: both operands fetched -/

/-- What the fetch of both operands from `s` has left in `u`, where the opcode's own words start. -/
structure OperandsFetched (src dst : Operand) (s u : State) : Prop where
  t : u.t = valueOf src s
  mdr : u.mdr = valueOf dst s
  ir : u.ir = s.ir
  arch : u.arch = { s.arch with pc := s.pc + (extraCount src + extraCount dst) }
  adr : ∀ a, destPlace src dst s = .cell a → u.adr = a

/-- `pc` past the source's extra word and then the destination's. -/
theorem arch_moved_twice {s t : State} {m n : Word} (h : t.arch = { s.arch with pc := s.pc + m }) :
    { t.arch with pc := t.pc + n } = { s.arch with pc := s.pc + (m + n) } := by
  have hpc : t.pc = s.pc + m := congrArg Arch.pc h
  rw [h, hpc, BitVec.add_assoc]

/-- R340: with both operands readable the opcode's own words run on the fetched state. -/
theorem withOperands_of_readable {src dst : Operand} {s : State} (hsrc : readable src s = true)
    (hdst : readable dst s = true) :
    ∃ u, OperandsFetched src dst s u ∧ ∀ body, withOperands src dst body s = body u := by
  obtain ⟨t, hfetch, ht, harch, hir⟩ := (fetchSource_spec src s).1 hsrc
  have hpc : t.pc = s.pc + extraCount src := congrArg Arch.pc harch
  obtain ⟨u, hfetch', hmdr, ht', harch', hir', hadr, -⟩ :=
    (fetchDest_spec dst t).1 ((readable_of_moved_pc harch dst).trans hdst)
  refine ⟨u, ⟨ht'.trans ht, hmdr.trans (valueOf_of_moved_pc harch dst), hir'.trans hir,
    harch'.trans (arch_moved_twice harch), fun a ha => hadr a ?_⟩, fun body => ?_⟩
  · rw [placeOf_of_moved_pc harch, hpc]
    exact ha
  · rw [withOperands, hfetch, andThen_next, hfetch', andThen_next]

/-- R340: with the source readable and the destination not, the destination's fetch stops, whatever the opcode. -/
theorem withOperands_of_unreadable_dst {src dst : Operand} {s : State} (hsrc : readable src s = true)
    (hdst : readable dst s = false) (body : State → Result) :
    StopsOutOfRange (withOperands src dst body s)
      { s.arch with pc := s.pc + (extraCount src + extraCount dst) } := by
  obtain ⟨t, hfetch, -, harch, -⟩ := (fetchSource_spec src s).1 hsrc
  obtain ⟨u, hfetch', harch'⟩ := (fetchDest_spec dst t).2 ((readable_of_moved_pc harch dst).trans hdst)
  refine ⟨u, ?_, harch'.trans (arch_moved_twice harch)⟩
  rw [withOperands, hfetch, andThen_next, hfetch', andThen_fault]

/-! ## The write-back -/

/-- A store leaves the cells outside its place as they were. -/
theorem store_mem_read_other (a : Arch) {p : Place} (v : Word) {n : Nat} (h : ∀ c, p = .cell c → c.toNat ≠ n) :
    (a.store p v).mem.read n = a.mem.read n := by
  cases p with
  | reg _ => rfl
  | cell c => exact Memory.read_write_other v (h c rfl).symm a.mem

/-- A store leaves the registers outside its place as they were. -/
theorem store_regs_other (a : Arch) {p : Place} (v : Word) {q : Reg} (h : p ≠ .reg q) :
    (a.store p v).regs[q.toNat]'q.isLt = a.regs[q.toNat]'q.isLt := by
  cases p with
  | cell _ => rfl
  | reg r =>
    have hne : r.toNat ≠ q.toNat := fun heq => h (congrArg Place.reg (BitVec.eq_of_toNat_eq heq))
    exact Vector.getElem_set_ne r.isLt q.isLt hne

/-- R315: the write-back of `v` from `mdr` completes the instruction that has moved `pc` by `words` and committed the
flags `f`, when `adr` holds the destination's cell, if it is one. -/
theorem storesResult_writeBack {o : Operand} {s w : State} {at_ words v : Word} {f : Flags}
    (hin : (placeOf o s at_).inMemory s = true)
    (harch : w.arch = { s.arch with pc := s.pc + words, flags := f }) (hir : w.ir = s.ir) (hmdr : w.mdr = v)
    (hadr : ∀ a, placeOf o s at_ = .cell a → w.adr = a) :
    StoresResult (writeBack o w) s words f (placeOf o s at_) v := by
  have hparams : w.params = s.params := congrArg Arch.params harch
  obtain ⟨t, hnext, hupc, hir', harch'⟩ := writeBack_next (o := o) (s := w) (p := placeOf o s at_)
    (fun r ho => by rw [ho, placeOf]) fun ho => by
      obtain ⟨a, ha⟩ := placeOf_eq_cell ho s at_
      rw [ha] at hin ⊢
      rw [hadr a ha, State.inMemory_congr s w hparams]
      exact ⟨rfl, hin⟩
  rw [harch, hmdr] at harch'
  refine ⟨t, hnext, hupc, hir'.trans hir, harch', fun n hn => ?_, fun q hq => ?_⟩
  · have hmem : t.mem = _ := congrArg Arch.mem harch'
    rw [hmem]
    exact store_mem_read_other _ v hn
  · have hregs : t.regs = _ := congrArg Arch.regs harch'
    simp only [State.reg, hregs]
    exact store_regs_other _ v hq

/-! ## The execute words -/

/-- R315, R321: an execute word with an ALU result leaves it in `mdr` and commits its flags; nothing else
architectural changes, and `adr` and `ir` are kept. -/
theorem compute_spec {s : State} {op : Alu} {S D r : Word} {f : Flags} (h : alu op S D s.flags.c = some (r, f))
    (u : MicroAddr) :
    (s.compute u op S D).mdr = r ∧ (s.compute u op S D).arch = { s.arch with flags := f }
      ∧ (s.compute u op S D).ir = s.ir ∧ (s.compute u op S D).adr = s.adr := by
  have hmdr := (s.enter u).toMdr_mdr op S D r f h
  have hpending := (s.enter u).toMdr_pending op S D r f h
  simp [State.compute, State.arch, hmdr, hpending]

/-- R340: an opcode that writes and commits stores the ALU's result of source and destination and commits its
flags. -/
theorem twoOperandResult_stores {op : Alu} {src dst : Operand} {s : State} {r : Word} {f : Flags}
    (halu : alu op (valueOf src s) (valueOf dst s) s.flags.c = some (r, f)) (u : MicroAddr)
    (hsrc : readable src s = true) (hdst : (destPlace src dst s).inMemory s = true) :
    StoresResult (twoOperandResult u op src dst s) s (extraCount src + extraCount dst) f (destPlace src dst s) r := by
  obtain ⟨v, hv, hrun⟩ := withOperands_of_readable hsrc (readable_of_place_inMemory hdst)
  have hflags : v.flags = s.flags := congrArg Arch.flags hv.arch
  have halu' : alu op v.t v.mdr v.flags.c = some (r, f) := by rw [hv.t, hv.mdr, hflags, halu]
  obtain ⟨hmdr, harch, hir, hadr⟩ := compute_spec halu' u
  rw [twoOperandResult, hrun]
  refine storesResult_writeBack hdst ?_ (hir.trans hv.ir) hmdr fun a ha => hadr.trans (hv.adr a ha)
  rw [harch, hv.arch]

/-- R341: MOV.0 leaves `t` in `mdr` and commits nothing. -/
theorem execMov_stores {src dst : Operand} {s : State} (hsrc : readable src s = true)
    (hdst : (destPlace src dst s).inMemory s = true) :
    StoresResult (execMov src dst s) s (extraCount src + extraCount dst) s.flags (destPlace src dst s)
      (valueOf src s) := by
  obtain ⟨v, hv, hrun⟩ := withOperands_of_readable hsrc (readable_of_place_inMemory hdst)
  rw [execMov, hrun]
  refine storesResult_writeBack hdst ?_ ?_ ?_ fun a ha => ?_
  · simpa [State.arch] using hv.arch
  · simpa using hv.ir
  · simpa using hv.t
  · simpa using hv.adr a ha

/-- R344: CMP.0 commits the flags of the difference and keeps no result. -/
theorem execCmp_completes {src dst : Operand} {s : State} (hsrc : readable src s = true)
    (hdst : readable dst s = true) :
    Completes (execCmp src dst s) s { s.arch with
      pc := s.pc + (extraCount src + extraCount dst)
      flags := (aluSub (valueOf src s) (valueOf dst s)).2 } := by
  obtain ⟨v, hv, hrun⟩ := withOperands_of_readable hsrc hdst
  rw [execCmp, hrun]
  have harch : (((v.enter uCmp0).aluOnly .sub v.t v.mdr).commit.toFetch).arch
      = { v.arch with flags := (aluSub v.t v.mdr).2 } := rfl
  refine ⟨_, rfl, rfl, hv.ir, ?_⟩
  rw [harch, hv.arch, hv.t, hv.mdr]

/-! ## The instructions -/

/-- Settles O38: the source's value goes through `t` and `mdr` to the destination's place; the old destination is read
first, and stops the instruction when it cannot be. -/
theorem movStoresTheSource : Obligations.MovStoresTheSource :=
  ⟨wordAt_of_fields rfl, fun _ _ _ => ⟨encode_head_two rfl rfl, wellFormed_two rfl, execMov_stores,
    fun hsrc hdst => withOperands_of_unreadable_dst hsrc hdst _⟩⟩

/-- Settles O39: `alu .sum` of source and destination is R342's sum with its flags. -/
theorem addStoresTheSum : Obligations.AddStoresTheSum :=
  ⟨wordAt_of_fields rfl, fun _ _ _ =>
    ⟨encode_head_two rfl rfl, wellFormed_two rfl, twoOperandResult_stores rfl uAdd0⟩⟩

/-- Settles O40: `alu .sub` of source and destination is R343's difference with its flags. -/
theorem subStoresTheDifference : Obligations.SubStoresTheDifference :=
  ⟨wordAt_of_fields rfl, fun _ _ _ =>
    ⟨encode_head_two rfl rfl, wellFormed_two rfl, twoOperandResult_stores rfl uSub0⟩⟩

/-- Settles O41: no write-back follows CMP.0. -/
theorem cmpSetsOnlyTheFlags : Obligations.CmpSetsOnlyTheFlags :=
  ⟨wordAt_of_fields rfl, fun _ _ _ => ⟨encode_head_two rfl rfl, wellFormed_two rfl, execCmp_completes⟩⟩

/-- Settles O42: the three logical operations of the ALU give R345's to R347's results, with C and V clear. -/
theorem logicStoresTheResult : Obligations.LogicStoresTheResult :=
  ⟨wordAt_of_fields rfl, wordAt_of_fields rfl, wordAt_of_fields rfl, fun _ _ _ =>
    ⟨encode_head_two rfl rfl, encode_head_two rfl rfl, encode_head_two rfl rfl, wellFormed_two rfl,
      wellFormed_two rfl, wellFormed_two rfl, fun hsrc hdst => ⟨twoOperandResult_stores rfl uAnd0 hsrc hdst,
        twoOperandResult_stores rfl uOr0 hsrc hdst, twoOperandResult_stores rfl uXor0 hsrc hdst⟩⟩⟩

end Sys2Proof.Proofs.TwoOperand

/-! The one-operand instructions (R360 to R371, R373 to R375): their encoding and legality, the ALU's results in the
spec's words, the fetch of the operand, and from there either the write-back of a result or a push or pop. -/

namespace Sys2Proof.Proofs.OneOperand
open Sys2Proof Sys2Proof.Machine Sys2Proof.Proofs.TwoOperand

/-! ## Encoding and legality -/

/-- R95: the opcode word of a one-operand instruction, `code` being its opcode's value (R103). -/
theorem encode_head_one {i : Instr} {op : OneOp} {dst : Operand} {code : BitVec 10}
    (h : i.shape = .one op dst) (hcode : BitVec.ofNat 10 op.value = code) :
    (encode i).head? = some (code ++ dst.mode.code ++ dst.field) := by
  subst hcode
  simp only [encode, Codes.encode, h, List.head?_cons]
  rfl

/-- R113: outside the whitelist every mode but IMMEDIATE is legal. -/
theorem legal_one_of_not_acceptsImmediate {i : Instr} {op : OneOp} {dst : Operand} (h : i.shape = .one op dst)
    (hop : op.acceptsImmediate = false) : i.legal [] = (dst.mode != .immediate) := by
  rw [Instr.legal, h]
  exact (congrArg (dst.mode != .immediate || ·) hop).trans (Bool.or_false _)

/-- R113: on the whitelist every mode is legal. -/
theorem legal_one_of_acceptsImmediate {i : Instr} {op : OneOp} {dst : Operand} (h : i.shape = .one op dst)
    (hop : op.acceptsImmediate = true) : i.legal [] = true := by
  rw [Instr.legal, h]
  exact (congrArg (dst.mode != .immediate || ·) hop).trans (Bool.or_true _)

/-! ## The ALU's results as the pseudocode writes them -/

/-- R361: CLR.0 adds two zeros. -/
theorem alu_sum_zero_zero (carry : Bool) :
    alu .sum 0 0 carry = some (0, { z := true, s := false, c := false, v := false }) := rfl

/-- R362: the borrow and the overflow of `0 - d`. -/
theorem alu_sub_zero (d : Word) (carry : Bool) :
    alu .sub d 0 carry = some (0 - d, flagsOf (0 - d) (d != 0) (d == 0x8000)) := by
  have hc : decide ((0 : Word).toNat < d.toNat) = (d != 0) := by
    rw [Bool.eq_iff_iff, decide_eq_true_iff, bne_iff_ne]
    bv_omega
  have hv : ((0 : Word).msb != d.msb && (0 - d).msb != (0 : Word).msb) = (d == 0x8000) := by
    rw [Bool.eq_iff_iff]
    simp only [BitVec.msb_eq_decide, Bool.and_eq_true, bne_iff_ne, beq_iff_eq, ne_eq, decide_eq_decide]
    bv_omega
  rw [alu, aluSub, hc, hv]

/-- R363: the carry and the overflow of `d + 1`. -/
theorem alu_sum_one (d : Word) (carry : Bool) :
    alu .sum 1 d carry = some (d + 1, flagsOf (d + 1) (d == 0xFFFF) (d == 0x7FFF)) := by
  have hc : decide (65536 ≤ (1 : Word).toNat + d.toNat) = (d == 0xFFFF) := by
    rw [Bool.eq_iff_iff, decide_eq_true_iff, beq_iff_eq]
    bv_omega
  have hv : ((1 : Word).msb == d.msb && (d + 1).msb != (1 : Word).msb) = (d == 0x7FFF) := by
    rw [Bool.eq_iff_iff]
    simp only [BitVec.msb_eq_decide, Bool.and_eq_true, bne_iff_ne, beq_iff_eq, ne_eq, decide_eq_decide]
    bv_omega
  rw [alu, aluSum, BitVec.add_comm 1 d, hc, hv]

/-- R364: the borrow and the overflow of `d - 1`. -/
theorem alu_sub_one (d : Word) (carry : Bool) :
    alu .sub 1 d carry = some (d - 1, flagsOf (d - 1) (d == 0) (d == 0x8000)) := by
  have hc : decide (d.toNat < (1 : Word).toNat) = (d == 0) := by
    rw [Bool.eq_iff_iff, decide_eq_true_iff, beq_iff_eq]
    bv_omega
  have hv : (d.msb != (1 : Word).msb && (d - 1).msb != d.msb) = (d == 0x8000) := by
    rw [Bool.eq_iff_iff]
    simp only [BitVec.msb_eq_decide, Bool.and_eq_true, bne_iff_ne, beq_iff_eq, ne_eq, decide_eq_decide]
    bv_omega
  rw [alu, aluSub, hc, hv]

/-! The ALU builds a shifted word by concatenation, the pseudocode by a shift and the bit that comes in. -/

theorem shiftLeft_one_eq_append (d : Word) : d <<< 1 = (d.extractLsb' 0 15 ++ 0#1 : Word) := by
  rw [BitVec.shiftLeft_eq_concat_of_lt (by decide : 1 < 16), BitVec.cast_eq]

theorem ushiftRight_one_eq_append (d : Word) : d >>> 1 = (0#1 ++ d.extractLsb' 1 15 : Word) := by
  rw [BitVec.ushiftRight_eq_extractLsb'_of_lt (by decide : 1 < 16), BitVec.cast_eq]

theorem low_bits_append_bit (d : Word) (b : Bool) :
    (d.extractLsb' 0 15 ++ BitVec.ofBool b : Word) = (d <<< 1) ||| (if b then 1 else 0) := by
  have hbit : (if b then 1 else 0 : Word) = (0#15 ++ BitVec.ofBool b : Word) := by cases b <;> rfl
  rw [shiftLeft_one_eq_append, hbit, BitVec.or_append, BitVec.or_zero, BitVec.zero_or]

theorem bit_append_high_bits (d : Word) (b : Bool) :
    (BitVec.ofBool b ++ d.extractLsb' 1 15 : Word) = (d >>> 1) ||| (if b then 0x8000 else 0) := by
  have hbit : (if b then 0x8000 else 0 : Word) = (BitVec.ofBool b ++ 0#15 : Word) := by cases b <;> rfl
  rw [ushiftRight_one_eq_append, hbit, BitVec.or_append, BitVec.or_zero, BitVec.zero_or]

theorem extractLsb'_one_eq_ofBool (d : Word) (k : Nat) : d.extractLsb' k 1 = BitVec.ofBool (d.getLsbD k) := by
  rw [BitVec.eq_of_getLsbD_eq_iff]
  intro i hi
  obtain rfl : i = 0 := by omega
  simp

/-- R365: bit 15 goes to the carry; the overflow is a change of sign. -/
theorem alu_asl (S d : Word) (carry : Bool) :
    alu .asl S d carry = some (d <<< 1, flagsOf (d <<< 1) (d.getLsbD 15) (d.getLsbD 15 ^^ d.getLsbD 14)) := by
  rw [shiftLeft_one_eq_append]
  rfl

/-- R366: bit 0 goes to the carry; the mask `0x8000` keeps bit 15. -/
theorem alu_asr (S d : Word) (carry : Bool) :
    alu .asr S d carry
      = some ((d >>> 1) ||| (d &&& 0x8000), flagsOf ((d >>> 1) ||| (d &&& 0x8000)) (d.getLsbD 0) false) := by
  have hsign : d &&& 0x8000 = if d.getLsbD 15 then 0x8000 else 0 := BitVec.and_twoPow d 15
  rw [alu, aluAsr, extractLsb'_one_eq_ofBool, bit_append_high_bits, hsign]

/-- R367: bit 0 goes to the carry. -/
theorem alu_lsr (S d : Word) (carry : Bool) :
    alu .lsr S d carry = some (d >>> 1, flagsOf (d >>> 1) (d.getLsbD 0) false) := by
  rw [ushiftRight_one_eq_append]
  rfl

/-- R367: LSR leaves S clear. -/
theorem msb_ushiftRight_one (d : Word) : (d >>> 1).msb = false := by
  rw [BitVec.msb_ushiftRight]
  rfl

/-- R368 and R370: a rotation to the left, with the bit `b` coming in at the bottom. -/
def rotatedLeft (d : Word) (b : Bool) : Word := (d <<< 1) ||| (if b then 1 else 0)

/-- R369 and R371: a rotation to the right, with the bit `b` coming in at the top. -/
def rotatedRight (d : Word) (b : Bool) : Word := (d >>> 1) ||| (if b then 0x8000 else 0)

/-- R368: bit 15 comes in at the bottom and goes to the carry. -/
theorem alu_rol (S d : Word) (carry : Bool) :
    alu .rol S d carry
      = some (rotatedLeft d (d.getLsbD 15), flagsOf (rotatedLeft d (d.getLsbD 15)) (d.getLsbD 15) false) := by
  rw [alu, aluRol, extractLsb'_one_eq_ofBool, low_bits_append_bit]
  rfl

/-- R369: bit 0 comes in at the top and goes to the carry. -/
theorem alu_ror (S d : Word) (carry : Bool) :
    alu .ror S d carry
      = some (rotatedRight d (d.getLsbD 0), flagsOf (rotatedRight d (d.getLsbD 0)) (d.getLsbD 0) false) := by
  rw [alu, aluRor, extractLsb'_one_eq_ofBool, bit_append_high_bits]
  rfl

/-- R370: the carry comes in at the bottom, bit 15 takes its place. -/
theorem alu_rlc (S d : Word) (carry : Bool) :
    alu .rlc S d carry = some (rotatedLeft d carry, flagsOf (rotatedLeft d carry) (d.getLsbD 15) false) := by
  rw [alu, aluRlc, low_bits_append_bit]
  rfl

/-- R371: the carry comes in at the top, bit 0 takes its place. -/
theorem alu_rrc (S d : Word) (carry : Bool) :
    alu .rrc S d carry = some (rotatedRight d carry, flagsOf (rotatedRight d carry) (d.getLsbD 0) false) := by
  rw [alu, aluRrc, bit_append_high_bits]
  rfl

/-! ## The operand fetched -/

/-- What the fetch of the operand from `s` has left in `u`, where the opcode's own words start (R314, R360). -/
structure OperandFetched (dst : Operand) (s u : State) : Prop where
  mdr : u.mdr = valueOf dst s
  ir : u.ir = s.ir
  arch : u.arch = { s.arch with pc := s.pc + extraCount dst }
  adr : ∀ a, placeOf dst s s.pc = .cell a → u.adr = a

theorem fetchDest_of_readable {dst : Operand} {s : State} (h : readable dst s = true) :
    ∃ u, fetchDest dst s = .next u ∧ OperandFetched dst s u := by
  obtain ⟨u, hfetch, hmdr, -, harch, hir, hadr, -⟩ := (fetchDest_spec dst s).1 h
  exact ⟨u, hfetch, hmdr, hir, harch, hadr⟩

/-! ## Read-modify-write (R360) -/

/-- R315: after the fetch of the operand, an execute word's result goes to the operand's place and its flags are
committed. `w` may differ from the fetched state in `t`. -/
theorem compute_writeBack_stores {dst : Operand} {s w : State} {op : Alu} {S D r : Word} {f : Flags}
    (hin : (placeOf dst s s.pc).inMemory s = true) (harch : w.arch = { s.arch with pc := s.pc + extraCount dst })
    (hir : w.ir = s.ir) (hadr : ∀ a, placeOf dst s s.pc = .cell a → w.adr = a)
    (halu : alu op S D s.flags.c = some (r, f)) (u : MicroAddr) :
    StoresResult (writeBack dst (w.compute u op S D)) s (extraCount dst) f (placeOf dst s s.pc) r := by
  have hflags : w.flags = s.flags := congrArg Arch.flags harch
  rw [← hflags] at halu
  obtain ⟨hmdr, harch', hir', hadr'⟩ := compute_spec halu u
  refine storesResult_writeBack hin ?_ (hir'.trans hir) hmdr fun a ha => hadr'.trans (hadr a ha)
  rw [harch', harch]

/-- R360: an opcode with one execute word stores the ALU's result of the old value and commits its flags. -/
theorem oneOperandResult_stores {op : Alu} {S : Word} {dst : Operand} {s : State} {r : Word} {f : Flags}
    (halu : alu op S (valueOf dst s) s.flags.c = some (r, f)) (u : MicroAddr)
    (hin : (placeOf dst s s.pc).inMemory s = true) :
    StoresResult (oneOperandResult u op S dst s) s (extraCount dst) f (placeOf dst s s.pc) r := by
  obtain ⟨w, hfetch, hw⟩ := fetchDest_of_readable (readable_of_place_inMemory hin)
  rw [oneOperandResult, hfetch, andThen_next, hw.mdr]
  exact compute_writeBack_stores hin hw.arch hw.ir hw.adr halu u

/-- R361: the old value is read, and not used. -/
theorem execClr_stores {dst : Operand} {s : State} (hin : (placeOf dst s s.pc).inMemory s = true) :
    StoresResult (execClr dst s) s (extraCount dst) { z := true, s := false, c := false, v := false }
      (placeOf dst s s.pc) 0 := by
  obtain ⟨w, hfetch, hw⟩ := fetchDest_of_readable (readable_of_place_inMemory hin)
  rw [execClr, hfetch, andThen_next]
  exact compute_writeBack_stores hin hw.arch hw.ir hw.adr (alu_sum_zero_zero _) uClr0

theorem execClr_of_unreadable {dst : Operand} {s : State} (h : readable dst s = false) :
    StopsOutOfRange (execClr dst s) { s.arch with pc := s.pc + extraCount dst } := by
  obtain ⟨t, hfetch, harch⟩ := (fetchDest_spec dst s).2 h
  refine ⟨t, ?_, harch⟩
  rw [execClr, hfetch, andThen_fault]

/-- R362: NEG.0 moves the old value to `t`, NEG.1 subtracts it from 0. -/
theorem execNeg_stores {dst : Operand} {s : State} (hin : (placeOf dst s s.pc).inMemory s = true) :
    StoresResult (execNeg dst s) s (extraCount dst)
      (flagsOf (0 - valueOf dst s) (valueOf dst s != 0) (valueOf dst s == 0x8000)) (placeOf dst s s.pc)
      (0 - valueOf dst s) := by
  obtain ⟨w, hfetch, hw⟩ := fetchDest_of_readable (readable_of_place_inMemory hin)
  have ht : ((w.enter uNeg0).toT .sum w.mdr 0).t = valueOf dst s := by simp [hw.mdr]
  rw [execNeg, hfetch, andThen_next]
  refine compute_writeBack_stores hin ?_ ?_ ?_ (ht ▸ alu_sub_zero _ _) uNeg1
  · simpa [State.arch] using hw.arch
  · simpa using hw.ir
  · simpa using hw.adr

/-! ## Stores of the stack instructions (R316 to R318) -/

/-- An instruction that has come to the fetch word with one store on `before`, whose registers and memory are those of
`s`, completes with that store. -/
theorem completesStoring_of_arch {s t : State} {before : Arch} {p : Place} {v : Word} (hupc : t.upc = uFetch)
    (hir : t.ir = s.ir) (harch : t.arch = before.store p v) (hmem : before.mem = s.mem)
    (hregs : before.regs = s.regs) : CompletesStoring (.next t) s before p v := by
  have hmem' : t.mem = (before.store p v).mem := congrArg Arch.mem harch
  have hregs' : t.regs = (before.store p v).regs := congrArg Arch.regs harch
  refine ⟨t, rfl, hupc, hir, harch, fun n hn => ?_, fun q hq => ?_⟩
  · rw [hmem', store_mem_read_other before v hn, hmem]
  · simp only [State.reg, hregs', store_regs_other before v hq, hregs]

section Push

variable {s w : State} {p : Word} (harch : w.arch = { s.arch with pc := p }) (hin : s.inMemory s.sp = true)
include harch

theorem sp_of_moved_pc : w.sp = s.sp := congrArg Arch.sp harch

theorem canPush_of_moved_pc : canPush w = canPush s := by
  rw [canPush, canPush, params_of_moved_pc harch, sp_of_moved_pc harch]

theorem inMemory_sp_of_moved_pc : w.inMemory w.sp = s.inMemory s.sp := by
  rw [State.inMemory_congr s w (params_of_moved_pc harch), sp_of_moved_pc harch]

include hin

/-- R316: a push that passes the test of the decrement, after `pc` has moved. -/
theorem pushMdr_of_canPush (hcan : canPush s = true) :
    ∃ t, pushMdr w = .next t ∧ t.arch = ({ s.arch with pc := p, sp := s.sp - 1 }).store (.cell s.sp) w.mdr
      ∧ t.t = w.t ∧ t.ir = w.ir := by
  rw [← inMemory_sp_of_moved_pc harch] at hin
  rw [← canPush_of_moved_pc harch] at hcan
  obtain ⟨-, -, t, hnext, harch', ht, hir⟩ :=
    ((pushMdr_cases w).resolve_left (by simp [hin])).resolve_left (by simp [hcan])
  refine ⟨t, hnext, ?_, ht, hir⟩
  rw [harch', harch, sp_of_moved_pc harch]
  rfl

/-- R377: a push that does not pass it has stored all the same. -/
theorem pushMdr_of_not_canPush (hcan : canPush s = false) :
    ∃ t, pushMdr w = .fault (.stackOverflow t) ∧ t.upc = w.upc
      ∧ t.arch = ({ s.arch with pc := p }).store (.cell s.sp) w.mdr := by
  rw [← inMemory_sp_of_moved_pc harch] at hin
  rw [← canPush_of_moved_pc harch] at hcan
  obtain ⟨-, -, t, hfault, harch', hupc⟩ :=
    ((pushMdr_cases w).resolve_left (by simp [hin])).resolve_right (by simp [hcan])
  refine ⟨t, hfault, hupc, ?_⟩
  rw [harch', harch, sp_of_moved_pc harch]

end Push

/-! ## PUSH (R374) -/

section PushInstruction

variable {src : Operand} {s : State} (hsrc : readable src s = true) (hin : s.inMemory s.sp = true)
include hsrc hin

theorem execPush_completes (hcan : canPush s = true) :
    CompletesStoring (execPush src s) s { s.arch with pc := s.pc + extraCount src, sp := s.sp - 1 } (.cell s.sp)
      (valueOf src s) := by
  obtain ⟨w, hfetch, hw⟩ := fetchDest_of_readable hsrc
  obtain ⟨t, hpush, harch, -, hir⟩ := pushMdr_of_canPush (w := w.enter uPush0) hw.arch hin hcan
  rw [execPush, hfetch, andThen_next, hpush, andThen_next]
  refine completesStoring_of_arch rfl (hir.trans hw.ir) ?_ rfl rfl
  rw [← hw.mdr]
  exact harch

theorem execPush_overflows (hcan : canPush s = false) :
    OverflowsPushing (execPush src s) s uPush0 (extraCount src) (valueOf src s) := by
  obtain ⟨w, hfetch, hw⟩ := fetchDest_of_readable hsrc
  obtain ⟨t, hpush, hupc, harch⟩ := pushMdr_of_not_canPush (w := w.enter uPush0) hw.arch hin hcan
  rw [execPush, hfetch, andThen_next, hpush, andThen_fault]
  refine ⟨t, rfl, hupc, ?_⟩
  rw [← hw.mdr]
  exact harch

end PushInstruction

/-! ## CALL (R373) -/

/-- CALL.0 and CALL.1: the target to `t`, the return address to `mdr`; the push word is entered. -/
def callLoaded (u : State) : State :=
  ((((u.enter uCall0).toT .sum u.mdr 0).enter uCall1).toMdr .sum 0 u.pc).enter uCall2

/-- The push and the jump of CALL after its operand is fetched. -/
theorem execCall_of_fetched {target : Operand} {s u : State} (h : fetchDest target s = .next u) :
    execCall target s = andThen (pushMdr (callLoaded u)) fun w => .next ((w.enter uCall3).toPc .sum w.t 0).toFetch := by
  rw [execCall, h]
  rfl

theorem callLoaded_spec (u : State) :
    (callLoaded u).t = u.mdr ∧ (callLoaded u).mdr = u.pc ∧ (callLoaded u).arch = u.arch ∧ (callLoaded u).ir = u.ir
      ∧ (callLoaded u).upc = uCall2 := by
  simp [callLoaded, State.arch]

section CallInstruction

variable {target : Operand} {s : State} (htarget : readable target s = true) (hin : s.inMemory s.sp = true)
include htarget hin

theorem execCall_completes (hcan : canPush s = true) :
    CompletesStoring (execCall target s) s { s.arch with pc := valueOf target s, sp := s.sp - 1 } (.cell s.sp)
      (s.pc + extraCount target) := by
  obtain ⟨u, hfetch, hu⟩ := fetchDest_of_readable htarget
  have hpc : u.pc = s.pc + extraCount target := congrArg Arch.pc hu.arch
  obtain ⟨ht, hmdr, harch, hir, -⟩ := callLoaded_spec u
  obtain ⟨w, hpush, harch', ht', hir'⟩ := pushMdr_of_canPush (harch.trans hu.arch) hin hcan
  have hjump : ((w.enter uCall3).toPc .sum w.t 0).toFetch.arch = { w.arch with pc := w.t } := by simp [State.arch]
  rw [execCall_of_fetched hfetch, hpush, andThen_next]
  refine completesStoring_of_arch rfl ?_ ?_ rfl rfl
  · simpa using hir'.trans (hir.trans hu.ir)
  · rw [hjump, harch', ht', ht, hu.mdr, hmdr, hpc]
    rfl

theorem execCall_overflows (hcan : canPush s = false) :
    OverflowsPushing (execCall target s) s uCall2 (extraCount target) (s.pc + extraCount target) := by
  obtain ⟨u, hfetch, hu⟩ := fetchDest_of_readable htarget
  have hpc : u.pc = s.pc + extraCount target := congrArg Arch.pc hu.arch
  obtain ⟨-, hmdr, harch, -, hupc⟩ := callLoaded_spec u
  obtain ⟨w, hpush, hupc', harch'⟩ := pushMdr_of_not_canPush (harch.trans hu.arch) hin hcan
  rw [execCall_of_fetched hfetch, hpush, andThen_fault]
  refine ⟨w, rfl, hupc'.trans hupc, ?_⟩
  rw [harch', hmdr, hpc]

end CallInstruction

/-! ## POP (R375) -/

/-- POP.0: `sp` is raised; the word that reads the popped cell is entered. -/
def popRaised (u : State) : State := (u.enter uPop0).incSp.enter uPop1

theorem popRaised_arch (u : State) : (popRaised u).arch = { u.arch with sp := u.sp + 1 } := rfl

/-- The pop and the store of POP after its operand is fetched. -/
theorem execPop_of_fetched {dst : Operand} {s u : State} (h : fetchDest dst s = .next u) :
    execPop dst s = andThen (readTop (popRaised u)) fun v => popTo dst ((v.enter uPopC0).toT .sum v.mdr 0) := by
  rw [execPop, h]
  rfl

/-- R375: with the operand readable and a cell above `sp`, POP comes to the store of that cell's value, in `t`. -/
theorem execPop_of_readable {dst : Operand} {s : State} (hdst : readable dst s = true)
    (hin : s.inMemory (s.sp + 1) = true) :
    ∃ w, execPop dst s = popTo dst w ∧ w.arch = { s.arch with pc := s.pc + extraCount dst, sp := s.sp + 1 }
      ∧ w.t = s.mem.read (s.sp + 1).toNat ∧ w.ir = s.ir := by
  obtain ⟨u, hfetch, hu⟩ := fetchDest_of_readable hdst
  have harch : (popRaised u).arch = { s.arch with pc := s.pc + extraCount dst, sp := s.sp + 1 } := by
    rw [popRaised_arch, hu.arch, sp_of_moved_pc hu.arch]
  have hsp : (popRaised u).sp = s.sp + 1 := congrArg Arch.sp harch
  have hmem : (popRaised u).mem = s.mem := congrArg Arch.mem harch
  have hin' : (popRaised u).inMemory (popRaised u).sp = true := by
    rw [State.inMemory_congr s (popRaised u) (congrArg Arch.params harch), hsp, hin]
  obtain ⟨-, v, hread, hmdr, harch', -, hir⟩ := (readTop_cases (popRaised u)).resolve_right (by simp [hin'])
  refine ⟨(v.enter uPopC0).toT .sum v.mdr 0, ?_, ?_, ?_, ?_⟩
  · rw [execPop_of_fetched hfetch, hread, andThen_next]
  · simpa [State.arch] using harch'.trans harch
  · simp [hmdr, hmem, hsp]
  · simpa using hir.trans hu.ir

/-- POP.W, the word that stores `t` at `adr`. -/
def popStore (s : State) : Result :=
  andThen (memWrite ((s.enter uPopW).toMdr .sum s.t 0)) fun s => .next s.toFetch

theorem popTo_indirect (r : Reg) (s : State) :
    popTo (.indirect r) s = popStore (((s.enter uPopDstInd).latchReg r).toAdr .sum 0 (s.reg r)) := rfl

theorem popTo_indexed (r : Reg) (e : Word) (s : State) :
    popTo (.indexed r e) s
      = popStore (((({ (s.enter uPopDstIdx).toAdr .sum 0xFFFF s.pc with mdr := e } : State).enter uPopX2).latchReg
          r).toAdr .sum e (s.reg r)) := rfl

theorem popStore_next {u w : State} {a : Word} (hin : w.inMemory a = true) (hadr : u.adr = a) (ht : u.t = w.t)
    (hir : u.ir = w.ir) (harch : u.arch = w.arch) :
    ∃ t, popStore u = .next t ∧ t.upc = uFetch ∧ t.ir = w.ir ∧ t.arch = w.arch.store (.cell a) w.t := by
  subst hadr
  rw [← State.inMemory_congr w u (congrArg Arch.params harch)] at hin
  rw [← harch, ← ht, ← hir]
  simp [popStore, memWrite, hin, State.arch, Arch.store]

/-- R318: the popped value goes to the place named by the registers, which are those of `s`. -/
theorem popTo_next {dst : Operand} {s w : State} (hmode : dst.mode ≠ .immediate) (hdst : readable dst s = true)
    (hregs : w.regs = s.regs) (hparams : w.params = s.params) (at_ : Word) :
    ∃ t, popTo dst w = .next t ∧ t.upc = uFetch ∧ t.ir = w.ir
      ∧ t.arch = w.arch.store (placeOf dst s at_) w.t := by
  cases dst with
  | immediate _ _ => exact absurd rfl hmode
  | direct r => simp [popTo, placeOf, State.arch, Arch.store]
  | indirect r =>
    have hin : w.inMemory (s.reg r) = true := (State.inMemory_congr s w hparams _).trans hdst
    rw [popTo_indirect]
    refine popStore_next hin ?_ rfl rfl rfl
    rw [State.toAdr_sum_adr, zero_add, State.reg_congr s w hregs]
  | indexed r e =>
    have hin : w.inMemory (s.reg r + e) = true := (State.inMemory_congr s w hparams _).trans hdst
    rw [popTo_indexed]
    refine popStore_next hin ?_ rfl rfl rfl
    rw [State.toAdr_sum_adr, BitVec.add_comm, State.reg_congr s w hregs]

theorem execPop_stores {dst : Operand} {s : State} (hdst : readable dst s = true)
    (hin : s.inMemory (s.sp + 1) = true) (hmode : dst.mode ≠ .immediate) :
    CompletesStoring (execPop dst s) s { s.arch with pc := s.pc + extraCount dst, sp := s.sp + 1 }
      (placeOf dst s s.pc) (s.mem.read (s.sp + 1).toNat) := by
  obtain ⟨w, hpop, harch, ht, hir⟩ := execPop_of_readable hdst hin
  obtain ⟨t, hnext, hupc, hir', harch'⟩ :=
    popTo_next hmode hdst (congrArg Arch.regs harch) (congrArg Arch.params harch) s.pc
  rw [hpop, hnext]
  refine completesStoring_of_arch hupc (hir'.trans hir) ?_ rfl rfl
  rw [harch', harch, ht]

/-- R376: an IMMEDIATE destination drops the popped value. -/
theorem execPop_drops {dst : Operand} {s : State} (hdst : readable dst s = true)
    (hin : s.inMemory (s.sp + 1) = true) (hmode : dst.mode = .immediate) :
    Completes (execPop dst s) s { s.arch with pc := s.pc + 1, sp := s.sp + 1 } := by
  obtain ⟨w, hpop, harch, -, hir⟩ := execPop_of_readable hdst hin
  cases dst with
  | direct _ | indirect _ | indexed _ _ => cases hmode
  | immediate _ _ => exact ⟨(w.enter uPopDstImm).toFetch, hpop, rfl, hir, harch⟩

/-! ## The instructions -/

/-- Settles O43: zero goes to the operand's place; the old value is read first, and stops the instruction when it
cannot be. -/
theorem clrStoresZero : Obligations.ClrStoresZero :=
  ⟨wordAt_of_fields rfl, fun _ _ => ⟨encode_head_one rfl rfl, legal_one_of_not_acceptsImmediate rfl rfl,
    execClr_stores, execClr_of_unreadable⟩⟩

/-- Settles O44: `alu .sub` with the minuend 0 is R362's negation with its flags. -/
theorem negStoresTheNegation : Obligations.NegStoresTheNegation :=
  ⟨wordAt_of_fields rfl, wordAt_of_fields rfl, fun _ _ =>
    ⟨encode_head_one rfl rfl, legal_one_of_not_acceptsImmediate rfl rfl, execNeg_stores⟩⟩

/-- Settles O45: `alu .sum` and `alu .sub` with 1 are R363's and R364's results with their flags. -/
theorem incAndDecStore : Obligations.IncAndDecStore :=
  ⟨wordAt_of_fields rfl, wordAt_of_fields rfl, fun _ _ =>
    ⟨encode_head_one rfl rfl, encode_head_one rfl rfl, legal_one_of_not_acceptsImmediate rfl rfl,
      legal_one_of_not_acceptsImmediate rfl rfl, fun hin =>
      ⟨oneOperandResult_stores (alu_sum_one _ _) uInc0 hin,
        oneOperandResult_stores (alu_sub_one _ _) uDec0 hin⟩⟩⟩

/-- Settles O46: the three shifts of the ALU are the pseudocode's. -/
theorem shiftsStore : Obligations.ShiftsStore :=
  ⟨wordAt_of_fields rfl, wordAt_of_fields rfl, wordAt_of_fields rfl, fun _ _ =>
    ⟨encode_head_one rfl rfl, encode_head_one rfl rfl, encode_head_one rfl rfl,
      legal_one_of_not_acceptsImmediate rfl rfl, legal_one_of_not_acceptsImmediate rfl rfl,
      legal_one_of_not_acceptsImmediate rfl rfl, fun hin =>
      ⟨oneOperandResult_stores (alu_asl _ _ _) uAsl0 hin,
        oneOperandResult_stores (alu_asr _ _ _) uAsr0 hin,
        oneOperandResult_stores (alu_lsr _ _ _) uLsr0 hin, msb_ushiftRight_one _⟩⟩⟩

/-- Settles O47: the four rotations of the ALU are the pseudocode's, the carry being the committed one. -/
theorem rotatesStore : Obligations.RotatesStore :=
  ⟨wordAt_of_fields rfl, wordAt_of_fields rfl, wordAt_of_fields rfl, wordAt_of_fields rfl, fun _ _ =>
    ⟨encode_head_one rfl rfl, encode_head_one rfl rfl, encode_head_one rfl rfl, encode_head_one rfl rfl,
      legal_one_of_not_acceptsImmediate rfl rfl, legal_one_of_not_acceptsImmediate rfl rfl,
      legal_one_of_not_acceptsImmediate rfl rfl, legal_one_of_not_acceptsImmediate rfl rfl, fun hin =>
      ⟨oneOperandResult_stores (alu_rol _ _ _) uRol0 hin,
        oneOperandResult_stores (alu_ror _ _ _) uRor0 hin,
        oneOperandResult_stores (alu_rlc _ _ _) uRlc0 hin,
        oneOperandResult_stores (alu_rrc _ _ _) uRrc0 hin⟩⟩⟩

/-- Settles O49: the target is in `t` before the push, whose two outcomes are the two clauses. -/
theorem callPushesAndTransfers : Obligations.CallPushesAndTransfers :=
  ⟨wordAt_of_fields rfl, wordAt_of_fields rfl, wordAt_of_fields rfl, wordAt_of_fields rfl, fun _ _ =>
    ⟨encode_head_one rfl rfl, legal_one_of_acceptsImmediate rfl rfl, fun htarget hin =>
      ⟨execCall_completes htarget hin, execCall_overflows htarget hin⟩⟩⟩

/-- Settles O50: the fetched value is pushed from `mdr`, with the push's two outcomes. -/
theorem pushStoresAndDecrements : Obligations.PushStoresAndDecrements :=
  ⟨wordAt_of_fields rfl, fun _ _ =>
    ⟨encode_head_one rfl rfl, legal_one_of_acceptsImmediate rfl rfl, fun hsrc hin =>
      ⟨execPush_completes hsrc hin, execPush_overflows hsrc hin⟩⟩⟩

/-- Settles O51: the second computation of the place, after the pop, meets the registers of before it. -/
theorem popLoadsTheTop : Obligations.PopLoadsTheTop :=
  ⟨wordAt_of_fields rfl, wordAt_of_fields rfl, wordAt_of_fields rfl, fun _ _ =>
    ⟨encode_head_one rfl rfl, legal_one_of_not_acceptsImmediate rfl rfl, fun hdst hin =>
      ⟨execPop_stores hdst hin, execPop_drops hdst hin⟩⟩⟩

end Sys2Proof.Proofs.OneOperand

/-! The branches (R390 to R400): their encoding, the taken branch, and the conditional branch's own word before it. -/

namespace Sys2Proof.Proofs.Branches
open Sys2Proof Sys2Proof.Machine

/-- R96: the one word of a branch, `code` being its opcode's value (R104). -/
theorem encode_branch {i : Instr} {op : BranchOp} {o code : BitVec 8} (h : i.shape = .branch op o)
    (hcode : BitVec.ofNat 8 op.value = code) : encode i = [code ++ o] := by
  subst hcode
  simp only [encode, Codes.encode, h]
  rfl

/-- R390: BR.0 adds the extended offset to `pc`. -/
theorem takeBranch_completes (o : BitVec 8) (s : State) :
    Completes (takeBranch o s) s { s.arch with pc := s.pc + extendOffset s.params.brOffsetSigned o } := by
  refine ⟨_, rfl, rfl, by simp, ?_⟩
  simp [State.arch, BitVec.add_comm]

/-- R400: entering the conditional branch's own word changes nothing architectural, so taken it is BR.0 on the same
`pc`, and not taken it goes on with the next word. -/
theorem branchIf_completes {taken holds : Bool} (h : holds = taken) (u : MicroAddr) (o : BitVec 8) (s : State) :
    Completes (branchIf u taken o s) s
      (if holds then { s.arch with pc := s.pc + extendOffset s.params.brOffsetSigned o } else s.arch) := by
  subst h
  cases holds with
  | true => exact takeBranch_completes o (s.enter u)
  | false => exact ⟨(s.enter u).toFetch, rfl, rfl, rfl, rfl⟩

/-- Settles O52: BR is BR.0 itself; each other branch reaches BR.0 exactly when the flag it tests is as its condition
asks. -/
theorem branchesTransfer : Obligations.BranchesTransfer := fun o s =>
  ⟨⟨encode_branch rfl rfl, takeBranch_completes o s⟩,
    ⟨encode_branch rfl rfl, branchIf_completes (beq_false _) uBne0 o s⟩,
    ⟨encode_branch rfl rfl, branchIf_completes (beq_true _) uBeq0 o s⟩,
    ⟨encode_branch rfl rfl, branchIf_completes (beq_false _) uBpl0 o s⟩,
    ⟨encode_branch rfl rfl, branchIf_completes (beq_true _) uBmi0 o s⟩,
    ⟨encode_branch rfl rfl, branchIf_completes (beq_true _) uBcs0 o s⟩,
    ⟨encode_branch rfl rfl, branchIf_completes (beq_false _) uBcc0 o s⟩,
    ⟨encode_branch rfl rfl, branchIf_completes (beq_true _) uBvs0 o s⟩,
    ⟨encode_branch rfl rfl, branchIf_completes (beq_false _) uBvc0 o s⟩⟩

end Sys2Proof.Proofs.Branches

/-! The OTHER instructions (R410 to R429): their encoding, the words that only write flags or nothing, the idle word of
WAIT, and the pops and pushes of `pc` and of the flag word. -/

namespace Sys2Proof.Proofs.Other
open Sys2Proof Sys2Proof.Machine Sys2Proof.Proofs.FlagWord Sys2Proof.Proofs.MicroCycle Sys2Proof.Proofs.TwoOperand
  Sys2Proof.Proofs.OneOperand

/-- R97: the one word of an instruction without operands is its opcode's value (R105). -/
theorem encode_other {i : Instr} {op : OtherOp} {word : Word} (h : i.shape = .other op)
    (hvalue : BitVec.ofNat 16 op.value = word) : encode i = [word] := by
  subst hvalue
  simp only [encode, Codes.encode, h]
  rfl

/-- R310: an instruction whose last word goes to FETCH completes with the architectural state its words have made. -/
theorem completes_toFetch {s t : State} {a : Arch} (hir : t.ir = s.ir) (harch : t.arch = a) :
    Completes (.next t.toFetch) s a := ⟨t.toFetch, rfl, rfl, hir, harch⟩

/-! ## CCC and SCC (R415, R420) -/

/-- C, V, Z and S written alike, a word each. -/
def writeFlags (c v z n : MicroAddr) (b : Bool) (s : State) : State :=
  (((((((s.enter c).setC b).enter v).setV b).enter z).setZ b).enter n).setS b

theorem execCcc_eq (s : State) : execCcc s = .next (writeFlags uCcc0 uCcc1 uCcc2 uCcc3 false s).toFetch := rfl
theorem execScc_eq (s : State) : execScc s = .next (writeFlags uScc0 uScc1 uScc2 uScc3 true s).toFetch := rfl

/-- Each word keeps the flags that the words before it have written. -/
theorem writeFlags_completes (c v z n : MicroAddr) (b : Bool) (s : State) :
    Completes (.next (writeFlags c v z n b s).toFetch) s
      { s.arch with flags := { z := b, c := b, v := b, s := b } } := by
  refine completes_toFetch ?_ ?_
  · simp [writeFlags]
  · simp [writeFlags, State.arch]

theorem execCcc_completes (s : State) :
    Completes (execCcc s) s { s.arch with flags := { z := false, c := false, v := false, s := false } } := by
  rw [execCcc_eq]
  exact writeFlags_completes _ _ _ _ _ s

theorem execScc_completes (s : State) :
    Completes (execScc s) s { s.arch with flags := { z := true, c := true, v := true, s := true } } := by
  rw [execScc_eq]
  exact writeFlags_completes _ _ _ _ _ s

/-! ## WAIT (R425) -/

/-- Away from the fetch word a step is one micro-cycle. -/
theorem step_of_upc_ne_fetch {s : State} (h : s.upc ≠ uFetch) : step s = microStep s := by
  have hnone : s.nextInstr = none := if_neg fun hboundary => h hboundary.1
  rw [step, hnone]

/-- R199: the micro-cycle of the reference store runs the micro-instruction at `upc`, its word latched. -/
theorem microStep_of_wordAt {s t : State} {m : MicroInstr} (hm : wordAt s.upc m)
    (hrun : runMicro Codes.reference m { s with cw := controlWordAt s.upc } = .next t) : microStep s = .next t := by
  obtain ⟨w, hw, hword⟩ := Option.bind_eq_some_iff.mp hm
  rw [hw] at hrun
  exact microCycle_eq_next.mpr ⟨w, m, hw, hword, hrun⟩

/-- WAIT.0: to FETCH when `intp` is 1, to itself when it is 0. -/
def waitWord : MicroInstr := { cond := .int, addressFalse := 91 }

theorem wordAt_waitWord : wordAt uWait0 waitWord := wordAt_of_fields rfl

theorem runMicro_waitWord (c : Codes) (s : State) :
    runMicro c waitWord s = .next { s with upc := if s.intp then uFetch else uWait0 } := by
  have hstages : runMicro c waitWord s = nextAddress c waitWord s := rfl
  rw [hstages]
  cases hintp : s.intp <;> simp [nextAddress, waitWord, condHolds, indexValue, hintp]

/-- A step at WAIT.0 is the choice of the next micro-address by `intp`, and nothing else. -/
theorem step_enter_wait (s : State) :
    step (s.enter uWait0) = .next { s.enter uWait0 with upc := if s.intp then uFetch else uWait0 } := by
  have haway : uWait0 ≠ uFetch := by decide
  rw [step_of_upc_ne_fetch (s := s.enter uWait0) haway]
  exact microStep_of_wordAt wordAt_waitWord (runMicro_waitWord Codes.reference _)

theorem execWait_of_intp {s : State} (h : s.intp = true) : execWait s = .next (s.enter uWait0).toFetch :=
  congrArg Host.Outcome.next (if_pos h)

theorem execWait_of_not_intp {s : State} (h : s.intp = false) : execWait s = .next (s.enter uWait0) :=
  congrArg Host.Outcome.next (if_neg (ne_true_of_eq_false h))

/-- The waiting state stands at WAIT.0 with its word latched already, so an idle micro-cycle leaves every element. -/
theorem step_waiting {s : State} (h : s.intp = false) : step (s.enter uWait0) = .next (s.enter uWait0) := by
  rw [step_enter_wait, h]
  rfl

/-- R452: `set_int(1)` on the waiting state, which the next step takes to FETCH. -/
theorem step_setInt_waiting (s : State) :
    Completes (step (setInt true (s.enter uWait0))) s { s.arch with intp := true } := by
  have hcomm : setInt true (s.enter uWait0) = (setInt true s).enter uWait0 := rfl
  rw [hcomm, step_enter_wait]
  exact ⟨_, rfl, rfl, rfl, rfl⟩

/-! ## Pops (R317, R422, R423, R427, R429) -/

/-- R317: a pop from a cell in memory, `s` being the state after the increment. -/
theorem readTop_of_inMemory {s : State} (h : s.inMemory s.sp = true) :
    ∃ t, readTop s = .next t ∧ t.mdr = s.mem.read s.sp.toNat ∧ t.arch = s.arch ∧ t.ir = s.ir := by
  obtain ⟨-, t, hread, hmdr, harch, -, hir⟩ := (readTop_cases s).resolve_right (by simp [h])
  exact ⟨t, hread, hmdr, harch, hir⟩

/-- R236: the word that moves the popped value to `pc`. -/
theorem toPc_arch (s : State) (u : MicroAddr) (v : Word) :
    ((s.enter u).toPc .sum 0 v).arch = { s.arch with pc := v } := by simp [State.arch]

/-- R237: the word that moves the popped value to the flags. -/
theorem toFlags_arch (s : State) (u : MicroAddr) (v : Word) :
    ((s.enter u).toFlags .sum 0 v).arch = { s.arch with flags := Flags.ofWord v } := by simp [State.arch]

theorem popPc_completes (first second : MicroAddr) {s : State} (hin : s.inMemory (s.sp + 1) = true) :
    Completes (popPc first second s) s { s.arch with pc := s.mem.read (s.sp + 1).toNat, sp := s.sp + 1 } := by
  obtain ⟨t, hread, hmdr, harch, hir⟩ := readTop_of_inMemory (s := (s.enter first).incSp.enter second) hin
  rw [popPc, hread, andThen_next]
  refine completes_toFetch hir ?_
  rw [toPc_arch, harch, hmdr]
  rfl

theorem execPopflag_completes {s : State} (hin : s.inMemory (s.sp + 1) = true) :
    Completes (execPopflag s) s
      { s.arch with sp := s.sp + 1, flags := Flags.ofWord (s.mem.read (s.sp + 1).toNat) } := by
  obtain ⟨t, hread, hmdr, harch, hir⟩ := readTop_of_inMemory (s := (s.enter uPopflag0).incSp.enter uPopflag1) hin
  rw [execPopflag, hread, andThen_next]
  refine completes_toFetch hir ?_
  rw [toFlags_arch, harch, hmdr]
  rfl

/-- RETI.1 to RETI.3 after the first pop has been read: `sp` raised again, `pc` loaded, the second read entered. -/
def retiReturned (t : State) : State := ((t.incSp.enter uReti2).toPc .sum 0 t.mdr).enter uReti3

theorem retiReturned_arch (t : State) : (retiReturned t).arch = { t.arch with pc := t.mdr, sp := t.sp + 1 } := by
  simp [retiReturned, State.arch]

/-- R423: the second pop starts from the `sp` and the memory the first has left. -/
theorem execReti_completes {s : State} (hpc : s.inMemory (s.sp + 1) = true) (hflags : s.inMemory (s.sp + 2) = true) :
    Completes (execReti s) s
      { s.arch with
        pc := s.mem.read (s.sp + 1).toNat
        sp := s.sp + 2
        flags := Flags.ofWord (s.mem.read (s.sp + 2).toNat) } := by
  obtain ⟨t, hread, hmdr, harch, hir⟩ := readTop_of_inMemory (s := (s.enter uReti0).incSp.enter uReti1) hpc
  have hsp : t.sp = s.sp + 1 := congrArg Arch.sp harch
  have harch' : (retiReturned t).arch = { s.arch with pc := s.mem.read (s.sp + 1).toNat, sp := s.sp + 2 } := by
    rw [retiReturned_arch, hsp, BitVec.add_assoc, harch, hmdr]
    rfl
  have hsp' : (retiReturned t).sp = s.sp + 2 := congrArg Arch.sp harch'
  have hmem' : (retiReturned t).mem = s.mem := congrArg Arch.mem harch'
  have hin : (retiReturned t).inMemory (retiReturned t).sp = true := by
    rw [State.inMemory_congr s (retiReturned t) (congrArg Arch.params harch'), hsp', hflags]
  obtain ⟨v, hread', hmdr', harch'', hir'⟩ := readTop_of_inMemory hin
  have hrun : execReti s = .next ((v.enter uReti4).toFlags .sum 0 v.mdr).toFetch := by
    rw [execReti, hread, andThen_next]
    exact congrArg (andThen · _) hread'
  rw [hrun]
  refine completes_toFetch (hir'.trans hir) ?_
  rw [toFlags_arch, harch'', harch', hmdr', hmem', hsp']

/-! ## Pushes (R316, R377, R426, R428) -/

/-- The push of a value that is moved to `mdr` by the word before the push word. -/
def pushValue (load push : MicroAddr) (v : Word) (s : State) : Result :=
  andThen (pushMdr (((s.enter load).toMdr .sum 0 v).enter push)) fun s => .next s.toFetch

theorem execPushpc_eq (s : State) : execPushpc s = pushValue uPushpc0 uPushpc1 s.pc s := rfl
theorem execPushflag_eq (s : State) : execPushflag s = pushValue uPushflag0 uPushflag1 s.flags.word s := rfl

section PushValue

variable (load push : MicroAddr) (v : Word) {s : State} (hin : s.inMemory s.sp = true)
include hin

theorem pushValue_completes (hcan : canPush s = true) :
    CompletesStoring (pushValue load push v s) s { s.arch with sp := s.sp - 1 } (.cell s.sp) v := by
  obtain ⟨t, hpush, harch, -, hir⟩ :=
    pushMdr_of_canPush (w := ((s.enter load).toMdr .sum 0 v).enter push) (p := s.pc) rfl hin hcan
  rw [pushValue, hpush, andThen_next]
  refine completesStoring_of_arch rfl hir ?_ rfl rfl
  have hmdr : (((s.enter load).toMdr .sum 0 v).enter push).mdr = v := by simp
  rw [hmdr] at harch
  exact harch

theorem pushValue_overflows (hcan : canPush s = false) :
    OverflowsPushing (pushValue load push v s) s push 0 v := by
  obtain ⟨t, hpush, hupc, harch⟩ :=
    pushMdr_of_not_canPush (w := ((s.enter load).toMdr .sum 0 v).enter push) (p := s.pc + 0)
      (by simp [State.arch]) hin hcan
  have hmdr : (((s.enter load).toMdr .sum 0 v).enter push).mdr = v := by simp
  rw [hmdr] at harch
  rw [pushValue, hpush, andThen_fault]
  exact ⟨t, rfl, hupc, harch⟩

end PushValue

/-- R37: each flag adds its bit's power of two to the word's value. -/
theorem toNat_word (f : Flags) :
    f.word.toNat
      = (if f.s then 2 ^ 3 else 0) + (if f.z then 2 ^ 2 else 0) + (if f.v then 2 ^ 1 else 0)
        + (if f.c then 2 ^ 0 else 0) := by
  have hconcat : f.word = ((((0 : BitVec 12).concat f.s).concat f.z).concat f.v).concat f.c := rfl
  have hpow (b : Bool) (n : Nat) : (if b then 2 ^ n else 0) = b.toNat * 2 ^ n := by cases b <;> simp
  simp only [hconcat, hpow, BitVec.toNat_concat, BitVec.ofNat_eq_ofNat, BitVec.toNat_zero]
  omega

theorem word_eq_ofNat (f : Flags) :
    f.word = BitVec.ofNat 16
      ((if f.s then 2 ^ 3 else 0) + (if f.z then 2 ^ 2 else 0) + (if f.v then 2 ^ 1 else 0)
        + (if f.c then 2 ^ 0 else 0)) := by
  rw [← toNat_word, BitVec.ofNat_toNat, BitVec.setWidth_eq]

/-! ## The instructions -/

/-- Settles O55: WAIT's own cycle and every later step at WAIT.0 are the same choice by `intp`. -/
theorem waitWaitsForIntp : Obligations.WaitWaitsForIntp := by
  refine ⟨encode_other rfl rfl, wordAt_waitWord, fun s => ⟨fun hintp => ⟨?_, rfl⟩, fun hintp => ?_⟩⟩
  · exact ⟨(s.enter uWait0).toFetch, execWait_of_intp hintp, rfl, rfl, rfl⟩
  · exact ⟨s.enter uWait0, execWait_of_not_intp hintp, rfl, rfl, rfl, step_waiting hintp, step_setInt_waiting s⟩

/-- Settles O57: `Flags.ofWord` takes the four flags from bits 0 to 3 of the popped word. -/
theorem retiAndPopflagPopTheFlags : Obligations.RetiAndPopflagPopTheFlags :=
  ⟨encode_other rfl rfl, encode_other rfl rfl, wordAt_of_fields rfl, wordAt_of_fields rfl, wordAt_of_fields rfl,
    wordAt_of_fields rfl, wordAt_of_fields rfl, wordAt_of_fields rfl, wordAt_of_fields rfl, wordAt_of_fields rfl,
    fun _ => ⟨rfl, rfl, execReti_completes, execPopflag_completes⟩⟩

/-- Settles O58: both push a value from `mdr`, with the push's two outcomes; PUSHFLAG's is the flag word. -/
theorem pushpcAndPushflagPush : Obligations.PushpcAndPushflagPush := by
  refine ⟨encode_other rfl rfl, encode_other rfl rfl, wordAt_of_fields rfl, wordAt_of_fields rfl,
    wordAt_of_fields rfl, wordAt_of_fields rfl, fun s hin => ?_⟩
  intro bit word
  have hword : s.flags.word = word := word_eq_ofNat s.flags
  refine ⟨rfl, rfl, fun hcan => ⟨?_, ?_⟩, fun hcan => ⟨?_, ?_⟩⟩
  · exact pushValue_completes uPushpc0 uPushpc1 s.pc hin hcan
  · exact hword ▸ pushValue_completes uPushflag0 uPushflag1 s.flags.word hin hcan
  · exact pushValue_overflows uPushpc0 uPushpc1 s.pc hin hcan
  · exact hword ▸ pushValue_overflows uPushflag0 uPushflag1 s.flags.word hin hcan

/-- Settles O53: each flag word writes one committed flag; CCC and SCC are four of them in a row. -/
theorem flagInstructionsWriteTheirFlags : Obligations.FlagInstructionsWriteTheirFlags := by
  refine ⟨wordAt_of_fields rfl, wordAt_of_fields rfl, wordAt_of_fields rfl, wordAt_of_fields rfl,
    wordAt_of_fields rfl, wordAt_of_fields rfl, wordAt_of_fields rfl, wordAt_of_fields rfl, wordAt_of_fields rfl,
    wordAt_of_fields rfl, wordAt_of_fields rfl, wordAt_of_fields rfl, wordAt_of_fields rfl, wordAt_of_fields rfl,
    wordAt_of_fields rfl, wordAt_of_fields rfl, fun s => ⟨rfl, rfl, ?_⟩⟩
  exact ⟨⟨encode_other rfl rfl, completes_toFetch rfl rfl⟩, ⟨encode_other rfl rfl, completes_toFetch rfl rfl⟩,
    ⟨encode_other rfl rfl, completes_toFetch rfl rfl⟩, ⟨encode_other rfl rfl, completes_toFetch rfl rfl⟩,
    ⟨encode_other rfl rfl, execCcc_completes s⟩, ⟨encode_other rfl rfl, completes_toFetch rfl rfl⟩,
    ⟨encode_other rfl rfl, completes_toFetch rfl rfl⟩, ⟨encode_other rfl rfl, completes_toFetch rfl rfl⟩,
    ⟨encode_other rfl rfl, completes_toFetch rfl rfl⟩, ⟨encode_other rfl rfl, execScc_completes s⟩⟩

/-- Settles O54: the one word of each goes to FETCH and does nothing else. -/
theorem nopAndHaltDoNothing : Obligations.NopAndHaltDoNothing :=
  ⟨wordAt_of_fields rfl, wordAt_of_fields rfl, fun _ => ⟨encode_other rfl rfl, completes_toFetch rfl rfl, rfl,
    encode_other rfl rfl, completes_toFetch rfl rfl⟩⟩

/-- Settles O56: RET and POPPC are one pop, entered at different words. -/
theorem retAndPoppcPopThePc : Obligations.RetAndPoppcPopThePc :=
  ⟨encode_other rfl rfl, encode_other rfl rfl, wordAt_of_fields rfl, wordAt_of_fields rfl, wordAt_of_fields rfl,
    wordAt_of_fields rfl, wordAt_of_fields rfl, fun _ hin =>
      ⟨rfl, rfl, popPc_completes uRet0 uRet1 hin, popPc_completes uPoppc0 uPoppc1 hin⟩⟩

end Sys2Proof.Proofs.Other

/-! What only the host sets (R452): `intp` and the parameters are what they were in every state that an operation,
a stage, an instruction or a step answers, the residue of a fault among them. -/

namespace Sys2Proof.Proofs.HostInputs
open Sys2Proof Sys2Proof.Machine Sys2Proof.Proofs.MicroCycle

/-! ## The property of an answer -/

/-- The answer's state, next or residue, has the `intp` and the parameters of `s`; a refusal holds no state. -/
def KeepsHostInputs (s : State) : Result → Prop
  | .next t => t.intp = s.intp ∧ t.params = s.params
  | .fault f => f.residue.intp = s.intp ∧ f.residue.params = s.params
  | .refused _ => True

namespace KeepsHostInputs
variable {s u t : State} {f : Fault} {r : Result}

theorem next (hintp : t.intp = s.intp := by simp) (hparams : t.params = s.params := by simp) :
    KeepsHostInputs s (.next t) := ⟨hintp, hparams⟩

theorem fault (hintp : f.residue.intp = s.intp := by rfl) (hparams : f.residue.params = s.params := by rfl) :
    KeepsHostInputs s (.fault f) := ⟨hintp, hparams⟩

/-- An operation that starts from an updated state, the update writing neither element. -/
theorem after (h : KeepsHostInputs u r) (hintp : u.intp = s.intp := by simp)
    (hparams : u.params = s.params := by simp) : KeepsHostInputs s r := by
  cases r with
  | next t => exact ⟨h.1.trans hintp, h.2.trans hparams⟩
  | fault f => exact ⟨h.1.trans hintp, h.2.trans hparams⟩
  | refused e => trivial

/-- A sequence keeps what both of its parts keep. -/
theorem andThen {g : State → Result} (hr : KeepsHostInputs s r) (hg : ∀ t, KeepsHostInputs t (g t)) :
    KeepsHostInputs s (andThen r g) := by
  cases r with
  | next t => exact (hg t).after hr.1 hr.2
  | fault f => exact hr
  | refused e => trivial

theorem of_eq_next (hr : KeepsHostInputs s r) (h : r = .next t) : t.intp = s.intp ∧ t.params = s.params := by
  subst h; exact hr

theorem of_eq_fault (hr : KeepsHostInputs s r) (h : r = .fault f) :
    f.residue.intp = s.intp ∧ f.residue.params = s.params := by
  subst h; exact hr

end KeepsHostInputs

/-! ## The memory accesses, the checked decrement and the stack -/

theorem fetchIr_keeps (s : State) : KeepsHostInputs s (fetchIr s) := by
  obtain ⟨-, h⟩ | ⟨-, h⟩ := fetchIr_cases s <;> rw [h]
  · exact .fault
  · exact .next

theorem memRead_keeps (s : State) : KeepsHostInputs s (memRead s) := by
  obtain ⟨-, h⟩ | ⟨-, h⟩ := memRead_cases s <;> rw [h]
  · exact .next
  · exact .fault

theorem memWrite_keeps (s : State) : KeepsHostInputs s (memWrite s) := by
  obtain ⟨-, h⟩ | ⟨-, h⟩ := memWrite_cases s <;> rw [h]
  · exact .next
  · exact .fault

theorem decSp_keeps (s : State) : KeepsHostInputs s (decSp s) := by
  obtain ⟨-, h⟩ | ⟨-, h⟩ := decSp_cases s <;> rw [h]
  · exact .next
  · exact .fault

theorem pushMdr_keeps (s : State) : KeepsHostInputs s (pushMdr s) :=
  .andThen (memWrite_keeps _).after decSp_keeps

theorem readTop_keeps (s : State) : KeepsHostInputs s (readTop s) := (memRead_keeps _).after

/-! ## The micro-cycle -/

/-- R190: stages 5 to 10 in order, from the state and the ALU result that stages 2 to 4 leave. -/
theorem runMicro_eq (c : Codes) (m : MicroInstr) (s : State) :
    runMicro c m s = andThen (rbusStage m.rbus ((aluResult m s).map Prod.fst) (computed m s)) fun s =>
      andThen (memStage m.mem s) fun s => andThen (miscStage m.misc s) (nextAddress c m) := by
  simp only [runMicro]
  rw [← operandsRead, aluStage_operandsRead]

theorem rbusStage_keeps (sel : RBus) (res : Option Word) (s : State) : KeepsHostInputs s (rbusStage sel res s) := by
  cases res with
  | none =>
    cases sel
    case none => exact .next
    all_goals exact .fault
  | some v =>
    cases sel
    case reg =>
      simp only [rbusStage]
      split
      · exact .fault
      · exact .next
    all_goals exact .next

theorem memStage_keeps (sel : MemOp) (s : State) : KeepsHostInputs s (memStage sel s) := by
  cases sel with
  | none => exact .next
  | ifch => exact fetchIr_keeps s
  | read => exact memRead_keeps s
  | write => exact memWrite_keeps s

theorem miscStage_keeps (sel : Misc) (s : State) : KeepsHostInputs s (miscStage sel s) := by
  cases sel
  case decSp => exact decSp_keeps s
  all_goals exact .next

/-- R128, R282: an opcode distance that is not defined leaves the state it is asked for. -/
theorem distanceIndex_residue {c : Codes} {serves : Group → Bool} {s : State} {f : Fault}
    (h : distanceIndex c serves s = .error f) : f.residue = s := by
  unfold distanceIndex at h
  split at h
  · cases h; rfl
  · split at h <;> cases h; rfl

theorem indexValue_residue {c : Codes} {sel : Index} {s : State} {f : Fault} (h : indexValue c sel s = .error f) :
    f.residue = s := by
  cases sel <;> simp only [indexValue] at h
  case opcode | oneOp | twoOp => exact distanceIndex_residue h
  all_goals cases h

theorem nextAddress_keeps (c : Codes) (m : MicroInstr) (s : State) : KeepsHostInputs s (nextAddress c m s) := by
  simp only [nextAddress]
  split
  · next h =>
    have hres := indexValue_residue h
    exact .fault (congrArg State.intp hres) (congrArg State.params hres)
  · exact .next

theorem runMicro_keeps (c : Codes) (m : MicroInstr) (s : State) : KeepsHostInputs s (runMicro c m s) := by
  have hintp : (computed m s).intp = s.intp := by rw [computed_frame]
  have hparams : (computed m s).params = s.params := by rw [computed_frame]
  rw [runMicro_eq]
  exact .andThen ((rbusStage_keeps _ _ _).after hintp hparams) fun s =>
    .andThen (memStage_keeps _ s) fun s => .andThen (miscStage_keeps _ s) (nextAddress_keeps c m)

theorem microCycle_keeps (k : Setup) (s : State) : KeepsHostInputs s (microCycle k s) := by
  unfold microCycle
  split
  · exact .fault
  · dsimp only
    split
    · exact .fault
    · exact (runMicro_keeps _ _ _).after

/-! ## The operands -/

theorem fetchSource_keeps (o : Operand) (s : State) : KeepsHostInputs s (fetchSource o s) := by
  cases o with
  | immediate f v => exact .next
  | direct r => exact .next
  | indirect r => exact .andThen (memRead_keeps _).after fun s => .next
  | indexed r e => exact .andThen (memRead_keeps _).after fun s => .next

theorem fetchDest_keeps (o : Operand) (s : State) : KeepsHostInputs s (fetchDest o s) := by
  cases o with
  | immediate f v => exact .next
  | direct r => exact .next
  | indirect r => exact (memRead_keeps _).after
  | indexed r e => exact (memRead_keeps _).after

/-- A write-back that goes to memory, then the return to FETCH. -/
theorem memWrite_toFetch_keeps (s : State) :
    KeepsHostInputs s (andThen (memWrite s) fun s => .next s.toFetch) :=
  .andThen (memWrite_keeps s) fun s => .next

theorem writeBack_keeps (o : Operand) (s : State) : KeepsHostInputs s (writeBack o s) := by
  cases o with
  | direct r => exact .next
  | immediate f v => exact (memWrite_toFetch_keeps _).after
  | indirect r => exact (memWrite_toFetch_keeps _).after
  | indexed r e => exact (memWrite_toFetch_keeps _).after

theorem popTo_keeps (o : Operand) (s : State) : KeepsHostInputs s (popTo o s) := by
  cases o with
  | immediate f v => exact .next
  | direct r => exact .next
  | indirect r => exact (memWrite_toFetch_keeps _).after
  | indexed r e => exact (memWrite_toFetch_keeps _).after

/-- An execute word and the write-back of its result. -/
theorem compute_writeBack_keeps (o : Operand) (s : State) (u : MicroAddr) (op : Alu) (S D : Word) :
    KeepsHostInputs s (writeBack o (s.compute u op S D)) :=
  (writeBack_keeps _ _).after (by simp [State.compute]) (by simp [State.compute])

theorem withOperands_keeps (src dst : Operand) {body : State → Result} (hbody : ∀ s, KeepsHostInputs s (body s))
    (s : State) : KeepsHostInputs s (withOperands src dst body s) :=
  .andThen (fetchSource_keeps src s) fun s => .andThen (fetchDest_keeps dst s) hbody

theorem twoOperandResult_keeps (u : MicroAddr) (op : Alu) (src dst : Operand) (s : State) :
    KeepsHostInputs s (twoOperandResult u op src dst s) :=
  withOperands_keeps src dst (fun s => compute_writeBack_keeps dst s u op _ _) s

theorem oneOperandResult_keeps (u : MicroAddr) (op : Alu) (S : Word) (dst : Operand) (s : State) :
    KeepsHostInputs s (oneOperandResult u op S dst s) :=
  .andThen (fetchDest_keeps dst s) fun s => compute_writeBack_keeps dst s u op _ _

/-! ## The instructions -/

theorem execNeg_keeps (dst : Operand) (s : State) : KeepsHostInputs s (execNeg dst s) :=
  .andThen (fetchDest_keeps dst s) fun _ => (compute_writeBack_keeps dst _ uNeg1 .sub _ 0).after

theorem execCall_keeps (target : Operand) (s : State) : KeepsHostInputs s (execCall target s) :=
  .andThen (fetchDest_keeps target s) fun _ => .andThen (pushMdr_keeps _).after fun _ => .next

theorem execPush_keeps (src : Operand) (s : State) : KeepsHostInputs s (execPush src s) :=
  .andThen (fetchDest_keeps src s) fun _ => .andThen (pushMdr_keeps _).after fun _ => .next

theorem execPop_keeps (dst : Operand) (s : State) : KeepsHostInputs s (execPop dst s) :=
  .andThen (fetchDest_keeps dst s) fun _ => .andThen (readTop_keeps _).after fun _ => (popTo_keeps dst _).after

theorem popPc_keeps (first second : MicroAddr) (s : State) : KeepsHostInputs s (popPc first second s) :=
  .andThen (readTop_keeps _).after fun _ => .next

theorem execReti_keeps (s : State) : KeepsHostInputs s (execReti s) :=
  .andThen (readTop_keeps _).after fun _ => .andThen (readTop_keeps _).after fun _ => .next

theorem takeBranch_keeps (o : BitVec 8) (s : State) : KeepsHostInputs s (takeBranch o s) := .next

theorem branchIf_keeps (u : MicroAddr) (taken : Bool) (o : BitVec 8) (s : State) :
    KeepsHostInputs s (branchIf u taken o s) := by
  cases taken with
  | true => exact (takeBranch_keeps o _).after
  | false => exact .next

/-- R425: WAIT reads `intp` and leaves it. -/
theorem execWait_keeps (s : State) : KeepsHostInputs s (execWait s) := by
  cases h : s.intp with
  | true => rw [Other.execWait_of_intp h]; exact .next
  | false => rw [Other.execWait_of_not_intp h]; exact .next

/-- No instruction writes `intp` or the parameters. -/
theorem exec_keeps (i : Instr) (s : State) : KeepsHostInputs s (exec i s) := by
  cases i with
  | mov src dst => exact withOperands_keeps src dst (fun s => (writeBack_keeps dst _).after) s
  | cmp src dst => exact withOperands_keeps src dst (fun s => .next) s
  | add | sub | and | or | xor => exact twoOperandResult_keeps _ _ _ _ s
  | clr dst => exact .andThen (fetchDest_keeps dst s) fun s => compute_writeBack_keeps dst s _ _ _ _
  | neg dst => exact execNeg_keeps dst s
  | inc | dec | asl | asr | lsr | rol | ror | rlc | rrc => exact oneOperandResult_keeps _ _ _ _ s
  | jmp target => exact .andThen (fetchDest_keeps target s) fun s => .next
  | call target => exact execCall_keeps target s
  | push src => exact execPush_keeps src s
  | pop dst => exact execPop_keeps dst s
  | br o => exact takeBranch_keeps o s
  | bne | beq | bpl | bmi | bcs | bcc | bvs | bvc => exact branchIf_keeps _ _ _ s
  | clc | clv | clz | cls | ccc | sec | sev | sez | ses | scc | nop | halt => exact .next
  | wait => exact execWait_keeps s
  | ret | poppc => exact popPc_keeps _ _ s
  | reti => exact execReti_keeps s
  | pushpc | pushflag => exact .andThen (pushMdr_keeps _).after fun s => .next
  | popflag => exact .andThen (readTop_keeps _).after fun s => .next

/-! ## The step -/

/-- A step is a whole instruction after its FETCH cycle, or one micro-cycle. -/
theorem step_keeps (s : State) : KeepsHostInputs s (step s) := by
  unfold step
  split
  · exact (exec_keeps _ _).after (by simp [State.fetched]) (by simp [State.fetched])
  · exact microCycle_keeps _ s

/-- Settles O18: what every micro-cycle and every step keeps, read off for each kind of answer. -/
theorem onlyTheHostWritesIntp : Obligations.OnlyTheHostWritesIntp :=
  ⟨fun k s _ => (microCycle_keeps k s).of_eq_next, fun k s _ => (microCycle_keeps k s).of_eq_fault,
    fun s _ => (step_keeps s).of_eq_next, fun s _ => (step_keeps s).of_eq_fault, fun _ _ => rfl⟩

end Sys2Proof.Proofs.HostInputs

/-! The state `reset(P)` gives (R471): what memory reads after a program is copied in, and every other element. -/

namespace Sys2Proof.Proofs.Reset
open Sys2Proof Sys2Proof.Machine

/-! ## Memory after consecutive words are written -/

/-- Words written from an address on leave the cells before it as they were. -/
theorem read_writeWords_of_lt {b : Nat} : ∀ (ws : List Word) {a : Nat} (m : Memory), b < a →
    (m.writeWords a ws).read b = m.read b
  | [], _, _, _ => rfl
  | w :: ws, a, m, h =>
    calc ((m.write a w).writeWords (a + 1) ws).read b
      _ = (m.write a w).read b := read_writeWords_of_lt ws _ (Nat.lt_succ_of_lt h)
      _ = m.read b := Memory.read_write_other w h.ne m

/-- From that address on a cell reads as the word written to it, and past the last word as before. -/
theorem read_writeWords_add : ∀ (ws : List Word) (a i : Nat) {m : Memory}, m.wf = true →
    (m.writeWords a ws).read (a + i) = ws[i]?.getD (m.read (a + i))
  | [], _, _, _, _ => rfl
  | w :: ws, a, 0, m, hm =>
    calc ((m.write a w).writeWords (a + 1) ws).read a
      _ = (m.write a w).read a := read_writeWords_of_lt ws _ a.lt_succ_self
      _ = w := Memory.read_write_same_from w hm
  | w :: ws, a, i + 1, m, hm => by
    have hrest := read_writeWords_add ws (a + 1) i (Memory.wf_write hm a w)
    rw [Nat.add_right_comm a 1 i, Memory.read_write_other w (by omega) m] at hrest
    exact hrest

/-! ## The state after reset -/

theorem boot_of_fits {p : Params} {program : List Word} (h : programFits p program) :
    boot p program = .next (bootState p program) := if_pos h

/-- The program's words from address 0 on, every other cell 0. -/
theorem bootState_mem_read (p : Params) (program : List Word) (i : Nat) :
    (bootState p program).mem.read i = program[i]?.getD 0 := by
  have h := read_writeWords_add program 0 i (m := []) rfl
  rwa [Nat.zero_add] at h

theorem bootState_reg (p : Params) (program : List Word) (r : Reg) : (bootState p program).reg r = 0 :=
  Vector.getElem_replicate _

/-- MEM_SIZE - 1 is a 16-bit word, MEM_SIZE = 65536 included. -/
theorem bootState_sp_toNat {p : Params} (program : List Word) (h : p.memSize ≤ 65536) :
    (bootState p program).sp.toNat = p.memSize - 1 :=
  Nat.mod_eq_of_lt (show p.memSize - 1 < 65536 by omega)

/-- Settles O28: the default MEM_SIZE is by definition; the cells of memory and `sp` are read by the lemmas above,
and the other elements are the fields of `bootState`. -/
theorem resetOfAProgram : Obligations.ResetOfAProgram := by
  refine ⟨fun _ _ => ⟨rfl, rfl⟩, fun p program hstack hroom hsize => ?_⟩
  have hprogram : ∀ i w, program[i]? = some w → (bootState p program).mem.read i = w := fun i w hw => by
    rw [bootState_mem_read, hw, Option.getD_some]
  have hzeros : ∀ i, program.length ≤ i → (bootState p program).mem.read i = 0 := fun i hi => by
    rw [bootState_mem_read, List.getElem?_eq_none hi, Option.getD_none]
  exact ⟨bootState p program, boot_of_fits ⟨hstack, hroom, hsize⟩, hprogram, hzeros, rfl, rfl,
    rfl, bootState_sp_toNat program hsize, bootState_reg p program,
    rfl, rfl, rfl, rfl, rfl, rfl, rfl, rfl, rfl, rfl⟩

end Sys2Proof.Proofs.Reset

/-! The decoder and the encoder as inverses (R120, R124): the decoder reads any encoding back, and whatever decodes is
its own encoding. -/

namespace Sys2Proof.Proofs.CodecInverse
open Sys2Proof Sys2Proof.Proofs.Encoders Sys2Proof.Proofs.RoundTrip

/-- Settles O3: the law of R120 for the decoder that follows the hardware, at the reference instance and at any other. -/
theorem decodeOfEncode : Obligations.DecodeOfEncode :=
  ⟨decodeWords_encode Codes.reference_valid, fun _ hv => decodeWords_encode hv⟩

/-! ## A word put together from its own fields -/

theorem extractLsb'_eq_mod (w : Word) (start len : Nat) :
    (w.extractLsb' start len).toNat = w.toNat / 2 ^ start % 2 ^ len := by
  rw [BitVec.extractLsb'_toNat, Nat.shiftRight_eq_div_pow]

theorem twoOp_word_of_fields (w : Word) :
    (BitVec.ofNat 4 (w.extractLsb' 12 4).toNat ++ modeSrcField w ++ regSrcField w ++ modeDstField w ++ regDstField w
      : Word) = w := by
  rw [← twoOp_word_eq]
  apply BitVec.eq_of_toNat_eq
  have := w.isLt
  simp only [BitVec.toNat_ofNat, modeSrcField, regSrcField, modeDstField, regDstField, extractLsb'_eq_mod]
  omega

theorem oneOp_word_of_fields (w : Word) :
    (BitVec.ofNat 10 (w.extractLsb' 6 10).toNat ++ modeDstField w ++ regDstField w : Word) = w := by
  rw [← oneOp_word_eq]
  apply BitVec.eq_of_toNat_eq
  have := w.isLt
  simp only [BitVec.toNat_ofNat, modeDstField, regDstField, extractLsb'_eq_mod]
  omega

theorem branch_word_of_fields (w : Word) :
    (BitVec.ofNat 8 (w.extractLsb' 8 8).toNat ++ offsetField w : Word) = w := by
  rw [← branch_word_eq]
  apply BitVec.eq_of_toNat_eq
  have := w.isLt
  simp only [BitVec.toNat_ofNat, offsetField, extractLsb'_eq_mod]
  omega

/-! ## What was read -/

/-- R122: an operand that is read has the mode and the register field given, and its extra word is what was taken. -/
theorem read_inverse {mode : AddrMode} {r : Reg} {ws rest : List Word} {o : Operand}
    (h : Operand.read mode r ws = some (o, rest)) : o.mode = mode ∧ o.field = r ∧ o.extraWords ++ rest = ws := by
  cases mode with
  | direct | indirect => cases h; exact ⟨rfl, rfl, rfl⟩
  | immediate | indexed =>
    cases ws with
    | nil => cases h
    | cons w ws => cases h; exact ⟨rfl, rfl, rfl⟩

theorem shape_one_instr (op : OneOp) (dst : Operand) : (op.instr dst).shape = .one op dst := by cases op <;> rfl
theorem shape_branch_instr (op : BranchOp) (o : BitVec 8) : (op.instr o).shape = .branch op o := by cases op <;> rfl
theorem shape_other_instr (op : OtherOp) : op.instr.shape = .other op := by cases op <;> rfl

section
variable {c : Codes} (hv : c.valid) {w : Word} {ws rest : List Word} {i : Instr}
include hv

theorem encode_of_decode_twoOp (hg : group w = .twoOp) (h : c.decodeWords (w :: ws) = .ok (i, rest)) :
    c.encode i ++ rest = w :: ws := by
  obtain ⟨hmodes, ⟨hnodup, -⟩, -⟩ := hv
  simp only [Codes.decodeWords, hg] at h
  split at h
  · cases h
  · next op hop =>
    split at h
    · cases h
    · next src ws1 hsrc =>
      split at h
      · cases h
      · next dst ws2 hdst =>
        cases h
        obtain ⟨hsm, hsf, hsx⟩ := read_inverse hsrc
        obtain ⟨hdm, hdf, hdx⟩ := read_inverse hdst
        simp only [Codes.encode, shape_two_instr, hsm, hsf, hdm, hdf, Codes.modeCode_modeOf hmodes,
          OpcodeRun.value_named _ hnodup hop, twoOp_word_of_fields, List.cons_append, List.append_assoc, hdx, hsx]

theorem encode_of_decode_oneOp (hg : group w = .oneOp) (h : c.decodeWords (w :: ws) = .ok (i, rest)) :
    c.encode i ++ rest = w :: ws := by
  obtain ⟨hmodes, -, ⟨hnodup, -⟩, -⟩ := hv
  simp only [Codes.decodeWords, hg] at h
  split at h
  · cases h
  · next op hop =>
    split at h
    · cases h
    · next dst ws1 hdst =>
      cases h
      obtain ⟨hdm, hdf, hdx⟩ := read_inverse hdst
      simp only [Codes.encode, shape_one_instr, hdm, hdf, Codes.modeCode_modeOf hmodes,
        OpcodeRun.value_named _ hnodup hop, oneOp_word_of_fields, List.cons_append, hdx]

theorem encode_of_decode_branch (hg : group w = .branch) (h : c.decodeWords (w :: ws) = .ok (i, rest)) :
    c.encode i ++ rest = w :: ws := by
  obtain ⟨-, -, -, ⟨hnodup, -⟩, -⟩ := hv
  simp only [Codes.decodeWords, hg] at h
  split at h
  · cases h
  · next op hop =>
    cases h
    simp only [Codes.encode, shape_branch_instr, OpcodeRun.value_named _ hnodup hop, branch_word_of_fields,
      List.cons_append, List.nil_append]

theorem encode_of_decode_other (hg : group w = .other) (h : c.decodeWords (w :: ws) = .ok (i, rest)) :
    c.encode i ++ rest = w :: ws := by
  obtain ⟨-, -, -, -, ⟨hnodup, -⟩, -⟩ := hv
  simp only [Codes.decodeWords, hg] at h
  split at h
  · cases h
  · next op hop =>
    cases h
    simp only [Codes.encode, shape_other_instr, OpcodeRun.value_named _ hnodup hop, BitVec.ofNat_toNat,
      BitVec.setWidth_eq, List.cons_append, List.nil_append]

/-- R124: the words that decode are the encoding of the instruction read and the words left over. -/
theorem encode_of_decodeWords (h : c.decodeWords ws = .ok (i, rest)) : c.encode i ++ rest = ws := by
  cases ws with
  | nil => cases h
  | cons w ws =>
    cases hg : group w with
    | twoOp => exact encode_of_decode_twoOp hv hg h
    | oneOp => exact encode_of_decode_oneOp hv hg h
    | branch => exact encode_of_decode_branch hv hg h
    | other => exact encode_of_decode_other hv hg h

end

/-- R121 to R124: what `decode` answers is legal and is what the words decode to, with the length of what was taken. -/
theorem decodeWords_of_decode {c : Codes} {extra : List (AddrMode × AddrMode)} {ws : List Word} {k : Nat} {d : Decoded}
    (h : c.decode extra ws k = .ok d) :
    ∃ rest, c.decodeWords (ws.drop k) = .ok (d.instr, rest) ∧ d.instr.legal extra = true
      ∧ d.length = (ws.drop k).length - rest.length ∧ d.noncanonical = !d.instr.canonical := by
  simp only [Codes.decode] at h
  split at h
  · cases h
  · split at h
    · cases h
    · next hwords =>
      split at h
      · next hlegal => cases h; exact ⟨_, hwords, hlegal, rfl, rfl⟩
      · cases h

/-- Settles O4: the words are put together again from their own fields; and an instruction that is legal and canonical
is accepted by its encode function. -/
theorem encodeOfDecode : Obligations.EncodeOfDecode := by
  refine fun c hv => ⟨fun ws rest i => encode_of_decodeWords hv, fun extra ws d h hnon => ?_⟩
  obtain ⟨rest, hwords, hlegal, hlength, hflag⟩ := decodeWords_of_decode h
  have hcanonical : d.instr.canonical = true := by simpa [hnon] using hflag
  have hws : c.encode d.instr ++ rest = ws := encode_of_decodeWords hv hwords
  rw [encodeCall_of_wellFormed hv.1 hlegal hcanonical, hlength, List.drop_zero, ← hws, List.length_append,
    Nat.add_sub_cancel, List.take_left]

end Sys2Proof.Proofs.CodecInverse

/-! The round trips of the control word (R155): the getters read the digits that `build` has put side by side. -/

namespace Sys2Proof.Proofs.ControlWordRoundTrip
open Sys2Proof Sys2Proof.Machine Sys2Proof.Proofs.ControlWordCodec

theorem getField_eq_mod (shift width word : Nat) : getField shift width word = word / 2 ^ shift % 2 ^ width := by
  rw [getField, Nat.and_two_pow_sub_one_eq_mod, Nat.shiftRight_eq_div_pow]

theorem unpack_inWidth (word : Nat) : (unpack word).inWidth := by
  have fits (shift width : Nat) : getField shift width word < 2 ^ width := by
    rw [getField_eq_mod]
    exact Nat.mod_lt _ (Nat.two_pow_pos width)
  exact ⟨fits 41 3, fits 37 4, fits 33 4, fits 30 3, fits 26 4, fits 24 2, fits 20 4, fits 13 7, fits 6 7, fits 3 3,
    fits 0 3⟩

theorem unpack_build {f : Fields} (hf : f.inWidth) : unpack (build f) = f := by
  have hsum := build_eq_sum hf
  obtain ⟨sbus, dbus, alu, rbus, misc, mem, cond, addressTrue, addressFalse, indexTrue, indexFalse⟩ := f
  dsimp only [Fields.inWidth] at hf hsum
  obtain ⟨hsbus, hdbus, halu, hrbus, hmisc, hmem, hcond, haddressTrue, haddressFalse, hindexTrue, hindexFalse⟩ := hf
  simp only [unpack, getSBus, getDBus, getAlu, getRBus, getMisc, getMem, getCond, getAddressTrue, getAddressFalse,
    getIndexTrue, getIndexFalse, getField_eq_mod, Fields.mk.injEq, hsum]
  clear hsum
  refine ⟨?_, ?_, ?_, ?_, ?_, ?_, ?_, ?_, ?_, ?_, ?_⟩ <;> omega

/-- The digits above place `j` and the digit there make the digits from `j` on. -/
theorem digits_add_digit (word j w : Nat) :
    word / 2 ^ (j + w) * 2 ^ w + word / 2 ^ j % 2 ^ w = word / 2 ^ j := by
  rw [Nat.pow_add, ← Nat.div_div_eq_div_mul, Nat.div_add_mod']

theorem build_unpack {word : Nat} (h : word < 2 ^ 44) : build (unpack word) = word := by
  have htop : word / 2 ^ 41 % 2 ^ 3 = word / 2 ^ (37 + 4) := Nat.mod_eq_of_lt (by omega)
  have hlast : word / 2 ^ 3 * 2 ^ 3 + word / 2 ^ 0 % 2 ^ 3 = word := by
    rw [Nat.pow_zero, Nat.div_one, Nat.div_add_mod']
  rw [build_eq_horner (unpack_inWidth word)]
  simp only [unpack, getSBus, getDBus, getAlu, getRBus, getMisc, getMem, getCond, getAddressTrue, getAddressFalse,
    getIndexTrue, getIndexFalse, getField_eq_mod]
  rw [htop, digits_add_digit word 37 4, digits_add_digit word 33 4, digits_add_digit word 30 3,
    digits_add_digit word 26 4, digits_add_digit word 24 2, digits_add_digit word 20 4, digits_add_digit word 13 7,
    digits_add_digit word 6 7, digits_add_digit word 3 3, hlast]

theorem SBus.mem_table (sel : SBus) : sel ∈ SBus.table := by cases sel <;> decide
theorem DBus.mem_table (sel : DBus) : sel ∈ DBus.table := by cases sel <;> decide
theorem Alu.mem_table (sel : Alu) : sel ∈ Alu.table := by cases sel <;> decide
theorem RBus.mem_table (sel : RBus) : sel ∈ RBus.table := by cases sel <;> decide
theorem Misc.mem_table (sel : Misc) : sel ∈ Misc.table := by cases sel <;> decide
theorem MemOp.mem_table (sel : MemOp) : sel ∈ MemOp.table := by cases sel <;> decide
theorem Cond.mem_table (sel : Cond) : sel ∈ Cond.table := by cases sel <;> decide
theorem Index.mem_table (sel : Index) : sel ∈ Index.table := by cases sel <;> decide

/-- An admitted numbering names a selector by its own code. -/
theorem named_code_of_valid {α : Type} [DecidableEq α] {n : Numbering α} {all : List α} {width : Nat}
    (h : n.valid all width) {sel : α} (hsel : sel ∈ all) : n.named (n.code sel) = some sel := by
  obtain ⟨-, hcodes, hall, -⟩ := h
  exact n.named_code hcodes (hall sel hsel)

section
variable {n : Selectors} (hn : n.valid) {m : MicroInstr} (htrue : m.addressTrue < 128) (hfalse : m.addressFalse < 128)
include hn

theorem ofFields_fields : n.ofFields (n.fields m) = some m := by
  obtain ⟨hsbus, hdbus, halu, hrbus, hmisc, hmem, hcond, hindex⟩ := hn
  simp only [Selectors.ofFields, Selectors.fields, named_code_of_valid hsbus (SBus.mem_table _),
    named_code_of_valid hdbus (DBus.mem_table _), named_code_of_valid halu (Alu.mem_table _),
    named_code_of_valid hrbus (RBus.mem_table _), named_code_of_valid hmisc (Misc.mem_table _),
    named_code_of_valid hmem (MemOp.mem_table _), named_code_of_valid hcond (Cond.mem_table _),
    named_code_of_valid hindex (Index.mem_table _)]

include htrue hfalse

theorem fields_inWidth : (n.fields m).inWidth := by
  obtain ⟨hsbus, hdbus, halu, hrbus, hmisc, hmem, hcond, hindex⟩ := hn
  exact ⟨Numbering.code_lt hsbus (SBus.mem_table _), Numbering.code_lt hdbus (DBus.mem_table _),
    Numbering.code_lt halu (Alu.mem_table _), Numbering.code_lt hrbus (RBus.mem_table _),
    Numbering.code_lt hmisc (Misc.mem_table _), Numbering.code_lt hmem (MemOp.mem_table _),
    Numbering.code_lt hcond (Cond.mem_table _), htrue, hfalse, Numbering.code_lt hindex (Index.mem_table _),
    Numbering.code_lt hindex (Index.mem_table _)⟩

theorem ofWord_toWord : n.ofWord (n.toWord m) = some m := by
  have hf := fields_inWidth hn htrue hfalse
  rw [Selectors.ofWord, Selectors.toWord, BitVec.toNat_ofNat, Nat.mod_eq_of_lt (build_lt hf), unpack_build hf,
    ofFields_fields hn]

end

/-- Settles O11: each field is the digit of the sum at its place, and an admitted numbering is undone by its own
inverse. -/
theorem controlWordRoundTrip : Obligations.ControlWordRoundTrip :=
  ⟨fun _ => unpack_build, fun word h => ⟨build_unpack h, unpack_inWidth word⟩,
    fun _ _ hn htrue hfalse => ofWord_toWord hn htrue hfalse⟩

end Sys2Proof.Proofs.ControlWordRoundTrip

/-! A micro-cycle's stages taken apart (R190): stages 2 to 7, then the choice of the next micro-address; everything each
stage can write, and every fault each can raise. -/

namespace Sys2Proof.Proofs.MicroStages
open Sys2Proof Sys2Proof.Machine Sys2Proof.Proofs.MicroCycle Sys2Proof.Proofs.HostInputs
  Sys2Proof.Proofs.ControlWordRoundTrip

/-! ## Stages 2 to 7, and stages 8 to 10 -/

/-- Stages 2 to 7 of a micro-instruction. -/
def dataStages (m : MicroInstr) (s : State) : Result :=
  andThen (rbusStage m.rbus ((aluResult m s).map Prod.fst) (computed m s)) fun s =>
    andThen (memStage m.mem s) (miscStage m.misc)

theorem runMicro_eq_dataStages (c : Codes) (m : MicroInstr) (s : State) :
    runMicro c m s = andThen (dataStages m s) (nextAddress c m) := by
  rw [runMicro_eq, dataStages]
  cases rbusStage m.rbus ((aluResult m s).map Prod.fst) (computed m s) with
  | next t =>
    simp only [andThen_next]
    cases memStage m.mem t <;> rfl
  | fault f | refused r => rfl

theorem dataStages_eq_next {m : MicroInstr} {s t : State} :
    dataStages m s = .next t ↔ ∃ written accessed : State,
      rbusStage m.rbus ((aluResult m s).map Prod.fst) (computed m s) = .next written
        ∧ memStage m.mem written = .next accessed ∧ miscStage m.misc accessed = .next t := by
  simp only [dataStages, andThen_eq_next, exists_and_left]

theorem dataStages_eq_fault {m : MicroInstr} {s : State} {f : Fault} :
    dataStages m s = .fault f ↔
      rbusStage m.rbus ((aluResult m s).map Prod.fst) (computed m s) = .fault f
        ∨ ∃ written, rbusStage m.rbus ((aluResult m s).map Prod.fst) (computed m s) = .next written
          ∧ (memStage m.mem written = .fault f
            ∨ ∃ accessed, memStage m.mem written = .next accessed ∧ miscStage m.misc accessed = .fault f) := by
  simp only [dataStages, andThen_eq_fault]

/-- The (address, index) pair that the condition chooses (R285). -/
def chosenPair (c : Codes) (m : MicroInstr) (s : State) : Nat × Index :=
  if condHolds c m.cond s then (m.addressTrue, m.indexTrue) else (m.addressFalse, m.indexFalse)

theorem nextAddress_of_ok {c : Codes} {m : MicroInstr} {s : State} {v : Nat}
    (h : indexValue c (chosenPair c m s).2 s = .ok v) :
    nextAddress c m s = .next { s with upc := BitVec.ofNat 8 ((chosenPair c m s).1 + v) } := by
  simp only [chosenPair] at h ⊢
  simp only [nextAddress, h]

theorem nextAddress_of_pair {c : Codes} {m : MicroInstr} {s : State} {addr v : Nat} {ix : Index}
    (hpair : chosenPair c m s = (addr, ix)) (h : indexValue c ix s = .ok v) :
    nextAddress c m s = .next { s with upc := BitVec.ofNat 8 (addr + v) } := by
  have hok : indexValue c (chosenPair c m s).2 s = .ok v := by rw [hpair]; exact h
  rw [nextAddress_of_ok hok, hpair]

theorem nextAddress_of_error {c : Codes} {m : MicroInstr} {s : State} {f : Fault}
    (h : indexValue c (chosenPair c m s).2 s = .error f) : nextAddress c m s = .fault f := by
  simp only [chosenPair] at h
  simp only [nextAddress, h]

theorem nextAddress_eq_next {c : Codes} {m : MicroInstr} {s t : State} (h : nextAddress c m s = .next t) :
    ∃ v, indexValue c (chosenPair c m s).2 s = .ok v
      ∧ t = { s with upc := BitVec.ofNat 8 ((chosenPair c m s).1 + v) } := by
  cases hv : indexValue c (chosenPair c m s).2 s with
  | ok v =>
    rw [nextAddress_of_ok hv] at h
    cases h
    exact ⟨v, rfl, rfl⟩
  | error f =>
    rw [nextAddress_of_error hv] at h
    cases h

theorem nextAddress_eq_fault {c : Codes} {m : MicroInstr} {s : State} {f : Fault} (h : nextAddress c m s = .fault f) :
    indexValue c (chosenPair c m s).2 s = .error f := by
  cases hv : indexValue c (chosenPair c m s).2 s with
  | ok v =>
    rw [nextAddress_of_ok hv] at h
    cases h
  | error g =>
    rw [nextAddress_of_error hv] at h
    cases h
    rfl

/-! ## The faults of each stage -/

/-- R251, R235: U5 without an ALU result, U6 without a latched register. -/
theorem rbusStage_eq_fault {sel : RBus} {res : Option Word} {s : State} {f : Fault}
    (h : rbusStage sel res s = .fault f) :
    (sel ≠ .none ∧ res = none ∧ f = .noAluResult s) ∨ (sel = .reg ∧ s.regsel = none ∧ f = .registerNotLatched s) := by
  cases res with
  | none => cases sel <;> cases h <;> exact .inl ⟨nofun, rfl, rfl⟩
  | some v =>
    cases sel
    case reg =>
      simp only [rbusStage] at h
      split at h
      · next hnone => cases h; exact .inr ⟨rfl, hnone, rfl⟩
      · cases h
    all_goals cases h

/-- R232, R239, R244: ProgramEnd at a fetch, U3 at a data access. -/
theorem memStage_eq_fault {sel : MemOp} {s : State} {f : Fault} (h : memStage sel s = .fault f) :
    (sel = .ifch ∧ s.params.stackBase ≤ s.pc.toNat ∧ f = .programEnd s)
      ∨ ((sel = .read ∨ sel = .write) ∧ s.inMemory s.adr = false ∧ f = .dataOutOfRange s) := by
  cases sel <;> simp only [memStage] at h
  case none => cases h
  case ifch =>
    obtain ⟨hbase, hf⟩ | ⟨-, hf⟩ := fetchIr_cases s <;> rw [hf] at h <;> cases h
    exact .inl ⟨rfl, hbase, rfl⟩
  case read =>
    obtain ⟨-, hr⟩ | ⟨hout, hr⟩ := memRead_cases s <;> rw [hr] at h <;> cases h
    exact .inr ⟨.inl rfl, hout, rfl⟩
  case write =>
    obtain ⟨-, hw⟩ | ⟨hout, hw⟩ := memWrite_cases s <;> rw [hw] at h <;> cases h
    exact .inr ⟨.inr rfl, hout, rfl⟩

/-- R247: StackOverflow at a decrement. -/
theorem miscStage_eq_fault {sel : Misc} {s : State} {f : Fault} (h : miscStage sel s = .fault f) :
    sel = .decSp ∧ canPush s = false ∧ f = .stackOverflow s := by
  cases sel <;> simp only [miscStage] at h
  case decSp =>
    obtain ⟨-, hd⟩ | ⟨hno, hd⟩ := decSp_cases s <;> rw [hd] at h <;> cases h
    exact ⟨rfl, hno, rfl⟩
  all_goals cases h

/-- R282, R128: U7 on a word of another group, U1 on a reserved opcode of a group that is served. -/
theorem distanceIndex_eq_error {c : Codes} {serves : Group → Bool} {s : State} {f : Fault}
    (h : distanceIndex c serves s = .error f) :
    (serves (group s.ir) = false ∧ f = .wrongGroupIndex s)
      ∨ (serves (group s.ir) = true ∧ c.opcodeDefined s.ir = false ∧ f = .reservedOpcode s) := by
  unfold distanceIndex at h
  split at h
  · next hserves => cases h; exact .inl ⟨by simpa using hserves, rfl⟩
  · next hserves =>
    split at h
    · next hdef => cases h; exact .inr ⟨by simpa using hserves, by simpa using hdef, rfl⟩
    · cases h

theorem indexValue_eq_error {c : Codes} {sel : Index} {s : State} {f : Fault} (h : indexValue c sel s = .error f) :
    f = .wrongGroupIndex s ∨ (c.opcodeDefined s.ir = false ∧ f = .reservedOpcode s) := by
  cases sel <;> simp only [indexValue] at h
  case opcode | oneOp | twoOp =>
    obtain ⟨-, hf⟩ | ⟨-, hdef, hf⟩ := distanceIndex_eq_error h
    · exact .inl hf
    · exact .inr ⟨hdef, hf⟩
  all_goals cases h

/-! ## What each stage can write -/

theorem rbusStage_writes {sel : RBus} {res : Option Word} {s t : State} (h : rbusStage sel res s = .next t) :
    (sel ≠ .adr → t.adr = s.adr) ∧ (sel ≠ .t → t.t = s.t) ∧ (sel ≠ .mdr → t.mdr = s.mdr) ∧ (sel ≠ .pc → t.pc = s.pc)
      ∧ (∀ r : Reg, t.reg r ≠ s.reg r → sel = .reg ∧ s.regsel = some r) := by
  have keeps {t : State} (hregs : t.regs = s.regs) : ∀ r : Reg, t.reg r ≠ s.reg r → sel = .reg ∧ s.regsel = some r :=
    fun r hne => absurd (State.reg_congr s t hregs r) hne
  cases res with
  | none => cases sel <;> cases h; exact ⟨fun _ => rfl, fun _ => rfl, fun _ => rfl, fun _ => rfl, keeps rfl⟩
  | some v =>
    cases sel
    case none => cases h; exact ⟨fun _ => rfl, fun _ => rfl, fun _ => rfl, fun _ => rfl, keeps rfl⟩
    case adr => cases h; exact ⟨fun hne => absurd rfl hne, fun _ => rfl, fun _ => rfl, fun _ => rfl, keeps rfl⟩
    case t => cases h; exact ⟨fun _ => rfl, fun hne => absurd rfl hne, fun _ => rfl, fun _ => rfl, keeps rfl⟩
    case mdr => cases h; exact ⟨fun _ => rfl, fun _ => rfl, fun hne => absurd rfl hne, fun _ => rfl, keeps rfl⟩
    case pc => cases h; exact ⟨fun _ => rfl, fun _ => rfl, fun _ => rfl, fun hne => absurd rfl hne, keeps rfl⟩
    case flags => cases h; exact ⟨fun _ => rfl, fun _ => rfl, fun _ => rfl, fun _ => rfl, keeps rfl⟩
    case reg =>
      simp only [rbusStage] at h
      split at h
      · cases h
      · next r hr =>
        cases h
        refine ⟨fun _ => rfl, fun _ => rfl, fun _ => rfl, fun _ => rfl, fun q hne => ⟨rfl, ?_⟩⟩
        by_cases hq : q = r
        · rw [hq, hr]
        · rw [State.reg_setReg, if_neg hq] at hne
          exact absurd rfl hne

theorem memStage_writes {sel : MemOp} {s t : State} (h : memStage sel s = .next t) :
    (sel ≠ .ifch → t.ir = s.ir) ∧ (sel ≠ .read → t.mdr = s.mdr)
      ∧ (∀ a : Nat, t.mem.read a ≠ s.mem.read a → sel = .write ∧ s.adr.toNat = a) := by
  cases sel <;> simp only [memStage] at h
  case none => cases h; exact ⟨fun _ => rfl, fun _ => rfl, fun a hne => absurd rfl hne⟩
  case ifch =>
    obtain ⟨-, hf⟩ | ⟨-, hf⟩ := fetchIr_cases s <;> rw [hf] at h <;> cases h
    exact ⟨fun hne => absurd rfl hne, fun _ => rfl, fun a hne => absurd rfl hne⟩
  case read =>
    obtain ⟨-, hr⟩ | ⟨-, hr⟩ := memRead_cases s <;> rw [hr] at h <;> cases h
    exact ⟨fun _ => rfl, fun hne => absurd rfl hne, fun a hne => absurd rfl hne⟩
  case write =>
    obtain ⟨-, hw⟩ | ⟨-, hw⟩ := memWrite_cases s <;> rw [hw] at h <;> cases h
    refine ⟨fun _ => rfl, fun _ => rfl, fun a hne => ⟨rfl, ?_⟩⟩
    by_contra hother
    exact hne (Memory.read_write_other s.mdr (Ne.symm hother) s.mem)

theorem miscStage_writes {sel : Misc} {s t : State} (h : miscStage sel s = .next t) :
    (sel ≠ .incPc → t.pc = s.pc)
      ∧ (t.sp = s.sp ∨ (sel = .incSp ∧ t.sp = s.sp + 1) ∨ (sel = .decSp ∧ canPush s = true ∧ t.sp = s.sp - 1)) := by
  cases sel <;> simp only [miscStage] at h
  case incPc => cases h; exact ⟨fun hne => absurd rfl hne, .inl rfl⟩
  case incSp => cases h; exact ⟨fun _ => rfl, .inr (.inl ⟨rfl, rfl⟩)⟩
  case decSp =>
    obtain ⟨hcan, hd⟩ | ⟨-, hd⟩ := decSp_cases s <;> rw [hd] at h <;> cases h
    exact ⟨fun _ => rfl, .inr (.inr ⟨rfl, hcan, rfl⟩)⟩
  all_goals cases h; exact ⟨fun _ => rfl, .inl rfl⟩

/-- R31, R193, R203: `regsel` after stages 2 and 3, the later stage's read being the latest. -/
theorem operandsRead_regsel (m : MicroInstr) (s : State) :
    (operandsRead m s).regsel =
      if m.dbus = .reg then some (regDstField s.ir) else if m.sbus = .reg then some (regSrcField s.ir)
      else s.regsel := by
  have hdbus (sel : DBus) (u : State) :
      (dbusStage sel u).2.regsel = if sel = .reg then some (regDstField u.ir) else u.regsel := by
    cases sel <;> rfl
  have hsbus (sel : SBus) : (sbusStage sel s).2.regsel = if sel = .reg then some (regSrcField s.ir) else s.regsel := by
    cases sel <;> rfl
  rw [operandsRead, hdbus, hsbus, sbusStage_frame]

/-- `cw` is the word at `upc` (R199). -/
theorem microCycle_eq_next_bind {k : Setup} {m : MicroInstr} {s t : State}
    (hm : (k.rom[s.upc.toNat]?).bind k.selectors.ofWord = some m) :
    microCycle k s = .next t ↔ runMicro k.codes m { s with cw := k.rom[s.upc.toNat]? } = .next t := by
  obtain ⟨w, hw, hword⟩ := Option.bind_eq_some_iff.mp hm
  simp only [microCycle, hw, hword]

/-- Settles O16: which stage can write each element, and what that stage's selector must be. -/
theorem microCycleFrame : Obligations.MicroCycleFrame := by
  intro k m s t hm h
  obtain ⟨written, accessed, effected, hrbus, hmem, hmisc, hnext⟩ :=
    runMicro_eq_next.mp ((microCycle_eq_next_bind hm).mp h)
  obtain ⟨hadr, ht, hmdr, hpc, hreg⟩ := rbusStage_writes hrbus
  obtain ⟨hir', hmdr', hmem'⟩ := memStage_writes hmem
  obtain ⟨hpc', hsp⟩ := miscStage_writes hmisc
  rw [computed_frame] at hadr ht hmdr hpc hreg hrbus
  have ht_eq := nextAddress_frame hnext
  have heffected := miscStage_frame hmisc
  have haccessed := memStage_frame hmem
  have hwritten := rbusStage_frame hrbus
  have hregs : t.regs = written.regs := by rw [ht_eq, heffected, haccessed]
  have hregsel : t.regsel = (computed m { s with cw := k.rom[s.upc.toNat]? }).regsel := by
    rw [ht_eq, heffected, haccessed, hwritten]
  have hlatched : (computed m { s with cw := k.rom[s.upc.toNat]? }).regsel = _ := operandsRead_regsel m _
  have hadr_eq : t.adr = written.adr := by rw [ht_eq, heffected, haccessed]
  refine ⟨fun r hne => ?_, fun hne => ?_, ?_, fun hne => ?_, fun hne => ?_, fun hne => ?_, fun hne => ?_,
    fun hd => ?_, fun hd hb => ?_, fun hd hb => ?_, fun a hne => ?_, ?_⟩
  · obtain ⟨hsel, hlatch⟩ := hreg r (State.reg_congr written t hregs r ▸ hne)
    exact ⟨hsel, hregsel.trans hlatch⟩
  · by_contra hno
    obtain ⟨hno, hno'⟩ := not_or.mp hno
    exact hne (by rw [ht_eq, hpc' hno', haccessed, hpc hno])
  · have hsp_eq : accessed.sp = s.sp := by rw [haccessed, hwritten]
    have hcan : canPush accessed = canPush s := by rw [haccessed, hwritten]; rfl
    have ht_sp : t.sp = effected.sp := by rw [ht_eq]
    rwa [ht_sp, ← hsp_eq, ← hcan]
  · by_contra hno
    exact hne (by rw [ht_eq, heffected, hir' hno, hwritten])
  · by_contra hno
    exact hne (by rw [hadr_eq, hadr hno])
  · by_contra hno
    obtain ⟨hno, hno'⟩ := not_or.mp hno
    exact hne (by rw [ht_eq, heffected, hmdr' hno', hmdr hno])
  · by_contra hno
    exact hne (by rw [ht_eq, heffected, haccessed, ht hno])
  · rw [hregsel, hlatched, if_pos hd]
  · rw [hregsel, hlatched, if_neg hd, if_pos hb]
  · rw [hregsel, hlatched, if_neg hd, if_neg hb]
  · have hmem_eq : t.mem = accessed.mem := by rw [ht_eq, heffected]
    have hmem_eq' : written.mem = s.mem := by rw [hwritten]
    rw [hadr_eq]
    exact hmem' a (by rwa [hmem_eq', ← hmem_eq])
  · rw [ht_eq, heffected, haccessed, hwritten]

/-- The word A of R252, and A with a commit. -/
def flagTestWord (misc : Misc) (a1 a0 : Nat) : MicroInstr :=
  { sbus := .minusOne, dbus := .zero, alu := .sum, misc, cond := .s, addressTrue := a1, addressFalse := a0 }

/-- The flags of -1 + 0: S alone. -/
def minusOneFlags : Flags := { z := false, c := false, v := false, s := true }

theorem aluSum_minusOne_zero : (aluSum 0xFFFF 0).2 = minusOneFlags := by decide

theorem dataStages_flagTestWord_none (a1 a0 : Nat) (s : State) :
    dataStages (flagTestWord .none a1 a0) s = .next { s with pending := minusOneFlags } := by
  have hstages : dataStages (flagTestWord .none a1 a0) s = .next { s with pending := (aluSum 0xFFFF 0).2 } := rfl
  rw [hstages, aluSum_minusOne_zero]

theorem dataStages_flagTestWord_cond (a1 a0 : Nat) (s : State) :
    dataStages (flagTestWord .cond a1 a0) s
      = .next { s with pending := minusOneFlags, flags := minusOneFlags } := by
  have hstages : dataStages (flagTestWord .cond a1 a0) s
      = .next { s with pending := (aluSum 0xFFFF 0).2, flags := (aluSum 0xFFFF 0).2 } := rfl
  rw [hstages, aluSum_minusOne_zero]

theorem nextAddress_flagTestWord (c : Codes) (misc : Misc) (a1 a0 : Nat) (s : State) :
    nextAddress c (flagTestWord misc a1 a0) s
      = .next { s with upc := BitVec.ofNat 8 (if s.flags.s then a1 else a0) } := by
  cases hs : s.flags.s <;> simp [nextAddress, flagTestWord, condHolds, indexValue, hs]

/-- Settles O19: stage 8 sees the committed S, which only a commit in stage 7 has set. -/
theorem flagCommit : Obligations.FlagCommit := by
  intro k s a1 a0 misc hsel ha1 ha0 hs hmisc hrom
  have hword : (k.rom[s.upc.toNat]?).bind k.selectors.ofWord = some (flagTestWord misc a1 a0) := by
    rw [hrom]
    exact ofWord_toWord hsel ha1 ha0
  have hlt {a : Nat} (ha : a < 128) : (BitVec.ofNat 8 a).toNat = a := by
    rw [BitVec.toNat_ofNat]
    omega
  simp only [microCycle_eq_next_bind hword, runMicro_eq_dataStages]
  obtain rfl | rfl := hmisc
  · rw [dataStages_flagTestWord_none, andThen_next, nextAddress_flagTestWord]
    refine ⟨_, rfl, rfl, fun _ => ⟨rfl, ?_⟩, nofun⟩
    rw [hs]
    exact hlt ha0
  · rw [dataStages_flagTestWord_cond, andThen_next, nextAddress_flagTestWord]
    exact ⟨_, rfl, rfl, nofun, fun _ => ⟨rfl, hlt ha1⟩⟩

end Sys2Proof.Proofs.MicroStages

/-! The micro-cycles of the reference store (R321): one word at a time, and the words of a source fetch, a destination
fetch and a write-back as the operations of the instruction level. -/

namespace Sys2Proof.Proofs.ReferenceCycles
open Sys2Proof Sys2Proof.Machine Sys2Proof.Proofs.MicroCycle Sys2Proof.Proofs.MicroStages
  Sys2Proof.Proofs.Classification Sys2Proof.Proofs.CodecInverse

/-! ## Sequencing -/

theorem andThen_assoc (r : Result) (f g : State → Result) :
    andThen (andThen r f) g = andThen r fun s => andThen (f s) g := by
  cases r <;> rfl

theorem andThen_next_right (r : Result) : andThen r .next = r := by cases r <;> rfl

/-- Two sequences with one first part agree when they agree on the states it answers. -/
theorem andThen_congr {r : Result} {f g : State → Result} (h : ∀ t, r = .next t → f t = g t) :
    andThen r f = andThen r g := by
  cases r with
  | next t => exact h t rfl
  | fault _ | refused _ => rfl

theorem run_succ (n : Nat) (s : State) : run (n + 1) s = andThen (microStep s) (run n) := rfl

/-! ## One word -/

/-- A state whose next micro-cycle is at a given address. -/
def goto (s : State) (u : MicroAddr) : State := { s with upc := u }

theorem goto_upc (s : State) : goto s s.upc = s := rfl

/-- R199: the micro-cycle at a word of the store enters it and runs its fields. -/
theorem microStep_goto {u : MicroAddr} {m : MicroInstr} (hu : referenceFields[u.toNat]? = some m) (s : State) :
    microStep (goto s u) = runMicro Codes.reference m (s.enter u) := by
  obtain ⟨w, hw, hword⟩ := Option.bind_eq_some_iff.mp ((controlWordAt_fields u).trans hu)
  have hrom : Setup.reference.rom[u.toNat]? = some w := hw
  have henter : s.enter u = { goto s u with cw := some w } := by rw [State.enter, hw]; rfl
  have hsel : Setup.reference.selectors.ofWord w = some m := hword
  rw [microStep, microCycle, henter]
  simp only [goto, hrom, hsel]
  rfl

/-- A word that reads memory, and its side effect. -/
theorem dataStages_readThen {m : MicroInstr} {s u : State}
    (hrbus : rbusStage m.rbus ((aluResult m s).map Prod.fst) (computed m s) = .next u) (hmem : m.mem = .read) :
    dataStages m s = andThen (memRead u) (miscStage m.misc) := by
  rw [dataStages, hrbus, andThen_next, hmem]
  rfl

/-- A word that reads memory and does nothing after it. -/
theorem dataStages_read {m : MicroInstr} {s u : State}
    (hrbus : rbusStage m.rbus ((aluResult m s).map Prod.fst) (computed m s) = .next u) (hmem : m.mem = .read)
    (hmisc : m.misc = .none) : dataStages m s = memRead u := by
  rw [dataStages_readThen hrbus hmem, hmisc]
  exact andThen_next_right _

/-- A run from a word of the store: the word's stages 2 to 7, and the run from where they lead. -/
theorem run_word (u v : MicroAddr) {m : MicroInstr} {s : State} {r : Result} {n : Nat}
    (hu : referenceFields[u.toNat]? = some m) (hdata : dataStages m (s.enter u) = r)
    (hnext : ∀ t, r = .next t → nextAddress Codes.reference m t = .next (goto t v)) :
    run (n + 1) (goto s u) = andThen r fun t => run n (goto t v) := by
  rw [run_succ, microStep_goto hu, runMicro_eq_dataStages, hdata, andThen_assoc]
  refine andThen_congr fun t ht => ?_
  rw [hnext t ht, andThen_next]

/-- A run does not depend on the address and the word that the state was at before. -/
theorem run_goto_enter {u : MicroAddr} {n : Nat} (hu : u.toNat < 135) (hn : 0 < n) (v : MicroAddr)
    (s : State) : run n (goto (s.enter v) u) = run n (goto s u) := by
  obtain ⟨n, rfl⟩ := Nat.exists_eq_add_one_of_ne_zero hn.ne'
  have hlength : referenceFields.length = 135 := rfl
  have hfields := List.getElem?_eq_getElem (l := referenceFields) (hlength.symm ▸ hu)
  rw [run_succ, run_succ, microStep_goto hfields, microStep_goto hfields]
  rfl

/-! ## Words in memory -/

/-- Words that stand in existing cells from an address on, the address wrapping as `pc` does. -/
def WordsAt (s : State) (a : Word) (ws : List Word) : Prop :=
  ∀ (k : Nat) (e : Word), ws[k]? = some e →
    s.inMemory (a + BitVec.ofNat 16 k) = true ∧ s.mem.read (a + BitVec.ofNat 16 k).toNat = e

theorem WordsAt.head {s : State} {a w : Word} {ws : List Word} (h : WordsAt s a (w :: ws)) :
    s.inMemory a = true ∧ s.mem.read a.toNat = w := by
  simpa using h 0 w rfl

theorem WordsAt.left {s : State} {a : Word} {xs ys : List Word} (h : WordsAt s a (xs ++ ys)) : WordsAt s a xs :=
  fun k e hk => h k e (by
    rw [List.getElem?_append_left (List.getElem?_eq_some_iff.mp hk).1]
    exact hk)

theorem WordsAt.right {s : State} {a : Word} {xs ys : List Word} (h : WordsAt s a (xs ++ ys)) :
    WordsAt s (a + BitVec.ofNat 16 xs.length) ys := fun k e hk => by
  rw [BitVec.add_assoc, ← BitVec.ofNat_add]
  exact h (xs.length + k) e (by rw [List.getElem?_append_right (by omega), Nat.add_sub_cancel_left, hk])

theorem WordsAt.tail {s : State} {a w : Word} {ws : List Word} (h : WordsAt s a (w :: ws)) : WordsAt s (a + 1) ws :=
  WordsAt.right (xs := [w]) h

theorem WordsAt.congr {s t : State} {a : Word} {ws : List Word} (h : WordsAt s a ws) (hmem : t.mem = s.mem)
    (hparams : t.params = s.params) : WordsAt t a ws := fun k e hk => by
  rw [State.inMemory_congr s t hparams, hmem]
  exact h k e hk

theorem extraCount_eq (o : Operand) : extraCount o = BitVec.ofNat 16 o.extraWords.length := by cases o <;> rfl

/-- R63, R66: what the fetch collects stands in memory at `pc`. -/
theorem wordsAt_fetchWords (s : State) : WordsAt s s.pc s.fetchWords := fun k e hk => by
  rw [State.fetchWords, List.getElem?_map, Option.map_eq_some_iff] at hk
  obtain ⟨a, ha, rfl⟩ := hk
  have hin : s.inMemory a = true := List.mem_takeWhile_imp (List.mem_of_getElem? ha)
  obtain ⟨beyond, happend⟩ := List.takeWhile_prefix (l := [s.pc, s.pc + 1, s.pc + 2]) s.inMemory
  have hget : [s.pc, s.pc + 1, s.pc + 2][k]? = some a := by
    rw [← happend, List.getElem?_append_left (List.getElem?_eq_some_iff.mp ha).1, ha]
  have haddr : a = s.pc + BitVec.ofNat 16 k := by
    match k, hget with
    | 0, hget => simpa [eq_comm] using hget
    | 1, hget => simpa [eq_comm] using hget
    | 2, hget => simpa [eq_comm] using hget
    | k + 3, hget => simp at hget
  exact haddr ▸ ⟨hin, rfl⟩

/-! ## The extra word (R313, R314) -/

theorem memRead_of_inMemory {s : State} {v : Word} (hin : s.inMemory s.adr = true)
    (hread : s.mem.read s.adr.toNat = v) : memRead s = .next { s with mdr := v } := by
  rw [memRead, if_pos hin, hread]

/-- A word that reads the cell at `pc` and advances `pc`. -/
theorem readAtPc_eq_takeExtra {s : State} {e : Word} {es : List Word} (h : WordsAt s s.pc (e :: es)) :
    andThen (memRead (s.toAdr .sum 0 s.pc)) (fun t => .next t.incPc) = .next (s.takeExtra e) := by
  obtain ⟨hin, hread⟩ := h.head
  simp [memRead, hin, hread, State.takeExtra]

/-! ## The source fetch -/

/-- The word after a source fetch, chosen by `Index.MAD` (R312). -/
def destEntry (w : Word) : MicroAddr := BitVec.ofNat 8 (10 + (modeDstField w).toNat)

/-- The word a source fetch begins with, chosen by `Index.MAS`. -/
def sourceEntry (w : Word) : MicroAddr := BitVec.ofNat 8 (4 + (modeSrcField w).toNat)

/-- The opcode word in `ir` names the operand as its source, and its extra word stands at `pc`. -/
structure SourceReady (o : Operand) (s : State) : Prop where
  mode : modeSrcField s.ir = o.mode.code
  field : regSrcField s.ir = o.field
  words : WordsAt s s.pc o.extraWords

/-- The opcode word in `ir` names the operand as its destination, and its extra word stands at `pc`. -/
structure DestReady (o : Operand) (s : State) : Prop where
  mode : modeDstField s.ir = o.mode.code
  field : regDstField s.ir = o.field
  words : WordsAt s s.pc o.extraWords

/-- The first word of the source fetch of a mode (R313). -/
def sourceWord : AddrMode → MicroAddr
  | .immediate => uSrcImm
  | .direct => uSrcDir
  | .indirect => uSrcInd
  | .indexed => uSrcIdx

/-- The first word of the destination fetch of a mode (R314). -/
def destWord : AddrMode → MicroAddr
  | .immediate => uDstImm
  | .direct => uDstDir
  | .indirect => uDstInd
  | .indexed => uDstIdx

theorem sourceEntry_of_mode {w : Word} {m : AddrMode} (h : modeSrcField w = m.code) :
    sourceEntry w = sourceWord m := by
  rw [sourceEntry, h]
  cases m <;> rfl

theorem destEntry_of_mode {w : Word} {m : AddrMode} (h : modeDstField w = m.code) :
    destEntry w = destWord m := by
  rw [destEntry, h]
  cases m <;> rfl

/-- SRC.TMDR: the value read goes to `t`. -/
theorem run_srcTmdr (n : Nat) (s : State) :
    run (n + 1) (goto s uSrcTmdr)
      = run n (goto ((s.enter uSrcTmdr).toT .sum s.mdr 0) (destEntry s.ir)) :=
  run_word (r := .next ((s.enter uSrcTmdr).toT .sum s.mdr 0)) uSrcTmdr (destEntry s.ir) rfl rfl
    (fun t ht => by cases ht; rfl)

theorem memRead_eq_next {s t : State} (h : memRead s = .next t) : t = { s with mdr := t.mdr } := by
  obtain ⟨-, hr⟩ | ⟨-, hr⟩ := memRead_cases s <;> rw [hr] at h <;> cases h
  rfl

/-- A word that reads the source's cell, and SRC.TMDR behind it. -/
theorem run_readSource {u : MicroAddr} {m : MicroInstr} {s r : State} (n : Nat) (hu : referenceFields[u.toNat]? = some m)
    (hdata : dataStages m (s.enter u) = memRead r) (hir : r.ir = s.ir)
    (hnext : ∀ t, nextAddress Codes.reference m t = .next (goto t uSrcTmdr)) :
    run (n + 2) (goto s u) = andThen (andThen (memRead r) fun t => .next ((t.enter uSrcTmdr).toT .sum t.mdr 0))
      fun t => run n (goto t (destEntry s.ir)) := by
  rw [andThen_assoc, run_word u uSrcTmdr hu hdata fun t _ => hnext t]
  refine andThen_congr fun t ht => ?_
  have hir' : t.ir = s.ir := by rw [memRead_eq_next ht, hir]
  rw [run_srcTmdr, hir', andThen_next]

/-- R313: the words of a source fetch are `fetchSource`. -/
theorem run_source {o : Operand} {s : State} (h : SourceReady o s) (n : Nat) :
    run (sourceCycles o + n) (goto s (sourceEntry s.ir))
      = andThen (fetchSource o s) fun t => run n (goto t (destEntry s.ir)) := by
  obtain ⟨hmode, hfield, hwords⟩ := h
  rw [sourceEntry_of_mode hmode, Nat.add_comm]
  cases o with
  | immediate f v =>
    have hdata := readAtPc_eq_takeExtra (s := s.enter uSrcImm) (hwords.congr rfl rfl)
    exact (run_word uSrcImm uSrcTmdr rfl hdata (fun t ht => by cases ht; rfl)).trans (run_srcTmdr n _)
  | direct r =>
    subst hfield
    exact run_word uSrcDir _ rfl rfl (fun t ht => by cases ht; rfl)
  | indirect r =>
    subst hfield
    exact run_readSource n rfl (dataStages_read rfl rfl rfl) rfl fun t => rfl
  | indexed r e =>
    subst hfield
    have hdata := readAtPc_eq_takeExtra (s := s.enter uSrcIdx) (hwords.congr rfl rfl)
    refine (run_word uSrcIdx uSrcIdx2 rfl hdata (fun t ht => by cases ht; rfl)).trans ?_
    exact run_readSource n rfl (dataStages_read rfl rfl rfl) rfl fun t => rfl

/-! ## The dispatch -/

/-- Stages 8 to 10 of a word that ends a destination fetch (R283). -/
def dispatchWord : MicroInstr :=
  { cond := .oneOp, addressTrue := 31, addressFalse := 17, indexTrue := .oneOp, indexFalse := .twoOp }

/-- The dispatch on an opcode word goes to a given address. -/
def Enters (w : Word) (u : MicroAddr) : Prop :=
  ∀ t : State, t.ir = w → nextAddress Codes.reference dispatchWord t = .next (goto t u)

theorem enters_twoOp {w : Word} {op : TwoOp} (h : w.toNat / 2 ^ 12 = op.value) :
    Enters w (BitVec.ofNat 8 (twoOpEntry op)) := by
  rintro t rfl
  obtain ⟨-, hrun, -⟩ := Codes.reference_valid
  obtain ⟨hg, -⟩ := Dispatch.group_opcode_of_field_eq_value (g := .twoOp) hrun op.mem_table h
  have hpair : chosenPair Codes.reference dispatchWord t = (17, .twoOp) := by
    simp [chosenPair, condHolds, dispatchWord, hg]
  rw [nextAddress_of_pair hpair (Dispatch.indexValue_twoOp Codes.reference_valid h)]
  rfl

theorem enters_oneOp {w : Word} {op : OneOp} (h : w.toNat / 2 ^ 6 = op.value) :
    Enters w (BitVec.ofNat 8 (oneOpEntry op)) := by
  rintro t rfl
  obtain ⟨-, -, hrun, -⟩ := Codes.reference_valid
  obtain ⟨hg, -⟩ := Dispatch.group_opcode_of_field_eq_value (g := .oneOp) hrun op.mem_table h
  have hpair : chosenPair Codes.reference dispatchWord t = (31, .oneOp) := by
    simp [chosenPair, condHolds, dispatchWord, hg]
  rw [nextAddress_of_pair hpair (Dispatch.indexValue_oneOp Codes.reference_valid h), Dispatch.oneOpEntry_eq]
  rfl

/-! ## The destination fetch -/

/-- A word that reads the destination's cell. -/
theorem run_readDest {u v : MicroAddr} {m : MicroInstr} {s r : State} (n : Nat) (hv : Enters s.ir v)
    (hu : referenceFields[u.toNat]? = some m) (hdata : dataStages m (s.enter u) = memRead r) (hir : r.ir = s.ir)
    (hnext : ∀ t, nextAddress Codes.reference m t = nextAddress Codes.reference dispatchWord t) :
    run (n + 1) (goto s u) = andThen (memRead r) fun t => run n (goto t v) :=
  run_word u v hu hdata fun t ht => (hnext t).trans (hv t (by rw [memRead_eq_next ht, hir]))

/-- R314: the words of a destination fetch are `fetchDest`. -/
theorem run_dest {o : Operand} {s : State} {u : MicroAddr} (h : DestReady o s) (hu : Enters s.ir u) (n : Nat) :
    run (destCycles o + n) (goto s (destEntry s.ir)) = andThen (fetchDest o s) fun t => run n (goto t u) := by
  obtain ⟨hmode, hfield, hwords⟩ := h
  rw [destEntry_of_mode hmode, Nat.add_comm]
  cases o with
  | immediate f v =>
    have hdata := readAtPc_eq_takeExtra (s := s.enter uDstImm) (hwords.congr rfl rfl)
    exact run_word uDstImm u rfl hdata (fun t ht => by cases ht; exact hu _ rfl)
  | direct r =>
    subst hfield
    exact run_word uDstDir u rfl rfl (fun t ht => by cases ht; exact hu _ rfl)
  | indirect r =>
    subst hfield
    exact run_readDest n hu rfl (dataStages_read rfl rfl rfl) rfl fun t => rfl
  | indexed r e =>
    subst hfield
    have hdata := readAtPc_eq_takeExtra (s := s.enter uDstIdx) (hwords.congr rfl rfl)
    refine (run_word uDstIdx uDstIdx2 rfl hdata (fun t ht => by cases ht; rfl)).trans ?_
    exact run_readDest n hu rfl (dataStages_read rfl rfl rfl) rfl fun t => rfl

/-! ## The write-back -/

/-- `ir` and `regsel` are as a fetch of the destination has left them. -/
structure DestFetched (o : Operand) (s : State) : Prop where
  mode : modeDstField s.ir = o.mode.code
  latched : ∀ r, o = .direct r → s.regsel = some r

theorem DestFetched.congr {o : Operand} {s t : State} (h : DestFetched o s) (hir : t.ir = s.ir)
    (hregsel : t.regsel = s.regsel) : DestFetched o t :=
  ⟨hir ▸ h.mode, fun r hr => hregsel.trans (h.latched r hr)⟩

theorem readable_of_fetchDest {o : Operand} {s t : State} (h : fetchDest o s = .next t) : readable o s = true := by
  by_contra hreadable
  obtain ⟨u, hu, -⟩ := (fetchDest_spec o s).2 (by simpa using hreadable)
  rw [hu] at h
  cases h

/-- R314: what a destination fetch leaves. -/
theorem fetchDest_eq_next {o : Operand} {s t : State} (h : fetchDest o s = .next t) :
    t.arch = { s.arch with pc := s.pc + extraCount o } ∧ t.ir = s.ir
      ∧ ∀ r, placeOf o s s.pc = .reg r → t.regsel = some r := by
  obtain ⟨u, hu, -, -, harch, hir, -, hregsel⟩ := (fetchDest_spec o s).1 (readable_of_fetchDest h)
  rw [hu] at h
  cases h
  exact ⟨harch, hir, hregsel⟩

theorem destFetched_of_fetchDest {o : Operand} {s t : State} (h : DestReady o s) (ht : fetchDest o s = .next t) :
    DestFetched o t := by
  obtain ⟨-, hir, hregsel⟩ := fetchDest_eq_next ht
  exact ⟨hir ▸ h.mode, fun r hr => hregsel r (by rw [hr, placeOf])⟩

/-- Stages 8 to 10 of an execute word that a write-back follows (R315). -/
def storeWord : MicroInstr := { cond := .regDest, addressTrue := 15, addressFalse := 16 }

/-- WB.REG for a register, WB.MEM otherwise. -/
def writeBackWord : Operand → MicroAddr
  | .direct _ => uWbReg
  | .immediate _ _ | .indirect _ | .indexed _ _ => uWbMem

theorem nextAddress_storeWord {o : Operand} {s : State} (h : modeDstField s.ir = o.mode.code) :
    nextAddress Codes.reference storeWord s = .next (goto s (writeBackWord o)) := by
  have hcond : condHolds Codes.reference .regDest s = (o.mode == .direct) := by
    rw [condHolds, h]
    cases o <;> rfl
  simp only [nextAddress, storeWord, hcond]
  cases o <;> rfl

/-- R315: the word of a write-back is `writeBack`. -/
theorem run_writeBack {o : Operand} {s : State} (h : DestFetched o s) :
    run 1 (goto s (writeBackWord o)) = writeBack o s := by
  have hmem : run 1 (goto s uWbMem) = andThen (memWrite (s.enter uWbMem)) fun t => .next t.toFetch :=
    run_word uWbMem uFetch rfl (andThen_next_right _) fun t _ => rfl
  cases o with
  | direct r =>
    have hregsel := h.latched r rfl
    have hdata : dataStages { dbus := .mdr, alu := .sum, rbus := .reg } (s.enter uWbReg)
        = .next ((s.enter uWbReg).toReg r .sum 0 s.mdr) := by
      simp [dataStages, rbusStage, aluResult, alu, computed, operandsRead, sbusStage, dbusStage, hregsel, memStage,
        miscStage, State.toReg, pendingAfter]
    exact run_word uWbReg uFetch rfl hdata fun t _ => rfl
  | immediate _ _ | indirect _ | indexed _ _ => exact hmem

/-- An execute word and the write-back behind it. -/
theorem run_execute {u : MicroAddr} {m : MicroInstr} {o : Operand} {s t : State}
    (hu : referenceFields[u.toNat]? = some m) (hdata : dataStages m (s.enter u) = .next t)
    (hnext : ∀ v, nextAddress Codes.reference m v = nextAddress Codes.reference storeWord v) (h : DestFetched o t) :
    run 2 (goto s u) = writeBack o t := by
  rw [run_word u (writeBackWord o) hu hdata (fun v hv => by cases hv; rw [hnext, nextAddress_storeWord h.mode]),
    andThen_next, run_writeBack h]

end Sys2Proof.Proofs.ReferenceCycles

/-! The meanings as the microcode (R325): the words of each instruction, run for its number of micro-cycles, are `exec`
after the FETCH cycle. -/

namespace Sys2Proof.Proofs.Refinement
open Sys2Proof Sys2Proof.Machine Sys2Proof.Proofs.MicroCycle Sys2Proof.Proofs.MicroStages
  Sys2Proof.Proofs.ReferenceCycles Sys2Proof.Proofs.Classification Sys2Proof.Proofs.CodecInverse

/-! ## The instruction at a boundary -/

/-- The words of the instruction a step runs stand at `pc`. -/
theorem wordsAt_of_nextInstr {s : State} {i : Instr} (h : s.nextInstr = some i) :
    s.upc = uFetch ∧ s.pc.toNat < s.params.stackBase ∧ WordsAt s s.pc (encode i) := by
  unfold State.nextInstr at h
  split at h
  · next hboundary =>
    split at h
    · next hdecode =>
      cases h
      have hencode := encode_of_decodeWords Codes.reference_valid hdecode
      exact ⟨hboundary.1, hboundary.2, (hencode ▸ wordsAt_fetchWords s : WordsAt s s.pc (encode i ++ _)).left⟩
    · cases h
  · cases h

theorem step_of_nextInstr {s : State} {i : Instr} (h : s.nextInstr = some i) : step s = exec i s.fetched := by
  rw [step, h]

/-- The FETCH cycle loads the first word at `pc` and leaves `pc` at the words behind it. -/
theorem fetched_of_wordsAt {s : State} {w : Word} {ws : List Word} (h : WordsAt s s.pc (w :: ws)) :
    s.fetched.ir = w ∧ WordsAt s.fetched s.fetched.pc ws :=
  ⟨h.head.2, h.tail.congr rfl rfl⟩

/-- What an instruction's step starts from: the boundary, its opcode word fetched, and its extra words at `pc`. -/
structure Boundary (s : State) (w : Word) (ws : List Word) : Prop where
  upc : s.upc = uFetch
  pc : s.pc.toNat < s.params.stackBase
  ir : s.fetched.ir = w
  words : WordsAt s.fetched s.fetched.pc ws

theorem boundary_of_nextInstr {s : State} {i : Instr} {w : Word} {ws : List Word} (h : s.nextInstr = some i)
    (hencode : encode i = w :: ws) : Boundary s w ws := by
  obtain ⟨hupc, hpc, hwords⟩ := wordsAt_of_nextInstr h
  obtain ⟨hir, hrest⟩ := fetched_of_wordsAt (hencode ▸ hwords)
  exact ⟨hupc, hpc, hir, hrest⟩

/-! ## FETCH, DECODE1 and DECODE2 (R312) -/

/-- FETCH: the word at `pc` to `ir`, `pc` advanced; an OTHER word is dispatched at once. -/
def fetchWord : MicroInstr :=
  { misc := .incPc, mem := .ifch, cond := .noOp, addressTrue := 63, addressFalse := 2, indexTrue := .opcode }

/-- DECODE1: a ONE_OP word goes on to its destination fetch. -/
def decode1Word : MicroInstr := { cond := .oneOp, addressTrue := 10, addressFalse := 3, indexTrue := .mad }

/-- DECODE2: a BRANCH word is dispatched, a TWO_OP word goes on to its source fetch. -/
def decode2Word : MicroInstr :=
  { cond := .branch, addressTrue := 117, addressFalse := 4, indexTrue := .opcode, indexFalse := .mas }

theorem dataStages_fetchWord (s : State) :
    dataStages fetchWord s = andThen (fetchIr s) fun t => .next t.incPc := rfl

theorem dataStages_decode1Word (s : State) : dataStages decode1Word s = .next s := rfl
theorem dataStages_decode2Word (s : State) : dataStages decode2Word s = .next s := rfl

/-- A word that only chooses the next address. -/
theorem run_controlWord {u v : MicroAddr} {m : MicroInstr} {s : State} {n : Nat}
    (hu : referenceFields[u.toNat]? = some m) (hdata : ∀ t, dataStages m t = .next t)
    (hnext : nextAddress Codes.reference m (s.enter u) = .next (goto (s.enter u) v)) (hv : v.toNat < 135)
    (hn : 0 < n) : run (n + 1) (goto s u) = run n (goto s v) := by
  rw [run_word u v hu (hdata _) fun t ht => by cases ht; exact hnext, andThen_next]
  exact run_goto_enter hv hn u s

section Opening
variable {s : State} {w : Word} {ws : List Word} (h : Boundary s w ws) {n : Nat}
include h

/-- The FETCH cycle, and the run from where its dispatch leads. -/
theorem run_fetch {v : MicroAddr}
    (hnext : nextAddress Codes.reference fetchWord s.fetched = .next (goto s.fetched v)) :
    run (n + 1) s = run n (goto s.fetched v) := by
  have hdata : dataStages fetchWord (s.enter uFetch) = .next s.fetched := by
    have hfetch : fetchIr (s.enter uFetch) = .next { s.enter uFetch with ir := s.mem.read s.pc.toNat } :=
      if_neg (Nat.not_le.mpr h.pc)
    rw [dataStages_fetchWord, hfetch, andThen_next]
    rfl
  have hs : s = goto s uFetch := by rw [← h.upc, goto_upc]
  conv_lhs => rw [hs]
  exact run_word uFetch v rfl hdata fun t ht => by cases ht; exact hnext

theorem run_fetch_other {op : OtherOp} (hop : w.toNat = op.value) :
    run (n + 1) s = run n (goto s.fetched (BitVec.ofNat 8 (otherOpEntry op))) := by
  obtain ⟨-, -, -, -, hrun, -⟩ := Codes.reference_valid
  have hfield : w.toNat / 2 ^ Dispatch.opcodeShift .other = op.value := by
    rw [Dispatch.opcodeShift, Nat.pow_zero, Nat.div_one, hop]
  obtain ⟨hg, -⟩ := Dispatch.group_opcode_of_field_eq_value hrun op.mem_table hfield
  have hpair : chosenPair Codes.reference fetchWord s.fetched = (63, .opcode) := by
    simp [chosenPair, condHolds, fetchWord, h.ir, hg]
  exact run_fetch h (nextAddress_of_pair hpair (Dispatch.indexValue_opcode_of_other Codes.reference_valid (h.ir ▸ hop)))

theorem run_fetch_not_other (hg : group w ≠ .other) : run (n + 1) s = run n (goto s.fetched uDecode1) := by
  have hpair : chosenPair Codes.reference fetchWord s.fetched = (2, .none) := by
    simp [chosenPair, condHolds, fetchWord, h.ir, hg]
  exact run_fetch h (nextAddress_of_pair hpair rfl)

theorem run_decode1_oneOp (hg : group w = .oneOp) (hn : 0 < n) :
    run (n + 2) s = run n (goto s.fetched (destEntry w)) := by
  have hpair : chosenPair Codes.reference decode1Word (s.fetched.enter uDecode1) = (10, .mad) := by
    simp [chosenPair, condHolds, decode1Word, h.ir, hg]
  have hlt : (destEntry w).toNat < 135 := by
    have := (modeDstField w).isLt
    rw [destEntry, BitVec.toNat_ofNat]
    omega
  rw [run_fetch_not_other h (by rw [hg]; decide)]
  refine run_controlWord (u := uDecode1) rfl dataStages_decode1Word ?_ hlt hn
  rw [← h.ir]
  exact nextAddress_of_pair hpair rfl

theorem run_decode1_not_oneOp (hother : group w ≠ .other) (hone : group w ≠ .oneOp) (hn : 0 < n) :
    run (n + 2) s = run n (goto s.fetched uDecode2) := by
  have hpair : chosenPair Codes.reference decode1Word (s.fetched.enter uDecode1) = (3, .none) := by
    simp [chosenPair, condHolds, decode1Word, h.ir, hone]
  rw [run_fetch_not_other h hother]
  exact run_controlWord (u := uDecode1) rfl dataStages_decode1Word (nextAddress_of_pair hpair rfl) (by decide) hn

theorem run_decode2_twoOp (hg : group w = .twoOp) (hn : 0 < n) :
    run (n + 3) s = run n (goto s.fetched (sourceEntry w)) := by
  have hpair : chosenPair Codes.reference decode2Word (s.fetched.enter uDecode2) = (4, .mas) := by
    simp [chosenPair, condHolds, decode2Word, h.ir, hg]
  have hlt : (sourceEntry w).toNat < 135 := by
    have := (modeSrcField w).isLt
    rw [sourceEntry, BitVec.toNat_ofNat]
    omega
  rw [run_decode1_not_oneOp h (by rw [hg]; decide) (by rw [hg]; decide) (Nat.succ_pos n)]
  refine run_controlWord (u := uDecode2) rfl dataStages_decode2Word ?_ hlt hn
  rw [← h.ir]
  exact nextAddress_of_pair hpair rfl

theorem run_decode2_branch {op : BranchOp} (hop : w.toNat / 2 ^ 8 = op.value) (hn : 0 < n) :
    run (n + 3) s = run n (goto s.fetched (BitVec.ofNat 8 (branchOpEntry op))) := by
  obtain ⟨-, -, -, hrun, -⟩ := Codes.reference_valid
  obtain ⟨hg, -⟩ := Dispatch.group_opcode_of_field_eq_value (g := .branch) hrun op.mem_table hop
  have hpair : chosenPair Codes.reference decode2Word (s.fetched.enter uDecode2) = (117, .opcode) := by
    simp [chosenPair, condHolds, decode2Word, h.ir, hg]
  have hlt : (BitVec.ofNat 8 (branchOpEntry op)).toNat < 135 := by cases op <;> decide
  rw [run_decode1_not_oneOp h (by rw [hg]; decide) (by rw [hg]; decide) (Nat.succ_pos n)]
  refine run_controlWord (u := uDecode2) rfl dataStages_decode2Word ?_ hlt hn
  exact nextAddress_of_pair hpair (Dispatch.indexValue_opcode_of_branch Codes.reference_valid (h.ir ▸ hop))

end Opening

/-! ## The opcode words -/

/-- R94: the opcode word of a two-operand instruction. -/
def twoOpWord (op : TwoOp) (src dst : Operand) : Word :=
  BitVec.ofNat 4 op.value ++ src.mode.code ++ src.field ++ dst.mode.code ++ dst.field

/-- R95: the opcode word of a one-operand instruction. -/
def oneOpWord (op : OneOp) (dst : Operand) : Word := BitVec.ofNat 10 op.value ++ dst.mode.code ++ dst.field

/-- R96: the word of a branch. -/
def branchWord (op : BranchOp) (o : BitVec 8) : Word := BitVec.ofNat 8 op.value ++ o

section Encode
variable {i : Instr}

theorem encode_two {op : TwoOp} {src dst : Operand} (h : i.shape = .two op src dst) :
    encode i = twoOpWord op src dst :: (src.extraWords ++ dst.extraWords) := by
  simp only [encode, Codes.encode, h]
  rfl

theorem encode_one {op : OneOp} {dst : Operand} (h : i.shape = .one op dst) :
    encode i = oneOpWord op dst :: dst.extraWords := by
  simp only [encode, Codes.encode, h]
  rfl

theorem encode_branch {op : BranchOp} {o : BitVec 8} (h : i.shape = .branch op o) : encode i = [branchWord op o] := by
  simp only [encode, Codes.encode, h]
  rfl

theorem encode_other {op : OtherOp} (h : i.shape = .other op) : encode i = [BitVec.ofNat 16 op.value] := by
  simp only [encode, Codes.encode, h]
  rfl

end Encode

theorem twoOpWord_value (op : TwoOp) (src dst : Operand) : (twoOpWord op src dst).toNat / 2 ^ 12 = op.value := by
  have hop := congrArg BitVec.toNat
    (twoOpWord_opcode (BitVec.ofNat 4 op.value) src.mode.code dst.mode.code src.field dst.field)
  rw [extractLsb'_top _ 12 4 rfl, BitVec.toNat_ofNat, Nat.mod_eq_of_lt (Encoders.twoOp_value_lt op)] at hop
  exact hop

theorem oneOpWord_value (op : OneOp) (dst : Operand) : (oneOpWord op dst).toNat / 2 ^ 6 = op.value := by
  have hop := congrArg BitVec.toNat (oneOpWord_opcode (BitVec.ofNat 10 op.value) dst.mode.code dst.field)
  rw [extractLsb'_top _ 6 10 rfl, BitVec.toNat_ofNat, Nat.mod_eq_of_lt (Encoders.oneOp_value_lt op)] at hop
  exact hop

theorem branchWord_value (op : BranchOp) (o : BitVec 8) : (branchWord op o).toNat / 2 ^ 8 = op.value := by
  have hop := congrArg BitVec.toNat (branchWord_opcode (BitVec.ofNat 8 op.value) o)
  rw [extractLsb'_top _ 8 8 rfl, BitVec.toNat_ofNat, Nat.mod_eq_of_lt (Encoders.branchOp_value_lt op)] at hop
  exact hop

theorem otherWord_value (op : OtherOp) : (BitVec.ofNat 16 op.value).toNat = op.value := by
  rw [BitVec.toNat_ofNat, Nat.mod_eq_of_lt (Encoders.otherOp_value_lt op)]

theorem twoOpWord_group (op : TwoOp) (src dst : Operand) : group (twoOpWord op src dst) = .twoOp := by
  obtain ⟨-, hrun, -⟩ := Codes.reference_valid
  exact (Dispatch.group_opcode_of_field_eq_value (g := .twoOp) hrun op.mem_table (twoOpWord_value op src dst)).1

theorem oneOpWord_group (op : OneOp) (dst : Operand) : group (oneOpWord op dst) = .oneOp := by
  obtain ⟨-, -, hrun, -⟩ := Codes.reference_valid
  exact (Dispatch.group_opcode_of_field_eq_value (g := .oneOp) hrun op.mem_table (oneOpWord_value op dst)).1

/-! ## The operands of an instruction -/

theorem fetchSource_eq_next {o : Operand} {s t : State} (h : fetchSource o s = .next t) :
    t.arch = { s.arch with pc := s.pc + extraCount o } ∧ t.ir = s.ir := by
  cases hreadable : readable o s with
  | false =>
    obtain ⟨u, hu, -⟩ := (fetchSource_spec o s).2 hreadable
    rw [hu] at h
    cases h
  | true =>
    obtain ⟨u, hu, -, harch, hir⟩ := (fetchSource_spec o s).1 hreadable
    rw [hu] at h
    cases h
    exact ⟨harch, hir⟩

section Operands
variable {s : State} {i : Instr} (h : s.nextInstr = some i) {k : Nat} (hk : 0 < k)
include h hk

/-- R340: the words of a two-operand instruction fetch its operands and go on with the opcode's own `k` words. -/
theorem run_two {op : TwoOp} {src dst : Operand} (hi : i.shape = .two op src dst) {body : State → Result}
    (hbody : ∀ t, DestFetched dst t → run k (goto t (BitVec.ofNat 8 (twoOpEntry op))) = body t) :
    run (sourceCycles src + (destCycles dst + k) + 3) s = withOperands src dst body s.fetched := by
  have hb := boundary_of_nextInstr h (encode_two hi)
  have hsrc : SourceReady src s.fetched :=
    ⟨hb.ir ▸ twoOpWord_modeSrc .., hb.ir ▸ twoOpWord_regSrc .., hb.words.left⟩
  rw [run_decode2_twoOp hb (twoOpWord_group op src dst) (by omega), ← hb.ir, run_source hsrc]
  refine andThen_congr fun t ht => ?_
  obtain ⟨harch, hir⟩ := fetchSource_eq_next ht
  have hpc : t.pc = s.fetched.pc + extraCount src := congrArg Arch.pc harch
  have hir' : t.ir = twoOpWord op src dst := hir.trans hb.ir
  have hdst : DestReady dst t := by
    refine ⟨hir' ▸ twoOpWord_modeDst .., hir' ▸ twoOpWord_regDst .., ?_⟩
    rw [hpc, extraCount_eq]
    exact hb.words.right.congr (congrArg Arch.mem harch) (congrArg Arch.params harch)
  rw [← hir, run_dest hdst (enters_twoOp (hir' ▸ twoOpWord_value op src dst))]
  exact andThen_congr fun u hu => hbody u (destFetched_of_fetchDest hdst hu)

/-- R360: the words of a one-operand instruction fetch its operand and go on with the opcode's own `k` words. What
they may use of the fetched state: its `ir` and `regsel`, and the operand's extra word behind `pc`. -/
theorem run_one {op : OneOp} {dst : Operand} (hi : i.shape = .one op dst) {body : State → Result}
    (hbody : ∀ t, DestReady dst s.fetched → fetchDest dst s.fetched = .next t →
      run k (goto t (BitVec.ofNat 8 (oneOpEntry op))) = body t) :
    run (destCycles dst + k + 2) s = andThen (fetchDest dst s.fetched) body := by
  have hb := boundary_of_nextInstr h (encode_one hi)
  have hdst : DestReady dst s.fetched := ⟨hb.ir ▸ oneOpWord_mode .., hb.ir ▸ oneOpWord_reg .., hb.words⟩
  rw [run_decode1_oneOp hb (oneOpWord_group op dst) (by omega), ← hb.ir,
    run_dest hdst (enters_oneOp (hb.ir ▸ oneOpWord_value op dst))]
  exact andThen_congr fun t ht => hbody t hdst ht

omit hk in
theorem run_other {op : OtherOp} (hi : i.shape = .other op) :
    run (k + 1) s = run k (goto s.fetched (BitVec.ofNat 8 (otherOpEntry op))) :=
  run_fetch_other (boundary_of_nextInstr h (encode_other hi)) (otherWord_value op)

theorem run_branch {op : BranchOp} {o : BitVec 8} (hi : i.shape = .branch op o) :
    run (k + 3) s = run k (goto s.fetched (BitVec.ofNat 8 (branchOpEntry op))) ∧ offsetField s.fetched.ir = o := by
  have hb := boundary_of_nextInstr h (encode_branch hi)
  exact ⟨run_decode2_branch hb (branchWord_value op o) hk, hb.ir ▸ branchWord_offset ..⟩

end Operands

/-! ## The opcodes' own words -/

/-- An execute word that commits, and the write-back of its result. -/
theorem run_compute {u : MicroAddr} {m : MicroInstr} {dst : Operand} {s : State} {op : Alu} {S D : Word}
    (hu : referenceFields[u.toNat]? = some m) (hdata : dataStages m (s.enter u) = .next (s.compute u op S D))
    (hnext : ∀ v, nextAddress Codes.reference m v = nextAddress Codes.reference storeWord v) (h : DestFetched dst s) :
    run 2 (goto s u) = writeBack dst (s.compute u op S D) :=
  run_execute hu hdata hnext (h.congr (by simp [State.compute]) (by simp [State.compute]))

/-- The last word of a routine. -/
theorem run_last {u : MicroAddr} {m : MicroInstr} {s : State} {r : Result} (hu : referenceFields[u.toNat]? = some m)
    (hdata : dataStages m (s.enter u) = r) (hnext : ∀ t, nextAddress Codes.reference m t = .next (goto t uFetch)) :
    run 1 (goto s u) = andThen r fun t => .next t.toFetch :=
  run_word u uFetch hu hdata fun t _ => hnext t

/-- A word in the middle of a routine that always completes. -/
theorem run_next {u v : MicroAddr} {m : MicroInstr} {s t : State} {n : Nat} (hu : referenceFields[u.toNat]? = some m)
    (hdata : dataStages m (s.enter u) = .next t)
    (hnext : ∀ t, nextAddress Codes.reference m t = .next (goto t v)) :
    run (n + 1) (goto s u) = run n (goto t v) :=
  run_word u v hu hdata fun t _ => hnext t

section TwoOperand
variable {s : State} {i : Instr} {op : TwoOp} {src dst : Operand}

theorem run_twoOperandResult (h : s.nextInstr = some i) (hi : i.shape = .two op src dst) {a : Alu} {m : MicroInstr}
    (hu : referenceFields[(BitVec.ofNat 8 (twoOpEntry op) : MicroAddr).toNat]? = some m)
    (hdata : ∀ t : State, dataStages m (t.enter (BitVec.ofNat 8 (twoOpEntry op)))
      = .next (t.compute (BitVec.ofNat 8 (twoOpEntry op)) a t.t t.mdr))
    (hnext : ∀ v, nextAddress Codes.reference m v = nextAddress Codes.reference storeWord v) :
    run (sourceCycles src + (destCycles dst + 2) + 3) s
      = twoOperandResult (BitVec.ofNat 8 (twoOpEntry op)) a src dst s.fetched :=
  run_two h (by decide) hi fun t ht => run_compute hu (hdata t) hnext ht

theorem run_mov (h : s.nextInstr = some (.mov src dst)) :
    run (sourceCycles src + (destCycles dst + 2) + 3) s = execMov src dst s.fetched :=
  run_two h (by decide) rfl fun t ht =>
    run_execute (u := uMov0) rfl rfl (fun _ => rfl) (ht.congr (by simp) (by simp))

theorem run_cmp (h : s.nextInstr = some (.cmp src dst)) :
    run (sourceCycles src + (destCycles dst + 1) + 3) s = execCmp src dst s.fetched :=
  run_two h (by decide) rfl fun _ _ => run_last (u := uCmp0) rfl rfl fun _ => rfl

end TwoOperand

section OneOperand
variable {s : State} {i : Instr} {op : OneOp} {dst : Operand}

theorem run_oneOperandResult {u : MicroAddr} (h : s.nextInstr = some i) (hi : i.shape = .one op dst)
    (hentry : BitVec.ofNat 8 (oneOpEntry op) = u) {a : Alu} {S : Word} {m : MicroInstr}
    (hu : referenceFields[u.toNat]? = some m)
    (hdata : ∀ t : State, dataStages m (t.enter u) = .next (t.compute u a S t.mdr))
    (hnext : ∀ v, nextAddress Codes.reference m v = nextAddress Codes.reference storeWord v) :
    run (destCycles dst + 2 + 2) s = oneOperandResult u a S dst s.fetched := by
  subst hentry
  exact run_one h (by decide) hi fun t hdst ht => run_compute hu (hdata t) hnext (destFetched_of_fetchDest hdst ht)

theorem run_clr (h : s.nextInstr = some (.clr dst)) :
    run (destCycles dst + 2 + 2) s = execClr dst s.fetched :=
  run_one h (by decide) rfl fun t hdst ht =>
    run_compute (u := uClr0) (s := t) rfl rfl (fun _ => rfl) (destFetched_of_fetchDest hdst ht)

theorem run_neg (h : s.nextInstr = some (.neg dst)) :
    run (destCycles dst + 3 + 2) s = execNeg dst s.fetched :=
  run_one h (by decide) rfl fun t hdst ht =>
    (run_next (u := uNeg0) (v := uNeg1) (t := (t.enter uNeg0).toT .sum t.mdr 0) rfl rfl fun _ => rfl).trans
      (run_compute (u := uNeg1) rfl rfl (fun _ => rfl)
        ((destFetched_of_fetchDest hdst ht).congr (by simp) (by simp)))

theorem run_jmp (h : s.nextInstr = some (.jmp dst)) :
    run (destCycles dst + 1 + 2) s = execJmp dst s.fetched :=
  run_one h (by decide) rfl fun t _ _ => run_last (u := uJmp0) rfl rfl fun _ => rfl

theorem run_call (h : s.nextInstr = some (.call dst)) :
    run (destCycles dst + 4 + 2) s = execCall dst s.fetched :=
  run_one h (by decide) rfl fun t _ _ =>
    (run_next (u := uCall0) (v := uCall1) rfl rfl fun _ => rfl).trans <|
    (run_next (u := uCall1) (v := uCall2) rfl rfl fun _ => rfl).trans <|
    (run_word uCall2 uCall3 rfl rfl fun _ _ => rfl).trans <|
    andThen_congr fun u _ => run_last (u := uCall3) rfl rfl fun _ => rfl

theorem run_push (h : s.nextInstr = some (.push dst)) :
    run (destCycles dst + 1 + 2) s = execPush dst s.fetched :=
  run_one h (by decide) rfl fun t _ _ => run_last (u := uPush0) rfl rfl fun _ => rfl

end OneOperand

/-! ## POP (R318) -/

/-- POP's second look at its destination is entered by `Index.MAD` from POP.C0. -/
def popEntry (w : Word) : MicroAddr := BitVec.ofNat 8 (102 + (modeDstField w).toNat)

/-- The word that looks at the destination of POP again. -/
def popWord : AddrMode → MicroAddr
  | .immediate => uPopDstImm
  | .direct => uPopDstDir
  | .indirect => uPopDstInd
  | .indexed => uPopDstIdx

theorem popEntry_of_mode {w : Word} {m : AddrMode} (h : modeDstField w = m.code) : popEntry w = popWord m := by
  rw [popEntry, h]
  cases m <;> rfl

/-- What POP still needs of its operand: the fields of `ir`, the latched register, and the extra word, which stands
just below `pc`. -/
structure PopReady (o : Operand) (s : State) : Prop where
  fetched : DestFetched o s
  field : regDstField s.ir = o.field
  words : ∀ r e, o = .indexed r e → s.inMemory (0xFFFF + s.pc) = true ∧ s.mem.read (0xFFFF + s.pc).toNat = e

theorem run_popStore (s : State) :
    run 1 (goto s uPopW) = OneOperand.popStore s := by
  have hdata : dataStages { sbus := .t, alu := .sum, rbus := .mdr, mem := .write } (s.enter uPopW)
      = memWrite ((s.enter uPopW).toMdr .sum s.t 0) := andThen_next_right _
  exact run_last (u := uPopW) rfl hdata fun _ => rfl

theorem run_popTo {o : Operand} {s : State} (h : PopReady o s) :
    run (popStoreCycles o) (goto s (popEntry s.ir)) = popTo o s := by
  obtain ⟨⟨hmode, hlatched⟩, hfield, hwords⟩ := h
  rw [popEntry_of_mode hmode]
  cases o with
  | immediate f v => exact run_last (u := uPopDstImm) rfl rfl fun _ => rfl
  | direct r =>
    have hregsel := hlatched r rfl
    have hdata : dataStages { sbus := .t, alu := .sum, rbus := .reg } (s.enter uPopDstDir)
        = .next ((s.enter uPopDstDir).toReg r .sum s.t 0) := by
      simp [dataStages, rbusStage, aluResult, alu, computed, operandsRead, sbusStage, dbusStage, hregsel, memStage,
        miscStage, State.toReg, pendingAfter]
    exact run_last (u := uPopDstDir) rfl hdata fun _ => rfl
  | indirect r =>
    subst hfield
    exact (run_next (u := uPopDstInd) (v := uPopW) rfl rfl fun _ => rfl).trans (run_popStore _)
  | indexed r e =>
    subst hfield
    obtain ⟨hin, hread⟩ := hwords _ _ rfl
    have hread : memRead ((s.enter uPopDstIdx).toAdr .sum 0xFFFF s.pc)
        = .next { (s.enter uPopDstIdx).toAdr .sum 0xFFFF s.pc with mdr := e } :=
      memRead_of_inMemory (s := (s.enter uPopDstIdx).toAdr .sum 0xFFFF s.pc) hin hread
    refine (run_word uPopDstIdx uPopX2 rfl ((dataStages_read rfl rfl rfl).trans hread) fun _ _ => rfl).trans ?_
    exact (run_next (u := uPopX2) (v := uPopW) rfl rfl fun _ => rfl).trans (run_popStore _)

theorem run_pop {s : State} {dst : Operand} (h : s.nextInstr = some (.pop dst)) :
    run (destCycles dst + (popStoreCycles dst + 3) + 2) s = execPop dst s.fetched := by
  refine run_one h (by omega) rfl fun t hdst ht => ?_
  have hfetched := destFetched_of_fetchDest hdst ht
  obtain ⟨harch, hir, -⟩ := fetchDest_eq_next ht
  refine (run_next (u := uPop0) (v := uPop1) (t := (t.enter uPop0).incSp) rfl rfl fun _ => rfl).trans ?_
  refine (run_word uPop1 uPopC0 (r := readTop (((t.enter uPop0).incSp).enter uPop1)) rfl
    (dataStages_read rfl rfl rfl) fun _ _ => rfl).trans ?_
  refine andThen_congr fun v hv => ?_
  have hread := memRead_eq_next hv
  have hvir : v.ir = t.ir := by rw [hread]; rfl
  have hvregsel : v.regsel = t.regsel := by rw [hread]; rfl
  have hvarch : v.arch = { t.arch with sp := t.sp + 1 } := by rw [hread]; rfl
  refine (run_word uPopC0 (popEntry v.ir) (r := .next ((v.enter uPopC0).toT .sum v.mdr 0)) rfl rfl
    fun w hw => by cases hw; rfl).trans ?_
  refine run_popTo (o := dst) ⟨hfetched.congr (by simp [hvir]) (by simp [hvregsel]), by simp [hvir, hir, hdst.field], ?_⟩
  rintro r e rfl
  obtain ⟨hin, hword⟩ := hdst.words.head
  have hpc : (0xFFFF : Word) + v.pc = s.fetched.pc := by
    have hvpc : v.pc = s.fetched.pc + 1 := (congrArg Arch.pc hvarch).trans (congrArg Arch.pc harch)
    rw [hvpc]
    bv_omega
  have hmem : v.mem = s.fetched.mem := (congrArg Arch.mem hvarch).trans (congrArg Arch.mem harch)
  have hparams : v.params = s.fetched.params := (congrArg Arch.params hvarch).trans (congrArg Arch.params harch)
  simp only [State.toT_pc, State.enter_pc, State.inMemory_toT, State.inMemory_enter, State.toT_mem, State.enter_mem, hpc,
    State.inMemory_congr _ v hparams, hmem]
  exact ⟨hin, hword⟩

/-! ## Branches (R390, R400) -/

theorem run_takeBranch {o : BitVec 8} {s : State} (ho : offsetField s.ir = o) :
    run 1 (goto s uBr0) = takeBranch o s := by
  subst ho
  exact run_last (u := uBr0) rfl rfl fun _ => rfl

/-- A conditional branch's own word, and BR.0 behind it where its condition holds. -/
theorem run_branchIf {u : MicroAddr} {cond : Cond} {taken : Bool} {o : BitVec 8} {s : State}
    (hu : referenceFields[u.toNat]? = some { cond, addressTrue := 117, addressFalse := 1 })
    (hcond : condHolds Codes.reference cond (s.enter u) = taken) (ho : offsetField s.ir = o) :
    run (if taken then 2 else 1) (goto s u) = branchIf u taken o s := by
  cases taken with
  | true =>
    have hpair : chosenPair Codes.reference { cond, addressTrue := 117, addressFalse := 1 } (s.enter u)
        = (117, .none) := if_pos hcond
    refine (run_word (n := 1) (r := .next (s.enter u)) u uBr0 hu rfl fun t ht => ?_).trans (run_takeBranch ho)
    cases ht
    exact nextAddress_of_pair hpair rfl
  | false =>
    have hpair : chosenPair Codes.reference { cond, addressTrue := 117, addressFalse := 1 } (s.enter u)
        = (1, .none) := if_neg (ne_true_of_eq_false hcond)
    refine run_word (n := 0) (r := .next (s.enter u)) u uFetch hu rfl fun t ht => ?_
    cases ht
    exact nextAddress_of_pair hpair rfl

theorem run_conditional {s : State} {i : Instr} {op : BranchOp} {o : BitVec 8} {cond : Cond} {taken : Bool}
    (h : s.nextInstr = some i) (hi : i.shape = .branch op o)
    (hu : referenceFields[(BitVec.ofNat 8 (branchOpEntry op) : MicroAddr).toNat]?
      = some { cond, addressTrue := 117, addressFalse := 1 })
    (hcond : ∀ u, condHolds Codes.reference cond (s.fetched.enter u) = taken) :
    run (branchCycles taken) s = branchIf (BitVec.ofNat 8 (branchOpEntry op)) taken o s.fetched := by
  have hcycles : branchCycles taken = (if taken then 2 else 1) + 3 := by cases taken <;> rfl
  obtain ⟨hrun, ho⟩ := run_branch h (k := if taken then 2 else 1) (by cases taken <;> decide) hi
  rw [hcycles, hrun, run_branchIf hu (hcond _) ho]

/-! ## OTHER instructions -/

section Other
variable {s : State} {i : Instr} {op : OtherOp}

/-- An instruction of one word, which always completes. -/
theorem run_oneWord {m : MicroInstr} {t : State} (h : s.nextInstr = some i) (hi : i.shape = .other op)
    (hu : referenceFields[(BitVec.ofNat 8 (otherOpEntry op) : MicroAddr).toNat]? = some m)
    (hdata : dataStages m (s.fetched.enter (BitVec.ofNat 8 (otherOpEntry op))) = .next t)
    (hnext : ∀ t, nextAddress Codes.reference m t = .next (goto t uFetch)) : run 2 s = .next t.toFetch :=
  (run_other h hi).trans (run_last hu hdata hnext)

/-- The read of a popped cell, and the last word, which uses it. -/
theorem run_readTop {u v : MicroAddr} {m : MicroInstr} {s : State} {f : State → State}
    (hu : referenceFields[u.toNat]? = some
      { dbus := .sp, alu := .sum, rbus := .adr, mem := .read, addressTrue := v.toNat })
    (hv : referenceFields[v.toNat]? = some m) (hdata : ∀ t, dataStages m (t.enter v) = .next (f t))
    (hnext : ∀ t, nextAddress Codes.reference m t = .next (goto t uFetch)) :
    run 2 (goto s u) = andThen (readTop (s.enter u)) fun t => .next (f t).toFetch := by
  have hlead : BitVec.ofNat 8 (v.toNat + 0) = v := by rw [Nat.add_zero, BitVec.ofNat_toNat, BitVec.setWidth_eq]
  refine (run_word u v (r := readTop (s.enter u)) hu (dataStages_read rfl rfl rfl) fun t _ => ?_).trans
    (andThen_congr fun t _ => run_last hv (hdata t) hnext)
  exact (nextAddress_of_pair (addr := v.toNat) (ix := .none) rfl rfl).trans (by rw [hlead]; rfl)

/-- R316: the push of a value that the word before has moved to `mdr`. -/
theorem run_push_after {u v : MicroAddr} {m : MicroInstr} {s t : State}
    (hu : referenceFields[u.toNat]? = some m) (hdata : dataStages m (s.enter u) = .next t)
    (hnext : ∀ t, nextAddress Codes.reference m t = .next (goto t v))
    (hv : referenceFields[v.toNat]? = some
      { dbus := .sp, alu := .sum, rbus := .adr, misc := .decSp, mem := .write }) :
    run 2 (goto s u) = andThen (pushMdr (t.enter v)) fun t => .next t.toFetch :=
  (run_next hu hdata hnext).trans (run_last hv rfl fun _ => rfl)

theorem run_ccc (h : s.nextInstr = some .ccc) : run 5 s = execCcc s.fetched :=
  (run_other h rfl).trans <|
  (run_next (u := uCcc0) (v := uCcc1) rfl rfl fun _ => rfl).trans <|
  (run_next (u := uCcc1) (v := uCcc2) rfl rfl fun _ => rfl).trans <|
  (run_next (u := uCcc2) (v := uCcc3) rfl rfl fun _ => rfl).trans <|
  run_last (u := uCcc3) rfl rfl fun _ => rfl

theorem run_scc (h : s.nextInstr = some .scc) : run 5 s = execScc s.fetched :=
  (run_other h rfl).trans <|
  (run_next (u := uScc0) (v := uScc1) rfl rfl fun _ => rfl).trans <|
  (run_next (u := uScc1) (v := uScc2) rfl rfl fun _ => rfl).trans <|
  (run_next (u := uScc2) (v := uScc3) rfl rfl fun _ => rfl).trans <|
  run_last (u := uScc3) rfl rfl fun _ => rfl

theorem run_ret (h : s.nextInstr = some .ret) : run 4 s = execRet s.fetched :=
  (run_other h rfl).trans <|
  (run_next (u := uRet0) (v := uRet1) (t := (s.fetched.enter uRet0).incSp) rfl rfl fun _ => rfl).trans <|
  run_readTop (u := uRet1) (v := uRet2) rfl rfl (fun _ => rfl) fun _ => rfl

theorem run_poppc (h : s.nextInstr = some .poppc) : run 4 s = execPoppc s.fetched :=
  (run_other h rfl).trans <|
  (run_next (u := uPoppc0) (v := uPoppc1) (t := (s.fetched.enter uPoppc0).incSp) rfl rfl fun _ => rfl).trans <|
  run_readTop (u := uPoppc1) (v := uRet2) rfl rfl (fun _ => rfl) fun _ => rfl

theorem run_popflag (h : s.nextInstr = some .popflag) : run 4 s = execPopflag s.fetched :=
  (run_other h rfl).trans <|
  (run_next (u := uPopflag0) (v := uPopflag1) (t := (s.fetched.enter uPopflag0).incSp) rfl rfl fun _ => rfl).trans <|
  run_readTop (u := uPopflag1) (v := uPopflag2) rfl rfl (fun _ => rfl) fun _ => rfl

/-- R423: RETI.1 reads and raises `sp` in one word. -/
theorem run_reti (h : s.nextInstr = some .reti) : run 6 s = execReti s.fetched := by
  refine (run_other h rfl).trans ?_
  refine (run_next (u := uReti0) (v := uReti1) (t := (s.fetched.enter uReti0).incSp) rfl rfl fun _ => rfl).trans ?_
  refine (run_word uReti1 uReti2
    (r := andThen (readTop ((s.fetched.enter uReti0).incSp.enter uReti1)) fun t => .next t.incSp) rfl
    (dataStages_readThen rfl rfl) fun _ _ => rfl).trans ?_
  rw [andThen_assoc]
  refine andThen_congr fun t _ => ?_
  refine (run_next (u := uReti2) (v := uReti3) (t := (t.incSp.enter uReti2).toPc .sum 0 t.mdr) rfl rfl
    fun _ => rfl).trans ?_
  exact run_readTop (u := uReti3) (v := uReti4) rfl rfl (fun _ => rfl) fun _ => rfl

theorem run_pushpc (h : s.nextInstr = some .pushpc) : run 3 s = execPushpc s.fetched :=
  (run_other h rfl).trans <|
  run_push_after (u := uPushpc0) (v := uPushpc1) (t := (s.fetched.enter uPushpc0).toMdr .sum 0 s.fetched.pc) rfl rfl
    (fun _ => rfl) rfl

theorem run_pushflag (h : s.nextInstr = some .pushflag) : run 3 s = execPushflag s.fetched :=
  (run_other h rfl).trans <|
  run_push_after (u := uPushflag0) (v := uPushflag1)
    (t := (s.fetched.enter uPushflag0).toMdr .sum 0 s.fetched.flags.word) rfl rfl (fun _ => rfl) rfl

/-- R425: one WAIT.0 cycle, whatever `intp` is. -/
theorem run_wait (h : s.nextInstr = some .wait) : run 2 s = execWait s.fetched := by
  rw [run_other h (k := 1) (op := .wait) rfl]
  refine (andThen_next_right (microStep (goto s.fetched uWait0))).trans ?_
  rw [microStep_goto (m := Other.waitWord) rfl, Other.runMicro_waitWord]
  cases hintp : s.fetched.intp with
  | true => rw [Other.execWait_of_intp hintp]; simp [State.toFetch, hintp]
  | false => rw [Other.execWait_of_not_intp hintp]; simp [hintp, State.enter]

end Other

/-! ## The whole instruction -/

/-- R325: for the instruction's number of micro-cycles the store runs what the instruction means. -/
theorem run_cycles {s : State} {i : Instr} (h : s.nextInstr = some i) : run (cycles i s) s = exec i s.fetched := by
  have two (src dst : Operand) (k : Nat) :
      3 + sourceCycles src + destCycles dst + k = sourceCycles src + (destCycles dst + k) + 3 := by omega
  have one (dst : Operand) (k : Nat) : 2 + destCycles dst + k = destCycles dst + k + 2 := by omega
  cases i with
  | mov src dst => rw [cycles, Nat.add_assoc, two, run_mov h]; rfl
  | cmp src dst => rw [cycles, two, run_cmp h]; rfl
  | add src dst =>
    rw [cycles, Nat.add_assoc, two]
    exact run_twoOperandResult (op := .add) h rfl rfl (fun _ => rfl) fun _ => rfl
  | sub src dst =>
    rw [cycles, Nat.add_assoc, two]
    exact run_twoOperandResult (op := .sub) h rfl rfl (fun _ => rfl) fun _ => rfl
  | and src dst =>
    rw [cycles, Nat.add_assoc, two]
    exact run_twoOperandResult (op := .and) h rfl rfl (fun _ => rfl) fun _ => rfl
  | or src dst =>
    rw [cycles, Nat.add_assoc, two]
    exact run_twoOperandResult (op := .or) h rfl rfl (fun _ => rfl) fun _ => rfl
  | xor src dst =>
    rw [cycles, Nat.add_assoc, two]
    exact run_twoOperandResult (op := .xor) h rfl rfl (fun _ => rfl) fun _ => rfl
  | clr dst => rw [cycles, Nat.add_assoc, one, run_clr h]; rfl
  | neg dst => rw [cycles, Nat.add_assoc, one, run_neg h]; rfl
  | inc dst =>
    rw [cycles, Nat.add_assoc, one]
    exact run_oneOperandResult (op := .inc) (u := uInc0) h rfl rfl rfl (fun _ => rfl) fun _ => rfl
  | dec dst =>
    rw [cycles, Nat.add_assoc, one]
    exact run_oneOperandResult (op := .dec) (u := uDec0) h rfl rfl rfl (fun _ => rfl) fun _ => rfl
  | asl dst =>
    rw [cycles, Nat.add_assoc, one]
    exact run_oneOperandResult (op := .asl) (u := uAsl0) h rfl rfl rfl (fun _ => rfl) fun _ => rfl
  | asr dst =>
    rw [cycles, Nat.add_assoc, one]
    exact run_oneOperandResult (op := .asr) (u := uAsr0) h rfl rfl rfl (fun _ => rfl) fun _ => rfl
  | lsr dst =>
    rw [cycles, Nat.add_assoc, one]
    exact run_oneOperandResult (op := .lsr) (u := uLsr0) h rfl rfl rfl (fun _ => rfl) fun _ => rfl
  | rol dst =>
    rw [cycles, Nat.add_assoc, one]
    exact run_oneOperandResult (op := .rol) (u := uRol0) h rfl rfl rfl (fun _ => rfl) fun _ => rfl
  | ror dst =>
    rw [cycles, Nat.add_assoc, one]
    exact run_oneOperandResult (op := .ror) (u := uRor0) h rfl rfl rfl (fun _ => rfl) fun _ => rfl
  | rlc dst =>
    rw [cycles, Nat.add_assoc, one]
    exact run_oneOperandResult (op := .rlc) (u := uRlc0) h rfl rfl rfl (fun _ => rfl) fun _ => rfl
  | rrc dst =>
    rw [cycles, Nat.add_assoc, one]
    exact run_oneOperandResult (op := .rrc) (u := uRrc0) h rfl rfl rfl (fun _ => rfl) fun _ => rfl
  | jmp dst => rw [cycles, one, run_jmp h]; rfl
  | call dst => rw [cycles, one, run_call h]; rfl
  | push dst => rw [cycles, one, run_push h]; rfl
  | pop dst =>
    rw [cycles, Nat.add_assoc, one, Nat.add_comm 3, run_pop h]
    rfl
  | br o =>
    obtain ⟨hrun, ho⟩ := run_branch h (k := 1) (by decide) rfl
    exact hrun.trans (run_takeBranch ho)
  | bne o => exact run_conditional (op := .bne) (cond := .nz) h rfl rfl fun _ => rfl
  | beq o => exact run_conditional (op := .beq) (cond := .z) h rfl rfl fun _ => rfl
  | bpl o => exact run_conditional (op := .bpl) (cond := .ns) h rfl rfl fun _ => rfl
  | bmi o => exact run_conditional (op := .bmi) (cond := .s) h rfl rfl fun _ => rfl
  | bcs o => exact run_conditional (op := .bcs) (cond := .c) h rfl rfl fun _ => rfl
  | bcc o => exact run_conditional (op := .bcc) (cond := .nc) h rfl rfl fun _ => rfl
  | bvs o => exact run_conditional (op := .bvs) (cond := .v) h rfl rfl fun _ => rfl
  | bvc o => exact run_conditional (op := .bvc) (cond := .nv) h rfl rfl fun _ => rfl
  | clc | clv | clz | cls | sec | sev | sez | ses | nop | halt => exact run_oneWord h rfl rfl rfl fun _ => rfl
  | ccc => exact run_ccc h
  | scc => exact run_scc h
  | ret => exact run_ret h
  | reti => exact run_reti h
  | wait => exact run_wait h
  | pushpc => exact run_pushpc h
  | poppc => exact run_poppc h
  | pushflag => exact run_pushflag h
  | popflag => exact run_popflag h

/-- Settles O36: a step at a boundary is the instruction's meaning, which its micro-cycles run. -/
theorem microcodeRefinesTheStep : Obligations.MicrocodeRefinesTheStep := by
  intro s i h
  rw [run_cycles h, step_of_nextInstr h]

end Sys2Proof.Proofs.Refinement

/-! Words and boundaries of programs: the spec's sample words (R253, R291, R350), the step at a boundary (R340), an
instruction placed in memory, and the search for a refused mode (U8). -/

namespace Sys2Proof.Proofs.Boundaries
open Sys2Proof Sys2Proof.Machine Sys2Proof.Proofs.ReferenceCycles Sys2Proof.Proofs.Refinement
  Sys2Proof.Proofs.RoundTrip

/-- Settles O1: each word list evaluates. -/
theorem sampleWordsDecode : Obligations.SampleWordsDecode := ⟨rfl, rfl, rfl, rfl, rfl, rfl, rfl, rfl⟩

/-! ## The step at a boundary -/

theorem nextInstr_of_decodeWords {s : State} {i : Instr} {rest : List Word} (hupc : s.upc = uFetch)
    (hpc : s.pc.toNat < s.params.stackBase) (h : decodeWords s.fetchWords = .ok (i, rest)) : s.nextInstr = some i := by
  rw [State.nextInstr, if_pos ⟨hupc, hpc⟩, h]

/-- Settles O34: the step is `exec` by its definition, and `State.fetched` has the fields it is made with. -/
theorem stepRunsTheDecodedInstruction : Obligations.StepRunsTheDecodedInstruction := fun _ _ _ hupc hpc h =>
  ⟨step_of_nextInstr (nextInstr_of_decodeWords hupc hpc h), rfl, rfl, rfl, rfl, rfl, rfl, rfl, rfl, rfl⟩

/-! ## Placed words -/

/-- Placed words leave the cells outside theirs as they were. -/
theorem read_placeAt_other {b : Word} : ∀ (ws : List Word) (a : Word) (m : Memory),
    (∀ k, k < ws.length → a + BitVec.ofNat 16 k ≠ b) → (Memory.placeAt m a ws).read b.toNat = m.read b.toNat
  | [], _, _, _ => rfl
  | w :: ws, a, m, h => by
    have hrest : ∀ k, k < ws.length → a + 1 + BitVec.ofNat 16 k ≠ b := fun k hk => by
      have := h (k + 1) (Nat.succ_lt_succ hk)
      rwa [Nat.add_comm, BitVec.ofNat_add, ← BitVec.add_assoc] at this
    have hab : b.toNat ≠ a.toNat := fun heq => h 0 (Nat.succ_pos _) (by simpa using BitVec.eq_of_toNat_eq heq.symm)
    rw [Memory.placeAt, read_placeAt_other ws (a + 1) _ hrest, Memory.read_write_other w hab]

/-- Each placed word is read from its cell, as long as the words do not wrap around all of memory. -/
theorem read_placeAt : ∀ (ws : List Word) (a : Word) {m : Memory}, m.wf = true → ws.length ≤ 65536 →
    ∀ (k : Nat) (e : Word), ws[k]? = some e → (Memory.placeAt m a ws).read (a + BitVec.ofNat 16 k).toNat = e
  | [], _, _, _, _, k, e, hk => by simp at hk
  | w :: ws, a, m, hm, hlen, 0, e, hk => by
    obtain rfl : w = e := by simpa using hk
    have hother : ∀ j, j < ws.length → a + 1 + BitVec.ofNat 16 j ≠ a := fun j hj => by
      rw [List.length_cons] at hlen
      bv_omega
    have hzero : a + BitVec.ofNat 16 0 = a := BitVec.add_zero a
    rw [hzero, Memory.placeAt, read_placeAt_other ws (a + 1) _ hother, Memory.read_write hm, if_pos rfl]
  | w :: ws, a, m, hm, hlen, k + 1, e, hk => by
    have hrest := read_placeAt ws (a + 1) (Memory.wf_write hm a.toNat w) (by rw [List.length_cons] at hlen; omega) k e
      (by simpa using hk)
    rwa [Nat.add_comm, BitVec.ofNat_add, ← BitVec.add_assoc]

/-- The fetch collects up to three words that stand at `pc`. -/
theorem fetchWords_of_wordsAt {s : State} {ws : List Word} (h : WordsAt s s.pc ws) (hlen : ws.length ≤ 3) :
    ∃ rest, s.fetchWords = ws ++ rest := by
  have htwo : s.pc + 1 + 1 = s.pc + 2 := BitVec.add_assoc ..
  match ws, h, hlen with
  | [], _, _ => exact ⟨s.fetchWords, rfl⟩
  | [a], h, _ =>
    obtain ⟨hin, rfl⟩ := h.head
    rw [State.fetchWords, List.takeWhile_cons_of_pos hin]
    exact ⟨_, rfl⟩
  | [a, b], h, _ =>
    obtain ⟨hin, rfl⟩ := h.head
    obtain ⟨hin', rfl⟩ := h.tail.head
    rw [State.fetchWords, List.takeWhile_cons_of_pos hin, List.takeWhile_cons_of_pos hin']
    exact ⟨_, rfl⟩
  | [a, b, c], h, _ =>
    obtain ⟨hin, rfl⟩ := h.head
    obtain ⟨hin', rfl⟩ := h.tail.head
    have hlast := h.tail.tail.head
    rw [htwo] at hlast
    obtain ⟨hin'', rfl⟩ := hlast
    rw [State.fetchWords, List.takeWhile_cons_of_pos hin, List.takeWhile_cons_of_pos hin',
      List.takeWhile_cons_of_pos hin'']
    exact ⟨_, rfl⟩

theorem encode_length_le (i : Instr) : (encode i).length ≤ 3 := by
  have operand (o : Operand) : o.extraWords.length ≤ 1 := by cases o <;> simp [Operand.extraWords]
  cases hi : i.shape with
  | two op src dst =>
    have := operand src
    have := operand dst
    rw [encode_two hi, List.length_cons, List.length_append]
    omega
  | one op dst =>
    have := operand dst
    rw [encode_one hi, List.length_cons]
    omega
  | branch op o => rw [encode_branch hi, List.length_singleton]; decide
  | other op => rw [encode_other hi, List.length_singleton]; decide

/-- An instruction that stands at `pc` is the next one. -/
theorem nextInstr_of_wordsAt {s : State} {i : Instr} (hupc : s.upc = uFetch) (hpc : s.pc.toNat < s.params.stackBase)
    (h : WordsAt s s.pc (encode i)) : s.nextInstr = some i := by
  obtain ⟨rest, hrest⟩ := fetchWords_of_wordsAt h (encode_length_le i)
  refine nextInstr_of_decodeWords (rest := rest) hupc hpc ?_
  rw [hrest]
  exact decodeWords_encode Codes.reference_valid i rest

theorem encode_ne_nil (i : Instr) : ∃ w ws, encode i = w :: ws := by
  cases hi : i.shape with
  | two op src dst => exact ⟨_, _, encode_two hi⟩
  | one op dst => exact ⟨_, _, encode_one hi⟩
  | branch op o => exact ⟨_, _, encode_branch hi⟩
  | other op => exact ⟨_, _, encode_other hi⟩

/-- Settles O35: the placed words are read back and decode to the instruction. -/
theorem placedInstructionRuns : Obligations.PlacedInstructionRuns := by
  intro i s hwf hpc hcells u
  have hlen := encode_length_le i
  have hwords : WordsAt u u.pc (encode i) := fun k e hk =>
    ⟨hcells k (List.getElem?_eq_some_iff.mp hk).1, read_placeAt (encode i) s.pc hwf (by omega) k e hk⟩
  refine ⟨step_of_nextInstr (nextInstr_of_wordsAt rfl hpc hwords), rfl, ?_⟩
  obtain ⟨w, ws, hencode⟩ := encode_ne_nil i
  rw [hencode] at hwords ⊢
  exact congrArg some hwords.head.2.symm

end Sys2Proof.Proofs.Boundaries

/-! Laws of the operations by themselves: the ALU's exact readings (R215, R216), stores and reads (R70, R72), the stack
(R74, R247, R377), and accesses beyond memory (U3, U9). -/

namespace Sys2Proof.Proofs.ExactArithmetic
open Sys2Proof Sys2Proof.Machine

/-- Z of a result, read as an integer. -/
theorem flagsOf_z (r : Word) (c v : Bool) : (flagsOf r c v).z = true ↔ r.toNat = 0 := by
  rw [flagsOf, beq_iff_eq, ← BitVec.toNat_inj]
  rfl

/-- S of a result, read as an integer. -/
theorem flagsOf_s (r : Word) (c v : Bool) : (flagsOf r c v).s = true ↔ r.toInt < 0 := by
  rw [flagsOf, BitVec.msb_eq_toInt, decide_eq_true_iff]

/-- The sign bit of a word as a bound on its unsigned value. -/
theorem msb_eq_decide_le (w : Word) : w.msb = decide (32768 ≤ w.toNat) := BitVec.msb_eq_decide w

/-- The signed value of a word by its unsigned value. -/
theorem toInt_cases (w : Word) :
    (32768 ≤ w.toNat ∧ w.toInt = (w.toNat : Int) - 65536) ∨ (w.toNat < 32768 ∧ w.toInt = w.toNat) := by
  rw [BitVec.toInt_eq_toNat_cond]
  split
  · exact .inr ⟨by omega, rfl⟩
  · exact .inl ⟨by omega, rfl⟩

/-- A sum: the unsigned one less the weight of a carry. -/
theorem toNat_add_cases (S D : Word) :
    (65536 ≤ S.toNat + D.toNat ∧ (S + D).toNat + 65536 = S.toNat + D.toNat)
      ∨ (S.toNat + D.toNat < 65536 ∧ (S + D).toNat = S.toNat + D.toNat) := by
  have hS := S.isLt
  have hD := D.isLt
  rw [BitVec.toNat_add]
  omega

/-- A difference: the weight of a borrow added. -/
theorem toNat_sub_cases (S D : Word) :
    (D.toNat < S.toNat ∧ (D - S).toNat + S.toNat = D.toNat + 65536)
      ∨ (S.toNat ≤ D.toNat ∧ (D - S).toNat + S.toNat = D.toNat) := by
  have hS := S.isLt
  have hD := D.isLt
  rw [BitVec.toNat_sub]
  omega

theorem sum_carry (S D : Word) :
    S.toNat + D.toNat = (aluSum S D).1.toNat + (if (aluSum S D).2.c then 65536 else 0) := by
  simp only [aluSum, flagsOf, decide_eq_true_iff]
  obtain ⟨hcarry, hsum⟩ | ⟨hcarry, hsum⟩ := toNat_add_cases S D
  · rw [if_pos hcarry, hsum]
  · rw [if_neg (Nat.not_le.mpr hcarry), hsum, Nat.add_zero]

theorem sum_overflow (S D : Word) :
    (aluSum S D).2.v = true ↔ S.toInt + D.toInt ≠ (aluSum S D).1.toInt := by
  simp only [aluSum, flagsOf, Bool.and_eq_true, beq_iff_eq, bne_iff_ne, msb_eq_decide_le, ne_eq, decide_eq_decide]
  have hsum := toNat_add_cases S D
  have hS := toInt_cases S
  have hD := toInt_cases D
  have hres := toInt_cases (S + D)
  omega

theorem sub_borrow (S D : Word) :
    D.toNat + (if (aluSub S D).2.c then 65536 else 0) = (aluSub S D).1.toNat + S.toNat := by
  simp only [aluSub, flagsOf, decide_eq_true_iff]
  obtain ⟨hborrow, hdiff⟩ | ⟨hborrow, hdiff⟩ := toNat_sub_cases S D
  · rw [if_pos hborrow, hdiff]
  · rw [if_neg (Nat.not_lt.mpr hborrow), hdiff, Nat.add_zero]

theorem sub_overflow (S D : Word) :
    (aluSub S D).2.v = true ↔ D.toInt - S.toInt ≠ (aluSub S D).1.toInt := by
  simp only [aluSub, flagsOf, Bool.and_eq_true, bne_iff_ne, msb_eq_decide_le, ne_eq, decide_eq_decide]
  have hdiff := toNat_sub_cases S D
  have hS := toInt_cases S
  have hD := toInt_cases D
  have hres := toInt_cases (D - S)
  omega

/-- Settles O20: the bit formulas of R215 and R216 read as bounds on the integers. -/
theorem carryAndOverflowAreExact : Obligations.CarryAndOverflowAreExact := fun S D =>
  ⟨⟨sum_carry S D, sum_overflow S D, flagsOf_z _ _ _, flagsOf_s _ _ _⟩,
    sub_borrow S D, sub_overflow S D, flagsOf_z _ _ _, flagsOf_s _ _ _⟩

end Sys2Proof.Proofs.ExactArithmetic

namespace Sys2Proof.Proofs.StoresAndStack
open Sys2Proof Sys2Proof.Machine Sys2Proof.Proofs.TwoOperand Sys2Proof.Proofs.OneOperand Sys2Proof.Proofs.Other
  Sys2Proof.Proofs.ReferenceCycles Sys2Proof.Proofs.Reset

/-- Settles O22: the cell written reads as `mdr`, by either access. -/
theorem storeIsSeen : Obligations.StoreIsSeen := by
  intro s t u hwf hwrite hmem hparams
  obtain ⟨hin, hw⟩ | ⟨-, hw⟩ := memWrite_cases s <;> rw [hw] at hwrite <;> cases hwrite
  have hmem' : u.mem = s.mem.write s.adr.toNat s.mdr := hmem
  refine ⟨fun hadr => ?_, fun hpc hbase => ?_, fun a hne => ?_⟩
  · have hin' : u.inMemory u.adr = true := by rw [State.inMemory_congr s u hparams, hadr, hin]
    refine ⟨_, memRead_of_inMemory hin' rfl, ?_⟩
    rw [hadr, hmem', Memory.read_write hwf, if_pos rfl]
  · obtain ⟨hend, -⟩ | ⟨-, hfetch⟩ := fetchIr_cases u
    · omega
    · refine ⟨_, hfetch, ?_⟩
      rw [hpc, hmem', Memory.read_write hwf, if_pos rfl]
  · rw [hmem', Memory.read_write_other _ hne]

/-! ## Decrements of `sp` (R247) -/

theorem decSp_of_lt {s : State} (h : s.params.stackBase < s.sp.toNat) :
    decSp s = .next { s with sp := s.sp - 1 } := by
  obtain ⟨-, hd⟩ | ⟨hno, -⟩ := decSp_cases s
  · exact hd
  · rw [canPush, decide_eq_false_iff_not] at hno
    omega

theorem decSp_of_le {s : State} (h : s.sp.toNat ≤ s.params.stackBase) : decSp s = .fault (.stackOverflow s) := by
  obtain ⟨hcan, -⟩ | ⟨-, hd⟩ := decSp_cases s
  · rw [canPush, decide_eq_true_iff] at hcan
    omega
  · exact hd

/-- Above STACK_BASE each decrement passes, down to STACK_BASE. -/
theorem times_decSp : ∀ (n : Nat) (s : State), s.params.stackBase + n ≤ s.sp.toNat →
    ∃ t, times decSp n s = .next t ∧ t.sp.toNat = s.sp.toNat - n ∧ t.params = s.params
  | 0, s, _ => ⟨s, rfl, rfl, rfl⟩
  | n + 1, s, h => by
    have hsp : (s.sp - 1).toNat = s.sp.toNat - 1 := by bv_omega
    obtain ⟨t, hrun, ht, hparams⟩ := times_decSp n { s with sp := s.sp - 1 }
      (show s.params.stackBase + n ≤ (s.sp - 1).toNat by omega)
    refine ⟨t, ?_, ?_, hparams⟩
    · rw [times, decSp_of_lt (by omega), andThen_next, hrun]
    · rw [ht]
      show (s.sp - 1).toNat - n = s.sp.toNat - (n + 1)
      omega

theorem times_succ_last (f : State → Result) : ∀ (n : Nat) (s : State),
    times f (n + 1) s = andThen (times f n s) f
  | 0, s => by
    show andThen (f s) Host.Outcome.next = f s
    cases f s <;> rfl
  | n + 1, s => by
    rw [times, times]
    cases hf : f s with
    | next t => exact times_succ_last f n t
    | fault e | refused e => rfl

/-- Settles O26: `sp` starts STACK_SIZE - 1 above STACK_BASE. -/
theorem stackDiscipline : Obligations.StackDiscipline := by
  intro p program hfits
  obtain ⟨hstack, hroom, hsize⟩ := hfits
  have hsp := bootState_sp_toNat program hsize
  have hparams : (bootState p program).params = p := rfl
  have passes : ∀ n, n < p.stackSize → ∃ t, times decSp n (bootState p program) = .next t
      ∧ t.sp.toNat = p.memSize - 1 - n ∧ t.params = p := fun n hn => by
    obtain ⟨t, hrun, ht, hkept⟩ := times_decSp n (bootState p program) (by
      rw [hsp, hparams, Params.stackBase]
      omega)
    exact ⟨t, hrun, by rw [ht, hsp], hkept⟩
  refine ⟨fun n hn => ?_, ?_⟩
  · obtain ⟨t, hrun, ht, -⟩ := passes n hn
    exact ⟨t, hrun, ht⟩
  · obtain ⟨t, hrun, ht, hkept⟩ := passes (p.stackSize - 1) (by omega)
    have hbase : t.sp.toNat = p.stackBase := by
      rw [ht, Params.stackBase]
      omega
    refine ⟨t, ?_, hbase⟩
    rw [← Nat.sub_add_cancel hstack, times_succ_last, hrun, andThen_next]
    exact decSp_of_le (by rw [hkept, hbase])

/-! ## Pushes and their pops (R377) -/

/-- R37: a flag word loaded gives back the flags it was made of. -/
theorem ofWord_word (f : Flags) : Flags.ofWord f.word = f := by
  simp only [Flags.ofWord, FlagWord.getLsbD_word, List.getD_cons_succ, List.getD_cons_zero]

/-- After a push with its decrement the cell above `sp` is the one the push has written. -/
theorem inMemory_popped {s t : State} {a : Arch} {v : Word} (hin : s.inMemory s.sp = true)
    (harch : t.arch = a.store (.cell s.sp) v) (hsp : a.sp = s.sp - 1) (hparams : a.params = s.params) :
    t.sp + 1 = s.sp ∧ t.inMemory (t.sp + 1) = true := by
  have ht : t.sp = s.sp - 1 := (congrArg Arch.sp harch).trans hsp
  have hreturn : t.sp + 1 = s.sp := by rw [ht, BitVec.sub_add_cancel]
  rw [hreturn, State.inMemory_congr s t ((congrArg Arch.params harch).trans hparams)]
  exact ⟨rfl, hin⟩

/-- The cell that a store on `a` has written. -/
theorem read_stored {t : State} {a : Arch} {c v : Word} (hwf : a.mem.wf = true)
    (harch : t.arch = a.store (.cell c) v) : t.mem.read c.toNat = v := by
  have hmem : t.mem = a.mem.write c.toNat v := congrArg Arch.mem harch
  rw [hmem, Memory.read_write hwf, if_pos rfl]

section Pops

variable {s : State} (hwf : s.mem.wf = true) (hin : s.inMemory s.sp = true) (hcan : canPush s = true)
include hwf hin hcan

theorem push_pop (o : Operand) (r : Reg) (ho : readable o s = true) :
    ∃ t u, exec (.push o) s = .next t ∧ exec (.pop (.direct r)) t = .next u
      ∧ u.reg r = valueOf o s ∧ u.sp = s.sp ∧ u.flags = s.flags := by
  obtain ⟨t, hpush, -, -, harch, -, -⟩ := execPush_completes ho hin hcan
  obtain ⟨hsp, hcell⟩ := inMemory_popped hin harch rfl rfl
  obtain ⟨u, hpop, -, -, harch', -, -⟩ := execPop_stores (dst := .direct r) rfl hcell nofun
  refine ⟨t, u, hpush, hpop, ?_, ?_, ?_⟩
  · have hregs : u.regs = _ := congrArg Arch.regs harch'
    rw [hsp, read_stored hwf harch] at hregs
    simp [State.reg, hregs, Arch.store, placeOf]
  · exact (congrArg Arch.sp harch').trans hsp
  · exact (congrArg Arch.flags harch').trans (congrArg Arch.flags harch)

theorem call_ret (o : Operand) (ho : readable o s = true) :
    ∃ t u, exec (.call o) s = .next t ∧ t.pc = valueOf o s ∧ exec .ret t = .next u
      ∧ u.pc = s.pc + extraCount o ∧ u.sp = s.sp ∧ u.flags = s.flags ∧ u.regs = s.regs := by
  obtain ⟨t, hcall, -, -, harch, -, -⟩ := execCall_completes ho hin hcan
  obtain ⟨hsp, hcell⟩ := inMemory_popped hin harch rfl rfl
  obtain ⟨u, hret, -, -, harch'⟩ := popPc_completes uRet0 uRet1 hcell
  rw [hsp, read_stored hwf harch] at harch'
  exact ⟨t, u, hcall, congrArg Arch.pc harch, hret, congrArg Arch.pc harch', congrArg Arch.sp harch',
    (congrArg Arch.flags harch').trans (congrArg Arch.flags harch),
    (congrArg Arch.regs harch').trans (congrArg Arch.regs harch)⟩

theorem pushflag_popflag :
    ∃ t, exec .pushflag s = .next t ∧ ∀ f : Flags,
      ∃ u, exec .popflag { t with flags := f } = .next u ∧ u.flags = s.flags ∧ u.sp = s.sp := by
  obtain ⟨t, hpush, -, -, harch, -, -⟩ := pushValue_completes uPushflag0 uPushflag1 s.flags.word hin hcan
  obtain ⟨hsp, hcell⟩ := inMemory_popped hin harch rfl rfl
  refine ⟨t, hpush, fun f => ?_⟩
  obtain ⟨u, hpop, -, -, harch'⟩ := execPopflag_completes (s := { t with flags := f }) hcell
  have hread : t.mem.read (t.sp + 1).toNat = s.flags.word := by
    rw [hsp, read_stored hwf harch]
  refine ⟨u, hpop, ?_, (congrArg Arch.sp harch').trans hsp⟩
  have hflags : u.flags = Flags.ofWord (t.mem.read (t.sp + 1).toNat) := congrArg Arch.flags harch'
  rw [hflags, hread, ofWord_word]

theorem pushflag_pushpc_reti (hin' : s.inMemory (s.sp - 1) = true)
    (hcan' : (s.params.stackBase : Int) ≤ (s.sp.toNat : Int) - 2) :
    ∃ t u v, exec .pushflag s = .next t ∧ exec .pushpc t = .next u
      ∧ exec .reti { u with flags := {}, pc := 0 } = .next v
      ∧ v.flags = s.flags ∧ v.pc = s.pc ∧ v.sp = s.sp := by
  obtain ⟨t, hpush, -, -, harch, -, -⟩ := pushValue_completes uPushflag0 uPushflag1 s.flags.word hin hcan
  have htsp : t.sp = s.sp - 1 := congrArg Arch.sp harch
  have htparams : t.params = s.params := congrArg Arch.params harch
  have htwf : t.mem.wf = true := by
    rw [show t.mem = _ from congrArg Arch.mem harch]
    exact Memory.wf_write hwf _ _
  have htin : t.inMemory t.sp = true := by rw [State.inMemory_congr s t htparams, htsp, hin']
  have htcan : canPush t = true := by
    rw [canPush, decide_eq_true_iff, htparams, htsp]
    have : (s.sp - 1).toNat = s.sp.toNat - 1 := by bv_omega
    omega
  obtain ⟨u, hpush', -, -, harch', hother, -⟩ := pushValue_completes uPushpc0 uPushpc1 t.pc htin htcan
  obtain ⟨husp, hucell⟩ := inMemory_popped htin harch' rfl rfl
  have hutop : u.sp + 2 = s.sp := by
    rw [show u.sp = t.sp - 1 from congrArg Arch.sp harch', htsp]
    bv_omega
  have hucell' : u.inMemory (u.sp + 2) = true := by
    rw [hutop, State.inMemory_congr s u ((congrArg Arch.params harch').trans htparams), hin]
  obtain ⟨v, hreti, -, -, harch''⟩ := execReti_completes (s := { u with flags := {}, pc := 0 }) hucell hucell'
  have hpc : u.mem.read (u.sp + 1).toNat = s.pc := by
    rw [husp, read_stored htwf harch']
    exact congrArg Arch.pc harch
  have hflags : u.mem.read (u.sp + 2).toNat = s.flags.word := by
    have hne : ∀ a, Place.cell t.sp = .cell a → a.toNat ≠ s.sp.toNat := by
      rintro a ⟨⟩
      rw [htsp]
      bv_omega
    rw [hutop, hother _ hne]
    exact read_stored hwf harch
  refine ⟨t, u, v, hpush, hpush', hreti, ?_, (congrArg Arch.pc harch'').trans hpc,
    (congrArg Arch.sp harch'').trans hutop⟩
  have hv : v.flags = Flags.ofWord _ := congrArg Arch.flags harch''
  rw [hv, hflags, ofWord_word]

end Pops

/-- Settles O60: each pop reads the cell that its push has written, and `sp` returns. -/
theorem popsReturnWhatWasPushed : Obligations.PopsReturnWhatWasPushed := fun _ hwf hin hcan =>
  ⟨push_pop hwf hin hcan, call_ret hwf hin hcan, pushflag_popflag hwf hin hcan, pushflag_pushpc_reti hwf hin hcan⟩

end Sys2Proof.Proofs.StoresAndStack

/-! Accesses beyond memory (U3, U9), and JMP. -/

namespace Sys2Proof.Proofs.BeyondMemory
open Sys2Proof Sys2Proof.Machine Sys2Proof.Proofs.TwoOperand Sys2Proof.Proofs.OneOperand Sys2Proof.Proofs.Other

/-! ## The common form of an instruction's meaning -/

/-- R340: a two-operand instruction is its operands' fetch and its opcode's own words. -/
theorem exec_twoOp (op : TwoOp) (src dst : Operand) :
    ∃ body, ∀ s, exec (op.instr src dst) s = withOperands src dst body s := by
  cases op <;> exact ⟨_, fun _ => rfl⟩

/-- R360: a one-operand instruction is its operand's fetch and its opcode's own words. -/
theorem exec_oneOp (op : OneOp) (dst : Operand) :
    ∃ body, ∀ s, exec (op.instr dst) s = andThen (fetchDest dst s) body := by
  cases op <;> exact ⟨_, fun _ => rfl⟩

/-- An update of a state that keeps what a store to memory and its residue show. -/
structure KeepsStore (f : State → State) : Prop where
  adr : ∀ s, (f s).adr = s.adr
  mem : ∀ s, (f s).mem = s.mem
  regs : ∀ s, (f s).regs = s.regs
  sp : ∀ s, (f s).sp = s.sp
  params : ∀ s, (f s).params = s.params

theorem keepsStore_compute (u : MicroAddr) (op : Alu) (S D : State → Word) :
    KeepsStore fun s => s.compute u op (S s) (D s) := by
  constructor <;> intro s <;> simp [State.compute]

/-- R340: every two-operand instruction but CMP ends in a write-back of what its execute word has computed. -/
theorem exec_twoOp_writeBack {op : TwoOp} (src dst : Operand) (hop : op ≠ .cmp) :
    ∃ f, KeepsStore f ∧ ∀ s, exec (op.instr src dst) s = withOperands src dst (fun s => writeBack dst (f s)) s := by
  cases op with
  | cmp => exact absurd rfl hop
  | mov =>
    refine ⟨fun s => (s.enter uMov0).toMdr .sum s.t 0, ?_, fun _ => rfl⟩
    constructor <;> intro s <;> simp
  | add => exact ⟨_, keepsStore_compute uAdd0 .sum State.t State.mdr, fun _ => rfl⟩
  | sub => exact ⟨_, keepsStore_compute uSub0 .sub State.t State.mdr, fun _ => rfl⟩
  | and => exact ⟨_, keepsStore_compute uAnd0 .and State.t State.mdr, fun _ => rfl⟩
  | or => exact ⟨_, keepsStore_compute uOr0 .or State.t State.mdr, fun _ => rfl⟩
  | xor => exact ⟨_, keepsStore_compute uXor0 .xor State.t State.mdr, fun _ => rfl⟩

/-- R360: so does every one-operand instruction but JMP, CALL, PUSH and POP. -/
theorem exec_oneOp_writeBack {op : OneOp} (dst : Operand) (hop : op ∉ [.jmp, .call, .push, .pop]) :
    ∃ f, KeepsStore f ∧ ∀ s, exec (op.instr dst) s = andThen (fetchDest dst s) fun s => writeBack dst (f s) := by
  have computes (u : MicroAddr) (alu : Alu) (S : Word) := keepsStore_compute u alu (fun _ => S) State.mdr
  cases op with
  | jmp | call | push | pop => exact absurd (by decide) hop
  | clr => exact ⟨_, keepsStore_compute uClr0 .sum (fun _ => 0) (fun _ => 0), fun _ => rfl⟩
  | neg =>
    refine ⟨fun s => ((s.enter uNeg0).toT .sum s.mdr 0).compute uNeg1 .sub s.mdr 0, ?_, fun s => ?_⟩
    · constructor <;> intro s <;> simp [State.compute]
    · simp [OneOp.instr, exec, execNeg]
  | inc => exact ⟨_, computes uInc0 .sum 1, fun _ => rfl⟩
  | dec => exact ⟨_, computes uDec0 .sub 1, fun _ => rfl⟩
  | asl => exact ⟨_, computes uAsl0 .asl 0, fun _ => rfl⟩
  | asr => exact ⟨_, computes uAsr0 .asr 0, fun _ => rfl⟩
  | lsr => exact ⟨_, computes uLsr0 .lsr 0, fun _ => rfl⟩
  | rol => exact ⟨_, computes uRol0 .rol 0, fun _ => rfl⟩
  | ror => exact ⟨_, computes uRor0 .ror 0, fun _ => rfl⟩
  | rlc => exact ⟨_, computes uRlc0 .rlc 0, fun _ => rfl⟩
  | rrc => exact ⟨_, computes uRrc0 .rrc 0, fun _ => rfl⟩

/-! ## Operands -/

theorem withOperands_of_unreadable_src {src : Operand} {s : State} (hsrc : readable src s = false) (dst : Operand)
    (body : State → Result) :
    StopsOutOfRange (withOperands src dst body s) { s.arch with pc := s.pc + extraCount src } := by
  obtain ⟨t, hfetch, harch⟩ := (fetchSource_spec src s).2 hsrc
  exact ⟨t, by rw [withOperands, hfetch, andThen_fault], harch⟩

theorem fetchDest_of_unreadable {dst : Operand} {s : State} (hdst : readable dst s = false) (body : State → Result) :
    StopsOutOfRange (andThen (fetchDest dst s) body) { s.arch with pc := s.pc + extraCount dst } := by
  obtain ⟨t, hfetch, harch⟩ := (fetchDest_spec dst s).2 hdst
  exact ⟨t, by rw [hfetch, andThen_fault], harch⟩

/-- R315, R130: the write-back into an IMMEDIATE destination's cell that does not exist, from a state whose registers,
memory, `sp` and parameters are those of `s`. -/
theorem writeBack_immediate_stops {f : State → State} (hf : KeepsStore f) {s u : State} {p : Word} {field : Reg}
    {v : Word} (harch : u.arch = { s.arch with pc := p }) (hout : s.inMemory u.adr = false) :
    ∃ t, writeBack (.immediate field v) (f u) = .fault (.dataOutOfRange t) ∧ t.mem = s.mem ∧ t.regs = s.regs
      ∧ t.sp = s.sp := by
  have hout' : ((f u).enter uWbMem).inMemory ((f u).enter uWbMem).adr = false := by
    rw [State.inMemory_congr s ((f u).enter uWbMem) ((hf.params u).trans (congrArg Arch.params harch)), State.enter_adr,
      hf.adr, hout]
  obtain ⟨hin, -⟩ | ⟨-, hw⟩ := memWrite_cases ((f u).enter uWbMem)
  · rw [hout'] at hin
    cases hin
  · refine ⟨(f u).enter uWbMem, ?_, (hf.mem u).trans (congrArg Arch.mem harch),
      (hf.regs u).trans (congrArg Arch.regs harch), (hf.sp u).trans (congrArg Arch.sp harch)⟩
    rw [writeBack, hw, andThen_fault]

/-! ## Pushes and pops -/

section Stack

variable {s w : State} {p : Word} (harch : w.arch = { s.arch with pc := p }) (hout : s.inMemory s.sp = false)
include harch hout

theorem pushMdr_stops (body : State → Result) :
    StopsOutOfRange (andThen (pushMdr w) body) { s.arch with pc := p } := by
  rw [← inMemory_sp_of_moved_pc harch] at hout
  obtain ⟨-, t, hpush, harch'⟩ := (pushMdr_cases w).resolve_right (by simp [hout])
  exact ⟨t, by rw [hpush, andThen_fault], harch'.trans harch⟩

end Stack

/-- U9: the read of a pop, `s` being the state after the increment. -/
theorem readTop_stops {s : State} (hout : s.inMemory s.sp = false) (body : State → Result) :
    StopsOutOfRange (andThen (readTop s) body) s.arch := by
  obtain ⟨-, t, hread, harch⟩ := (readTop_cases s).resolve_left (by simp [hout])
  exact ⟨t, by rw [hread, andThen_fault], harch⟩

theorem execPush_stops {o : Operand} {s : State} (hout : s.inMemory s.sp = false) (ho : readable o s = true) :
    StopsOutOfRange (execPush o s) { s.arch with pc := s.pc + extraCount o } := by
  obtain ⟨u, hfetch, hu⟩ := fetchDest_of_readable ho
  rw [execPush, hfetch, andThen_next]
  exact pushMdr_stops (w := u.enter uPush0) hu.arch hout _

theorem execCall_stops {o : Operand} {s : State} (hout : s.inMemory s.sp = false) (ho : readable o s = true) :
    StopsOutOfRange (execCall o s) { s.arch with pc := s.pc + extraCount o } := by
  obtain ⟨u, hfetch, hu⟩ := fetchDest_of_readable ho
  obtain ⟨-, -, harch, -, -⟩ := callLoaded_spec u
  rw [execCall_of_fetched hfetch]
  exact pushMdr_stops (harch.trans hu.arch) hout _

theorem pushValue_stops {s : State} (hout : s.inMemory s.sp = false) (load push : MicroAddr) (v : Word) :
    StopsOutOfRange (pushValue load push v s) s.arch :=
  pushMdr_stops (w := ((s.enter load).toMdr .sum 0 v).enter push) (p := s.pc) rfl hout _

theorem execPop_stops {o : Operand} {s : State} (hout : s.inMemory (s.sp + 1) = false) (ho : readable o s = true) :
    StopsOutOfRange (execPop o s) { s.arch with pc := s.pc + extraCount o, sp := s.sp + 1 } := by
  obtain ⟨u, hfetch, hu⟩ := fetchDest_of_readable ho
  have harch : (popRaised u).arch = { s.arch with pc := s.pc + extraCount o, sp := s.sp + 1 } := by
    rw [popRaised_arch, hu.arch, sp_of_moved_pc hu.arch]
  have hout' : (popRaised u).inMemory (popRaised u).sp = false := by
    rw [State.inMemory_congr s _ (congrArg Arch.params harch), show (popRaised u).sp = _ from congrArg Arch.sp harch,
      hout]
  rw [execPop_of_fetched hfetch, ← harch]
  exact readTop_stops hout' _

theorem popPc_stops {s : State} (hout : s.inMemory (s.sp + 1) = false) (first second : MicroAddr) :
    StopsOutOfRange (popPc first second s) { s.arch with sp := s.sp + 1 } :=
  readTop_stops (s := (s.enter first).incSp.enter second) hout _

theorem execPopflag_stops {s : State} (hout : s.inMemory (s.sp + 1) = false) :
    StopsOutOfRange (execPopflag s) { s.arch with sp := s.sp + 1 } :=
  readTop_stops (s := (s.enter uPopflag0).incSp.enter uPopflag1) hout _

theorem execReti_stops_first {s : State} (hout : s.inMemory (s.sp + 1) = false) :
    StopsOutOfRange (execReti s) { s.arch with sp := s.sp + 1 } :=
  readTop_stops (s := (s.enter uReti0).incSp.enter uReti1) hout _

/-- R423: `pc` is popped before the second read. -/
theorem execReti_stops_second {s : State} (hin : s.inMemory (s.sp + 1) = true)
    (hout : s.inMemory (s.sp + 2) = false) :
    StopsOutOfRange (execReti s) { s.arch with pc := s.mem.read (s.sp + 1).toNat, sp := s.sp + 2 } := by
  obtain ⟨t, hread, hmdr, harch, -⟩ := readTop_of_inMemory (s := (s.enter uReti0).incSp.enter uReti1) hin
  have hsp : t.sp = s.sp + 1 := congrArg Arch.sp harch
  have harch' : (retiReturned t).arch = { s.arch with pc := s.mem.read (s.sp + 1).toNat, sp := s.sp + 2 } := by
    rw [retiReturned_arch, hsp, BitVec.add_assoc, harch, hmdr]
    rfl
  have hout' : (retiReturned t).inMemory (retiReturned t).sp = false := by
    rw [State.inMemory_congr s _ (congrArg Arch.params harch'),
      show (retiReturned t).sp = _ from congrArg Arch.sp harch', hout]
  rw [execReti, hread, andThen_next, ← harch']
  exact readTop_stops hout' _

/-! ## The instructions -/

/-- Settles O59: each access outside memory stops where the instruction makes it, nothing stored. -/
theorem accessesBeyondMemoryStop : Obligations.AccessesBeyondMemoryStop := by
  intro s
  refine ⟨fun op src dst hsrc => ?_, fun op src dst hsrc hdst => ?_, fun op dst hdst => ?_,
    fun op src f v hop hsrc hout => ?_, fun op f v hop hout => ?_, fun hout => ?_, fun hout => ?_,
    execReti_stops_second⟩
  · obtain ⟨body, hexec⟩ := exec_twoOp op src dst
    rw [hexec]
    exact withOperands_of_unreadable_src hsrc dst body
  · obtain ⟨body, hexec⟩ := exec_twoOp op src dst
    rw [hexec]
    exact withOperands_of_unreadable_dst hsrc hdst body
  · obtain ⟨body, hexec⟩ := exec_oneOp op dst
    rw [hexec]
    exact fetchDest_of_unreadable hdst body
  · obtain ⟨g, hg, hexec⟩ := exec_twoOp_writeBack src (.immediate f v) hop
    obtain ⟨u, hu, hrun⟩ := withOperands_of_readable (dst := .immediate f v) hsrc rfl
    rw [hexec, hrun]
    exact writeBack_immediate_stops hg hu.arch (by rw [hu.adr _ rfl, hout])
  · obtain ⟨g, hg, hexec⟩ := exec_oneOp_writeBack (.immediate f v) hop
    obtain ⟨u, hfetch, hu⟩ := fetchDest_of_readable (dst := .immediate f v) (s := s) rfl
    rw [hexec, hfetch, andThen_next]
    exact writeBack_immediate_stops hg hu.arch (by rw [hu.adr _ rfl, hout])
  · exact ⟨fun o ho => ⟨execPush_stops hout ho, execCall_stops hout ho⟩, pushValue_stops hout _ _ _,
      pushValue_stops hout _ _ _⟩
  · exact ⟨fun o ho => execPop_stops hout ho, popPc_stops hout _ _, popPc_stops hout _ _, execPopflag_stops hout,
      execReti_stops_first hout⟩

/-! ## JMP (R372) -/

theorem execJmp_completes {target : Operand} {s : State} (h : readable target s = true) :
    Completes (execJmp target s) s { s.arch with pc := valueOf target s } := by
  obtain ⟨u, hfetch, hu⟩ := fetchDest_of_readable h
  rw [execJmp, hfetch, andThen_next]
  refine completes_toFetch ?_ ?_
  · simpa using hu.ir
  · rw [toPc_arch, hu.arch, hu.mdr]

/-- Settles O48: JMP.0 moves the fetched value to `pc`. -/
theorem jmpLoadsThePc : Obligations.JmpLoadsThePc :=
  ⟨wordAt_of_fields rfl, fun _ _ =>
    ⟨encode_head_one rfl rfl, legal_one_of_acceptsImmediate rfl rfl, execJmp_completes⟩⟩

end Sys2Proof.Proofs.BeyondMemory

/-! The reference machine at reset (R38, R474), and its control store at its load (R300 to R306). -/

namespace Sys2Proof.Proofs.ReferenceInstance
open Sys2Proof Sys2Proof.Machine Sys2Proof.Proofs.Reset Sys2Proof.Proofs.Other
  Sys2Proof.Proofs.TwoOperand

theorem stateReset_eq_bootState : State.reset = bootState Config.resetParams [] := rfl

theorem controlWordAt_reset : controlWordAt uReset = some 0x2000 := rfl

/-- Settles O29: the empty program fits, and word 0 does nothing but name the fetch word. -/
theorem resetState : Obligations.ResetState := by
  have haway : State.reset.upc ≠ uFetch := by decide
  have hidle : wordAt uReset {} := wordAt_of_fields rfl
  refine ⟨?_, ?_⟩
  · rw [stateReset_eq_bootState]
    exact boot_of_fits (by decide)
  · rw [step_of_upc_ne_fetch haway, ← controlWordAt_reset]
    exact microStep_of_wordAt hidle rfl

/-- Settles O31: the fields of `State.reset`; 65535 is in the stack region. -/
theorem resetMeetsTheInvariants : Obligations.ResetMeetsTheInvariants := by
  refine ⟨⟨by decide, rfl, rfl, ?_, nofun⟩, by decide, ?_⟩
  · rw [referenceStore_length]
    decide
  · rw [if_neg (by decide)]
    decide

theorem firstIllFormed_reference : firstIllFormed Selectors.reference 0 referenceStore = none := by decide +kernel

theorem pathsCertified_reference : pathsCertified Setup.reference = true := by decide +kernel

theorem progresses_reference : progresses Setup.reference 5 0 = true := by decide +kernel

/-- A store of legal words whose paths are certified is admitted. -/
theorem acceptStore_of_certified {k : Setup} (hlegal : firstIllFormed k.selectors 0 k.rom = none)
    (hpaths : pathsCertified k = true) (s : State) : acceptStore k s = .next s := by
  have hrule : brokenRule k = none := if_pos (by rw [hpaths, Bool.true_or])
  simp only [acceptStore, hlegal, hrule]

/-- Settles O13: the checks evaluate. -/
theorem referenceStoreWellFormed : Obligations.ReferenceStoreWellFormed :=
  ⟨referenceStore_length, acceptStore_of_certified firstIllFormed_reference pathsCertified_reference,
    pathsCertified_reference,
    progresses_reference⟩

end Sys2Proof.Proofs.ReferenceInstance

/-! ILLEGAL_MODE_POLICY (U8): the sweep of `firstIllegal` over a program of whole instructions (R99, R130). -/

namespace Sys2Proof.Proofs.ModePolicy
open Sys2Proof Sys2Proof.Machine Sys2Proof.Proofs.RoundTrip Sys2Proof.Proofs.CodecInverse Sys2Proof.Proofs.Decoder

/-! ## What an opcode word shows of its instruction -/

theorem length_of_read {mode : AddrMode} {r : Reg} {ws rest : List Word} {o : Operand}
    (h : Operand.read mode r ws = some (o, rest)) : (if mode.takesExtra then 1 else 0) + rest.length = ws.length := by
  cases mode with
  | direct | indirect => cases h; exact Nat.zero_add _
  | immediate | indexed =>
    cases ws with
    | nil => cases h
    | cons w ws => cases h; exact Nat.add_comm _ _

section
variable {c : Codes} {w : Word} {ws rest : List Word} {i : Instr} (h : c.decodeWords (w :: ws) = .ok (i, rest))
include h

theorem opcodeDefined_of_decodeWords : c.opcodeDefined w = true := by
  by_contra hdef
  rw [(decodeWords_cons_eq_reserved_iff c w ws).mpr (by simpa using hdef)] at h
  cases h

/-- R99: the length the opcode word announces is what the decoder consumes. -/
theorem instrLength_of_decodeWords : c.instrLength w + rest.length = (w :: ws).length := by
  simp only [Codes.decodeWords, Codes.instrLength, List.length_cons] at h ⊢
  cases hg : group w <;> simp only [hg] at h ⊢
  case twoOp =>
    split at h
    · cases h
    · split at h
      · cases h
      · next hsrc =>
        split at h
        · cases h
        · next hdst =>
          cases h
          rw [← length_of_read hsrc, ← length_of_read hdst]
          omega
  case oneOp =>
    split at h
    · cases h
    · split at h
      · cases h
      · next hdst =>
        cases h
        rw [← length_of_read hdst]
        omega
  case branch =>
    split at h <;> cases h
    exact Nat.add_comm _ _
  case other =>
    split at h <;> cases h
    exact Nat.add_comm _ _

/-- R130: the modes of the opcode word are refused where the instruction is illegal. -/
theorem modeRefused_of_decodeWords (extra : List (AddrMode × AddrMode)) :
    c.modeRefused extra w = !i.legal extra := by
  have hdef := opcodeDefined_of_decodeWords h
  simp only [Codes.decodeWords, Codes.modeRefused] at h ⊢
  cases hg : group w <;> simp only [hg] at h ⊢
  case twoOp =>
    split at h
    · cases h
    · split at h
      · cases h
      · next hsrc =>
        split at h
        · cases h
        · next hdst =>
          cases h
          simp only [hdef, Bool.true_and, Instr.legal, shape_two_instr, mode_of_read hsrc, mode_of_read hdst]
  case oneOp =>
    split at h
    · cases h
    · next op hop =>
      split at h
      · cases h
      · next hdst =>
        cases h
        simp only [opcode, hg, hop, Instr.legal, shape_one_instr, mode_of_read hdst]
  case branch =>
    split at h <;> cases h
    simp only [Instr.legal, shape_branch_instr, Bool.not_true]
  case other =>
    split at h <;> cases h
    simp only [Instr.legal, shape_other_instr, Bool.not_true]

end

/-! ## The sweep -/

section
variable {c : Codes} (hv : c.valid) {extra : List (AddrMode × AddrMode)}
include hv

theorem encode_ne_nil (i : Instr) : c.encode i ≠ [] := fun hnil => by
  have h := decodeWords_encode hv i []
  rw [hnil] at h
  cases h

/-- A legal instruction at the head is passed over. -/
theorem firstIllegal_encode {i : Instr} (hi : i.legal extra = true) (fuel at_ : Nat) (tail : List Word) :
    firstIllegal c extra (fuel + 1) at_ (c.encode i ++ tail)
      = firstIllegal c extra fuel (at_ + (c.encode i).length) tail := by
  have hdecode := decodeWords_encode hv i tail
  cases hencode : c.encode i with
  | nil => exact absurd hencode (encode_ne_nil hv i)
  | cons w ws =>
    rw [hencode, List.cons_append] at hdecode
    have hdef := opcodeDefined_of_decodeWords hdecode
    have hrefused := modeRefused_of_decodeWords hdecode extra
    have hlength : c.instrLength w = (w :: ws).length := by
      have hcount := instrLength_of_decodeWords hdecode
      rw [← List.cons_append, List.length_append] at hcount
      omega
    have hdrop : (w :: (ws ++ tail)).drop (w :: ws).length = tail := List.drop_left (l₁ := w :: ws)
    rw [hi, Bool.not_true] at hrefused
    simp only [List.cons_append, firstIllegal, hdef, Bool.not_true, Bool.false_eq_true, if_false, hrefused, hlength,
      hdrop]

/-- Legal instructions are passed over, one unit of fuel each. -/
theorem firstIllegal_flatMap (tail : List Word) : ∀ (legal : List Instr), (∀ i ∈ legal, i.legal extra = true) →
    ∀ fuel at_, firstIllegal c extra (legal.length + fuel) at_ (legal.flatMap c.encode ++ tail)
      = firstIllegal c extra fuel (at_ + (legal.flatMap c.encode).length) tail
  | [], _, fuel, at_ => by simp
  | i :: legal, hlegal, fuel, at_ => by
    have hi := hlegal i List.mem_cons_self
    have hrest := firstIllegal_flatMap tail legal fun j hj => hlegal j (List.mem_cons_of_mem i hj)
    rw [List.flatMap_cons, List.append_assoc, List.length_cons, Nat.add_right_comm, firstIllegal_encode hv hi, hrest,
      List.length_append, Nat.add_assoc]

/-- Every instruction has a word, so the program's length is fuel enough. -/
theorem length_le_flatMap (legal : List Instr) : legal.length ≤ (legal.flatMap c.encode).length := by
  induction legal with
  | nil => exact Nat.zero_le _
  | cons i legal ih =>
    have hword := List.length_pos_iff.mpr (encode_ne_nil hv i)
    rw [List.flatMap_cons, List.length_append, List.length_cons]
    omega

end

theorem firstIllegal_nil (c : Codes) (extra : List (AddrMode × AddrMode)) (fuel at_ : Nat) :
    firstIllegal c extra fuel at_ [] = none := by cases fuel <;> rfl

/-- The opcode word of an illegal instruction is reported, whatever follows it. -/
theorem firstIllegal_bad {c : Codes} (hv : c.valid) {extra : List (AddrMode × AddrMode)} {bad : Instr} {w : Word}
    (hbad : bad.legal extra = false) (hw : (c.encode bad).head? = some w) (fuel at_ : Nat) (rest : List Word) :
    firstIllegal c extra (fuel + 1) at_ (w :: rest) = some at_ := by
  obtain ⟨ws, hws⟩ := List.head?_eq_some_iff.mp hw
  have hdecode := decodeWords_encode hv bad []
  rw [hws, List.cons_append] at hdecode
  have hdef := opcodeDefined_of_decodeWords hdecode
  have hrefused := modeRefused_of_decodeWords hdecode extra
  rw [hbad, Bool.not_false] at hrefused
  simp only [firstIllegal, hdef, Bool.not_true, Bool.false_eq_true, if_false, hrefused, if_true]

/-- Settles O30: the sweep passes over the legal instructions and stops at the first other opcode word. -/
theorem illegalModePolicyRefuses : Obligations.IllegalModePolicyRefuses := by
  intro c extra p legal hv hlegal
  have hle := length_le_flatMap hv legal
  refine ⟨?_, fun bad w rest hbad hw => ⟨?_, rfl⟩⟩
  · obtain ⟨fuel, hfuel⟩ := Nat.exists_eq_add_of_le hle
    have hsweep := firstIllegal_flatMap hv [] legal hlegal fuel 0
    rw [List.append_nil, ← hfuel, firstIllegal_nil] at hsweep
    simp only [bootUnder, hsweep]
  · obtain ⟨fuel, hfuel⟩ := Nat.exists_eq_add_of_le hle
    have hlength : (legal.flatMap c.encode ++ w :: rest).length = legal.length + (fuel + rest.length + 1) := by
      rw [List.length_append, List.length_cons]
      omega
    have hsweep := firstIllegal_flatMap hv (w :: rest) legal hlegal (fuel + rest.length + 1) 0
    rw [← hlength, firstIllegal_bad hv hbad hw, Nat.zero_add] at hsweep
    simp only [bootUnder, hsweep]

end Sys2Proof.Proofs.ModePolicy

/-! The load of a control store (R300, R301, R303): field legality, and what the trial of a run finds. -/

namespace Sys2Proof.Proofs.StoreLoad
open Sys2Proof Sys2Proof.Machine Sys2Proof.Proofs.MicroCycle Sys2Proof.Proofs.MicroStages
  Sys2Proof.Proofs.ControlWordRoundTrip Sys2Proof.Proofs.ReferenceInstance

/-! ## Field legality (R300) -/

theorem find?_zipIdx {α : Type} (l : List α) (k : Nat) : ∀ start,
    ((l.zipIdx start).find? fun p => p.2 == start + k).map Prod.fst = l[k]? := by
  induction l generalizing k with
  | nil => intro start; rfl
  | cons x l ih =>
    intro start
    cases k with
    | zero => simp
    | succ k =>
      have hne : (start == start + (k + 1)) = false := beq_false_of_ne (by omega)
      have hstart : start + (k + 1) = start + 1 + k := by omega
      rw [List.zipIdx_cons, List.find?_cons_of_neg (by simp [hne]), hstart]
      exact ih k (start + 1)

/-- The reference numbering of a field: a selector's code is its place in the table (D2). -/
theorem named_zipIdx {α : Type} (table : List α) (k : Nat) : Numbering.named table.zipIdx k = table[k]? := by
  have h := find?_zipIdx table k 0
  rwa [Nat.zero_add] at h

theorem ofFields_eq_some_iff {n : Selectors} {f : Fields} {m : MicroInstr} :
    n.ofFields f = some m ↔
      n.sbus.named f.sbus = some m.sbus ∧ n.dbus.named f.dbus = some m.dbus ∧ n.alu.named f.alu = some m.alu
        ∧ n.rbus.named f.rbus = some m.rbus ∧ n.misc.named f.misc = some m.misc ∧ n.mem.named f.mem = some m.mem
        ∧ n.cond.named f.cond = some m.cond ∧ n.index.named f.indexTrue = some m.indexTrue
        ∧ n.index.named f.indexFalse = some m.indexFalse ∧ f.addressTrue = m.addressTrue
        ∧ f.addressFalse = m.addressFalse := by
  unfold Selectors.ofFields
  constructor
  · intro h
    split at h
    · cases h
      simp only [true_and, *]
    · cases h
  · rintro ⟨h1, h2, h3, h4, h5, h6, h7, h8, h9, h10, h11⟩
    simp only [h1, h2, h3, h4, h5, h6, h7, h8, h9, h10, h11]

theorem wordLegal_iff {n : Selectors} {w : ControlWord} :
    n.wordLegal w = true ↔ ∃ m, n.ofWord w = some m ∧ (m.alu = .none → m.rbus = .none) := by
  unfold Selectors.wordLegal
  cases n.ofWord w with
  | none => simp
  | some m => simp [or_iff_not_imp_left]

/-- A code that a table without repetitions names as its first selector is 0. -/
theorem eq_zero_of_named {α : Type} {table : List α} (hnodup : table.Nodup) {k : Nat} {sel : α}
    (hk : table[k]? = some sel) (h0 : table[0]? = some sel) : k = 0 :=
  (List.getElem?_inj (List.getElem?_eq_some_iff.mp hk).1 hnodup).mp (hk.trans h0.symm)

theorem lt_of_named {α : Type} {table : List α} {k : Nat} {sel : α} (hk : table[k]? = some sel) : k < table.length :=
  (List.getElem?_eq_some_iff.mp hk).1

theorem named_of_lt {α : Type} {table : List α} {k : Nat} (hk : k < table.length) : ∃ sel, table[k]? = some sel :=
  ⟨_, List.getElem?_eq_getElem hk⟩

/-- R300: the codes of the reference numbering that are reserved, and R251. -/
theorem wordLegal_reference_iff (w : ControlWord) : wordLegal w = true ↔
    (unpack w.toNat).dbus ≤ 8 ∧ (unpack w.toNat).alu ≤ 12 ∧ (unpack w.toNat).rbus ≤ 6 ∧ (unpack w.toNat).misc ≤ 12
      ∧ (unpack w.toNat).cond ≤ 13 ∧ (unpack w.toNat).indexTrue ≤ 5 ∧ (unpack w.toNat).indexFalse ≤ 5
      ∧ ((unpack w.toNat).alu = 0 → (unpack w.toNat).rbus = 0) := by
  rw [wordLegal, wordLegal_iff]
  simp only [Selectors.ofWord, ofFields_eq_some_iff, Selectors.reference, named_zipIdx]
  constructor
  · rintro ⟨m, ⟨-, hdbus, halu, hrbus, hmisc, -, hcond, htrue, hfalse, -, -⟩, hnone⟩
    refine ⟨Nat.le_of_lt_succ (lt_of_named hdbus), Nat.le_of_lt_succ (lt_of_named halu),
      Nat.le_of_lt_succ (lt_of_named hrbus), Nat.le_of_lt_succ (lt_of_named hmisc),
      Nat.le_of_lt_succ (lt_of_named hcond), Nat.le_of_lt_succ (lt_of_named htrue),
      Nat.le_of_lt_succ (lt_of_named hfalse), fun halu0 => ?_⟩
    rw [halu0] at halu
    have hnone' := hnone (Option.some.inj halu).symm
    rw [hnone'] at hrbus
    exact eq_zero_of_named (by decide) hrbus rfl
  · rintro ⟨hdbus, halu, hrbus, hmisc, hcond, htrue, hfalse, hnone⟩
    obtain ⟨hsbus, -, -, -, -, hmem, -⟩ := unpack_inWidth w.toNat
    obtain ⟨sbus, hsbus⟩ := named_of_lt (table := SBus.table) hsbus
    obtain ⟨dbus, hdbus⟩ := named_of_lt (table := DBus.table) (Nat.lt_succ_of_le hdbus)
    obtain ⟨op, halu'⟩ := named_of_lt (table := Alu.table) (Nat.lt_succ_of_le halu)
    obtain ⟨rbus, hrbus'⟩ := named_of_lt (table := RBus.table) (Nat.lt_succ_of_le hrbus)
    obtain ⟨misc, hmisc⟩ := named_of_lt (table := Misc.table) (Nat.lt_succ_of_le hmisc)
    obtain ⟨mem, hmem⟩ := named_of_lt (table := MemOp.table) hmem
    obtain ⟨cond, hcond⟩ := named_of_lt (table := Cond.table) (Nat.lt_succ_of_le hcond)
    obtain ⟨indexTrue, htrue⟩ := named_of_lt (table := Index.table) (Nat.lt_succ_of_le htrue)
    obtain ⟨indexFalse, hfalse⟩ := named_of_lt (table := Index.table) (Nat.lt_succ_of_le hfalse)
    refine ⟨⟨sbus, dbus, op, rbus, misc, mem, cond, _, _, indexTrue, indexFalse⟩,
      ⟨hsbus, hdbus, halu', hrbus', hmisc, hmem, hcond, htrue, hfalse, rfl, rfl⟩, fun hop => ?_⟩
    have halu0 : (unpack w.toNat).alu = 0 := eq_zero_of_named (table := Alu.table) (by decide) (hop ▸ halu') rfl
    rw [hnone halu0] at hrbus'
    exact (Option.some.inj hrbus').symm

/-! ## The first illegal word -/

theorem firstIllFormed_eq_none {n : Selectors} {rom : List ControlWord} : ∀ {a : Nat},
    firstIllFormed n a rom = none ↔ ∀ w ∈ rom, n.wordLegal w = true := by
  induction rom with
  | nil => simp [firstIllFormed]
  | cons w rom ih =>
    intro a
    rw [firstIllFormed, List.forall_mem_cons]
    cases n.wordLegal w <;> simp [ih]

theorem firstIllFormed_eq_some {n : Selectors} {rom : List ControlWord} : ∀ {a b : Nat},
    firstIllFormed n a rom = some b → ∃ k w, b = a + k ∧ rom[k]? = some w ∧ n.wordLegal w = false
      ∧ ∀ j v, j < k → rom[j]? = some v → n.wordLegal v = true := by
  induction rom with
  | nil => nofun
  | cons w rom ih =>
    intro a b h
    rw [firstIllFormed] at h
    split at h
    · next hlegal =>
      obtain ⟨k, w', rfl, hk, hillegal, hbefore⟩ := ih h
      refine ⟨k + 1, w', by omega, hk, hillegal, fun j v hj hv => ?_⟩
      cases j with
      | zero => exact Option.some.inj hv ▸ hlegal
      | succ j => exact hbefore j v (Nat.lt_of_succ_lt_succ hj) hv
    · next hillegal =>
      cases h
      exact ⟨0, w, rfl, rfl, by simpa using hillegal, nofun⟩

/-! ## The residue of a wrong-group index -/

/-- Stages 2 to 7 leave `upc`, `cw` and what only the host sets. -/
theorem dataStages_keeps {m : MicroInstr} {s t : State} (h : dataStages m s = .next t) :
    t.upc = s.upc ∧ t.cw = s.cw ∧ t.intp = s.intp ∧ t.params = s.params := by
  obtain ⟨written, accessed, hrbus, hmem, hmisc⟩ := dataStages_eq_next.mp h
  rw [miscStage_frame hmisc, memStage_frame hmem, rbusStage_frame hrbus, computed_frame]
  exact ⟨rfl, rfl, rfl, rfl⟩

/-- A fault of stages 2 to 7 is none of those that the index raises (U1, U7), nor one of stage 1 (U2, U4). -/
theorem dataStages_fault {m : MicroInstr} {s : State} {f : Fault} (h : dataStages m s = .fault f) :
    (∃ t, f = .noAluResult t) ∨ (∃ t, f = .registerNotLatched t) ∨ (∃ t, f = .programEnd t)
      ∨ (∃ t, f = .dataOutOfRange t) ∨ ∃ t, f = .stackOverflow t := by
  obtain hrbus | ⟨written, -, hmem | ⟨accessed, -, hmisc⟩⟩ := dataStages_eq_fault.mp h
  · obtain ⟨-, -, rfl⟩ | ⟨-, -, rfl⟩ := rbusStage_eq_fault hrbus
    · exact .inl ⟨_, rfl⟩
    · exact .inr (.inl ⟨_, rfl⟩)
  · obtain ⟨-, -, rfl⟩ | ⟨-, -, rfl⟩ := memStage_eq_fault hmem
    · exact .inr (.inr (.inl ⟨_, rfl⟩))
    · exact .inr (.inr (.inr (.inl ⟨_, rfl⟩)))
  · obtain ⟨-, -, rfl⟩ := miscStage_eq_fault hmisc
    exact .inr (.inr (.inr (.inr ⟨_, rfl⟩)))

theorem microCycle_of_word {k : Setup} {s : State} {w : ControlWord} {m : MicroInstr}
    (hw : k.rom[s.upc.toNat]? = some w) (hm : k.selectors.ofWord w = some m) :
    microCycle k s = andThen (dataStages m { s with cw := some w }) (nextAddress k.codes m) := by
  simp only [microCycle, hw, hm, runMicro_eq_dataStages]

/-- U7 is raised by the choice of the next micro-address, on the state that stages 2 to 7 have left. -/
theorem microCycle_wrongGroup {k : Setup} {s t : State} (h : microCycle k s = .fault (.wrongGroupIndex t)) :
    ∃ w m, k.rom[s.upc.toNat]? = some w ∧ k.selectors.ofWord w = some m
      ∧ dataStages m { s with cw := some w } = .next t
      ∧ indexValue k.codes (chosenPair k.codes m t).2 t = .error (.wrongGroupIndex t) := by
  cases hw : k.rom[s.upc.toNat]? with
  | none => simp [microCycle, hw] at h
  | some w =>
    cases hm : k.selectors.ofWord w with
    | none => simp [microCycle, hw, hm] at h
    | some m =>
      rw [microCycle_of_word hw hm] at h
      obtain hdata | ⟨u, hdata, hnext⟩ := andThen_eq_fault.mp h
      · obtain ⟨_, hf⟩ | ⟨_, hf⟩ | ⟨_, hf⟩ | ⟨_, hf⟩ | ⟨_, hf⟩ := dataStages_fault hdata <;> cases hf
      · have hindex := nextAddress_eq_fault hnext
        obtain hf | ⟨-, hf⟩ := indexValue_eq_error hindex <;> cases hf
        exact ⟨w, m, rfl, hm, hdata, hindex⟩

theorem upc_of_wrongGroup {k : Setup} {s t : State} (h : microCycle k s = .fault (.wrongGroupIndex t)) :
    t.upc = s.upc := by
  obtain ⟨w, m, -, -, hdata, -⟩ := microCycle_wrongGroup h
  exact (dataStages_keeps hdata).1

/-! ## What a trial finds (R301, R303) -/

/-- A run that forms a sum beyond the store. -/
def FormsSumBeyond (k : Setup) (bs : List Bool) (s : State) : Prop :=
  ∃ t, runHosted k bs s = .next t ∧ k.rom.length ≤ t.upc.toNat

/-- A run that applies a selector to a wrong group at a micro-address. -/
def MeetsWrongGroup (k : Setup) (bs : List Bool) (s : State) (a : Nat) : Prop :=
  ∃ t, runHosted k bs s = .fault (.wrongGroupIndex t) ∧ t.upc.toNat = a

theorem runHosted_cons {k : Setup} {b : Bool} {bs : List Bool} {s t : State} (h : microCycle k (setInt b s) = .next t) :
    runHosted k (b :: bs) s = runHosted k bs t := by
  rw [runHosted, h, andThen_next]

theorem runHosted_cons_fault {k : Setup} {b : Bool} {bs : List Bool} {s : State} {f : Fault}
    (h : microCycle k (setInt b s) = .fault f) : runHosted k (b :: bs) s = .fault f := by
  rw [runHosted, h, andThen_fault]

/-- A rule that a trial finds broken is broken by a run of the first entries of its schedule. -/
theorem trial_some {k : Setup} {bs : List Bool} {s : State} {r : Refusal} (h : trial k bs s = some r) :
    ∃ cs, (∃ a, r = .sumBeyondControlStore a ∧ FormsSumBeyond k cs s)
      ∨ ∃ a, r = .unguardedIndex a ∧ MeetsWrongGroup k cs s a := by
  induction bs generalizing s with
  | nil => cases h
  | cons b bs ih =>
    rw [trial] at h
    split at h
    · next hbeyond =>
      cases h
      exact ⟨[], .inl ⟨_, rfl, s, rfl, List.getElem?_eq_none_iff.mp hbeyond⟩⟩
    · split at h
      · next t hfault =>
        split at h <;> cases h
        have hupc : t.upc = s.upc := upc_of_wrongGroup (s := setInt b s) hfault
        exact ⟨[b], .inr ⟨_, rfl, t, runHosted_cons_fault hfault, congrArg BitVec.toNat hupc⟩⟩
      · cases h
      · cases h
      · next t hnext =>
        split at h
        · cases h
        · split at h
          · next hbeyond =>
            cases h
            exact ⟨[b], .inl ⟨_, rfl, t, runHosted_cons hnext, hbeyond⟩⟩
          · obtain ⟨cs, hcs⟩ := ih h
            refine ⟨b :: cs, ?_⟩
            simpa only [FormsSumBeyond, MeetsWrongGroup, runHosted_cons hnext] using hcs

theorem run_of_breaks {k : Setup} {run : Run} {r : Refusal} (h : run.breaks k = some r) :
    programFits run.params run.program ∧ ∃ cs, (∃ a, r = .sumBeyondControlStore a ∧ FormsSumBeyond k cs run.start)
      ∨ ∃ a, r = .unguardedIndex a ∧ MeetsWrongGroup k cs run.start a := by
  rw [Run.breaks] at h
  split at h
  · next hfits => exact ⟨hfits, trial_some h⟩
  · cases h

/-! ## The load -/

section
variable {k : Setup} {s : State}

theorem acceptStore_illegal (h : ∃ w ∈ k.rom, k.selectors.wordLegal w = false) :
    ∃ a w, acceptStore k s = .refused (.illFormedControlStore a) ∧ k.rom[a]? = some w
      ∧ k.selectors.wordLegal w = false ∧ ∀ b v, b < a → k.rom[b]? = some v → k.selectors.wordLegal v = true := by
  cases hill : firstIllFormed k.selectors 0 k.rom with
  | none =>
    obtain ⟨w, hw, hillegal⟩ := h
    rw [firstIllFormed_eq_none.mp hill w hw] at hillegal
    cases hillegal
  | some a =>
    obtain ⟨j, w, hj, hw, hillegal, hbefore⟩ := firstIllFormed_eq_some hill
    rw [Nat.zero_add] at hj
    subst hj
    exact ⟨a, w, by simp only [acceptStore, hill], hw, hillegal, hbefore⟩

theorem acceptStore_broken {r : Refusal} (hlegal : ∀ w ∈ k.rom, k.selectors.wordLegal w = true)
    (h : acceptStore k s = .refused r) :
    pathsCertified k = false ∧ ∃ run : Run, programFits run.params run.program
      ∧ ((∃ a, r = .sumBeyondControlStore a ∧ FormsSumBeyond k run.schedule run.start)
        ∨ ∃ a, r = .unguardedIndex a ∧ MeetsWrongGroup k run.schedule run.start a) := by
  obtain ⟨a, -, hill⟩ | ⟨-, hrule⟩ := acceptStore_refused h
  · rw [firstIllFormed_eq_none.mpr hlegal] at hill
    cases hill
  · obtain ⟨hpaths, -, run, hbreaks⟩ := brokenRule_some hrule
    obtain ⟨hfits, cs, hcs⟩ := run_of_breaks hbreaks
    exact ⟨hpaths, { run with schedule := cs }, hfits, hcs⟩

end

/-- Settles O12: the load's three verdicts, in its order. -/
theorem storeLegality : Obligations.StoreLegality := by
  refine ⟨wordLegal_reference_iff, fun k s => ⟨fun hlegal hpaths => ?_, fun t h => ?_, acceptStore_illegal,
    fun r hlegal h => ?_⟩⟩
  · exact acceptStore_of_certified (firstIllFormed_eq_none.mpr hlegal) hpaths s
  · obtain ⟨ht, hill, -⟩ := acceptStore_next h
    exact ⟨ht, firstIllFormed_eq_none.mp hill⟩
  · obtain ⟨hpaths, run, hfits, ⟨a, hr, t, hrun, hbeyond⟩ | ⟨a, hr, t, hrun, ha⟩⟩ := acceptStore_broken hlegal h
    · exact ⟨hpaths, run, hfits, .inl ⟨a, t, hr, hrun, hbeyond⟩⟩
    · exact ⟨hpaths, run, hfits, .inr ⟨a, t, hr, hrun, ha⟩⟩

end Sys2Proof.Proofs.StoreLoad

/-! What a walk knows of the machine, and that each stage keeps the knowledge right: flags, latches, conditions. -/

namespace Sys2Proof.Proofs.WalkKnowledge
open Sys2Proof Sys2Proof.Machine Sys2Proof.Proofs.MicroCycle Sys2Proof.Proofs.MicroStages

/-! ## Known flags -/

/-- The knowledge is right about the flags. -/
structure RightFlags (known : KnownFlags) (f : Flags) : Prop where
  z : ∀ b, known.z = some b → b = f.z
  c : ∀ b, known.c = some b → b = f.c
  v : ∀ b, known.v = some b → b = f.v
  s : ∀ b, known.s = some b → b = f.s
  apart : known.apart = true → f.z = true → f.s = false

theorem rightFlags_empty (f : Flags) : RightFlags {} f := ⟨nofun, nofun, nofun, nofun, nofun⟩

theorem rightFlags_ofFlags (f : Flags) : RightFlags (.ofFlags f) f := by
  refine ⟨fun _ h => (Option.some.inj h).symm, fun _ h => (Option.some.inj h).symm,
    fun _ h => (Option.some.inj h).symm, fun _ h => (Option.some.inj h).symm, fun h hz => ?_⟩
  simpa [KnownFlags.ofFlags, hz] using h

/-- R212: no result is zero and negative. -/
theorem flagsOf_apart (r : Word) (c v : Bool) : (flagsOf r c v).z = true → (flagsOf r c v).s = false := by
  intro hz
  have hr : r = 0 := eq_of_beq hz
  rw [flagsOf, hr]
  rfl

/-- R210 to R227: what is known of the pending flags of any operands. -/
theorem rightFlags_openFlags {op : Alu} {S D r : Word} {carry : Bool} {f : Flags}
    (h : alu op S D carry = some (r, f)) : RightFlags (openFlags op) f := by
  cases op
  case none => cases h
  case sum | sub | asl => cases h; exact ⟨nofun, nofun, nofun, nofun, fun _ => flagsOf_apart _ _ _⟩
  case and | or | xor =>
    cases h
    exact ⟨nofun, fun _ h => (Option.some.inj h).symm, fun _ h => (Option.some.inj h).symm, nofun,
      fun _ => flagsOf_apart _ _ _⟩
  case asr | rol | ror | rlc | rrc =>
    cases h
    exact ⟨nofun, nofun, fun _ h => (Option.some.inj h).symm, nofun, fun _ => flagsOf_apart _ _ _⟩
  case lsr =>
    rw [OneOperand.alu_lsr] at h
    cases h
    refine ⟨nofun, nofun, fun _ h => (Option.some.inj h).symm, fun _ h => ?_, fun _ => flagsOf_apart _ _ _⟩
    exact (Option.some.inj h).symm.trans (OneOperand.msb_ushiftRight_one D).symm

/-- The knowledge is right about a value, where it has one. -/
def RightValue {α : Type} (known : Option α) (x : α) : Prop := ∀ y, known = some y → y = x

theorem rightValue_some {α : Type} (x : α) : RightValue (some x) x := fun _ h => (Option.some.inj h).symm

theorem rightValue_none {α : Type} (x : α) : RightValue none x := nofun

theorem RightValue.eq {α : Type} {x y : α} (h : RightValue (some y) x) : y = x := h y rfl

/-- An operation that is evaluated is evaluated on values that give what the machine's give. -/
theorem aluKnown_cases {op : Alu} {S D : Word} {carry : Bool} {S? D? : Option Word} {carry? : Option Bool}
    (hS : RightValue S? S) (hD : RightValue D? D) (hcarry : RightValue carry? carry) :
    aluKnown op S? D? carry? = (none, openFlags op)
      ∨ aluKnown op S? D? carry?
          = match alu op S D carry with
            | none => (none, openFlags op)
            | some (res, pf) => (some res, .ofFlags pf) := by
  cases op
  case none => exact .inl rfl
  case sum | sub | and | or | xor =>
    cases S? with
    | none => exact .inl rfl
    | some S' =>
      cases D? with
      | none => exact .inl rfl
      | some D' =>
        obtain rfl := hS.eq
        obtain rfl := hD.eq
        exact .inr rfl
  case asl | asr | lsr | rol | ror =>
    cases D? with
    | none => exact .inl rfl
    | some D' =>
      obtain rfl := hD.eq
      exact .inr rfl
  case rlc | rrc =>
    cases D? with
    | none => exact .inl rfl
    | some D' =>
      cases carry? with
      | none => exact .inl rfl
      | some b =>
        obtain rfl := hD.eq
        obtain rfl := hcarry.eq
        exact .inr rfl

theorem aluKnown_right {op : Alu} {S D r : Word} {carry : Bool} {f : Flags} {S? D? : Option Word}
    {carry? : Option Bool} (hS : RightValue S? S) (hD : RightValue D? D) (hcarry : RightValue carry? carry)
    (h : alu op S D carry = some (r, f)) :
    RightValue (aluKnown op S? D? carry?).1 r ∧ RightFlags (aluKnown op S? D? carry?).2 f := by
  obtain hknown | hknown := aluKnown_cases hS hD hcarry <;> rw [hknown]
  · exact ⟨rightValue_none r, rightFlags_openFlags h⟩
  · rw [h]
    exact ⟨rightValue_some r, rightFlags_ofFlags f⟩

/-- A value subtracted from itself, or exclusive-ored with itself, gives what 0 gives. -/
theorem alu_self {op : Alu} (hop : op = .sub ∨ op = .xor) (x : Word) (carry : Bool) :
    alu op x x carry = alu op 0 0 carry := by
  obtain rfl | rfl := hop
  · simp [alu, aluSub]
  · simp [alu, aluLogic]

/-! ## What the walk knows of a state -/

/-- The knowledge of a situation is right about a state: flags, `t`, `mdr`, and whether `regsel` names a register. -/
structure Knows (q : Situation) (s : State) : Prop where
  flags : RightFlags q.flags s.flags
  pending : RightFlags q.pending s.pending
  t : RightValue q.t s.t
  mdr : RightValue q.mdr s.mdr
  named : q.named = false → s.regsel = none

section
variable {q : Situation} {s : State} (h : Knows q s)
include h

theorem Knows.congr {u : State} (hflags : u.flags = s.flags) (hpending : u.pending = s.pending) (ht : u.t = s.t)
    (hmdr : u.mdr = s.mdr) (hregsel : u.regsel = s.regsel) : Knows q u :=
  ⟨hflags ▸ h.flags, hpending ▸ h.pending, ht ▸ h.t, hmdr ▸ h.mdr, hregsel ▸ h.named⟩

theorem sbusKnown_right (sel : SBus) : RightValue (sbusKnown sel q) (sbusStage sel s).1 := by
  cases sel
  case none | zero | minusOne | one => exact rightValue_some _
  case reg | irOffset => exact rightValue_none _
  case t => exact h.t
  case mdr => exact h.mdr

theorem dbusKnown_right (sel : DBus) : RightValue (dbusKnown sel q) (dbusStage sel s).1 := by
  cases sel
  case none | zero => exact rightValue_some _
  case pc | reg | sp | flags => exact rightValue_none _
  case mdr => exact h.mdr
  case t => exact h.t
  case notMdr =>
    intro y hy
    obtain ⟨v, hv, rfl⟩ := Option.map_eq_some_iff.mp hy
    rw [h.mdr v hv]
    rfl

/-- The operands known give what the machine's give. -/
theorem operandsKnown_right (m : MicroInstr) :
    ∃ S D, RightValue (operandsKnown m q).1 S ∧ RightValue (operandsKnown m q).2 D
      ∧ alu m.alu S D s.flags.c = aluResult m s := by
  rw [operandsKnown]
  split
  · next htwice =>
    simp only [Bool.and_eq_true, Bool.or_eq_true, beq_iff_eq] at htwice
    obtain ⟨hlatch, hop⟩ := htwice
    refine ⟨0, 0, rightValue_some _, rightValue_some _, ?_⟩
    obtain ⟨hsbus, hdbus⟩ | ⟨hsbus, hdbus⟩ := hlatch
    · rw [aluResult, hsbus, hdbus]
      exact (alu_self hop s.t _).symm
    · rw [aluResult, hsbus, hdbus]
      exact (alu_self hop s.mdr _).symm
  · exact ⟨_, _, sbusKnown_right h m.sbus, dbusKnown_right h m.dbus, rfl⟩

end

/-! ## Stages 2 to 7 -/

/-- The ALU result and the pending flags that a word gives, as far as they are known. -/
def resultKnown (m : MicroInstr) (q : Situation) : Option Word × KnownFlags :=
  aluKnown m.alu (operandsKnown m q).1 (operandsKnown m q).2 q.flags.c

theorem resultKnown_right {q : Situation} {s : State} (h : Knows q s) {m : MicroInstr} {r : Word} {f : Flags}
    (hr : aluResult m s = some (r, f)) : RightValue (resultKnown m q).1 r ∧ RightFlags (resultKnown m q).2 f := by
  obtain ⟨S, D, hS, hD, halu⟩ := operandsKnown_right h m
  exact aluKnown_right hS hD h.flags.c (halu.trans hr)

/-- R233, R234: a destination takes the ALU's result. -/
theorem rbusStage_result {sel : RBus} {res : Option Word} {s t : State} (h : rbusStage sel res s = .next t) :
    (sel = .t → res = some t.t) ∧ (sel = .mdr → res = some t.mdr) := by
  cases res with
  | none => cases sel <;> cases h; exact ⟨nofun, nofun⟩
  | some v =>
    refine ⟨fun hsel => ?_, fun hsel => ?_⟩ <;> subst hsel <;> cases h <;> rfl

/-- R240 to R243: what is known of the flags after a side effect. -/
theorem miscKnown_right {sel : Misc} {pendingKnown known : KnownFlags} {pending f : Flags}
    (hpending : RightFlags pendingKnown pending) (hf : RightFlags known f) :
    RightFlags (miscKnown sel pendingKnown known) (miscFlags sel pending f) := by
  obtain ⟨hz, hc, hv, hs, hapart⟩ := hf
  cases sel
  case none | incPc | incSp | decSp => exact ⟨hz, hc, hv, hs, hapart⟩
  case cond => exact hpending
  case setZ => exact ⟨rightValue_some _, hc, hv, hs, fun h _ => (hs false (eq_of_beq h)).symm⟩
  case clrZ => exact ⟨rightValue_some _, hc, hv, hs, nofun⟩
  case setC | clrC => exact ⟨hz, rightValue_some _, hv, hs, hapart⟩
  case setV | clrV => exact ⟨hz, hc, rightValue_some _, hs, hapart⟩
  case setS => exact ⟨hz, hc, hv, rightValue_some _, fun h hset => absurd ((hz false (eq_of_beq h)).trans hset) nofun⟩
  case clrS => exact ⟨hz, hc, hv, rightValue_some _, fun _ _ => rfl⟩

section
variable {q : Situation} {m : MicroInstr}

theorem afterData_pending :
    (afterData m q).pending = if m.alu = .none then q.pending else (resultKnown m q).2 := rfl

theorem afterData_flags :
    (afterData m q).flags = miscKnown m.misc (afterData m q).pending
      (if m.rbus = .flags then
        match (resultKnown m q).1 with
        | none => {}
        | some w => .ofFlags (Flags.ofWord w)
      else q.flags) := rfl

theorem afterData_t : (afterData m q).t = if m.rbus = .t then (resultKnown m q).1 else q.t := rfl

theorem afterData_mdr : (afterData m q).mdr
    = if m.mem = .read then none else if m.rbus = .mdr then (resultKnown m q).1 else q.mdr := rfl

theorem afterData_named : (afterData m q).named = (q.named || m.sbus == .reg || m.dbus == .reg) := rfl

theorem afterData_ir : (afterData m q).ir = q.ir := rfl

variable {s : State} (h : Knows q s)
include h

theorem pendingAfter_right : RightFlags (afterData m q).pending (pendingAfter m s) := by
  rw [afterData_pending]
  split
  · next hnone =>
    rw [pendingAfter_of_none s hnone]
    exact h.pending
  · next hop =>
    obtain ⟨res, hres⟩ := aluResult_eq_some_of_ne_none s hop
    exact (resultKnown_right h hres).2

/-- A value that a destination has taken is known as far as the result is. -/
theorem resultKnown_of_map {v : Word} (hv : (aluResult m s).map Prod.fst = some v) :
    RightValue (resultKnown m q).1 v := by
  obtain ⟨⟨r, f⟩, hr, rfl⟩ := Option.map_eq_some_iff.mp hv
  exact (resultKnown_right h hr).1

/-- Stages 2 to 7 keep the knowledge right. -/
theorem afterData_right {t : State} (hdata : dataStages m s = .next t) : Knows (afterData m q) t := by
  obtain ⟨written, accessed, hrbus, hmem, hmisc⟩ := dataStages_eq_next.mp hdata
  obtain ⟨hkeep, hload⟩ := rbusStage_flags hrbus
  obtain ⟨-, ht, hmdr, -, -⟩ := rbusStage_writes hrbus
  obtain ⟨ht', hmdr'⟩ := rbusStage_result hrbus
  obtain ⟨-, hread, -⟩ := memStage_writes hmem
  have hcomputed := computed_frame m s
  have hwritten := rbusStage_frame hrbus
  have haccessed := memStage_frame hmem
  have htm := miscStage_frame hmisc
  have hpending : t.pending = pendingAfter m s := by rw [htm, haccessed, hwritten, hcomputed]
  refine ⟨?_, hpending ▸ pendingAfter_right h, ?_, ?_, fun hnamed => ?_⟩
  · have hflags : t.flags = miscFlags m.misc (pendingAfter m s) written.flags := by
      rw [htm, haccessed, hwritten, hcomputed]
    rw [hflags, afterData_flags]
    refine miscKnown_right (pendingAfter_right h) ?_
    split
    · next hsel =>
      obtain ⟨v, hv, hf⟩ := hload hsel
      have hknown := resultKnown_of_map h hv
      rw [hf]
      split
      · exact rightFlags_empty _
      · next w hw =>
        rw [hknown w hw]
        exact rightFlags_ofFlags _
    · next hsel =>
      rw [hkeep hsel, hcomputed]
      exact h.flags
  · have htt : t.t = written.t := by rw [htm, haccessed]
    rw [afterData_t, htt]
    split
    · next hsel => exact resultKnown_of_map h (ht' hsel)
    · next hsel =>
      rw [ht hsel, hcomputed]
      exact h.t
  · have htmdr : t.mdr = accessed.mdr := by rw [htm]
    rw [afterData_mdr, htmdr]
    split
    · exact rightValue_none _
    · next hmemsel =>
      rw [hread hmemsel]
      split
      · next hsel => exact resultKnown_of_map h (hmdr' hsel)
      · next hsel =>
        rw [hmdr hsel, hcomputed]
        exact h.mdr
  · rw [afterData_named, Bool.or_eq_false_iff, Bool.or_eq_false_iff, beq_eq_false_iff_ne, beq_eq_false_iff_ne]
      at hnamed
    obtain ⟨⟨hbefore, hsbus⟩, hdbus⟩ := hnamed
    have hregsel : t.regsel = (operandsRead m s).regsel := by
      rw [htm, haccessed, hwritten]
      rfl
    rw [hregsel, operandsRead_regsel, if_neg hdbus, if_neg hsbus]
    exact h.named hbefore

end

/-! ## Conditions -/

/-- What a condition's outcome tells is right. -/
theorem learn_right {c : Codes} {sel : Cond} {s : State} {known : KnownFlags} (h : RightFlags known s.flags) :
    RightFlags (learn sel (condHolds c sel s) known) s.flags := by
  have withZ : RightFlags (known.withZ s.flags.z) s.flags := by
    refine ⟨rightValue_some _, h.c, h.v, fun b hb => ?_, h.apart⟩
    simp only [KnownFlags.withZ] at hb
    split at hb
    · next hz =>
      rw [Bool.and_eq_true] at hz
      rw [h.apart hz.2 hz.1, ← Option.some.inj hb]
    · exact h.s b hb
  have withS : RightFlags (known.withS s.flags.s) s.flags := by
    refine ⟨fun b hb => ?_, h.c, h.v, rightValue_some _, h.apart⟩
    simp only [KnownFlags.withS] at hb
    split at hb
    · next hs =>
      rw [Bool.and_eq_true] at hs
      have hz : s.flags.z = false := by
        by_contra hz
        rw [h.apart hs.2 (by simpa using hz)] at hs
        cases hs.1
      rw [hz, ← Option.some.inj hb]
    · exact h.z b hb
  cases sel
  case always | noOp | oneOp | branch | regDest | int => exact h
  case z => exact withZ
  case s => exact withS
  case nz => simpa only [learn, condHolds, Bool.not_not] using withZ
  case ns => simpa only [learn, condHolds, Bool.not_not] using withS
  case v => exact ⟨h.z, h.c, rightValue_some _, h.s, h.apart⟩
  case c => exact ⟨h.z, rightValue_some _, h.v, h.s, h.apart⟩
  case nv =>
    simp only [learn, condHolds, Bool.not_not]
    exact ⟨h.z, h.c, rightValue_some _, h.s, h.apart⟩
  case nc =>
    simp only [learn, condHolds, Bool.not_not]
    exact ⟨h.z, rightValue_some _, h.v, h.s, h.apart⟩

/-- The outcome of a condition is among those the situation allows, when its word stands for `ir` and its flags are
right. -/
theorem condCan_allows (c : Codes) (sel : Cond) {q : Situation} {s : State} (hgroup : group q.ir = group s.ir)
    (hmad : modeDstField q.ir = modeDstField s.ir) (h : RightFlags q.flags s.flags) :
    (condHolds c sel s = true → (condCan c sel q).1 = true)
      ∧ (condHolds c sel s = false → (condCan c sel q).2 = true) := by
  have known (b b' : Bool) (hb : b' = b) : (b = true → b' = true) ∧ (b = false → (!b') = true) := by
    rw [hb]
    exact ⟨id, fun h => by rw [h]; rfl⟩
  have positive {actual : Bool} {known : Option Bool} (h : RightValue known actual) :
      (actual = true → (wants true known).1 = true) ∧ (actual = false → (wants true known).2 = true) := by
    simpa using wants_sound (value := true) h
  have negative {actual : Bool} {known : Option Bool} (h : RightValue known actual) :
      ((!actual) = true → (wants false known).1 = true) ∧ ((!actual) = false → (wants false known).2 = true) := by
    simpa using wants_sound (value := false) h
  cases sel
  case always => exact ⟨fun _ => rfl, nofun⟩
  case int => exact ⟨fun _ => rfl, fun _ => rfl⟩
  case noOp => exact known _ _ (congrArg (· == Group.other) hgroup)
  case oneOp => exact known _ _ (congrArg (· == Group.oneOp) hgroup)
  case branch => exact known _ _ (congrArg (· == Group.branch) hgroup)
  case regDest => exact known _ _ (congrArg (· == c.modeCode .direct) hmad)
  case z => exact positive h.z
  case nz => exact negative h.z
  case s => exact positive h.s
  case ns => exact negative h.s
  case v => exact positive h.v
  case nv => exact negative h.v
  case c => exact positive h.c
  case nc => exact negative h.c

end Sys2Proof.Proofs.WalkKnowledge

/-! A walk that succeeds has visited a closed set of situations: every word of one passes, and leads into the set. -/

namespace Sys2Proof.Proofs.WalkClosure
open Sys2Proof Sys2Proof.Machine

/-! ## The number of a situation -/

/-- Two digits of a number are read back. -/
theorem digits_inj {base a b c d : Nat} (hb : b < base) (hd : d < base) (h : a * base + b = c * base + d) :
    a = c ∧ b = d := by
  have hpos : 0 < base := Nat.zero_lt_of_lt hb
  have hmod := congrArg (· % base) h
  have hdiv := congrArg (· / base) h
  simp only [Nat.mul_comm _ base, Nat.mul_add_mod, Nat.mul_add_div hpos, Nat.mod_eq_of_lt hb, Nat.mod_eq_of_lt hd,
    Nat.div_eq_of_lt hb, Nat.div_eq_of_lt hd, Nat.add_zero] at hmod hdiv
  exact ⟨hdiv, hmod⟩

theorem flagDigit_lt (b : Option Bool) : flagDigit b < 3 := by
  rcases b with - | - | - <;> decide

theorem flagDigit_inj {a b : Option Bool} (h : flagDigit a = flagDigit b) : a = b := by
  rcases a with - | - | - <;> rcases b with - | - | - <;> cases h <;> rfl

theorem toNat_inj {a b : Bool} (h : a.toNat = b.toNat) : a = b := by
  cases a <;> cases b <;> cases h <;> rfl

theorem wordNumber_lt (w : Option Word) : wordNumber w < 65537 := by
  cases w with
  | none => decide
  | some w => exact Nat.succ_lt_succ w.isLt

theorem wordNumber_inj {a b : Option Word} (h : wordNumber a = wordNumber b) : a = b := by
  cases a <;> cases b <;> simp only [wordNumber] at h
  case none.none => rfl
  case some.some a b => rw [BitVec.eq_of_toNat_eq (Nat.succ.inj h)]
  all_goals omega

theorem number_lt (f : KnownFlags) : f.number < 162 := by
  have hz := flagDigit_lt f.z
  have hc := flagDigit_lt f.c
  have hv := flagDigit_lt f.v
  have hs := flagDigit_lt f.s
  have ha := Bool.toNat_lt f.apart
  rw [KnownFlags.number]
  omega

theorem number_inj {f g : KnownFlags} (h : f.number = g.number) : f = g := by
  obtain ⟨z, c, v, s, apart⟩ := f
  obtain ⟨z', c', v', s', apart'⟩ := g
  simp only [KnownFlags.number] at h
  obtain ⟨h, ha⟩ := digits_inj (Bool.toNat_lt _) (Bool.toNat_lt _) h
  obtain ⟨h, hs⟩ := digits_inj (flagDigit_lt _) (flagDigit_lt _) h
  obtain ⟨h, hv⟩ := digits_inj (flagDigit_lt _) (flagDigit_lt _) h
  obtain ⟨hz, hc⟩ := digits_inj (flagDigit_lt _) (flagDigit_lt _) h
  rw [flagDigit_inj hz, flagDigit_inj hc, flagDigit_inj hv, flagDigit_inj hs, toNat_inj ha]

/-- The field latched, as the digit of the key. -/
def latchedDigit : Option RegField → Nat
  | none => 0
  | some .source => 1
  | some .destination => 2

theorem latchedDigit_lt (l : Option RegField) : latchedDigit l < 3 := by
  rcases l with - | - | - <;> decide

theorem latchedDigit_inj {a b : Option RegField} (h : latchedDigit a = latchedDigit b) : a = b := by
  rcases a with - | - | - <;> rcases b with - | - | - <;> cases h <;> rfl

theorem key_eq (q : Situation) :
    q.key = (((((wordNumber q.t * 65537 + wordNumber q.mdr) * 26244 + (q.flags.number * 162 + q.pending.number)) * 3
      + latchedDigit q.latched) * 2 + q.named.toNat) * 65536 + q.ir.toNat) * 256 + q.upc := by
  obtain ⟨upc, ir, latched, named, flags, pending, t, mdr⟩ := q
  rcases latched with - | - | - <;> rfl

/-- Situations of a store of at most 256 words are told apart by their number. -/
theorem key_inj {q r : Situation} (hq : q.upc < 256) (hr : r.upc < 256) (h : q.key = r.key) : q = r := by
  rw [key_eq, key_eq] at h
  have flags_lt (q : Situation) : q.flags.number * 162 + q.pending.number < 26244 := by
    have := number_lt q.flags
    have := number_lt q.pending
    omega
  obtain ⟨h, hupc⟩ := digits_inj hq hr h
  obtain ⟨h, hir⟩ := digits_inj q.ir.isLt r.ir.isLt h
  obtain ⟨h, hnamed⟩ := digits_inj (Bool.toNat_lt _) (Bool.toNat_lt _) h
  obtain ⟨h, hlatched⟩ := digits_inj (latchedDigit_lt _) (latchedDigit_lt _) h
  obtain ⟨hdata, hflags⟩ := digits_inj (flags_lt q) (flags_lt r) h
  obtain ⟨ht, hmdr⟩ := digits_inj (wordNumber_lt _) (wordNumber_lt _) hdata
  obtain ⟨hflags, hpending⟩ := digits_inj (number_lt _) (number_lt _) hflags
  obtain ⟨upc, ir, latched, named, flags, pending, t, mdr⟩ := q
  obtain ⟨upc', ir', latched', named', flags', pending', t', mdr'⟩ := r
  cases hupc
  cases BitVec.eq_of_toNat_eq hir
  cases toNat_inj hnamed
  cases latchedDigit_inj hlatched
  cases wordNumber_inj ht
  cases wordNumber_inj hmdr
  cases number_inj hflags
  cases number_inj hpending
  rfl

/-! ## Closed sets -/

/-- The micro-instruction at a micro-address, of a configuration. -/
def instrAt (k : Setup) (a : Nat) : Option MicroInstr := (k.rom[a]?).bind k.selectors.ofWord

theorem lt_of_instrAt {k : Setup} {a : Nat} {m : MicroInstr} (h : instrAt k a = some m) : a < k.rom.length := by
  obtain ⟨w, hw, -⟩ := Option.bind_eq_some_iff.mp h
  exact (List.getElem?_eq_some_iff.mp hw).1

/-- The word of a situation passes, and every situation it leads to has the number of one in the set. -/
def LeadsInto (k : Setup) (p : Precision) (q : Situation) (set : Nat → Prop) : Prop :=
  ∃ m next, instrAt k q.upc = some m ∧ successors k p m q = some next ∧ ∀ r ∈ next, set r.key

theorem LeadsInto.mono {k : Setup} {p : Precision} {q : Situation} {set set' : Nat → Prop}
    (h : LeadsInto k p q set) (hsub : ∀ n, set n → set' n) : LeadsInto k p q set' := by
  obtain ⟨m, next, hm, hnext, hkeys⟩ := h
  exact ⟨m, next, hm, hnext, fun r hr => hsub _ (hkeys r hr)⟩

/-- The numbers of the situations visited and of those still to visit. -/
def Keys (visited : Situation → Prop) (todo : List Situation) (n : Nat) : Prop :=
  ∃ q, (visited q ∨ q ∈ todo) ∧ q.key = n

/-- What a walk has established: what is met is visited or still to visit, and what is visited leads there. -/
structure Progress (k : Setup) (p : Precision) (met : KeySet) (visited : Situation → Prop) (todo : List Situation) :
    Prop where
  met : ∀ n, met.has n = true → Keys visited todo n
  leads : ∀ q, visited q → LeadsInto k p q (Keys visited todo)

/-- One round of the walk: a situation is visited, and the fresh ones of those it leads to are to be visited. -/
theorem progress_visit {k : Setup} {p : Precision} {met : KeySet} {visited : Situation → Prop} {q : Situation}
    {todo next : List Situation} {m : MicroInstr} (h : Progress k p met visited (q :: todo))
    (hm : instrAt k q.upc = some m) (hnext : successors k p m q = some next) :
    Progress k p (addFresh met next).1 (fun r => visited r ∨ r = q) ((addFresh met next).2 ++ todo) := by
  obtain ⟨hlisted, hadded⟩ := addFresh_spec met next
  have keep : ∀ n, Keys visited (q :: todo) n →
      Keys (fun r => visited r ∨ r = q) ((addFresh met next).2 ++ todo) n := by
    rintro n ⟨r, hr | hr, hkey⟩
    · exact ⟨r, .inl (.inl hr), hkey⟩
    · rcases List.mem_cons.mp hr with rfl | hr
      · exact ⟨r, .inl (.inr rfl), hkey⟩
      · exact ⟨r, .inr (List.mem_append_right _ hr), hkey⟩
  have fresh : ∀ n, (∃ r ∈ (addFresh met next).2, r.key = n) →
      Keys (fun r => visited r ∨ r = q) ((addFresh met next).2 ++ todo) n := by
    rintro n ⟨r, hr, hkey⟩
    exact ⟨r, .inr (List.mem_append_left _ hr), hkey⟩
  refine ⟨fun n hn => ?_, fun r hr => ?_⟩
  · exact (hadded n hn).elim (fun hmet => keep n (h.met n hmet)) (fresh n)
  · rcases hr with hr | rfl
    · exact (h.leads r hr).mono keep
    · exact ⟨m, next, hm, hnext, fun x hx => (hlisted x hx).elim (fun hmet => keep _ (h.met _ hmet)) (fresh _)⟩

/-- A walk that succeeds ends with nothing left to visit. -/
theorem progress_of_walk {k : Setup} {p : Precision} {fuel : Nat} {met : KeySet} {visited : Situation → Prop}
    {todo : List Situation} (h : Progress k p met visited todo) (hwalk : walk k p fuel met todo = true) :
    ∃ set : Situation → Prop, (∀ q, visited q ∨ q ∈ todo → set q) ∧ ∀ q, set q → LeadsInto k p q (Keys set []) := by
  induction fuel generalizing met visited todo with
  | zero =>
    cases todo with
    | nil => exact ⟨visited, fun q hq => hq.resolve_right List.not_mem_nil, h.leads⟩
    | cons q todo => cases hwalk
  | succ fuel ih =>
    cases todo with
    | nil => exact ⟨visited, fun q hq => hq.resolve_right List.not_mem_nil, h.leads⟩
    | cons q todo =>
      simp only [walk] at hwalk
      split at hwalk
      · cases hwalk
      · next m hm =>
        split at hwalk
        · cases hwalk
        · next next hnext =>
          obtain ⟨set, hset, hleads⟩ := ih (progress_visit h hm hnext) hwalk
          refine ⟨set, fun r hr => hset r ?_, hleads⟩
          rcases hr with hr | hr
          · exact .inl (.inl hr)
          · rcases List.mem_cons.mp hr with rfl | hr
            · exact .inl (.inr rfl)
            · exact .inr (List.mem_append_right _ hr)

/-- A set of situations that the words lead into: each situation's word passes and stays in the set. -/
def Closed (k : Setup) (p : Precision) (set : Situation → Prop) : Prop :=
  ∀ q, set q → ∃ m next, instrAt k q.upc = some m ∧ successors k p m q = some next
    ∧ ∀ r ∈ next, r.upc < k.rom.length → set r

/-- A walk from reset that succeeds has visited a closed set with the start in it. -/
theorem closed_of_walkFromReset {k : Setup} {p : Precision} {fuel : Nat} (hrom : k.rom.length ≤ 256)
    (h : walkFromReset k p fuel = true) : ∃ set, set (p.keep true startSituation) ∧ Closed k p set := by
  have start : Progress k p (KeySet.empty.meet (p.keep true startSituation)) (fun _ => False)
      [p.keep true startSituation] := by
    refine ⟨fun n hn => ?_, fun _ => False.elim⟩
    obtain hempty | hkey := KeySet.has_add hn
    · cases hempty
    · exact ⟨_, .inr List.mem_cons_self, hkey.symm⟩
  obtain ⟨set, hset, hleads⟩ := progress_of_walk start h
  refine ⟨set, hset _ (.inr List.mem_cons_self), fun q hq => ?_⟩
  obtain ⟨m, next, hm, hnext, hkeys⟩ := hleads q hq
  refine ⟨m, next, hm, hnext, fun r hr hupc => ?_⟩
  obtain ⟨x, hx, hkey⟩ := hkeys r hr
  have hx : set x := hx.resolve_right List.not_mem_nil
  obtain ⟨m', -, hm', -⟩ := hleads x hx
  rwa [key_inj (hupc.trans_le hrom) ((lt_of_instrAt hm').trans_le hrom) hkey.symm]

end Sys2Proof.Proofs.WalkClosure

/-! A closed set of situations follows the machine: each micro-cycle of a state that a situation stands for ends in a
state that a situation of the set stands for (R301, R303, R305). -/

namespace Sys2Proof.Proofs.WalkSoundness
open Sys2Proof Sys2Proof.Machine Sys2Proof.Proofs.MicroCycle Sys2Proof.Proofs.MicroStages
  Sys2Proof.Proofs.WalkKnowledge Sys2Proof.Proofs.WalkClosure Sys2Proof.Proofs.CodecInverse
  Sys2Proof.Proofs.Classification Sys2Proof.Proofs.Decoder

/-! ## Words that stand for others -/

/-- A situation's word stands for the machine's `ir`: in group and MAD, and, but for a certificate, in opcode and MAS. -/
structure StandsFor (p : Precision) (w v : Word) : Prop where
  group : group w = group v
  mad : modeDstField w = modeDstField v
  precise : p ≠ .certificate → opcode w = opcode v ∧ modeSrcField w = modeSrcField v

theorem modeDstField_eq {w v : Word} (h : w.toNat / 2 ^ 4 % 4 = v.toNat / 2 ^ 4 % 4) :
    modeDstField w = modeDstField v := by
  apply BitVec.eq_of_toNat_eq
  rw [modeDstField, modeDstField, extractLsb'_eq_mod, extractLsb'_eq_mod]
  exact h

theorem modeSrcField_eq {w v : Word} (h : w.toNat / 2 ^ 10 % 4 = v.toNat / 2 ^ 10 % 4) :
    modeSrcField w = modeSrcField v := by
  apply BitVec.eq_of_toNat_eq
  rw [modeSrcField, modeSrcField, extractLsb'_eq_mod, extractLsb'_eq_mod]
  exact h

theorem toNat_modeSrcField (w : Word) : (modeSrcField w).toNat = w.toNat / 2 ^ 10 % 4 := extractLsb'_eq_mod w 10 2

/-- R100: the leading bits decide the group. -/
theorem group_eq_of_lead {w v : Word} (h : w.toNat / 2 ^ 12 = v.toNat / 2 ^ 12) : group w = group v := by
  have h15 : w.toNat / 2 ^ 15 % 2 = v.toNat / 2 ^ 15 % 2 := by omega
  have h14 : w.toNat / 2 ^ 14 % 2 = v.toNat / 2 ^ 14 % 2 := by omega
  have h13 : w.toNat / 2 ^ 13 % 2 = v.toNat / 2 ^ 13 % 2 := by omega
  simp only [group, extractLsb'_one_eq_zero_iff, h15, h14, h13]

theorem mem_opcodes {base count v : Nat} (hlo : base ≤ v) (hhi : v < base + count) :
    v ∈ (List.range count).map (base + ·) :=
  List.mem_map.mpr ⟨v - base, List.mem_range.mpr (by omega), by omega⟩

theorem mem_fields {w : Nat} (k : Nat) : w / k % 4 ∈ [0, 1, 2, 3] := by
  have := Nat.mod_lt (w / k) (by decide : 4 > 0)
  simp only [List.mem_cons, List.not_mem_nil]
  omega

/-! ## The class of a word of the opcode table -/

theorem opcode_bounds {α : Type} {run : OpcodeRun α} {v : Nat} (h : (run.named v).isSome = true) :
    v ∈ (List.range run.ops.length).map (run.base + ·) := by
  obtain ⟨hlo, hhi⟩ := (named_isSome_iff run v).mp h
  exact mem_opcodes hlo hhi

theorem toNat_ofNat_of_lt {n : Nat} (h : n < 65536) : (BitVec.ofNat 16 n).toNat = n := by
  rw [BitVec.toNat_ofNat]
  exact Nat.mod_eq_of_lt h

section
variable {c : Codes} {p : Precision} {v : Word} (hdef : c.opcodeDefined v = true)
include hdef

theorem exists_class_twoOp (hg : group v = .twoOp) : ∃ w ∈ classWords c, StandsFor p w v := by
  have hlt := v.isLt
  have hop := opcode_of_twoOp hg
  simp only [Codes.opcodeDefined, hg] at hdef
  obtain ⟨n, hn⟩ : ∃ n, n = opcode v * 2 ^ 12 + v.toNat / 2 ^ 10 % 4 * 2 ^ 10 + v.toNat / 2 ^ 4 % 4 * 2 ^ 4 := ⟨_, rfl⟩
  have hw := toNat_ofNat_of_lt (n := n) (by omega)
  have hlead : (BitVec.ofNat 16 n).toNat / 2 ^ 12 = v.toNat / 2 ^ 12 := by omega
  have hgroup := group_eq_of_lead hlead
  refine ⟨BitVec.ofNat 16 n, ?_, hgroup, modeDstField_eq (by omega), fun _ => ⟨?_, modeSrcField_eq (by omega)⟩⟩
  · simp only [classWords, List.map_append, List.mem_append]
    refine .inl (.inl (.inl (List.mem_map.mpr ⟨n, List.mem_flatMap.mpr ⟨_, opcode_bounds hdef, ?_⟩, rfl⟩)))
    exact List.mem_flatMap.mpr ⟨_, mem_fields _, List.mem_map.mpr ⟨_, mem_fields _, hn.symm⟩⟩
  · rw [opcode_of_twoOp (hgroup.trans hg), hlead, hop]

theorem exists_class_oneOp (hg : group v = .oneOp) : ∃ w ∈ classWords c, StandsFor p w v := by
  have hlt := v.isLt
  have hop := opcode_of_oneOp hg
  simp only [Codes.opcodeDefined, hg] at hdef
  obtain ⟨n, hn⟩ : ∃ n, n = opcode v * 2 ^ 6 + v.toNat / 2 ^ 4 % 4 * 2 ^ 4 := ⟨_, rfl⟩
  have hw := toNat_ofNat_of_lt (n := n) (by omega)
  have hgroup := group_eq_of_lead (w := BitVec.ofNat 16 n) (v := v) (by omega)
  refine ⟨BitVec.ofNat 16 n, ?_, hgroup, modeDstField_eq (by omega), fun _ => ⟨?_, modeSrcField_eq (by omega)⟩⟩
  · simp only [classWords, List.map_append, List.mem_append]
    refine .inl (.inl (.inr (List.mem_map.mpr ⟨n, List.mem_flatMap.mpr ⟨_, opcode_bounds hdef, ?_⟩, rfl⟩)))
    exact List.mem_map.mpr ⟨_, mem_fields _, hn.symm⟩
  · rw [opcode_of_oneOp (hgroup.trans hg), hop]
    omega

theorem exists_class_branch (hg : group v = .branch) : ∃ w ∈ classWords c, StandsFor p w v := by
  have hlt := v.isLt
  have hop := opcode_of_branch hg
  simp only [Codes.opcodeDefined, hg] at hdef
  obtain ⟨n, hn⟩ : ∃ n, n = opcode v * 2 ^ 8 + v.toNat / 2 ^ 4 % 4 * 2 ^ 4 := ⟨_, rfl⟩
  have hw := toNat_ofNat_of_lt (n := n) (by omega)
  have hgroup := group_eq_of_lead (w := BitVec.ofNat 16 n) (v := v) (by omega)
  refine ⟨BitVec.ofNat 16 n, ?_, hgroup, modeDstField_eq (by omega), fun _ => ⟨?_, modeSrcField_eq (by omega)⟩⟩
  · simp only [classWords, List.map_append, List.mem_append]
    refine .inl (.inr (List.mem_map.mpr ⟨n, List.mem_flatMap.mpr ⟨_, opcode_bounds hdef, ?_⟩, rfl⟩))
    exact List.mem_map.mpr ⟨_, mem_fields _, hn.symm⟩
  · rw [opcode_of_branch (hgroup.trans hg), hop]
    omega

theorem exists_class_other (hg : group v = .other) : ∃ w ∈ classWords c, StandsFor p w v := by
  have hop := opcode_of_other hg
  simp only [Codes.opcodeDefined, hg] at hdef
  refine ⟨v, ?_, rfl, rfl, fun _ => ⟨rfl, rfl⟩⟩
  simp only [classWords, List.map_append, List.mem_append]
  refine .inr (List.mem_map.mpr ⟨opcode v, opcode_bounds hdef, ?_⟩)
  rw [hop, BitVec.ofNat_toNat, BitVec.setWidth_eq]

/-- Every word of the opcode table is stood for by one of the class words. -/
theorem exists_classWord : ∃ w ∈ classWords c, StandsFor p w v := by
  cases hg : group v with
  | twoOp => exact exists_class_twoOp hdef hg
  | oneOp => exact exists_class_oneOp hdef hg
  | branch => exact exists_class_branch hdef hg
  | other => exact exists_class_other hdef hg

end

/-- The group word of a group and a MAD. -/
def groupWord (g : Group) (mad : BitVec 2) : Word :=
  (match g with | .twoOp => 0x0000#16 | .oneOp => 0x8000#16 | .branch => 0xC000#16 | .other => 0xE000#16)
    ||| (0#10 ++ mad ++ 0#4 : Word)

theorem groupWord_mem (g : Group) (mad : BitVec 2) : groupWord g mad ∈ groupWords := by
  revert mad
  cases g <;> decide

theorem group_groupWord (g : Group) (mad : BitVec 2) : group (groupWord g mad) = g := by
  revert mad
  cases g <;> decide

theorem modeDstField_groupWord (g : Group) (mad : BitVec 2) : modeDstField (groupWord g mad) = mad := by
  revert mad
  cases g <;> decide

/-- Every word at all is stood for, in a certificate, by one of the group words. -/
theorem exists_groupWord (v : Word) : ∃ w ∈ groupWords, StandsFor .certificate w v :=
  ⟨groupWord (group v) (modeDstField v), groupWord_mem _ _, group_groupWord _ _, modeDstField_groupWord _ _,
    fun h => absurd rfl h⟩

/-! ## Index values -/

section
variable {c : Codes} {p : Precision} {w v : Word} (h : StandsFor p w v)
include h

theorem opcodeDefined_congr (hp : p ≠ .certificate) : c.opcodeDefined w = c.opcodeDefined v := by
  simp only [Codes.opcodeDefined, h.group, (h.precise hp).1]

theorem opcodeDistance_congr (hp : p ≠ .certificate) : opcodeDistance c w = opcodeDistance c v := by
  simp only [opcodeDistance, h.group, (h.precise hp).1]

/-- A precise walk sees what the machine's index selector answers. -/
theorem distanceIndex_congr (hp : p ≠ .certificate) (serves : Group → Bool) (t : State) {s : State} (hv : v = s.ir) :
    (∀ x, distanceIndex c serves s = .ok x → distanceIndex c serves { t with ir := w } = .ok x)
      ∧ (distanceIndex c serves s = .error (.wrongGroupIndex s) →
          distanceIndex c serves { t with ir := w } = .error (.wrongGroupIndex { t with ir := w })) := by
  subst hv
  simp only [distanceIndex, h.group, opcodeDefined_congr h hp, opcodeDistance_congr h hp]
  split
  · exact ⟨nofun, fun _ => rfl⟩
  · split
    · exact ⟨nofun, nofun⟩
    · exact ⟨fun _ => id, nofun⟩

theorem indexValue_congr (hp : p ≠ .certificate) (ix : Index) (t : State) {s : State} (hv : v = s.ir) :
    (∀ x, indexValue c ix s = .ok x → indexValue c ix { t with ir := w } = .ok x)
      ∧ (indexValue c ix s = .error (.wrongGroupIndex s) →
          indexValue c ix { t with ir := w } = .error (.wrongGroupIndex { t with ir := w })) := by
  cases ix
  case none => exact ⟨fun _ => id, nofun⟩
  case mas =>
    refine ⟨fun x hx => ?_, nofun⟩
    simp only [indexValue, (h.precise hp).2, hv] at hx ⊢
    exact hx
  case mad =>
    refine ⟨fun x hx => ?_, nofun⟩
    simp only [indexValue, h.mad, hv] at hx ⊢
    exact hx
  case opcode | oneOp | twoOp =>
    simp only [indexValue]
    exact distanceIndex_congr h hp _ t hv

end

/-- R278 to R280: the distance of an opcode of the table is among its group's. -/
theorem opcodeDistance_mem {c : Codes} {v : Word} (hdef : c.opcodeDefined v = true) :
    opcodeDistance c v ∈ groupDistances c (group v) := by
  cases hg : group v <;> simp only [Codes.opcodeDefined, hg] at hdef <;>
    obtain ⟨hlo, hhi⟩ := (named_isSome_iff _ _).mp hdef <;>
    simp only [opcodeDistance, groupDistances, hg, List.mem_map, List.mem_range]
  case oneOp =>
    refine ⟨opcode v - c.oneOp.base, by omega, ?_⟩
    rw [Nat.add_sub_cancel' hlo]
  all_goals exact ⟨_, by omega, rfl⟩

theorem distanceIndex_eq_ok {c : Codes} {serves : Group → Bool} {s : State} {x : Nat}
    (h : distanceIndex c serves s = .ok x) :
    serves (group s.ir) = true ∧ x ∈ groupDistances c (group s.ir) := by
  unfold distanceIndex at h
  split at h
  · cases h
  · next hserves =>
    split at h
    · cases h
    · next hdef =>
      cases h
      exact ⟨by simpa using hserves, opcodeDistance_mem (by simpa using hdef)⟩

/-- The machine's index is among those the walk takes for possible. -/
theorem indexCan_right {c : Codes} {p : Precision} {w : Word} {s : State} (h : StandsFor p w s.ir) {ix : Index} {x : Nat}
    (hx : indexValue c ix s = .ok x) {values : List Nat} (hvalues : indexCan c p ix w = some values) : x ∈ values := by
  by_cases hp : p = .certificate
  · cases ix <;> simp only [indexCan, if_pos hp, indexValue] at hvalues hx
    case none => cases hvalues; cases hx; exact List.mem_cons_self
    case mas =>
      cases hvalues
      cases hx
      rw [toNat_modeSrcField]
      exact mem_fields _
    case mad =>
      cases hvalues
      cases hx
      rw [h.mad]
      exact List.mem_cons_self
    case opcode =>
      obtain ⟨-, hmem⟩ := distanceIndex_eq_ok hx
      split at hvalues <;> cases hvalues
      rwa [h.group]
    case oneOp =>
      obtain ⟨hserves, hmem⟩ := distanceIndex_eq_ok hx
      split at hvalues <;> cases hvalues
      rwa [eq_of_beq hserves] at hmem
    case twoOp =>
      obtain ⟨hserves, hmem⟩ := distanceIndex_eq_ok hx
      split at hvalues <;> cases hvalues
      rwa [eq_of_beq hserves] at hmem
  · rw [indexCan_ok hp ((indexValue_congr h hp ix State.reset rfl).1 x hx)] at hvalues
    cases hvalues
    exact List.mem_cons_self

/-- A selector on a wrong group does not pass the walk (R303). -/
theorem indexCan_of_wrongGroup {c : Codes} {p : Precision} {w : Word} {s : State} (h : StandsFor p w s.ir) {ix : Index}
    (hx : indexValue c ix s = .error (.wrongGroupIndex s)) : indexCan c p ix w = none := by
  by_cases hp : p = .certificate
  · have refused {serves : Group → Bool} (hd : distanceIndex c serves s = .error (.wrongGroupIndex s)) :
        serves (group w) = false := by
      obtain ⟨hserves, -⟩ | ⟨-, -, hf⟩ := distanceIndex_eq_error hd
      · rw [h.group, hserves]
      · cases hf
    simp only [indexCan, if_pos hp]
    cases ix <;> simp only [indexValue] at hx
    case none | mas | mad => cases hx
    case opcode => exact if_neg (by simpa using refused hx)
    case oneOp => exact if_neg (by simpa using refused hx)
    case twoOp => exact if_neg (by simpa using refused hx)
  · simp only [indexCan, if_neg hp, (indexValue_congr h hp ix State.reset rfl).2 hx]

end Sys2Proof.Proofs.WalkSoundness

/-! A control store that the load admits, or whose paths are certified (R301, R303, R305): the machine stays among the
situations of a closed set. -/

namespace Sys2Proof.Proofs.CheckedStore
open Sys2Proof Sys2Proof.Machine Sys2Proof.Proofs.MicroCycle Sys2Proof.Proofs.MicroStages
  Sys2Proof.Proofs.WalkKnowledge Sys2Proof.Proofs.WalkClosure Sys2Proof.Proofs.WalkSoundness
  Sys2Proof.Proofs.StoreLoad

/-! ## States that a situation stands for -/

/-- The register that a field of a word names. -/
def fieldReg : RegField → Word → Reg
  | .source, w => regSrcField w
  | .destination, w => regDstField w

/-- What a situation says has been latched is: a REG read has happened since the latest fetch, of the field's
register. -/
def LatchedRight (q : Situation) (latched : Bool) (s : State) : Prop :=
  ∀ f, q.latched = some f → latched = true ∧ s.regsel = some (fieldReg f s.ir)

/-- A situation stands for a state: the micro-address, the word in `ir` unless it is about to be replaced, and what is
known. `latched` says whether a REG read has happened since the latest fetch. -/
structure Represents (k : Setup) (p : Precision) (latched : Bool) (q : Situation) (s : State) : Prop where
  upc : q.upc = s.upc.toNat
  ir : k.fetchesAt q.upc = false → StandsFor p q.ir s.ir
  knows : Knows q s
  latched : LatchedRight q latched s

/-- Whether a REG read has happened since the latest fetch, after a word. -/
def latchedSince (m : MicroInstr) (latched : Bool) : Bool :=
  (latched || m.sbus == .reg || m.dbus == .reg) && m.mem != .ifch

theorem knows_keep {q : Situation} {s : State} (h : Knows q s) (p : Precision) (fetched : Bool) :
    Knows (p.keep fetched q) s := by
  obtain ⟨hflags, hpending, ht, hmdr, hnamed⟩ := h
  cases p
  case certificate =>
    refine ⟨?_, rightFlags_empty _, rightValue_none _, rightValue_none _, nofun⟩
    cases fetched
    · exact hflags
    · exact rightFlags_empty _
  case control => exact ⟨hflags, hpending, rightValue_none _, rightValue_none _, hnamed⟩
  case data => exact ⟨hflags, hpending, ht, hmdr, hnamed⟩

theorem keep_ir (p : Precision) (fetched : Bool) (q : Situation) : (p.keep fetched q).ir = q.ir := by
  cases p <;> rfl

theorem keep_latched {p : Precision} {fetched : Bool} {q : Situation} {f : RegField}
    (h : (p.keep fetched q).latched = some f) : fetched = false ∧ q.latched = some f := by
  cases p
  case certificate =>
    cases fetched
    · exact ⟨rfl, h⟩
    · cases h
  case control | data => cases h

theorem fetchesAt_eq {k : Setup} {a : Nat} {m : MicroInstr} (hm : instrAt k a = some m) :
    k.fetchesAt a = (m.mem == .ifch) := by
  rw [Setup.fetchesAt, show (k.rom[a]?).bind k.selectors.ofWord = some m from hm]
  rfl

/-! ## After stage 7 -/

/-- What a situation after stage 7 says of the state there. -/
structure AfterStage7 (p : Precision) (latched : Bool) (a : Situation) (t : State) : Prop where
  ir : StandsFor p a.ir t.ir
  knows : Knows a t
  latched : LatchedRight a latched t

/-- R193, R203: what the word has latched itself. -/
theorem latchedAfter_right {q : Situation} {latched : Bool} {s : State} (h : LatchedRight q latched s)
    (m : MicroInstr) {f : RegField} (hf : latchedAfter m q.latched = some f) :
    (latched || m.sbus == .reg || m.dbus == .reg) = true
      ∧ (operandsRead m s).regsel = some (fieldReg f s.ir) := by
  rw [latchedAfter] at hf
  rw [operandsRead_regsel]
  split at hf
  · next hd =>
    cases hf
    exact ⟨by simp [hd], by rw [if_pos hd]; rfl⟩
  · next hd =>
    split at hf
    · next hb =>
      cases hf
      exact ⟨by simp [hb], by rw [if_neg hd, if_pos hb]; rfl⟩
    · next hb =>
      obtain ⟨hlatched, hregsel⟩ := h f hf
      exact ⟨by simp [hlatched], by rw [if_neg hd, if_neg hb, hregsel]⟩

theorem dataStages_regsel {m : MicroInstr} {s t : State} (h : dataStages m s = .next t) :
    t.regsel = (operandsRead m s).regsel := by
  obtain ⟨written, accessed, hrbus, hmem, hmisc⟩ := dataStages_eq_next.mp h
  rw [miscStage_frame hmisc, memStage_frame hmem, rbusStage_frame hrbus]
  rfl

theorem dataStages_ir {m : MicroInstr} {s t : State} (h : dataStages m s = .next t) (hmem : m.mem ≠ .ifch) :
    t.ir = s.ir := by
  obtain ⟨written, accessed, hrbus, haccess, hmisc⟩ := dataStages_eq_next.mp h
  rw [miscStage_frame hmisc]
  show accessed.ir = s.ir
  rw [(memStage_writes haccess).1 hmem, rbusStage_frame hrbus, computed_frame]

/-- R235: stages 2 to 7 do not pass where a register is written and none is latched. -/
theorem dataStages_registerWrite {m : MicroInstr} {s t : State} (h : dataStages m s = .next t) (hsel : m.rbus = .reg) :
    ∃ r, (operandsRead m s).regsel = some r := by
  obtain ⟨written, accessed, hrbus, -, -⟩ := dataStages_eq_next.mp h
  cases hregsel : (operandsRead m s).regsel with
  | some r => exact ⟨r, rfl⟩
  | none =>
    have hcomputed : (computed m s).regsel = none := hregsel
    rw [hsel] at hrbus
    cases hres : (aluResult m s).map Prod.fst with
    | none => rw [hres] at hrbus; cases hrbus
    | some v =>
      rw [hres] at hrbus
      simp only [rbusStage, hcomputed] at hrbus
      cases hrbus

section
variable {k : Setup} {p : Precision} {latched : Bool} {q : Situation} {s : State} {m : MicroInstr}
  (h : Represents k p latched q s) (hm : instrAt k q.upc = some m)
include h hm

/-- One of the situations after stage 7 stands for the state there; a precise walk knows words of the table only. -/
theorem afterStages_right {t : State} (hdata : dataStages m s = .next t)
    (hclass : p ≠ .certificate → m.mem = .ifch → k.codes.opcodeDefined t.ir = true) :
    ∃ a ∈ afterStages k p m q, AfterStage7 p (latchedSince m latched) a t := by
  have hknows := afterData_right h.knows hdata
  have hkept := knows_keep hknows p (m.mem == .ifch)
  have hlatched : LatchedRight (p.keep (m.mem == .ifch) (afterData m q)) (latchedSince m latched) t := fun f hf => by
    obtain ⟨hfetch, hf⟩ := keep_latched hf
    obtain ⟨hsince, hregsel⟩ := latchedAfter_right h.latched m hf
    have hne : m.mem ≠ .ifch := ne_of_beq_false hfetch
    rw [latchedSince, hsince, Bool.true_and, bne_iff_ne, dataStages_regsel hdata, hregsel, dataStages_ir hdata hne]
    exact ⟨hne, rfl⟩
  have hnamed : (m.rbus = .reg && !(afterData m q).named) = false := by
    by_contra hunnamed
    simp only [Bool.not_eq_false, Bool.and_eq_true, decide_eq_true_iff, Bool.not_eq_true'] at hunnamed
    obtain ⟨r, hr⟩ := dataStages_registerWrite hdata hunnamed.1
    rw [← dataStages_regsel hdata, hknows.named hunnamed.2] at hr
    cases hr
  simp only [afterStages, hnamed, Bool.false_eq_true, if_false]
  by_cases hfetch : m.mem = .ifch
  · simp only [if_pos hfetch]
    have hnone : ∀ f, (p.keep (m.mem == .ifch) (afterData m q)).latched ≠ some f := fun f hf => by
      have := (keep_latched hf).1
      rw [hfetch] at this
      cases this
    have found {w : Word} {words : List Word} (hw : w ∈ words) (hstands : StandsFor p w t.ir) :
        ∃ a ∈ words.map fun w => { p.keep (m.mem == .ifch) (afterData m q) with ir := w },
          AfterStage7 p (latchedSince m latched) a t :=
      ⟨_, List.mem_map.mpr ⟨w, hw, rfl⟩, hstands,
        ⟨hkept.flags, hkept.pending, hkept.t, hkept.mdr, hkept.named⟩, fun f hf => absurd hf (hnone f)⟩
    by_cases hp : p = .certificate
    · obtain ⟨w, hw, hstands⟩ := exists_groupWord t.ir
      rw [if_pos hp]
      exact found hw (hp ▸ hstands)
    · obtain ⟨w, hw, hstands⟩ := exists_classWord (p := p) (hclass hp hfetch)
      rw [if_neg hp]
      exact found hw hstands
  · rw [if_neg hfetch]
    refine ⟨_, List.mem_singleton_self _, ?_, hkept, hlatched⟩
    rw [keep_ir, afterData_ir, dataStages_ir hdata hfetch]
    exact h.ir (by rw [fetchesAt_eq hm]; simpa using hfetch)

end

/-! ## The next micro-address -/

/-- The pair that the machine chooses is among a situation's branches, with what the condition's outcome tells. -/
theorem chosenPair_mem_branches {k : Setup} {p : Precision} {latched : Bool} {m : MicroInstr} {a : Situation}
    {t : State} (h : AfterStage7 p latched a t) :
    pairSuccessors k p { a with flags := learn m.cond (condHolds k.codes m.cond t) a.flags }
      (chosenPair k.codes m t).1 (chosenPair k.codes m t).2 ∈ branches k p m a := by
  obtain ⟨htrue, hfalse⟩ := condCan_allows k.codes m.cond h.ir.group h.ir.mad h.knows.flags
  simp only [branches, List.mem_append, chosenPair]
  cases hcond : condHolds k.codes m.cond t
  · rw [if_pos (hfalse hcond)]
    exact .inr List.mem_cons_self
  · rw [if_pos (htrue hcond)]
    exact .inl List.mem_cons_self

/-- The state after a micro-cycle whose index adds `x`. -/
def advanced (k : Setup) (m : MicroInstr) (t : State) (x : Nat) : State :=
  { t with upc := BitVec.ofNat 8 ((chosenPair k.codes m t).1 + x) }

theorem represents_enter {k : Setup} {p : Precision} {latched : Bool} {m : MicroInstr} {a : Situation} {t : State}
    (h : AfterStage7 p latched a t) {x : Nat} (hx : (chosenPair k.codes m t).1 + x < 256) :
    Represents k p latched
      (Situation.enter k ((chosenPair k.codes m t).1 + x)
        { a with flags := learn m.cond (condHolds k.codes m.cond t) a.flags }) (advanced k m t x) := by
  refine ⟨?_, fun hfetch => ?_, ⟨learn_right h.knows.flags, h.knows.pending, h.knows.t, h.knows.mdr, h.knows.named⟩,
    h.latched⟩
  · exact (Nat.mod_eq_of_lt hx).symm
  · have hfetch' : k.fetchesAt ((chosenPair k.codes m t).1 + x) = false := hfetch
    have hir : (Situation.enter k ((chosenPair k.codes m t).1 + x)
        { a with flags := learn m.cond (condHolds k.codes m.cond t) a.flags }).ir = a.ir := by
      simp only [Situation.enter, hfetch', Bool.false_eq_true, if_false]
    rw [hir]
    exact h.ir

section
variable {k : Setup} {p : Precision} {set : Situation → Prop} (hrom : k.rom.length ≤ 256) (hclosed : Closed k p set)
  {latched : Bool} {q : Situation} {s : State} (hq : set q) (h : Represents k p latched q s)
include hclosed hq h

/-- The word at the micro-address of a represented state is one of the store's, and legal in its codes. -/
theorem instrAt_of_represents : ∃ m, instrAt k s.upc.toNat = some m := by
  obtain ⟨m, -, hm, -⟩ := hclosed q hq
  exact ⟨m, h.upc ▸ hm⟩

/-- R305: a certified word that writes a register has latched the intended one. -/
theorem prepared_of_represents (hp : p = .certificate) {m : MicroInstr} (hm : instrAt k s.upc.toNat = some m)
    (hsel : m.rbus = .reg) :
    (latched || m.sbus == .reg || m.dbus == .reg) = true
      ∧ (operandsRead m s).regsel = some (k.intendedIndex s) := by
  obtain ⟨m', next, hm', hnext, -⟩ := hclosed q hq
  obtain rfl : m' = m := Option.some.inj ((h.upc ▸ hm').symm.trans hm)
  have hprepared := (successors_some hnext).1 hp
  obtain ⟨hsince, hregsel⟩ := latchedAfter_right h.latched m' (writePrepared_reg hprepared hsel)
  refine ⟨hsince, hregsel.trans ?_⟩
  rw [Setup.intendedIndex, h.upc]
  cases k.writesField s.upc.toNat <;> rfl

include hrom

/-- The choice of the next micro-address after stage 7: its sum lies in the store and the state there is represented
again, or the opcode is reserved (U1). -/
theorem nextAddress_of_represents {m : MicroInstr} (hm : instrAt k s.upc.toNat = some m) {t : State}
    (hdata : dataStages m s = .next t)
    (hclass : p ≠ .certificate → m.mem = .ifch → k.codes.opcodeDefined t.ir = true) :
    (∃ x, nextAddress k.codes m t = .next (advanced k m t x) ∧ (advanced k m t x).upc.toNat < k.rom.length
        ∧ ∃ r, set r ∧ Represents k p (latchedSince m latched) r (advanced k m t x))
      ∨ nextAddress k.codes m t = .fault (.reservedOpcode t) := by
  obtain ⟨m', next, hm', hnext, hstays⟩ := hclosed q hq
  obtain rfl : m' = m := Option.some.inj ((h.upc ▸ hm').symm.trans hm)
  obtain ⟨a, ha, hafter⟩ := afterStages_right h hm' hdata hclass
  obtain ⟨part, hpart, hsub⟩ := (successors_some hnext).2 a ha _ (chosenPair_mem_branches hafter)
  obtain ⟨values, hvalues, hlt, rfl⟩ := pairSuccessors_some hpart
  cases hx : indexValue k.codes (chosenPair k.codes m' t).2 t with
  | ok x =>
    have hmem : x ∈ values := indexCan_right hafter.ir hx hvalues
    have hsum := hlt x hmem
    have hadvanced : (advanced k m' t x).upc.toNat = (chosenPair k.codes m' t).1 + x :=
      Nat.mod_eq_of_lt (hsum.trans_le hrom)
    refine .inl ⟨x, nextAddress_of_ok hx, hadvanced ▸ hsum, _,
      hstays _ (hsub _ (List.mem_map.mpr ⟨x, hmem, rfl⟩)) hsum, represents_enter hafter (hsum.trans_le hrom)⟩
  | error f =>
    obtain rfl | ⟨-, rfl⟩ := indexValue_eq_error hx
    · have hnone : indexCan k.codes p (chosenPair k.codes m' t).2 a.ir = none := indexCan_of_wrongGroup hafter.ir hx
      rw [show indexCan k.codes p (chosenPair k.codes m' t).2 a.ir = some values from hvalues] at hnone
      cases hnone
    · exact .inr (nextAddress_of_error hx)

end

/-! ## The start -/

theorem standsFor_zero {p : Precision} (hp : p = .certificate) {v : Word} (hg : group v = .twoOp)
    (hmad : modeDstField v = 0) : StandsFor p 0 v :=
  ⟨hg.symm, hmad.symm, fun hne => absurd hp hne⟩

theorem start_latched (p : Precision) (latched : Bool) (s : State) :
    LatchedRight (p.keep true startSituation) latched s := fun _ hf => by cases (keep_latched hf).1

/-- The start stands for the state after reset (R471). -/
theorem represents_bootState (k : Setup) (p : Precision) (params : Params) (program : List Word) (latched : Bool) :
    Represents k p latched (p.keep true startSituation) (bootState params program) := by
  have hknows : Knows startSituation (bootState params program) :=
    ⟨rightFlags_ofFlags {}, rightFlags_ofFlags {}, rightValue_some _, rightValue_some _, fun _ => rfl⟩
  refine ⟨?_, fun _ => ?_, knows_keep hknows p true, start_latched p latched _⟩
  · cases p <;> rfl
  · rw [keep_ir]
    exact ⟨rfl, rfl, fun _ => ⟨rfl, rfl⟩⟩

/-- For a certificate it stands for every state at word 0 with a TWO_OP word of MAD 0 in `ir`. -/
theorem represents_start (k : Setup) {s : State} (hupc : s.upc = 0) (hg : group s.ir = .twoOp)
    (hmad : modeDstField s.ir = 0) (latched : Bool) :
    Represents k .certificate latched (Precision.certificate.keep true startSituation) s :=
  ⟨by rw [hupc]; rfl, fun _ => standsFor_zero rfl hg hmad,
    ⟨rightFlags_empty _, rightFlags_empty _, rightValue_none _, rightValue_none _, nofun⟩, start_latched _ latched s⟩

/-! ## Runs (R301, R303) -/

/-- What R301 and R303 ask of a run: no sum beyond the store, and no selector on a wrong group but of a reserved word
just fetched. -/
structure Sound (k : Setup) (bs : List Bool) (s : State) : Prop where
  sums : ∀ t, runHosted k bs s = .next t → t.upc.toNat < k.rom.length
  indices : ∀ t, runHosted k bs s = .fault (.wrongGroupIndex t) →
    ∃ w, k.rom[t.upc.toNat]? = some w ∧ fetchedReserved k w t = true

/-- The words that a run fetches hold opcodes of the table. -/
def FetchesDefined (k : Setup) (bs : List Bool) (s : State) : Prop :=
  ∀ cs b w t u, cs ++ [b] <+: bs → runHosted k cs s = .next t → k.rom[t.upc.toNat]? = some w →
    microCycle k (setInt b t) = .next u → fetchedReserved k w u = false

theorem FetchesDefined.head {k : Setup} {b : Bool} {bs : List Bool} {s t : State} {w : ControlWord}
    (h : FetchesDefined k (b :: bs) s) (hw : k.rom[s.upc.toNat]? = some w)
    (hnext : microCycle k (setInt b s) = .next t) : fetchedReserved k w t = false :=
  h [] b w s t ⟨bs, rfl⟩ rfl hw hnext

theorem FetchesDefined.tail {k : Setup} {b : Bool} {bs : List Bool} {s t : State} (h : FetchesDefined k (b :: bs) s)
    (hnext : microCycle k (setInt b s) = .next t) : FetchesDefined k bs t := fun cs b' w u v hprefix hrun =>
  h (b :: cs) b' w u v (List.cons_prefix_cons.mpr ⟨rfl, hprefix⟩) (by rw [runHosted_cons hnext, hrun])

theorem sound_nil {k : Setup} {s : State} (h : s.upc.toNat < k.rom.length) : Sound k [] s := by
  refine ⟨fun t ht => ?_, fun t ht => ?_⟩ <;> rw [runHosted] at ht
  · exact Host.Outcome.next.inj ht ▸ h
  · cases ht

/-- A run is sound when its first micro-cycle is and the run after it is. -/
theorem sound_cons {k : Setup} {b : Bool} {bs : List Bool} {s : State}
    (hnext : ∀ t, microCycle k (setInt b s) = .next t → Sound k bs t)
    (hfault : ∀ t, microCycle k (setInt b s) = .fault (.wrongGroupIndex t) →
      ∃ w, k.rom[t.upc.toNat]? = some w ∧ fetchedReserved k w t = true) : Sound k (b :: bs) s := by
  refine ⟨fun t ht => ?_, fun t ht => ?_⟩
  · obtain ⟨u, hu, hrun⟩ := andThen_eq_next.mp ht
    exact (hnext u hu).sums t hrun
  · obtain hu | ⟨u, hu, hrun⟩ := andThen_eq_fault.mp ht
    · exact hfault t hu
    · exact (hnext u hu).indices t hrun

/-- A run whose trial, by some more entries, finds nothing is sound. -/
theorem sound_of_trial {k : Setup} {more : List Bool} (hmore : more ≠ []) {bs : List Bool} {s : State}
    (htrial : trial k (bs ++ more) s = none) (hdef : FetchesDefined k bs s) : Sound k bs s := by
  induction bs generalizing s with
  | nil =>
    obtain ⟨b, more, rfl⟩ := List.exists_cons_of_ne_nil hmore
    refine sound_nil ?_
    by_contra hbeyond
    simp only [List.nil_append, trial, List.getElem?_eq_none_iff.mpr (Nat.le_of_not_lt hbeyond)] at htrial
    cases htrial
  | cons b bs ih =>
    rw [List.cons_append, trial] at htrial
    split at htrial
    · cases htrial
    · next w hw =>
      refine sound_cons (fun t ht => ?_) fun t ht => ?_
      · simp only [ht, hdef.head hw ht, Bool.false_eq_true, if_false] at htrial
        split at htrial
        · cases htrial
        · exact ih htrial (hdef.tail ht)
      · simp only [ht] at htrial
        split at htrial
        · next hreserved =>
          have hupc : t.upc = s.upc := upc_of_wrongGroup (s := setInt b s) ht
          exact ⟨w, hupc ▸ hw, hreserved⟩
        · cases htrial

section
variable {k : Setup} {p : Precision} {set : Situation → Prop} (hrom : k.rom.length ≤ 256) (hclosed : Closed k p set)
include hrom hclosed

/-- A run from a represented state is sound. -/
theorem sound_of_represents {bs : List Bool} {s : State} {latched : Bool} {q : Situation} (hq : set q)
    (h : Represents k p latched q s) (hdef : FetchesDefined k bs s) : Sound k bs s := by
  induction bs generalizing s latched q with
  | nil =>
    obtain ⟨m, hm⟩ := instrAt_of_represents hclosed hq h
    exact sound_nil (lt_of_instrAt hm)
  | cons b bs ih =>
    obtain ⟨m, hm⟩ := instrAt_of_represents hclosed hq h
    obtain ⟨w, hw, hword⟩ := Option.bind_eq_some_iff.mp hm
    have hentered : Represents k p latched q { setInt b s with cw := some w } :=
      ⟨h.upc, h.ir, h.knows.congr rfl rfl rfl rfl rfl, h.latched⟩
    have hcycle : microCycle k (setInt b s)
        = andThen (dataStages m { setInt b s with cw := some w }) (nextAddress k.codes m) :=
      microCycle_of_word hw hword
    have defined {u : State} (hu : fetchedReserved k w u = false) :
        p ≠ .certificate → m.mem = .ifch → k.codes.opcodeDefined u.ir = true := fun _ hfetch => by
      simpa [fetchedReserved, hword, hfetch] using hu
    refine sound_cons (fun t ht => ?_) fun t ht => ?_
    · have hreserved := hdef.head hw ht
      obtain ⟨u, hdata, hnext⟩ := andThen_eq_next.mp (hcycle ▸ ht)
      have hir : t.ir = u.ir := by rw [nextAddress_frame hnext]
      have hu : fetchedReserved k w u = false := by rwa [fetchedReserved, ← hir]
      obtain ⟨x, hx, -, r, hr, hrep⟩ | hfault :=
        nextAddress_of_represents hrom hclosed hq hentered hm hdata (defined hu)
      · obtain rfl : advanced k m u x = t := by
          rw [hx] at hnext
          exact Host.Outcome.next.inj hnext
        exact ih hr hrep (hdef.tail ht)
      · rw [hfault] at hnext
        cases hnext
    · obtain ⟨w', m', hw', hword', hdata, hindex⟩ := microCycle_wrongGroup ht
      obtain rfl : w = w' := Option.some.inj (hw.symm.trans hw')
      obtain rfl : m = m' := Option.some.inj (hword.symm.trans hword')
      have hupc : t.upc = s.upc := upc_of_wrongGroup (s := setInt b s) ht
      refine ⟨w, hupc ▸ hw, ?_⟩
      by_contra hreserved
      obtain ⟨x, hx, -⟩ | hfault :=
        nextAddress_of_represents hrom hclosed hq hentered hm hdata (defined (by simpa using hreserved))
      · rw [nextAddress_of_error hindex] at hx
        cases hx
      · rw [nextAddress_of_error hindex] at hfault
        cases hfault

end

theorem lt_runBound : 65536 < runBound := by
  rw [runBound]
  calc 65536 = 2 ^ 16 := by norm_num
    _ < 2 ^ (2 ^ 21) := Nat.pow_lt_pow_right (by norm_num) (by norm_num)

/-- Where no rule is broken within the bound, every run shorter by one than the bound is sound: its schedule is
prolonged to the program's length at least. -/
theorem sound_of_anyFault_none {k : Setup} (h : anyFault k = none) {run : Run}
    (hfits : programFits run.params run.program) (hbound : run.schedule.length + 1 < runBound)
    (hdef : FetchesDefined k run.schedule run.start) : Sound k run.schedule run.start := by
  obtain ⟨n, hn⟩ : ∃ n, n = max 1 (run.program.length - run.schedule.length) := ⟨_, rfl⟩
  have hprogram : run.program.length ≤ 65536 := by
    have := hfits.2
    omega
  have hlt := lt_runBound
  have hlength : (run.schedule ++ List.replicate n false).length = run.schedule.length + n := by
    rw [List.length_append, List.length_replicate]
  have hbreaks := anyFault_none h { run with schedule := run.schedule ++ List.replicate n false }
    (by rw [hlength]; omega) (show run.program.length ≤ _ by rw [hlength]; omega)
  rw [Run.breaks, if_pos hfits] at hbreaks
  refine sound_of_trial (more := List.replicate n false) (fun hnil => ?_) hbreaks hdef
  have := congrArg List.length hnil
  rw [List.length_replicate, List.length_nil] at this
  omega

/-- Every run of an admitted store is sound. -/
theorem sound_of_accepted {k : Setup} {s : State} (h : acceptStore k s = .next s) (hrom : k.rom.length ≤ 256)
    {run : Run} (hfits : programFits run.params run.program) (hbound : run.schedule.length + 1 < runBound)
    (hdef : FetchesDefined k run.schedule run.start) : Sound k run.schedule run.start := by
  have walked {p : Precision} {fuel : Nat} (hwalk : walkFromReset k p fuel = true) :
      Sound k run.schedule run.start := by
    obtain ⟨set, hstart, hclosed⟩ := closed_of_walkFromReset hrom hwalk
    exact sound_of_represents hrom hclosed hstart (represents_bootState k p run.params run.program false) hdef
  obtain ⟨-, -, hrule⟩ := acceptStore_next h
  obtain hpaths | hpaths | hnone := brokenRule_none hrule
  · exact walked hpaths
  · rw [pathsSafe, Bool.or_eq_true] at hpaths
    exact hpaths.elim walked walked
  · exact sound_of_anyFault_none hnone hfits hbound hdef

/-! ## Certified paths (R305) -/

section
variable {k : Setup} (hlegal : ∀ w ∈ k.rom, k.selectors.wordLegal w = true) {set : Situation → Prop}
  (hclosed : Closed k .certificate set)
  {latched : Bool} {q : Situation} {s : State} (hq : set q) (h : Represents k .certificate latched q s)
include hclosed hq h

/-- R305: a certified word's register write is prepared. -/
theorem write_prepared {m : MicroInstr} (hm : instrAt k s.upc.toNat = some m) :
    (m.rbus != .reg || ((latched || m.sbus == .reg || m.dbus == .reg)
      && (operandsRead m s).regsel == some (k.intendedIndex s))) = true := by
  by_cases hsel : m.rbus = .reg
  · obtain ⟨hsince, hregsel⟩ := prepared_of_represents hclosed hq h rfl hm hsel
    rw [hsince, hregsel, Bool.true_and, beq_self_eq_true, Bool.or_true]
  · rw [bne_iff_ne.mpr hsel, Bool.true_or]

include hlegal in
/-- A micro-cycle of a certified store raises none of U2, U4 to U6 before the choice of the next micro-address. -/
theorem dataStages_no_storeError {m : MicroInstr} (hm : instrAt k s.upc.toNat = some m) {f : Fault}
    (hdata : dataStages m s = .fault f) : f.storeError = false := by
  obtain hrbus | ⟨written, -, hmem | ⟨accessed, -, hmisc⟩⟩ := dataStages_eq_fault.mp hdata
  · obtain ⟨w, hw, hword⟩ := Option.bind_eq_some_iff.mp hm
    obtain ⟨hsel, hres, -⟩ | ⟨hsel, hregsel, -⟩ := rbusStage_eq_fault hrbus
    · obtain ⟨m', hword', hnone⟩ := wordLegal_iff.mp (hlegal w (List.mem_of_getElem? hw))
      obtain rfl : m = m' := Option.some.inj (hword.symm.trans hword')
      have halu : m.alu ≠ .none := fun halu => hsel (hnone halu)
      obtain ⟨r, hr⟩ := aluResult_eq_some_of_ne_none s halu
      rw [hr] at hres
      cases hres
    · obtain ⟨-, hlatch⟩ := prepared_of_represents hclosed hq h rfl hm hsel
      rw [show (computed m s).regsel = (operandsRead m s).regsel from rfl, hlatch] at hregsel
      cases hregsel
  · obtain ⟨-, -, rfl⟩ | ⟨-, -, rfl⟩ := memStage_eq_fault hmem <;> rfl
  · obtain ⟨-, -, rfl⟩ := miscStage_eq_fault hmisc
    rfl

end

section
variable {k : Setup} (hlegal : ∀ w ∈ k.rom, k.selectors.wordLegal w = true) (hrom : k.rom.length ≤ 256)
  {set : Situation → Prop} (hclosed : Closed k .certificate set)
include hlegal hrom hclosed

/-- A micro-cycle from a represented state ends in a represented state, or in a fault that does not blame the store. -/
theorem microCycle_of_represents {latched : Bool} {q : Situation} {s : State} (hq : set q)
    (h : Represents k .certificate latched q s) {m : MicroInstr} (hm : instrAt k s.upc.toNat = some m) :
    (∀ t, microCycle k s = .next t → ∃ r, set r ∧ Represents k .certificate (latchedSince m latched) r t)
      ∧ ∀ f, microCycle k s = .fault f → f.storeError = false := by
  obtain ⟨w, hw, hword⟩ := Option.bind_eq_some_iff.mp hm
  have hentered : Represents k .certificate latched q { s with cw := some w } :=
    ⟨h.upc, h.ir, h.knows.congr rfl rfl rfl rfl rfl, h.latched⟩
  have hstays {u : State} (hdata : dataStages m { s with cw := some w } = .next u) :=
    nextAddress_of_represents hrom hclosed hq hentered hm hdata fun hne => absurd rfl hne
  rw [microCycle_of_word hw hword]
  refine ⟨fun t ht => ?_, fun f hf => ?_⟩
  · obtain ⟨u, hdata, hnext⟩ := andThen_eq_next.mp ht
    obtain ⟨x, hx, -, r, hr, hrep⟩ | hfault := hstays hdata
    · rw [hx] at hnext
      exact ⟨r, hr, Host.Outcome.next.inj hnext ▸ hrep⟩
    · rw [hfault] at hnext
      cases hnext
  · obtain hdata | ⟨u, hdata, hnext⟩ := andThen_eq_fault.mp hf
    · exact dataStages_no_storeError hlegal hclosed hq hentered hm hdata
    · obtain ⟨x, hx, -⟩ | hfault := hstays hdata
      · rw [hx] at hnext
        cases hnext
      · rw [hfault] at hnext
        exact Host.Outcome.fault.inj hnext ▸ rfl

/-- No number of micro-cycles from a represented state ends in a fault that blames the store. -/
theorem runCycles_no_storeError {n : Nat} {latched : Bool} {q : Situation} {s : State} (hq : set q)
    (h : Represents k .certificate latched q s) {f : Fault} (hf : runCycles k n s = .fault f) :
    f.storeError = false := by
  induction n generalizing latched q s with
  | zero =>
    rw [runCycles] at hf
    cases hf
  | succ n ih =>
    obtain ⟨m, hm⟩ := instrAt_of_represents hclosed hq h
    obtain ⟨hnext, hfault⟩ := microCycle_of_represents hlegal hrom hclosed hq h hm
    rw [runCycles] at hf
    obtain hf | ⟨t, ht, hf⟩ := andThen_eq_fault.mp hf
    · exact hfault f hf
    · obtain ⟨r, hr, hrep⟩ := hnext t ht
      exact ih hr hrep hf

/-- Every register write of the micro-cycles from a represented state is prepared. -/
theorem writesPrepared_of_represents {n : Nat} {latched : Bool} {q : Situation} {s : State} (hq : set q)
    (h : Represents k .certificate latched q s) : writesPrepared k n latched s = true := by
  induction n generalizing latched q s with
  | zero => rw [writesPrepared]
  | succ n ih =>
    obtain ⟨m, hm⟩ := instrAt_of_represents hclosed hq h
    have hword : (k.rom[s.upc.toNat]?).bind k.selectors.ofWord = some m := hm
    have hprepared := write_prepared hclosed hq h hm
    rw [operandsRead] at hprepared
    rw [writesPrepared, hword]
    simp only [hprepared, Bool.true_and]
    split
    · next t ht =>
      obtain ⟨r, hr, hrep⟩ := (microCycle_of_represents hlegal hrom hclosed hq h hm).1 t ht
      exact ih hr hrep
    · rfl
    · rfl

end

/-- Settles O15: an admitted store's runs stay among the situations of a walk, or every run of the bound has been tried;
a certified store's micro-cycles stay among those of its certificate. -/
theorem checkedStoreNeverErrs : Obligations.CheckedStoreNeverErrs := by
  refine ⟨fun k s run haccept hrom hfits hbound hdef => ?_, fun k n s hlegal hpaths hrom hupc hg hmad => ?_⟩
  · obtain ⟨hsums, hindices⟩ := sound_of_accepted haccept hrom hfits hbound hdef
    exact ⟨hsums, hindices⟩
  · obtain ⟨set, hstart, hclosed⟩ := closed_of_walkFromReset hrom hpaths
    have hrep := represents_start k hupc hg hmad false
    exact ⟨fun f => runCycles_no_storeError hlegal hrom hclosed hstart hrep,
      writesPrepared_of_represents hlegal hrom hclosed hstart hrep⟩

end Sys2Proof.Proofs.CheckedStore

/-! The reference control store word by word: the addresses each word can lead to, and what its micro-cycles keep
(R32, R36, R60, R246, R317). -/

namespace Sys2Proof.Proofs.ReferenceStore
open Sys2Proof Sys2Proof.Machine Sys2Proof.Proofs.MicroCycle Sys2Proof.Proofs.MicroStages
  Sys2Proof.Proofs.ReferenceCycles Sys2Proof.Proofs.Refinement Sys2Proof.Proofs.StoreLoad
  Sys2Proof.Proofs.WalkKnowledge Sys2Proof.Proofs.WalkSoundness Sys2Proof.Proofs.CheckedStore

/-! ## The micro-cycle of the reference store -/

/-- The micro-cycle at a word of the store: its stages 2 to 7, then the choice of the next micro-address. -/
theorem microStep_eq {s : State} {m : MicroInstr} (hm : referenceFields[s.upc.toNat]? = some m) :
    microStep s = andThen (dataStages m (s.enter s.upc)) (nextAddress Codes.reference m) := by
  rw [← runMicro_eq_dataStages, ← microStep_goto hm, goto_upc]

theorem referenceFields_length : referenceFields.length = 135 := by
  have h := congrArg List.length referenceStore_fields
  rw [List.length_map, List.length_map, referenceStore_length] at h
  exact h.symm

/-- Within the store there is a word. -/
theorem exists_word {s : State} (h : s.upc.toNat < 135) : ∃ m, referenceFields[s.upc.toNat]? = some m :=
  ⟨_, List.getElem?_eq_getElem (by rw [referenceFields_length]; exact h)⟩

/-- R199: beyond the store there is none. -/
theorem microStep_of_beyond {s : State} (h : ¬ s.upc.toNat < 135) : microStep s = .fault (.microAddress s) := by
  have hlength : Setup.reference.rom.length = 135 := referenceStore_length
  have hnone : Setup.reference.rom[s.upc.toNat]? = none :=
    List.getElem?_eq_none_iff.mpr (hlength ▸ Nat.le_of_not_lt h)
  simp only [microStep, microCycle, hnone]

/-- A micro-cycle that completes ran a word of the store. -/
theorem microStep_eq_next {s t : State} (h : microStep s = .next t) :
    ∃ m u, referenceFields[s.upc.toNat]? = some m ∧ dataStages m (s.enter s.upc) = .next u
      ∧ nextAddress Codes.reference m u = .next t := by
  obtain ⟨w, m, hw, hword, -⟩ := microCycle_eq_next.mp h
  have hm : referenceFields[s.upc.toNat]? = some m := by
    rw [← controlWordAt_fields]
    exact Option.bind_eq_some_iff.mpr ⟨w, hw, hword⟩
  rw [microStep_eq hm] at h
  obtain ⟨u, hdata, hnext⟩ := andThen_eq_next.mp h
  exact ⟨m, u, hm, hdata, hnext⟩

/-! ## The addresses that a word can lead to -/

/-- The (address, index) pairs that a word can choose on a word of group and MAD in `ir`, as a certificate sees
them. -/
def possiblePairs (m : MicroInstr) (w : Word) : List (Nat × Index) :=
  let can := condCan Codes.reference m.cond { upc := 0, ir := w }
  (if can.1 then [(m.addressTrue, m.indexTrue)] else []) ++ if can.2 then [(m.addressFalse, m.indexFalse)] else []

/-- The addresses that a word leads to, likewise. -/
def nextAddresses (m : MicroInstr) (w : Word) : List Nat :=
  (possiblePairs m w).flatMap fun p => ((indexCan Codes.reference .certificate p.2 w).getD []).map (p.1 + ·)

/-- The group word that stands for a word. -/
def classOf (v : Word) : Word := groupWord (group v) (modeDstField v)

theorem classOf_standsFor (v : Word) : StandsFor .certificate (classOf v) v :=
  ⟨group_groupWord _ _, modeDstField_groupWord _ _, fun h => absurd rfl h⟩

/-- A selector that answers an index is defined for the group. -/
theorem indexCan_ne_none {c : Codes} {w : Word} {s : State} (h : StandsFor .certificate w s.ir) {ix : Index} {x : Nat}
    (hx : indexValue c ix s = .ok x) : ∃ values, indexCan c .certificate ix w = some values := by
  cases ix <;> simp only [indexValue] at hx
  case none | mas | mad => exact ⟨_, rfl⟩
  case opcode =>
    obtain ⟨hserves, -⟩ := distanceIndex_eq_ok hx
    have hgroup : group w = .branch ∨ group w = .other := by simpa [h.group] using hserves
    exact ⟨groupDistances c (group w), if_pos hgroup⟩
  case oneOp =>
    obtain ⟨hserves, -⟩ := distanceIndex_eq_ok hx
    exact ⟨groupDistances c .oneOp, if_pos (h.group.trans (eq_of_beq hserves))⟩
  case twoOp =>
    obtain ⟨hserves, -⟩ := distanceIndex_eq_ok hx
    exact ⟨groupDistances c .twoOp, if_pos (h.group.trans (eq_of_beq hserves))⟩

/-- The pair chosen is among those of the word's class. -/
theorem chosenPair_mem (m : MicroInstr) (s : State) :
    chosenPair Codes.reference m s ∈ possiblePairs m (classOf s.ir) := by
  have hclass := classOf_standsFor s.ir
  obtain ⟨htrue, hfalse⟩ := condCan_allows Codes.reference m.cond (q := { upc := 0, ir := classOf s.ir })
    hclass.group hclass.mad (rightFlags_empty s.flags)
  rw [possiblePairs, chosenPair, List.mem_append]
  cases hcond : condHolds Codes.reference m.cond s
  · rw [if_neg Bool.false_ne_true, if_pos (hfalse hcond)]
    exact .inr List.mem_cons_self
  · rw [if_pos rfl, if_pos (htrue hcond)]
    exact .inl List.mem_cons_self

/-- The micro-address chosen is among those of the word's class. -/
theorem mem_nextAddresses {m : MicroInstr} {s : State} {x : Nat}
    (hx : indexValue Codes.reference (chosenPair Codes.reference m s).2 s = .ok x) :
    (chosenPair Codes.reference m s).1 + x ∈ nextAddresses m (classOf s.ir) := by
  obtain ⟨values, hvalues⟩ := indexCan_ne_none (classOf_standsFor s.ir) hx
  refine List.mem_flatMap.mpr ⟨_, chosenPair_mem m s, ?_⟩
  rw [hvalues]
  exact List.mem_map.mpr ⟨x, indexCan_right (classOf_standsFor s.ir) hx hvalues, rfl⟩

theorem nextAddress_mem {m : MicroInstr} {s t : State} (h : nextAddress Codes.reference m s = .next t) :
    ∃ a ∈ nextAddresses m (classOf s.ir), t = { s with upc := BitVec.ofNat 8 a } := by
  obtain ⟨x, hx, ht⟩ := nextAddress_eq_next h
  exact ⟨_, mem_nextAddresses hx, ht⟩

theorem classOf_mem (v : Word) : classOf v ∈ groupWords := groupWord_mem _ _

/-- A check of every word of the store, with its micro-address, on every class of `ir`. -/
def checksWords (check : Nat → MicroInstr → Word → Bool) : Bool :=
  referenceFields.zipIdx.all fun p => groupWords.all (check p.2 p.1)

theorem check_of_checksWords {check : Nat → MicroInstr → Word → Bool} (h : checksWords check = true) {u : Nat}
    {m : MicroInstr} (hm : referenceFields[u]? = some m) (v : Word) : check u m (classOf v) = true := by
  have hmem : (m, u) ∈ referenceFields.zipIdx := List.mem_iff_getElem?.mpr ⟨u, by simp [List.getElem?_zipIdx, hm]⟩
  exact List.all_eq_true.mp (List.all_eq_true.mp h (m, u) hmem) _ (classOf_mem v)

/-- R301: every address a word leads to is in the store. -/
theorem nextAddresses_lt : checksWords (fun _ m w => (nextAddresses m w).all fun a => a < 135) = true := by
  decide +kernel

theorem upc_of_lt {a : Nat} (h : a < 135) : (BitVec.ofNat 8 a).toNat = a := by
  rw [BitVec.toNat_ofNat]
  omega

/-- The next micro-address of a completed micro-cycle is in the store and among those of its word. -/
theorem microStep_upc {s t : State} (h : microStep s = .next t) :
    ∃ m u, referenceFields[s.upc.toNat]? = some m ∧ dataStages m (s.enter s.upc) = .next u
      ∧ t = { u with upc := t.upc } ∧ t.upc.toNat ∈ nextAddresses m (classOf t.ir) ∧ t.upc.toNat < 135 := by
  obtain ⟨m, u, hm, hdata, hnext⟩ := microStep_eq_next h
  obtain ⟨a, ha, rfl⟩ := nextAddress_mem hnext
  have hlt : a < 135 := of_decide_eq_true (List.all_eq_true.mp (check_of_checksWords nextAddresses_lt hm u.ir) a ha)
  refine ⟨m, u, hm, hdata, rfl, ?_, ?_⟩ <;> dsimp only <;> rw [upc_of_lt hlt]
  · exact ha
  · exact hlt

/-! ## The invariant (R32, R33, R35, R60) -/

/-- Stages 2 to 7 keep memory canonical and within MEM_SIZE. -/
theorem dataStages_mem {m : MicroInstr} {s t : State} (h : dataStages m s = .next t) (hwf : s.mem.wf = true)
    (hbelow : s.mem.below s.params.memSize = true) : t.mem.wf = true ∧ t.mem.below s.params.memSize = true := by
  obtain ⟨written, accessed, hrbus, hmem, hmisc⟩ := dataStages_eq_next.mp h
  have hwritten : written.mem = s.mem ∧ written.params = s.params := by
    rw [rbusStage_frame hrbus, computed_frame]
    exact ⟨rfl, rfl⟩
  have ht : t.mem = accessed.mem := by rw [miscStage_frame hmisc]
  rw [ht]
  cases hsel : m.mem <;> rw [hsel, memStage] at hmem
  case none =>
    cases hmem
    rw [hwritten.1]
    exact ⟨hwf, hbelow⟩
  case ifch =>
    obtain ⟨-, hf⟩ | ⟨-, hf⟩ := fetchIr_cases written <;> rw [hf] at hmem <;> cases hmem
    rw [hwritten.1]
    exact ⟨hwf, hbelow⟩
  case read =>
    obtain ⟨-, hr⟩ | ⟨-, hr⟩ := memRead_cases written <;> rw [hr] at hmem <;> cases hmem
    rw [hwritten.1]
    exact ⟨hwf, hbelow⟩
  case write =>
    obtain ⟨hin, hw⟩ | ⟨-, hw⟩ := memWrite_cases written <;> rw [hw] at hmem <;> cases hmem
    rw [State.inMemory, decide_eq_true_iff, hwritten.2] at hin
    rw [hwritten.1]
    exact ⟨Memory.wf_write hwf _ _, Memory.below_write _ hin hbelow⟩

theorem microStep_keeps_inv {s t : State} (hs : s.Inv) (h : microStep s = .next t) : t.Inv := by
  obtain ⟨hvalid, hwf, hbelow, -, -⟩ := hs
  obtain ⟨m, u, -, hdata, ht, -, hlt⟩ := microStep_upc h
  obtain ⟨-, hcw, -, hparams⟩ := dataStages_keeps hdata
  obtain ⟨hwf', hbelow'⟩ := dataStages_mem hdata hwf hbelow
  have hkept : t.params = s.params := by rw [ht]; exact hparams
  have hmem : t.mem = u.mem := by rw [ht]
  have hword : t.cw = controlWordAt s.upc := by rw [ht]; exact hcw
  refine ⟨hkept ▸ hvalid, hmem ▸ hwf', hkept ▸ hmem ▸ hbelow', by rw [referenceStore_length]; exact hlt, fun w hw => ?_⟩
  exact List.mem_of_getElem? (hword.symm.trans hw)

/-- What every micro-cycle keeps every number of them keeps. -/
theorem run_keeps {P : State → Prop} (hstep : ∀ s t, P s → microStep s = .next t → P t) : ∀ (n : Nat) {s t : State},
    P s → run n s = .next t → P t
  | 0, _, _, hs, h => by
    rw [run, runCycles] at h
    exact Host.Outcome.next.inj h ▸ hs
  | n + 1, s, t, hs, h => by
    rw [run_succ] at h
    obtain ⟨u, hu, hrun⟩ := andThen_eq_next.mp h
    exact run_keeps hstep n (hstep s u hs hu) hrun

/-- A step is some micro-cycles: those of its instruction (R325), or one. -/
theorem step_eq_run (s : State) : ∃ n, step s = run n s := by
  cases hi : s.nextInstr with
  | some i => exact ⟨cycles i s, by rw [step_of_nextInstr hi, run_cycles hi]⟩
  | none =>
    refine ⟨1, ?_⟩
    rw [step, hi, run_succ]
    exact (andThen_next_right _).symm

/-- What every micro-cycle keeps every step keeps. -/
theorem step_keeps {P : State → Prop} (hstep : ∀ s t, P s → microStep s = .next t → P t) {s t : State} (hs : P s)
    (h : step s = .next t) : P t := by
  obtain ⟨n, hn⟩ := step_eq_run s
  exact run_keeps hstep n hs (hn ▸ h)

/-- Settles O32: every micro-cycle keeps the invariant, and a step is micro-cycles. -/
theorem stepKeepsTheInvariant : Obligations.StepKeepsTheInvariant := fun _ _ =>
  step_keeps fun _ _ => microStep_keeps_inv

/-! ## The stack pointer (R23, R246, R247, R317) -/

/-- A word that reads the cell at `sp`. -/
def readsTopWord (m : MicroInstr) : Bool :=
  m.sbus == .none && m.dbus == .sp && m.alu == .sum && m.rbus == .adr && m.mem == .read

/-- What the store's words keep to about `sp`: a word that raises it leads to words that read there; and a word that
stands after a raise reads there, or does nothing to `sp` and leads to one that does. -/
def stackWord (u : Nat) (m : MicroInstr) (w : Word) : Bool :=
  let reading (a : Nat) : Bool := readsPopped (BitVec.ofNat 8 a)
  (m.misc != .incSp || (nextAddresses m w).all reading)
    && (!reading u || readsTopWord m || (m.misc == .none && (nextAddresses m w).all reading))

theorem stackWords : checksWords stackWord = true := by decide +kernel

/-- R317: a word that reads the cell at `sp` completes only where it exists. -/
theorem inMemory_of_readsTopWord {m : MicroInstr} {s t : State} (hm : readsTopWord m = true)
    (h : dataStages m s = .next t) : s.inMemory s.sp = true := by
  simp only [readsTopWord, Bool.and_eq_true, beq_iff_eq] at hm
  obtain ⟨⟨⟨⟨hsbus, hdbus⟩, halu⟩, hrbus⟩, hmem⟩ := hm
  obtain ⟨written, accessed, hwritten, haccessed, -⟩ := dataStages_eq_next.mp h
  have hresult : aluResult m s = some (aluSum 0 s.sp) := by rw [aluResult, hsbus, hdbus, halu]; rfl
  rw [hresult, hrbus] at hwritten
  have hadr : written.adr = s.sp := by
    cases hwritten
    exact BitVec.zero_add s.sp
  have hparams : written.params = s.params := by
    cases hwritten
    rw [computed_frame]
  rw [hmem, memStage] at haccessed
  obtain ⟨hin, -⟩ | ⟨-, hout⟩ := memRead_cases written
  · rwa [hadr, State.inMemory_congr s written hparams] at hin
  · rw [hout] at haccessed
    cases haccessed

/-- R246, R247: what stages 2 to 7 do to `sp`. -/
theorem dataStages_sp {m : MicroInstr} {s t : State} (h : dataStages m s = .next t) :
    (m.misc ≠ .incSp ∧ t.sp = s.sp) ∨ (m.misc = .incSp ∧ t.sp = s.sp + 1)
      ∨ (m.misc = .decSp ∧ canPush s = true ∧ t.sp = s.sp - 1) := by
  obtain ⟨written, accessed, hrbus, hmem, hmisc⟩ := dataStages_eq_next.mp h
  have hsp : accessed.sp = s.sp ∧ accessed.params = s.params := by
    rw [memStage_frame hmem, rbusStage_frame hrbus, computed_frame]
    exact ⟨rfl, rfl⟩
  have hcan : canPush accessed = canPush s := by rw [canPush, canPush, hsp.1, hsp.2]
  cases hsel : m.misc <;> rw [hsel, miscStage] at hmisc
  case incSp =>
    cases hmisc
    exact .inr (.inl ⟨rfl, congrArg (· + 1) hsp.1⟩)
  case decSp =>
    obtain ⟨hc, hd⟩ | ⟨-, hd⟩ := decSp_cases accessed <;> rw [hd] at hmisc <;> cases hmisc
    exact .inr (.inr ⟨rfl, hcan ▸ hc, congrArg (· - 1) hsp.1⟩)
  all_goals
    cases hmisc
    exact .inl ⟨nofun, hsp.1⟩

theorem spInv_mk {t : State} {memSize : Nat} (hsize : t.params.memSize = memSize)
    (hbase : t.params.stackBase ≤ t.sp.toNat) (hle : t.sp.toNat ≤ memSize)
    (hlt : readsPopped t.upc = true ∨ t.sp.toNat < memSize) : t.SpInv := by
  refine ⟨hbase, ?_⟩
  split
  · exact hsize ▸ hle
  · next hno => exact hsize ▸ hlt.resolve_left hno

/-- Every micro-cycle keeps `sp` in its region when the address space is not full. -/
theorem microStep_keeps_spInv {s t : State} (hsize : s.params.memSize < 65536) (hs : s.SpInv)
    (h : microStep s = .next t) : t.SpInv := by
  obtain ⟨hbase, hregion⟩ := hs
  obtain ⟨m, u, hm, hdata, ht, hmem, -⟩ := microStep_upc h
  obtain ⟨-, -, -, hparams⟩ := dataStages_keeps hdata
  have hkept : t.params = s.params := by rw [ht]; exact hparams
  have hsp : t.sp = u.sp := by rw [ht]
  have hupc (hall : ((nextAddresses m (classOf t.ir)).all fun a => readsPopped (BitVec.ofNat 8 a)) = true) :
      readsPopped t.upc = true := by
    have := List.all_eq_true.mp hall _ hmem
    rwa [BitVec.ofNat_toNat, BitVec.setWidth_eq] at this
  have hcheck := check_of_checksWords stackWords hm t.ir
  simp only [stackWord, BitVec.ofNat_toNat, BitVec.setWidth_eq, Bool.and_eq_true, Bool.or_eq_true, bne_iff_ne,
    Bool.not_eq_true', beq_iff_eq] at hcheck
  obtain ⟨hraise, hafter⟩ := hcheck
  have htop : readsTopWord m = true → s.sp.toNat < s.params.memSize := fun hread =>
    of_decide_eq_true (inMemory_of_readsTopWord (s := s.enter s.upc) hread hdata)
  have hinside : s.sp.toNat < s.params.memSize
      ∨ (m.misc = .none ∧ s.sp.toNat ≤ s.params.memSize ∧ readsPopped t.upc = true) := by
    obtain (hno | hread) | ⟨hnone, hall⟩ := hafter
    · rw [if_neg (by simp [hno])] at hregion
      exact .inl hregion
    · exact .inl (htop hread)
    · refine .inr ⟨hnone, ?_, hupc hall⟩
      split at hregion
      · exact hregion
      · exact hregion.le
  obtain ⟨-, hsame⟩ | ⟨hinc, hplus⟩ | ⟨-, hcan, hminus⟩ := dataStages_sp hdata
  · rw [State.enter_sp] at hsame
    refine spInv_mk (memSize := s.params.memSize) (by rw [hkept]) (by rw [hkept, hsp, hsame]; exact hbase) ?_ ?_
    · rw [hsp, hsame]
      exact hinside.elim Nat.le_of_lt fun h => h.2.1
    · rw [hsp, hsame]
      exact hinside.elim .inr fun h => .inl h.2.2
  · have hlt : s.sp.toNat < s.params.memSize := hinside.resolve_right fun h => by rw [hinc] at h; cases h.1
    have hnat : (s.sp + 1).toNat = s.sp.toNat + 1 := by bv_omega
    rw [State.enter_sp] at hplus
    refine spInv_mk (memSize := s.params.memSize) (by rw [hkept]) ?_ ?_
      (.inl (hupc (hraise.resolve_left fun hne => hne hinc)))
    · rw [hkept, hsp, hplus, hnat]
      omega
    · rw [hsp, hplus, hnat]
      omega
  · have hle : s.sp.toNat ≤ s.params.memSize := hinside.elim Nat.le_of_lt fun h => h.2.1
    rw [canPush, decide_eq_true_iff, State.enter_sp, State.enter_params] at hcan
    rw [State.enter_sp] at hminus
    have hnat : (s.sp - 1).toNat = s.sp.toNat - 1 := by bv_omega
    refine spInv_mk (memSize := s.params.memSize) (by rw [hkept]) ?_ ?_ (.inr ?_)
    · rw [hkept, hsp, hminus, hnat]
      omega
    · rw [hsp, hminus, hnat]
      omega
    · rw [hsp, hminus, hnat]
      omega

/-- Settles O33: so does every step, which is micro-cycles; the parameters stay. -/
theorem stackPointerStaysInItsRegion : Obligations.StackPointerStaysInItsRegion := by
  intro s t _ hsize hs h
  have hkeeps : ∀ u v : State, (u.params.memSize < 65536 ∧ u.SpInv) → microStep u = .next v →
      v.params.memSize < 65536 ∧ v.SpInv := fun u v hu hv => by
    obtain ⟨m, w, -, hdata, hv', -⟩ := microStep_upc hv
    obtain ⟨-, -, -, hparams⟩ := dataStages_keeps hdata
    have hkept : v.params = u.params := by rw [hv']; exact hparams
    exact ⟨hkept ▸ hu.1, microStep_keeps_spInv hu.1 hu.2 hv⟩
  exact (step_keeps hkeeps ⟨hsize, hs⟩ h).2

end Sys2Proof.Proofs.ReferenceStore

/-! ProgramEnd and StackOverflow (R440, R441, R447, R448): where a step raises them, and the residue they leave. -/

namespace Sys2Proof.Proofs.ArchitecturalFaults
open Sys2Proof Sys2Proof.Machine Sys2Proof.Proofs.MicroCycle Sys2Proof.Proofs.MicroStages
  Sys2Proof.Proofs.ReferenceCycles Sys2Proof.Proofs.Refinement Sys2Proof.Proofs.StoreLoad
  Sys2Proof.Proofs.ReferenceStore Sys2Proof.Proofs.RoundTrip Sys2Proof.Proofs.CodecInverse
  Sys2Proof.Proofs.OneOperand Sys2Proof.Proofs.Other Sys2Proof.Proofs.BeyondMemory

/-! ## The push word (R316) -/

/-- The words that push. -/
def pushWords : List MicroAddr := [uPush0, uCall2, uPushpc1, uPushflag1]

/-- R316: the fields of a push word. -/
def pushWord (next : Nat) : MicroInstr :=
  { dbus := .sp, alu := .sum, rbus := .adr, misc := .decSp, mem := .write, addressTrue := next }

theorem pushWords_fields {u : MicroAddr} (hu : u ∈ pushWords) :
    ∃ a, referenceFields[u.toNat]? = some (pushWord a) := by
  simp only [pushWords, List.mem_cons, List.not_mem_nil, or_false] at hu
  obtain rfl | rfl | rfl | rfl := hu
  · exact ⟨1, rfl⟩
  · exact ⟨58, rfl⟩
  · exact ⟨1, rfl⟩
  · exact ⟨1, rfl⟩

theorem dataStages_pushWord (a : Nat) (s : State) : dataStages (pushWord a) s = pushMdr s := rfl

/-- The state that a push which cannot decrement leaves behind (R447). -/
def pushStored (w : State) : State := { w.toAdr .sum 0 w.sp with mem := w.mem.write w.sp.toNat w.mdr }

theorem pushMdr_eq (w : State) :
    pushMdr w = if w.inMemory w.sp then decSp (pushStored w) else .fault (.dataOutOfRange (w.toAdr .sum 0 w.sp)) := by
  have hadr : (w.toAdr .sum 0 w.sp).adr = w.sp := by simp
  have hin : (w.toAdr .sum 0 w.sp).inMemory w.sp = w.inMemory w.sp := State.inMemory_toAdr ..
  simp only [pushMdr, memWrite, hadr, hin, pushStored]
  split <;> rfl

/-- A push from a state with the `sp`, memory and parameters of `s`, at a push word that is latched; the cell exists and
the decrement does not pass. -/
structure OverflowsFrom (s w : State) : Prop where
  sp : w.sp = s.sp
  mem : w.mem = s.mem
  params : w.params = s.params
  upc : w.upc ∈ pushWords
  cw : w.cw = controlWordAt w.upc
  inMemory : w.inMemory w.sp = true
  full : canPush w = false

theorem pushMdr_of_overflow {w : State} (hin : w.inMemory w.sp = true) (hfull : canPush w = false) :
    pushMdr w = .fault (.stackOverflow (pushStored w)) := by
  have hcan : canPush (pushStored w) = canPush w := rfl
  obtain ⟨hno, -⟩ | ⟨-, hd⟩ := decSp_cases (pushStored w)
  · rw [hcan, hfull] at hno
    cases hno
  · rw [pushMdr_eq, if_pos hin, hd]

theorem pushMdr_fault {w : State} {f : Fault} (h : pushMdr w = .fault f) :
    (∃ t, f = .dataOutOfRange t)
      ∨ w.inMemory w.sp = true ∧ canPush w = false ∧ f = .stackOverflow (pushStored w) := by
  rw [pushMdr_eq] at h
  split at h
  · next hin =>
    obtain ⟨-, hd⟩ | ⟨hfull, hd⟩ := decSp_cases (pushStored w) <;> rw [hd] at h <;> cases h
    exact .inr ⟨hin, hfull, rfl⟩
  · cases h
    exact .inl ⟨_, rfl⟩

/-! ## The faults of an instruction -/

/-- Every fault of an answer is one of some. -/
def FaultsIn (allowed : Fault → Prop) (r : Result) : Prop := ∀ f, r = .fault f → allowed f

/-- A data access beyond memory (U3). -/
def OutOfRange (f : Fault) : Prop := ∃ t, f = .dataOutOfRange t

theorem faultsIn_next {allowed : Fault → Prop} (s : State) : FaultsIn allowed (.next s) := fun _ hf => by cases hf

theorem faultsIn_andThen {allowed : Fault → Prop} {r : Result} {g : State → Result} (hr : FaultsIn allowed r)
    (hg : ∀ t, r = .next t → FaultsIn allowed (g t)) : FaultsIn allowed (andThen r g) := fun f hf => by
  obtain h | ⟨t, ht, h⟩ := andThen_eq_fault.mp hf
  · exact hr f h
  · exact hg t ht f h

theorem FaultsIn.mono {allowed allowed' : Fault → Prop} {r : Result} (h : FaultsIn allowed r)
    (hsub : ∀ f, allowed f → allowed' f) : FaultsIn allowed' r := fun f hf => hsub f (h f hf)

theorem memRead_faults (s : State) : FaultsIn OutOfRange (memRead s) := fun f hf => by
  obtain ⟨-, h⟩ | ⟨-, h⟩ := memRead_cases s <;> rw [h] at hf <;> cases hf
  exact ⟨_, rfl⟩

theorem memWrite_faults (s : State) : FaultsIn OutOfRange (memWrite s) := fun f hf => by
  obtain ⟨-, h⟩ | ⟨-, h⟩ := memWrite_cases s <;> rw [h] at hf <;> cases hf
  exact ⟨_, rfl⟩

theorem readTop_faults (s : State) : FaultsIn OutOfRange (readTop s) := memRead_faults _

theorem fetchSource_faults (o : Operand) (s : State) : FaultsIn OutOfRange (fetchSource o s) := by
  cases o with
  | immediate | direct => exact faultsIn_next _
  | indirect | indexed => exact faultsIn_andThen (memRead_faults _) fun _ _ => faultsIn_next _

theorem fetchDest_faults (o : Operand) (s : State) : FaultsIn OutOfRange (fetchDest o s) := by
  cases o with
  | immediate | direct => exact faultsIn_next _
  | indirect | indexed => exact memRead_faults _

theorem writeBack_faults (o : Operand) (s : State) : FaultsIn OutOfRange (writeBack o s) := by
  cases o with
  | direct => exact faultsIn_next _
  | immediate | indirect | indexed => exact faultsIn_andThen (memWrite_faults _) fun _ _ => faultsIn_next _

theorem popTo_faults (o : Operand) (s : State) : FaultsIn OutOfRange (popTo o s) := by
  cases o with
  | immediate | direct => exact faultsIn_next _
  | indirect | indexed => exact faultsIn_andThen (memWrite_faults _) fun _ _ => faultsIn_next _

theorem withOperands_faults {src dst : Operand} {body : State → Result} (hbody : ∀ t, FaultsIn OutOfRange (body t))
    (s : State) : FaultsIn OutOfRange (withOperands src dst body s) :=
  faultsIn_andThen (fetchSource_faults _ _) fun _ _ => faultsIn_andThen (fetchDest_faults _ _) fun t _ => hbody t

theorem exec_twoOp_faults (op : TwoOp) (src dst : Operand) (s : State) :
    FaultsIn OutOfRange (exec (op.instr src dst) s) := by
  by_cases hop : op = .cmp
  · subst hop
    exact withOperands_faults (fun _ => faultsIn_next _) s
  · obtain ⟨g, -, hexec⟩ := exec_twoOp_writeBack src dst hop
    rw [hexec]
    exact withOperands_faults (fun t => writeBack_faults dst (g t)) s

/-- The one-operand instructions that do not push. -/
theorem exec_oneOp_faults {op : OneOp} (hpush : op ≠ .push) (hcall : op ≠ .call) (dst : Operand) (s : State) :
    FaultsIn OutOfRange (exec (op.instr dst) s) := by
  by_cases hop : op ∈ [.jmp, .call, .push, .pop]
  · simp only [List.mem_cons, List.not_mem_nil, or_false] at hop
    obtain rfl | rfl | rfl | rfl := hop
    · exact faultsIn_andThen (fetchDest_faults _ _) fun _ _ => faultsIn_next _
    · exact absurd rfl hcall
    · exact absurd rfl hpush
    · exact faultsIn_andThen (fetchDest_faults _ _) fun _ _ =>
        faultsIn_andThen (readTop_faults _) fun _ _ => popTo_faults _ _
  · obtain ⟨g, -, hexec⟩ := exec_oneOp_writeBack dst hop
    rw [hexec]
    exact faultsIn_andThen (fetchDest_faults _ _) fun t _ => writeBack_faults dst (g t)

theorem branchIf_faults (u : MicroAddr) (taken : Bool) (o : BitVec 8) (s : State) :
    FaultsIn OutOfRange (branchIf u taken o s) := by
  cases taken
  · exact faultsIn_next _
  · exact faultsIn_next _

theorem exec_branch_faults (op : BranchOp) (o : BitVec 8) (s : State) : FaultsIn OutOfRange (exec (op.instr o) s) := by
  cases op with
  | br => exact faultsIn_next _
  | bne | beq | bpl | bmi | bcs | bcc | bvs | bvc => exact branchIf_faults _ _ _ _

theorem popPc_faults (first second : MicroAddr) (s : State) : FaultsIn OutOfRange (popPc first second s) :=
  faultsIn_andThen (readTop_faults _) fun _ _ => faultsIn_next _

/-- The instructions without operands that do not push. -/
theorem exec_other_faults {op : OtherOp} (hpc : op ≠ .pushpc) (hflag : op ≠ .pushflag) (s : State) :
    FaultsIn OutOfRange (exec op.instr s) := by
  cases op with
  | pushpc => exact absurd rfl hpc
  | pushflag => exact absurd rfl hflag
  | clc | clv | clz | cls | ccc | sec | sev | sez | ses | scc | nop | halt | wait => exact faultsIn_next _
  | ret | poppc => exact popPc_faults _ _ _
  | popflag => exact faultsIn_andThen (readTop_faults _) fun _ _ => faultsIn_next _
  | reti =>
    exact faultsIn_andThen (readTop_faults _) fun _ _ => faultsIn_andThen (readTop_faults _) fun _ _ => faultsIn_next _

/-- The instructions that push. -/
def Pushes (i : Instr) : Prop := i = .pushpc ∨ i = .pushflag ∨ (∃ o, i = .push o) ∨ ∃ o, i = .call o

/-- A fault of an instruction that pushes: an access beyond memory, or the overflow of its push. -/
def OfPush (s : State) (f : Fault) : Prop := OutOfRange f ∨ ∃ w, OverflowsFrom s w ∧ f = .stackOverflow (pushStored w)

theorem pushMdr_faults {s w : State} (hsp : w.sp = s.sp) (hmem : w.mem = s.mem) (hparams : w.params = s.params)
    (hupc : w.upc ∈ pushWords) (hcw : w.cw = controlWordAt w.upc) : FaultsIn (OfPush s) (pushMdr w) := fun f hf => by
  obtain hout | ⟨hin, hfull, rfl⟩ := pushMdr_fault hf
  · exact .inl hout
  · exact .inr ⟨w, ⟨hsp, hmem, hparams, hupc, hcw, hin, hfull⟩, rfl⟩

theorem execPush_faults (o : Operand) (s : State) : FaultsIn (OfPush s) (execPush o s) := by
  refine faultsIn_andThen ((fetchDest_faults _ _).mono fun _ => .inl) fun t ht => ?_
  obtain ⟨t', ht', ht''⟩ := fetchDest_of_readable (readable_of_fetchDest ht)
  obtain rfl : t' = t := Host.Outcome.next.inj (ht'.symm.trans ht)
  refine faultsIn_andThen (pushMdr_faults ?_ ?_ ?_ ?_ rfl) fun _ _ => faultsIn_next _
  · exact congrArg Arch.sp ht''.arch
  · exact congrArg Arch.mem ht''.arch
  · exact congrArg Arch.params ht''.arch
  · exact List.mem_cons_self

theorem execCall_faults (o : Operand) (s : State) : FaultsIn (OfPush s) (execCall o s) := by
  refine faultsIn_andThen ((fetchDest_faults _ _).mono fun _ => .inl) fun t ht => ?_
  obtain ⟨t', ht', ht''⟩ := fetchDest_of_readable (readable_of_fetchDest ht)
  obtain rfl : t' = t := Host.Outcome.next.inj (ht'.symm.trans ht)
  obtain ⟨-, -, harch, -, -⟩ := callLoaded_spec t'
  refine faultsIn_andThen (pushMdr_faults (w := callLoaded t') ?_ ?_ ?_ ?_ rfl) fun _ _ => faultsIn_next _
  · exact congrArg Arch.sp (harch.trans ht''.arch)
  · exact congrArg Arch.mem (harch.trans ht''.arch)
  · exact congrArg Arch.params (harch.trans ht''.arch)
  · exact List.mem_cons_of_mem _ List.mem_cons_self

theorem pushValue_faults {load push : MicroAddr} (hpush : push ∈ pushWords) (v : Word) (s : State) :
    FaultsIn (OfPush s) (pushValue load push v s) :=
  faultsIn_andThen (pushMdr_faults rfl rfl rfl hpush rfl) fun _ _ => faultsIn_next _

/-- Every fault of an instruction: an access beyond memory, or, of one that pushes, the overflow of its push. -/
theorem exec_faults (i : Instr) (s : State) :
    FaultsIn (fun f => OutOfRange f ∨ (OfPush s f ∧ Pushes i)) (exec i s) := by
  have hshape := shapeInstr_shape i
  cases hi : i.shape with
  | two op src dst =>
    rw [hi] at hshape
    exact hshape ▸ (exec_twoOp_faults op src dst s).mono fun _ => .inl
  | branch op o =>
    rw [hi] at hshape
    exact hshape ▸ (exec_branch_faults op o s).mono fun _ => .inl
  | one op dst =>
    rw [hi] at hshape
    subst hshape
    by_cases hpush : op = .push
    · subst hpush
      exact (execPush_faults dst s).mono fun _ hf => .inr ⟨hf, .inr (.inr (.inl ⟨dst, rfl⟩))⟩
    · by_cases hcall : op = .call
      · subst hcall
        exact (execCall_faults dst s).mono fun _ hf => .inr ⟨hf, .inr (.inr (.inr ⟨dst, rfl⟩))⟩
      · exact (exec_oneOp_faults hpush hcall dst s).mono fun _ => .inl
  | other op =>
    rw [hi] at hshape
    subst hshape
    by_cases hpc : op = .pushpc
    · subst hpc
      exact (pushValue_faults (load := uPushpc0) (push := uPushpc1) (by decide) s.pc s).mono fun _ hf =>
        .inr ⟨hf, .inl rfl⟩
    · by_cases hflag : op = .pushflag
      · subst hflag
        exact (pushValue_faults (load := uPushflag0) (push := uPushflag1) (by decide) s.flags.word s).mono fun _ hf =>
          .inr ⟨hf, .inr (.inl rfl)⟩
      · exact (exec_other_faults hpc hflag s).mono fun _ => .inl

/-! ## The faults of a micro-cycle of the reference store -/

/-- R312, R316: only the fetch word fetches, and only the push words decrement `sp`. -/
def faultingWord (u : Nat) (m : MicroInstr) (_ : Word) : Bool :=
  (m.mem != .ifch || u == 1) && (m.misc != .decSp || pushWords.contains (BitVec.ofNat 8 u))

theorem faultingWords : checksWords faultingWord = true := by decide +kernel

/-- The fault of a micro-cycle within the store, by its stage. -/
theorem microStep_eq_fault {s : State} {f : Fault} (h : microStep s = .fault f) :
    f = .microAddress s ∨ ∃ m, referenceFields[s.upc.toNat]? = some m
      ∧ (dataStages m (s.enter s.upc) = .fault f
        ∨ ∃ u, dataStages m (s.enter s.upc) = .next u ∧ nextAddress Codes.reference m u = .fault f) := by
  by_cases hlt : s.upc.toNat < 135
  · obtain ⟨m, hm⟩ := exists_word hlt
    rw [microStep_eq hm] at h
    exact .inr ⟨m, hm, andThen_eq_fault.mp h⟩
  · rw [microStep_of_beyond hlt] at h
    exact .inl (Host.Outcome.fault.inj h).symm

theorem nextAddress_fault_cases {m : MicroInstr} {s : State} {f : Fault}
    (h : nextAddress Codes.reference m s = .fault f) : f = .wrongGroupIndex s ∨ f = .reservedOpcode s :=
  (indexValue_eq_error (nextAddress_eq_fault h)).imp_right And.right

/-- The micro-cycle of the fetch word. -/
theorem microStep_fetch {s : State} (h : s.upc = uFetch) :
    microStep s = andThen (fetchIr (s.enter uFetch)) fun t => nextAddress Codes.reference fetchWord t.incPc := by
  have hm : referenceFields[s.upc.toNat]? = some fetchWord := by rw [h]; rfl
  rw [microStep_eq hm, h, dataStages_fetchWord, andThen_assoc]
  rfl

theorem enter_fetch {s : State} (h : s.upc = uFetch) : s.enter uFetch = { s with cw := controlWordAt uFetch } := by
  rw [State.enter, ← h]

/-- R440: a micro-cycle raises ProgramEnd at the fetch word, with `pc` at or above STACK_BASE. -/
theorem microStep_programEnd_iff {s t : State} : microStep s = .fault (.programEnd t) ↔
    s.upc = uFetch ∧ s.params.stackBase ≤ s.pc.toNat ∧ t = { s with cw := controlWordAt uFetch } := by
  constructor
  · intro h
    have hupc : s.upc = uFetch := by
      obtain hf | ⟨m, hm, hdata | ⟨u, -, hnext⟩⟩ := microStep_eq_fault h
      · cases hf
      · have hword := check_of_checksWords faultingWords hm 0
        simp only [faultingWord, Bool.and_eq_true, Bool.or_eq_true, bne_iff_ne, beq_iff_eq] at hword
        obtain hrbus | ⟨written, hrbus, hmem | ⟨accessed, -, hmisc⟩⟩ := dataStages_eq_fault.mp hdata
        · obtain ⟨-, -, hf⟩ | ⟨-, -, hf⟩ := rbusStage_eq_fault hrbus <;> cases hf
        · obtain ⟨hsel, -, -⟩ | ⟨-, -, hf⟩ := memStage_eq_fault hmem
          · exact BitVec.eq_of_toNat_eq (hword.1.resolve_left fun hne => hne hsel)
          · cases hf
        · obtain ⟨-, -, hf⟩ := miscStage_eq_fault hmisc
          cases hf
      · obtain hf | hf := nextAddress_fault_cases hnext <;> cases hf
    rw [microStep_fetch hupc] at h
    obtain hfetch | ⟨u, -, hnext⟩ := andThen_eq_fault.mp h
    · obtain ⟨hbase, hf⟩ | ⟨-, hf⟩ := fetchIr_cases (s.enter uFetch) <;> rw [hf] at hfetch <;> cases hfetch
      exact ⟨hupc, hbase, enter_fetch hupc⟩
    · obtain hf | hf := nextAddress_fault_cases hnext <;> cases hf
  · rintro ⟨hupc, hbase, rfl⟩
    have hfetch : fetchIr (s.enter uFetch) = .fault (.programEnd (s.enter uFetch)) := if_pos hbase
    rw [microStep_fetch hupc, hfetch, andThen_fault, enter_fetch hupc]

/-- R441: a micro-cycle raises StackOverflow at a push word, where the decrement does not pass. -/
theorem microStep_stackOverflow {s t : State} (h : microStep s = .fault (.stackOverflow t)) :
    OverflowsFrom s (s.enter s.upc) ∧ t = pushStored (s.enter s.upc) := by
  obtain hf | ⟨m, hm, hdata | ⟨u, -, hnext⟩⟩ := microStep_eq_fault h
  · cases hf
  · have hword := check_of_checksWords faultingWords hm 0
    simp only [faultingWord, Bool.and_eq_true, Bool.or_eq_true, bne_iff_ne, BitVec.ofNat_toNat, BitVec.setWidth_eq,
      List.contains_iff_mem] at hword
    have hsel : m.misc = .decSp := by
      obtain hrbus | ⟨written, hrbus, hmem | ⟨accessed, -, hmisc⟩⟩ := dataStages_eq_fault.mp hdata
      · obtain ⟨-, -, hf⟩ | ⟨-, -, hf⟩ := rbusStage_eq_fault hrbus <;> cases hf
      · obtain ⟨-, -, hf⟩ | ⟨-, -, hf⟩ := memStage_eq_fault hmem <;> cases hf
      · exact (miscStage_eq_fault hmisc).1
    have hupc : s.upc ∈ pushWords := hword.2.resolve_left fun hne => hne hsel
    obtain ⟨a, ha⟩ := pushWords_fields hupc
    obtain rfl : m = pushWord a := Option.some.inj (hm.symm.trans ha)
    rw [dataStages_pushWord] at hdata
    obtain ⟨_, hf⟩ | ⟨hin, hfull, hf⟩ := pushMdr_fault hdata
    · cases hf
    · exact ⟨⟨rfl, rfl, rfl, hupc, rfl, hin, hfull⟩, Fault.stackOverflow.inj hf⟩
  · obtain hf | hf := nextAddress_fault_cases hnext <;> cases hf

/-! ## The faults of a step -/

/-- R441, R447: StackOverflow is raised by a push word, stepped alone or within its instruction. -/
theorem step_stackOverflow {s t : State} (h : step s = .fault (.stackOverflow t)) :
    ∃ w, OverflowsFrom s w ∧ t = pushStored w ∧ (s.upc = w.upc ∨ ∃ i, s.nextInstr = some i ∧ Pushes i) := by
  cases hi : s.nextInstr with
  | none =>
    rw [step, hi] at h
    obtain ⟨hw, ht⟩ := microStep_stackOverflow h
    exact ⟨_, hw, ht, .inl rfl⟩
  | some i =>
    rw [step_of_nextInstr hi] at h
    obtain ⟨_, hf⟩ | ⟨⟨_, hf⟩ | ⟨w, hw, hf⟩, hpushes⟩ := exec_faults i s.fetched _ h
    · cases hf
    · cases hf
    · exact ⟨w, ⟨hw.sp, hw.mem, hw.params, hw.upc, hw.cw, hw.inMemory, hw.full⟩, Fault.stackOverflow.inj hf,
        .inr ⟨i, rfl, hpushes⟩⟩

/-- Settles O23: no instruction that is fetched raises ProgramEnd, and of the micro-cycles the fetch word's does. -/
theorem programEndExactly : Obligations.ProgramEndExactly := by
  intro s t
  rw [← microStep_programEnd_iff]
  cases hi : s.nextInstr with
  | none => rw [step, hi]
  | some i =>
    obtain ⟨hupc, hpc⟩ : s.upc = uFetch ∧ s.pc.toNat < s.params.stackBase := by
      by_contra hno
      rw [State.nextInstr, if_neg hno] at hi
      cases hi
    refine ⟨fun h => ?_, fun h => ?_⟩
    · rw [step_of_nextInstr hi] at h
      obtain ⟨_, hf⟩ | ⟨⟨_, hf⟩ | ⟨_, _, hf⟩, _⟩ := exec_faults i s.fetched _ h <;> cases hf
    · obtain ⟨-, hbase, -⟩ := microStep_programEnd_iff.mp h
      omega

/-- Settles O24: what a push that cannot decrement leaves behind. -/
theorem stackOverflowOnlyFromPushes : Obligations.StackOverflowOnlyFromPushes := by
  intro s t h
  obtain ⟨w, hw, rfl, hplace⟩ := step_stackOverflow h
  have hfull := hw.full
  rw [canPush, decide_eq_false_iff_not, hw.sp, hw.params] at hfull
  refine ⟨by omega, hw.sp, ?_, hw.upc, hplace⟩
  rw [← hw.sp, ← hw.mem]
  rfl

/-- The residue of an overflow, pushed again, is left as it is: the cell holds the value already. -/
theorem pushStored_pushStored {w : State} (hwf : w.mem.wf = true) : pushStored (pushStored w) = pushStored w := by
  have hmem : (w.mem.write w.sp.toNat w.mdr).write w.sp.toNat w.mdr = w.mem.write w.sp.toNat w.mdr :=
    Memory.write_write_same hwf _ _
  have hagain : pushStored (pushStored w)
      = { pushStored w with mem := (w.mem.write w.sp.toNat w.mdr).write w.sp.toNat w.mdr } := rfl
  rw [hagain, hmem]
  rfl

/-- The step from the residue of an overflow is the push word again. -/
theorem step_pushStored {s w : State} (hw : OverflowsFrom s w) (hwf : s.mem.wf = true) :
    step (pushStored w) = .fault (.stackOverflow (pushStored w)) := by
  have haway : (pushStored w).upc ≠ uFetch := by
    have hall : ∀ u ∈ pushWords, u ≠ uFetch := by decide
    exact hall _ hw.upc
  obtain ⟨a, ha⟩ := pushWords_fields hw.upc
  have hm : referenceFields[(pushStored w).upc.toNat]? = some (pushWord a) := ha
  have hlatched : (pushStored w).enter (pushStored w).upc = pushStored w := by
    have hcw : (pushStored w).cw = controlWordAt (pushStored w).upc := hw.cw
    rw [State.enter, ← hcw]
  rw [step_of_upc_ne_fetch haway, microStep_eq hm, dataStages_pushWord, hlatched,
    pushMdr_of_overflow (w := pushStored w) hw.inMemory hw.full, andThen_fault,
    pushStored_pushStored (hw.mem ▸ hwf)]

/-- Settles O25: the residue of ProgramEnd is at the fetch word with the same `pc`, that of StackOverflow at its push
word with the value stored. -/
theorem faultsRepeat : Obligations.FaultsRepeat := by
  refine fun s t hwf => ⟨fun h => ?_, fun h => ?_⟩
  · obtain ⟨hupc, hbase, rfl⟩ := (programEndExactly s t).mp h
    exact (programEndExactly _ _).mpr ⟨hupc, hbase, rfl⟩
  · obtain ⟨w, hw, rfl, -⟩ := step_stackOverflow h
    exact step_pushStored hw hwf

end Sys2Proof.Proofs.ArchitecturalFaults

/-! What the latches can tell a program: the run of two states that differ in latches only (R480). At each word of the
reference store the latches that still matter are named; every word reads only these, and leaves those that matter at
the words it leads to. -/

namespace Sys2Proof.Proofs.Noninterference
open Sys2Proof Sys2Proof.Machine Sys2Proof.Proofs.MicroCycle Sys2Proof.Proofs.MicroStages
  Sys2Proof.Proofs.ReferenceCycles Sys2Proof.Proofs.CheckedStore Sys2Proof.Proofs.ReferenceStore

/-! ## Agreement in some latches -/

/-- A choice of the latches that no program names (R24 to R27, R29, R31). -/
structure Latches where
  ir : Bool := false
  adr : Bool := false
  mdr : Bool := false
  t : Bool := false
  pending : Bool := false
  regsel : Bool := false

/-- Two states that agree architecturally, in `upc`, and in the latches chosen. -/
structure Agree (l : Latches) (a b : State) : Prop where
  arch : a.arch = b.arch
  upc : a.upc = b.upc
  ir : l.ir → a.ir = b.ir
  adr : l.adr → a.adr = b.adr
  mdr : l.mdr → a.mdr = b.mdr
  t : l.t → a.t = b.t
  pending : l.pending → a.pending = b.pending
  regsel : l.regsel → a.regsel = b.regsel

/-- Each latch of the first choice is in the second. -/
def Latches.within (l k : Latches) : Bool :=
  (!l.ir || k.ir) && (!l.adr || k.adr) && (!l.mdr || k.mdr) && (!l.t || k.t) && (!l.pending || k.pending)
    && (!l.regsel || k.regsel)

theorem Agree.mono {l k : Latches} {a b : State} (h : Agree k a b) (hl : l.within k = true) : Agree l a b := by
  have himp {p q : Bool} (hpq : (!p || q) = true) (hp : p = true) : q = true := by simpa [hp] using hpq
  simp only [Latches.within, Bool.and_eq_true] at hl
  obtain ⟨⟨⟨⟨⟨hir, hadr⟩, hmdr⟩, ht⟩, hpending⟩, hregsel⟩ := hl
  exact ⟨h.arch, h.upc, fun x => h.ir (himp hir x), fun x => h.adr (himp hadr x), fun x => h.mdr (himp hmdr x),
    fun x => h.t (himp ht x), fun x => h.pending (himp hpending x), fun x => h.regsel (himp hregsel x)⟩

/-- Agreement, as the one state with other latches. -/
theorem Agree.exists_eq {l : Latches} {a b : State} (h : Agree l a b) : ∃ ir adr mdr t pending regsel cw,
    b = { a with ir, adr, mdr, t, pending, regsel, cw } :=
  ⟨b.ir, b.adr, b.mdr, b.t, b.pending, b.regsel, b.cw, by
    obtain ⟨harch, hupc, -⟩ := h
    simp only [State.arch, Arch.mk.injEq] at harch
    obtain ⟨hregs, hpc, hsp, hflags, hmem, hintp, hparams⟩ := harch
    rw [hregs, hpc, hsp, hflags, hmem, hintp, hparams, hupc]⟩

/-- Two answers that agree: next states in the latches chosen, or faults of one kind in their architectural residue. -/
def Alike (l : Latches) : Result → Result → Prop
  | .next a, .next b => Agree l a b
  | .fault f, .fault g => f.agrees g
  | .refused e, .refused e' => e = e'
  | _, _ => False

theorem alike_next {l : Latches} {a b : State} : Alike l (.next a) (.next b) ↔ Agree l a b := Iff.rfl

theorem alike_fault {l : Latches} {f g : Fault} : Alike l (.fault f) (.fault g) ↔ f.agrees g := Iff.rfl

theorem Alike.andThen {l k : Latches} {r r' : Result} {f g : State → Result} (h : Alike l r r')
    (hfg : ∀ a b, r = .next a → Agree l a b → Alike k (f a) (g b)) : Alike k (andThen r f) (andThen r' g) := by
  cases r <;> cases r'
  case next.next a b => exact hfg a b rfl h
  case fault.fault => exact h
  case refused.refused => exact h
  all_goals exact h.elim

theorem Alike.sameAtInstructionLevel {l : Latches} {r r' : Result} (h : Alike l r r') : sameAtInstructionLevel r r' := by
  cases r <;> cases r'
  case next.next => exact ⟨h.arch, h.upc⟩
  case fault.fault => exact h
  case refused.refused => exact h
  all_goals exact h.elim

/-! ## The stages -/

/-- The SBus value depends on the chosen latches only. -/
def sbusAgreed (sel : SBus) (l : Latches) : Bool :=
  match sel with
  | .none | .zero | .minusOne | .one => true
  | .reg | .irOffset => l.ir
  | .t => l.t
  | .mdr => l.mdr

/-- The DBus value depends on the chosen latches only. -/
def dbusAgreed (sel : DBus) (l : Latches) : Bool :=
  match sel with
  | .none | .zero | .pc | .sp | .flags => true
  | .reg => l.ir
  | .mdr | .notMdr => l.mdr
  | .t => l.t

/-- The ALU's answer depends on the chosen latches only. -/
def resultAgreed (m : MicroInstr) (l : Latches) : Bool :=
  m.alu == .none || (sbusAgreed m.sbus l && dbusAgreed m.dbus l)

theorem sbusStage_agree {sel : SBus} {l : Latches} {a b : State} (h : Agree l a b) (hsel : sbusAgreed sel l = true) :
    (sbusStage sel a).1 = (sbusStage sel b).1 := by
  obtain ⟨_, _, _, _, _, _, _, rfl⟩ := h.exists_eq
  cases sel
  case none | zero | minusOne | one => rfl
  case reg => exact congrArg (fun v => a.reg (regSrcField v)) (h.ir hsel)
  case irOffset => exact congrArg (fun v => extendOffset a.params.brOffsetSigned (offsetField v)) (h.ir hsel)
  case t => exact h.t hsel
  case mdr => exact h.mdr hsel

theorem dbusStage_agree {sel : DBus} {l : Latches} {a b : State} (h : Agree l a b) (hsel : dbusAgreed sel l = true) :
    (dbusStage sel a).1 = (dbusStage sel b).1 := by
  obtain ⟨_, _, _, _, _, _, _, rfl⟩ := h.exists_eq
  cases sel
  case none | zero | pc | sp | flags => rfl
  case reg => exact congrArg (fun v => a.reg (regDstField v)) (h.ir hsel)
  case mdr => exact h.mdr hsel
  case notMdr => exact congrArg (· ^^^ 0xFFFF) (h.mdr hsel)
  case t => exact h.t hsel

theorem aluResult_agree {m : MicroInstr} {l : Latches} {a b : State} (h : Agree l a b)
    (hres : resultAgreed m l = true) : aluResult m a = aluResult m b := by
  have hflags : a.flags = b.flags := congrArg Arch.flags h.arch
  rw [resultAgreed, Bool.or_eq_true, Bool.and_eq_true, beq_iff_eq] at hres
  rw [aluResult, aluResult]
  obtain hnone | ⟨hsbus, hdbus⟩ := hres
  · rw [(alu_eq_none_iff ..).mpr hnone, (alu_eq_none_iff ..).mpr hnone]
  · rw [sbusStage_agree h hsbus, dbusStage_agree h hdbus, hflags]

/-- The latches agreed after stages 2 to 4. -/
def afterCompute (m : MicroInstr) (l : Latches) : Latches :=
  { l with
    pending := if m.alu == .none then l.pending else resultAgreed m l
    regsel := if m.dbus == .reg || m.sbus == .reg then l.ir else l.regsel }

theorem computed_agree {l : Latches} {a b : State} (m : MicroInstr) (h : Agree l a b) :
    Agree (afterCompute m l) (computed m a) (computed m b) := by
  have hpending (hsel : (afterCompute m l).pending = true) : pendingAfter m a = pendingAfter m b := by
    simp only [afterCompute] at hsel
    split at hsel
    · next hnone => rw [pendingAfter_of_none a (eq_of_beq hnone), pendingAfter_of_none b (eq_of_beq hnone), h.pending hsel]
    · next hsome =>
      obtain ⟨res, hres⟩ := aluResult_eq_some_of_ne_none a (beq_eq_false_iff_ne.mp (Bool.eq_false_of_not_eq_true hsome))
      rw [pendingAfter, pendingAfter, ← aluResult_agree h hsel, hres]
      rfl
  have hregsel (hsel : (afterCompute m l).regsel = true) : (operandsRead m a).regsel = (operandsRead m b).regsel := by
    rw [operandsRead_regsel, operandsRead_regsel]
    simp only [afterCompute, Bool.or_eq_true, beq_iff_eq] at hsel
    split_ifs at hsel with hreg
    · rw [h.ir hsel]
      split_ifs <;> tauto
    · rw [if_neg fun hd => hreg (.inl hd), if_neg fun hs => hreg (.inr hs), if_neg fun hd => hreg (.inl hd),
        if_neg fun hs => hreg (.inr hs)]
      exact h.regsel hsel
  have hframe (s : State) : computed m s = { s with pending := pendingAfter m s, regsel := (operandsRead m s).regsel } :=
    computed_frame m s
  rw [hframe a, hframe b]
  exact ⟨h.arch, h.upc, h.ir, h.adr, h.mdr, h.t, hpending, hregsel⟩

/-- Stage 5 writes architectural state from agreed latches only. -/
def rbusAllowed (sel : RBus) (result : Bool) (l : Latches) : Bool :=
  match sel with
  | .none | .adr | .t | .mdr => true
  | .reg => result && l.regsel
  | .pc | .flags => result

/-- The latches agreed after stage 5. -/
def afterRBus (sel : RBus) (result : Bool) (l : Latches) : Latches :=
  match sel with
  | .adr => { l with adr := result }
  | .t => { l with t := result }
  | .mdr => { l with mdr := result }
  | .none | .reg | .pc | .flags => l

theorem rbusStage_some_agree {sel : RBus} {result : Bool} {l : Latches} {a b : State} {v v' : Word} (h : Agree l a b)
    (hsel : rbusAllowed sel result l = true) (hv : result = true → v = v') :
    Alike (afterRBus sel result l) (rbusStage sel (some v) a) (rbusStage sel (some v') b) := by
  obtain ⟨_, _, _, _, _, _, _, rfl⟩ := h.exists_eq
  cases sel
  case none => exact h
  case adr => exact ⟨rfl, rfl, h.ir, hv, h.mdr, h.t, h.pending, h.regsel⟩
  case t => exact ⟨rfl, rfl, h.ir, h.adr, h.mdr, hv, h.pending, h.regsel⟩
  case mdr => exact ⟨rfl, rfl, h.ir, h.adr, hv, h.t, h.pending, h.regsel⟩
  case pc | flags =>
    obtain rfl := hv hsel
    exact ⟨rfl, rfl, h.ir, h.adr, h.mdr, h.t, h.pending, h.regsel⟩
  case reg =>
    simp only [rbusAllowed, Bool.and_eq_true] at hsel
    obtain rfl := hv hsel.1
    have hregsel := h.regsel hsel.2
    dsimp only at hregsel
    subst hregsel
    cases hlatched : a.regsel with
    | none =>
      simp only [rbusStage, hlatched, alike_fault]
      exact rfl
    | some r =>
      simp only [rbusStage, hlatched, alike_next]
      exact ⟨rfl, rfl, h.ir, h.adr, h.mdr, h.t, h.pending, fun _ => hlatched.trans rfl⟩

theorem rbusStage_agree {sel : RBus} {result : Bool} {l : Latches} {a b : State} {res res' : Option Word}
    (h : Agree l a b) (hsel : rbusAllowed sel result l = true) (hres : result = true → res = res')
    (hsome : res.isSome = res'.isSome) :
    Alike (afterRBus sel result l) (rbusStage sel res a) (rbusStage sel res' b) := by
  cases res <;> cases res'
  case none.none =>
    cases sel
    case none => exact h
    all_goals exact h.arch
  case some.some v v' => exact rbusStage_some_agree h hsel fun hr => Option.some.inj (hres hr)
  all_goals cases hsome

/-- Stage 6 accesses memory by agreed latches only. -/
def memAllowed (sel : MemOp) (l : Latches) : Bool :=
  match sel with
  | .none | .ifch => true
  | .read => l.adr
  | .write => l.adr && l.mdr

/-- The latches agreed after stage 6. -/
def afterMem (sel : MemOp) (l : Latches) : Latches :=
  match sel with
  | .none | .write => l
  | .ifch => { l with ir := true }
  | .read => { l with mdr := true }

theorem memStage_agree {sel : MemOp} {l : Latches} {a b : State} (h : Agree l a b) (hsel : memAllowed sel l = true) :
    Alike (afterMem sel l) (memStage sel a) (memStage sel b) := by
  obtain ⟨_, adr, mdr, _, _, _, _, rfl⟩ := h.exists_eq
  cases sel
  case none => exact h
  case ifch =>
    rw [memStage, memStage, fetchIr, fetchIr]
    split
    · exact rfl
    · exact ⟨rfl, rfl, fun _ => rfl, h.adr, h.mdr, h.t, h.pending, h.regsel⟩
  case read =>
    obtain rfl : a.adr = adr := h.adr hsel
    rw [memStage, memStage, memRead, memRead]
    change Alike _ (if a.inMemory a.adr then _ else _) (if a.inMemory a.adr then _ else _)
    split
    · exact ⟨rfl, rfl, h.ir, h.adr, fun _ => rfl, h.t, h.pending, h.regsel⟩
    · exact rfl
  case write =>
    rw [memAllowed, Bool.and_eq_true] at hsel
    obtain rfl : a.adr = adr := h.adr hsel.1
    obtain rfl : a.mdr = mdr := h.mdr hsel.2
    rw [memStage, memStage, memWrite, memWrite]
    change Alike _ (if a.inMemory a.adr then _ else _) (if a.inMemory a.adr then _ else _)
    split
    · exact ⟨rfl, rfl, h.ir, h.adr, h.mdr, h.t, h.pending, h.regsel⟩
    · exact rfl

theorem miscStage_agree {sel : Misc} {l : Latches} {a b : State} (h : Agree l a b)
    (hsel : sel = .cond → l.pending = true) : Alike l (miscStage sel a) (miscStage sel b) := by
  obtain ⟨_, _, _, _, pending, _, _, rfl⟩ := h.exists_eq
  cases sel
  case cond =>
    obtain rfl : a.pending = pending := h.pending (hsel rfl)
    exact ⟨rfl, rfl, h.ir, h.adr, h.mdr, h.t, h.pending, h.regsel⟩
  case decSp =>
    rw [miscStage, miscStage, decSp, decSp]
    split
    · exact rfl
    · exact ⟨rfl, rfl, h.ir, h.adr, h.mdr, h.t, h.pending, h.regsel⟩
  all_goals exact ⟨rfl, rfl, h.ir, h.adr, h.mdr, h.t, h.pending, h.regsel⟩

/-- The latches agreed after stages 2 to 7. -/
def latchesAfter (m : MicroInstr) (l : Latches) : Latches :=
  afterMem m.mem (afterRBus m.rbus (resultAgreed m l) (afterCompute m l))

/-- Stages 2 to 7 change the architectural state from agreed latches only. -/
def dataAllowed (m : MicroInstr) (l : Latches) : Bool :=
  let computed := afterCompute m l
  let written := afterRBus m.rbus (resultAgreed m l) computed
  rbusAllowed m.rbus (resultAgreed m l) computed && memAllowed m.mem written
    && (m.misc != .cond || (afterMem m.mem written).pending)

theorem dataStages_agree {m : MicroInstr} {l : Latches} {a b : State} (h : Agree l a b)
    (hm : dataAllowed m l = true) : Alike (latchesAfter m l) (dataStages m a) (dataStages m b) := by
  simp only [dataAllowed, Bool.and_eq_true, Bool.or_eq_true, bne_iff_ne] at hm
  obtain ⟨⟨hrbus, hmem⟩, hmisc⟩ := hm
  have hsome : ((aluResult m a).map Prod.fst).isSome = ((aluResult m b).map Prod.fst).isSome := by
    by_cases hnone : m.alu = .none
    · rw [aluResult, aluResult, (alu_eq_none_iff ..).mpr hnone, (alu_eq_none_iff ..).mpr hnone]
    · obtain ⟨_, ha⟩ := aluResult_eq_some_of_ne_none a hnone
      obtain ⟨_, hb⟩ := aluResult_eq_some_of_ne_none b hnone
      rw [ha, hb]
      rfl
  have hstored := rbusStage_agree (computed_agree m h) hrbus
    (fun hres => congrArg (Option.map Prod.fst) (aluResult_agree h hres)) hsome
  exact hstored.andThen fun _ _ _ hwritten => (memStage_agree hwritten hmem).andThen fun _ _ _ haccessed =>
    miscStage_agree haccessed fun hcond => hmisc.resolve_left fun hne => hne hcond

/-- Stage 8 looks at `ir` and architectural state. -/
theorem condHolds_agree {l : Latches} {a b : State} (c : Codes) (sel : Cond) (h : Agree l a b) (hir : l.ir = true) :
    condHolds c sel a = condHolds c sel b := by
  obtain ⟨ir, _, _, _, _, _, _, rfl⟩ := h.exists_eq
  obtain rfl : a.ir = ir := h.ir hir
  cases sel <;> rfl

theorem distanceIndex_agree {l : Latches} {a b : State} (c : Codes) (serves : Group → Bool) (h : Agree l a b)
    (hir : l.ir = true) : (∃ v, distanceIndex c serves a = .ok v ∧ distanceIndex c serves b = .ok v)
      ∨ ∃ f g, distanceIndex c serves a = .error f ∧ distanceIndex c serves b = .error g ∧ f.agrees g := by
  simp only [distanceIndex, ← h.ir hir]
  split
  · exact .inr ⟨_, _, rfl, rfl, h.arch⟩
  · split
    · exact .inr ⟨_, _, rfl, rfl, h.arch⟩
    · exact .inl ⟨_, rfl, rfl⟩

/-- Stage 9 looks at `ir`. -/
theorem indexValue_agree {l : Latches} {a b : State} (c : Codes) (sel : Index) (h : Agree l a b) (hir : l.ir = true) :
    (∃ v, indexValue c sel a = .ok v ∧ indexValue c sel b = .ok v)
      ∨ ∃ f g, indexValue c sel a = .error f ∧ indexValue c sel b = .error g ∧ f.agrees g := by
  cases sel
  case none => exact .inl ⟨0, rfl, rfl⟩
  case mas => exact .inl ⟨_, rfl, by rw [h.ir hir]; rfl⟩
  case mad => exact .inl ⟨_, rfl, by rw [h.ir hir]; rfl⟩
  case opcode | oneOp | twoOp =>
    simp only [indexValue]
    exact distanceIndex_agree c _ h hir

theorem nextAddress_agree {c : Codes} {l : Latches} {a b : State} (m : MicroInstr) (h : Agree l a b)
    (hir : l.ir = true) : Alike l (nextAddress c m a) (nextAddress c m b) := by
  have hpair : chosenPair c m a = chosenPair c m b := by
    rw [chosenPair, chosenPair, condHolds_agree c m.cond h hir]
  obtain ⟨v, ha, hb⟩ | ⟨f, g, ha, hb, hfg⟩ := indexValue_agree c (chosenPair c m a).2 h hir
  · rw [nextAddress_of_ok ha, nextAddress_of_ok (hpair ▸ hb), hpair]
    exact ⟨h.arch, rfl, h.ir, h.adr, h.mdr, h.t, h.pending, h.regsel⟩
  · rw [nextAddress_of_error ha, nextAddress_of_error (hpair ▸ hb)]
    exact hfg

/-! ## The latches that matter at each word of the reference store -/

/-- The latches that matter at a word, on a class of `ir` (R312 to R317): none at the fetch; `adr` and `regsel` where the
destination's address or register waits for the write-back; `mdr` and `t` where an operand, a result or a popped value
waits for its use. -/
def liveLatches (u : Nat) (w : Word) : Latches :=
  if u = uFetch.toNat then {}
  else
    let direct := modeDstField w == Codes.reference.modeCode .direct
    let executes := decide (17 ≤ u ∧ u ≤ 51)
    { ir := true
      adr := [16, 107].contains u || (!direct && (u == 11 || executes))
      regsel := [15, 103].contains u || (direct && ([10, 61, 62, 101].contains u || executes))
      mdr := [8, 9, 94, 98, 101, 106, 112, 113, 115, 116].contains u || decide (14 ≤ u ∧ u ≤ 59)
      t := ([10, 11, 12, 13, 14].contains u && group w == .twoOp) || decide (17 ≤ u ∧ u ≤ 30)
        || [34, 56, 57, 58, 103, 104, 105, 106, 107].contains u }

/-- What a word does with the latches that matter at it. -/
def latchWord (u : Nat) (m : MicroInstr) (w : Word) : Bool :=
  let live := liveLatches u w
  let after := latchesAfter m live
  dataAllowed m live && after.ir && (m.mem != .ifch || u == uFetch.toNat)
    && (nextAddresses m w).all fun a => (liveLatches a w).within after

theorem latchWords : checksWords latchWord = true := by decide +kernel

/-- The latches that matter at a state's next word: `ir` counts as its class. -/
def liveAt (s : State) : Latches := liveLatches s.upc.toNat (classOf s.ir)

theorem liveLatches_fetch (w : Word) : liveLatches uFetch.toNat w = {} := if_pos rfl

/-- A word other than the fetch keeps `ir`; what matters at the fetch does not depend on it. -/
theorem liveLatches_dataStages {m : MicroInstr} {s t : State} (h : dataStages m (s.enter s.upc) = .next t)
    (hfetch : m.mem = .ifch → s.upc.toNat = uFetch.toNat) :
    liveAt s = liveLatches s.upc.toNat (classOf t.ir) := by
  by_cases hm : m.mem = .ifch
  · rw [liveAt, hfetch hm, liveLatches_fetch, liveLatches_fetch]
  · rw [liveAt, dataStages_ir h hm]
    rfl

theorem Agree.enter {l : Latches} {a b : State} (h : Agree l a b) : Agree l (a.enter a.upc) (b.enter b.upc) :=
  ⟨h.arch, h.upc, h.ir, h.adr, h.mdr, h.t, h.pending, h.regsel⟩

/-! ## Micro-cycles -/

/-- What the check of the words says of the word that a state enters. -/
theorem latchWord_at {s : State} {m : MicroInstr} (hm : referenceFields[s.upc.toNat]? = some m) (v : Word) :
    let live := liveLatches s.upc.toNat (classOf v)
    dataAllowed m live = true ∧ (latchesAfter m live).ir = true ∧ (m.mem = .ifch → s.upc.toNat = uFetch.toNat)
      ∧ ∀ a ∈ nextAddresses m (classOf v), (liveLatches a (classOf v)).within (latchesAfter m live) = true := by
  have hword := check_of_checksWords latchWords hm v
  simp only [latchWord, Bool.and_eq_true, Bool.or_eq_true, bne_iff_ne, beq_iff_eq, List.all_eq_true] at hword
  obtain ⟨⟨⟨hallowed, hir⟩, hfetch⟩, hnext⟩ := hword
  exact ⟨hallowed, hir, fun hmem => hfetch.resolve_left fun hne => hne hmem, hnext⟩

/-- A micro-cycle of two states that agree in what matters leaves them agreeing in what matters next. -/
theorem microStep_agree {a b : State} (h : Agree (liveAt a) a b) : ∃ l, Alike l (microStep a) (microStep b)
    ∧ ∀ t, microStep a = .next t → (liveAt t).within l = true := by
  by_cases hlt : a.upc.toNat < 135
  · obtain ⟨m, hm⟩ := exists_word hlt
    obtain ⟨hallowed, hir, hfetch, -⟩ := latchWord_at hm a.ir
    refine ⟨latchesAfter m (liveAt a), ?_, fun t ht => ?_⟩
    · rw [microStep_eq hm, microStep_eq (h.upc ▸ hm)]
      exact (dataStages_agree h.enter hallowed).andThen fun _ _ _ hdata => nextAddress_agree m hdata hir
    · obtain ⟨m', u, hm', hdata, htu, hmem, -⟩ := microStep_upc ht
      obtain rfl : m' = m := Option.some.inj (hm'.symm.trans hm)
      have hu : u.ir = t.ir := by rw [htu]
      rw [liveLatches_dataStages hdata hfetch, hu]
      obtain ⟨-, -, -, hnext⟩ := latchWord_at hm t.ir
      exact hnext _ hmem
  · refine ⟨{}, ?_, fun t ht => ?_⟩
    · rw [microStep_of_beyond hlt, microStep_of_beyond (h.upc ▸ hlt)]
      exact h.arch
    · rw [microStep_of_beyond hlt] at ht
      cases ht

theorem run_agree : ∀ (n : Nat) {a b : State}, Agree (liveAt a) a b → Alike {} (run n a) (run n b)
  | 0, _, _, h => h.mono rfl
  | n + 1, _, _, h => by
    obtain ⟨l, hstep, hlive⟩ := microStep_agree h
    exact hstep.andThen fun _ _ hnext hab => run_agree n (hab.mono (hlive _ hnext))

/-- Settles O37: at the fetch word no latch matters. -/
theorem latchesAreInvisible : Obligations.LatchesAreInvisible := by
  intro a b n ha hb harch
  have hnone : liveAt a = {} := by rw [liveAt, ha, liveLatches_fetch]
  refine (run_agree n (hnone ▸ ?_)).sameAtInstructionLevel
  exact ⟨harch, ha.trans hb.symm, nofun, nofun, nofun, nofun, nofun, nofun⟩

end Sys2Proof.Proofs.Noninterference

/-! Reserved opcode words (U1, R128): the reference store reaches their dispatch within eight micro-cycles, and does
nothing before it that can stop, but for the operand accesses of TWO_OP and ONE_OP words. -/

namespace Sys2Proof.Proofs.ReservedWords
open Sys2Proof Sys2Proof.Machine Sys2Proof.Proofs.MicroCycle Sys2Proof.Proofs.MicroStages
  Sys2Proof.Proofs.ReferenceCycles Sys2Proof.Proofs.Refinement Sys2Proof.Proofs.WalkKnowledge
  Sys2Proof.Proofs.WalkSoundness Sys2Proof.Proofs.CheckedStore Sys2Proof.Proofs.ReferenceStore
  Sys2Proof.Proofs.ArchitecturalFaults

/-- An index selector that looks at the opcode. -/
def dispatches (ix : Index) : Bool := ix == .opcode || ix == .oneOp || ix == .twoOp

/-- R128: a selector that looks at the opcode answers no index on a reserved word. -/
theorem dispatches_of_ok {c : Codes} {ix : Index} {s : State} {x : Nat} (hdef : c.opcodeDefined s.ir = false)
    (hx : indexValue c ix s = .ok x) : dispatches ix = false := by
  have hnone (serves : Group → Bool) (hok : distanceIndex c serves s = .ok x) : False := by
    rw [distanceIndex] at hok
    split at hok
    · cases hok
    · rw [hdef] at hok
      cases hok
  cases ix
  case none | mas | mad => rfl
  case opcode | oneOp | twoOp =>
    simp only [indexValue] at hx
    exact (hnone _ hx).elim

/-- The accesses to an operand happen for these groups only. -/
def hasOperand (w : Word) : Bool := group w == .twoOp || group w == .oneOp

/-- How many micro-cycles a reserved word of a class can run after the one at a micro-address on the way to its dispatch;
8 stands for the addresses that are not on the way. -/
def cyclesLeft (w : Word) (u : Nat) : Nat :=
  match group w with
  | .other => [8, 0].getD u 8
  | .branch => [8, 2, 1, 0].getD u 8
  | .twoOp | .oneOp => [8, 7, 6, 5, 3, 2, 3, 4, 3, 2, 0, 0, 0, 1, 0].getD u 8

/-- A pair that a reserved word chooses at a micro-address dispatches it, or leads it on. -/
def pairOnTheWay (u : Nat) (w : Word) (p : Nat × Index) : Bool :=
  match indexCan Codes.reference .certificate p.2 w with
  | none => false
  | some values => dispatches p.2 || values.all fun x => decide (p.1 + x < 135 ∧ cyclesLeft w (p.1 + x) < cyclesLeft w u)

/-- What a word on the way does: beside the fetch, at most an operand access can stop, and each of its pairs dispatches
or leads on. -/
def reservedWord (u : Nat) (m : MicroInstr) (w : Word) : Bool :=
  cyclesLeft w u == 8
    || ((m.mem != .ifch || u == uFetch.toNat) && m.rbus != .reg && (m.rbus == .none || m.alu != .none) && m.misc != .decSp
      && (m.mem == .none || m.mem == .ifch || hasOperand w) && (possiblePairs m w).all (pairOnTheWay u w))

theorem reservedWords : checksWords reservedWord = true := by decide +kernel

/-- What the check of the words says of a word on the way. -/
structure OnTheWay (u : Nat) (m : MicroInstr) (w : Word) : Prop where
  fetch : m.mem = .ifch → u = uFetch.toNat
  register : m.rbus ≠ .reg
  result : m.rbus = .none ∨ m.alu ≠ .none
  decrement : m.misc ≠ .decSp
  access : m.mem = .none ∨ m.mem = .ifch ∨ hasOperand w = true
  pairs : ∀ p ∈ possiblePairs m w, pairOnTheWay u w p = true

theorem onTheWay {u : Nat} {m : MicroInstr} (hm : referenceFields[u]? = some m) {v : Word}
    (hleft : cyclesLeft (classOf v) u < 8) : OnTheWay u m (classOf v) := by
  have hword := check_of_checksWords reservedWords hm v
  simp only [reservedWord, Bool.or_eq_true, Bool.and_eq_true, beq_iff_eq, bne_iff_ne, List.all_eq_true] at hword
  obtain hout | ⟨⟨⟨⟨⟨hfetch, hregister⟩, hresult⟩, hdecrement⟩, haccess⟩, hpairs⟩ := hword
  · omega
  · exact ⟨fun h => hfetch.resolve_left fun hne => hne h, hregister, hresult, hdecrement, by tauto, hpairs⟩

/-- How a reserved word stops. -/
def Stops (w : Word) (r : Result) : Prop :=
  (∃ t, r = .fault (.reservedOpcode t)) ∨ (hasOperand w = true ∧ ∃ t, r = .fault (.dataOutOfRange t))

theorem hasOperand_classOf (v : Word) : hasOperand (classOf v) = hasOperand v := by
  rw [hasOperand, hasOperand, (classOf_standsFor v).group]

/-- Stages 8 to 10 dispatch the reserved word or lead it on. -/
theorem nextAddress_reserved {u : Nat} {m : MicroInstr} {s : State} (hdef : Codes.reference.opcodeDefined s.ir = false)
    (hm : OnTheWay u m (classOf s.ir)) : nextAddress Codes.reference m s = .fault (.reservedOpcode s)
      ∨ ∃ t, nextAddress Codes.reference m s = .next t ∧ t.ir = s.ir
        ∧ cyclesLeft (classOf s.ir) t.upc.toNat < cyclesLeft (classOf s.ir) u := by
  have hpair := hm.pairs _ (chosenPair_mem m s)
  obtain ⟨values, hvalues⟩ : ∃ values,
      indexCan Codes.reference .certificate (chosenPair Codes.reference m s).2 (classOf s.ir) = some values := by
    rw [pairOnTheWay] at hpair
    split at hpair
    · cases hpair
    · next values hvalues => exact ⟨values, hvalues⟩
  simp only [pairOnTheWay, hvalues, Bool.or_eq_true, List.all_eq_true, decide_eq_true_iff] at hpair
  cases hx : indexValue Codes.reference (chosenPair Codes.reference m s).2 s with
  | error f =>
    rw [nextAddress_of_error hx]
    obtain rfl | ⟨-, rfl⟩ := indexValue_eq_error hx
    · rw [indexCan_of_wrongGroup (classOf_standsFor s.ir) hx] at hvalues
      cases hvalues
    · exact .inl rfl
  | ok x =>
    have hleads := hpair.resolve_left fun h => Bool.false_ne_true ((dispatches_of_ok hdef hx).symm.trans h)
    obtain ⟨hlt, hless⟩ := hleads x (indexCan_right (classOf_standsFor s.ir) hx hvalues)
    refine .inr ⟨_, nextAddress_of_ok hx, rfl, ?_⟩
    dsimp only
    rwa [upc_of_lt hlt]

/-- Stages 2 to 7 of a word on the way, other than the fetch, complete or make an operand access out of range. -/
theorem dataStages_reserved {u : Nat} {m : MicroInstr} {s : State} {f : Fault} (hm : OnTheWay u m (classOf s.ir))
    (hfetch : u ≠ uFetch.toNat) (h : dataStages m s = .fault f) :
    hasOperand s.ir = true ∧ ∃ t, f = .dataOutOfRange t := by
  obtain hrbus | ⟨written, -, hmem | ⟨accessed, -, hmisc⟩⟩ := dataStages_eq_fault.mp h
  · obtain ⟨hsel, hnone, -⟩ | ⟨hsel, -, -⟩ := rbusStage_eq_fault hrbus
    · obtain ⟨_, hres⟩ := aluResult_eq_some_of_ne_none s (hm.result.resolve_left hsel)
      rw [hres] at hnone
      cases hnone
    · exact absurd hsel hm.register
  · obtain ⟨hsel, -, -⟩ | ⟨hsel, -, rfl⟩ := memStage_eq_fault hmem
    · exact absurd (hm.fetch hsel) hfetch
    · obtain hno | hno | hoperand := hm.access
      · obtain hsel | hsel := hsel <;> cases hno.symm.trans hsel
      · obtain hsel | hsel := hsel <;> cases hno.symm.trans hsel
      · exact ⟨hasOperand_classOf s.ir ▸ hoperand, _, rfl⟩
  · exact absurd (miscStage_eq_fault hmisc).1 hm.decrement

theorem cyclesLeft_fetch_lt (w : Word) : cyclesLeft w uFetch.toNat < 8 := by
  rw [cyclesLeft]
  split <;> decide

theorem Stops.fault {w : Word} {f : Fault} (h : (∃ t, f = .reservedOpcode t)
    ∨ (hasOperand w = true ∧ ∃ t, f = .dataOutOfRange t)) : Stops w (.fault f) := by
  obtain ⟨t, rfl⟩ | ⟨hoperand, t, rfl⟩ := h
  · exact .inl ⟨t, rfl⟩
  · exact .inr ⟨hoperand, t, rfl⟩

theorem lt_of_cyclesLeft {w : Word} {u : Nat} (h : cyclesLeft w u < 8) : u < 15 := by
  by_contra hge
  rw [cyclesLeft] at h
  split at h <;> rw [List.getD_eq_default _ _ (by simp only [List.length_cons, List.length_nil]; omega)] at h <;>
    exact absurd h (Nat.lt_irrefl 8)

theorem rbusStage_ne_refused {sel : RBus} {res : Option Word} {s : State} {e : Refusal} :
    rbusStage sel res s ≠ .refused e := fun h => by
  cases res with
  | none => cases sel <;> cases h
  | some v =>
    cases sel
    case reg =>
      simp only [rbusStage] at h
      split at h <;> cases h
    all_goals cases h

theorem memStage_ne_refused {sel : MemOp} {s : State} {e : Refusal} : memStage sel s ≠ .refused e := fun h => by
  cases sel <;> rw [memStage] at h
  case none => cases h
  case ifch => obtain ⟨-, hf⟩ | ⟨-, hf⟩ := fetchIr_cases s <;> rw [hf] at h <;> cases h
  case read => obtain ⟨-, hr⟩ | ⟨-, hr⟩ := memRead_cases s <;> rw [hr] at h <;> cases h
  case write => obtain ⟨-, hw⟩ | ⟨-, hw⟩ := memWrite_cases s <;> rw [hw] at h <;> cases h

theorem miscStage_ne_refused {sel : Misc} {s : State} {e : Refusal} : miscStage sel s ≠ .refused e := fun h => by
  cases sel <;> rw [miscStage] at h
  case decSp => obtain ⟨-, hd⟩ | ⟨-, hd⟩ := decSp_cases s <;> rw [hd] at h <;> cases h
  all_goals cases h

/-- A micro-cycle refuses nothing. -/
theorem dataStages_ne_refused {m : MicroInstr} {s : State} {e : Refusal} : dataStages m s ≠ .refused e := fun h => by
  rw [dataStages] at h
  cases hrbus : rbusStage m.rbus ((aluResult m s).map Prod.fst) (computed m s) with
  | refused _ => exact rbusStage_ne_refused hrbus
  | fault f => rw [hrbus] at h; cases h
  | next written =>
    rw [hrbus, andThen_next] at h
    cases hmem : memStage m.mem written with
    | refused _ => exact memStage_ne_refused hmem
    | fault f => rw [hmem] at h; cases h
    | next accessed =>
      rw [hmem, andThen_next] at h
      exact miscStage_ne_refused h

/-- A reserved word past its fetch stops within the micro-cycles left to it. -/
theorem run_reserved : ∀ (n : Nat) {s : State}, Codes.reference.opcodeDefined s.ir = false →
    cyclesLeft (classOf s.ir) s.upc.toNat < cyclesLeft (classOf s.ir) uFetch.toNat →
    cyclesLeft (classOf s.ir) s.upc.toNat < n → Stops s.ir (run n s)
  | 0, _, _, _, hn => absurd hn (Nat.not_lt_zero _)
  | n + 1, s, hdef, hleft, hn => by
    have haway : s.upc.toNat ≠ uFetch.toNat := fun h => absurd hleft (h ▸ Nat.lt_irrefl _)
    have hway := Nat.lt_trans hleft (cyclesLeft_fetch_lt _)
    obtain ⟨m, hm⟩ := exists_word (Nat.lt_trans (lt_of_cyclesLeft hway) (by decide))
    have hword := onTheWay hm hway
    rw [run_succ, microStep_eq hm]
    cases hdata : dataStages m (s.enter s.upc) with
    | refused e => exact absurd hdata dataStages_ne_refused
    | fault f => exact .fault (.inr (dataStages_reserved (s := s.enter s.upc) hword haway hdata))
    | next u =>
      have hir : u.ir = s.ir := dataStages_ir (s := s.enter s.upc) hdata fun h => haway (hword.fetch h)
      rw [andThen_next]
      obtain hstop | ⟨t, hnext, htir, hless⟩ := nextAddress_reserved (s := u) (hir ▸ hdef) (hir ▸ hword)
      · rw [hstop]
        exact .fault (.inl ⟨_, rfl⟩)
      · rw [hir] at htir hless
        rw [hnext, andThen_next, ← htir]
        rw [← htir] at hdef hleft hless hn
        exact run_reserved n hdef (Nat.lt_trans hless hleft) (by omega)

/-- Settles O27: the fetch leads a reserved word on the way to its dispatch, or dispatches it at once. -/
theorem reservedOpcodeStops : Obligations.ReservedOpcodeStops := by
  intro s n hupc hpc hdef hn
  obtain ⟨k, rfl⟩ : ∃ k, n = k + 1 := ⟨n - 1, by omega⟩
  have hfetch : fetchIr (s.enter uFetch) = .next { s.enter uFetch with ir := s.mem.read s.pc.toNat } :=
    if_neg (Nat.not_le.mpr hpc)
  have hstops : Stops (s.mem.read s.pc.toNat) (run (k + 1) s) := by
    rw [run_succ, microStep_fetch hupc, hfetch, andThen_next]
    generalize hv : s.mem.read s.pc.toNat = v at hdef
    have hword : OnTheWay uFetch.toNat fetchWord (classOf v) := onTheWay rfl (cyclesLeft_fetch_lt _)
    obtain hstop | ⟨t, hnext, htir, hless⟩ :=
      nextAddress_reserved (s := State.incPc { s.enter uFetch with ir := v }) hdef hword
    · rw [hstop]
      exact .fault (.inl ⟨_, rfl⟩)
    · have hir : t.ir = v := htir
      rw [hnext, andThen_next]
      have hbound : cyclesLeft (classOf v) uFetch.toNat ≤ k :=
        Nat.le_of_lt_succ (Nat.lt_of_lt_of_le (cyclesLeft_fetch_lt _) hn)
      subst hir
      exact run_reserved k hdef hless (Nat.lt_of_lt_of_le hless hbound)
  obtain hstop | ⟨hoperand, hstop⟩ := hstops
  · exact .inl hstop
  · refine .inr ⟨?_, hstop⟩
    simpa [hasOperand] using hoperand

end Sys2Proof.Proofs.ReservedWords
